-- ==== Sys2Proof/Word.lean ====
section
/-!
DEFINITION. The word types of the machine and their plainest arithmetic: 64-bit scalars, 512-bit vectors, bytes
(R150, R209), the sign extension and bit-field readers that every chapter of the spec uses.
-/
namespace Sys2Proof

/-- A byte of memory. -/
abbrev Byte := BitVec 8
/-- A 64-bit scalar (R209). -/
abbrev Word := BitVec 64
/-- A 32-bit slot word or header word (R203). -/
abbrev Word32 := BitVec 32
/-- A 512-bit vector value (R197, R209). -/
abbrev Vec := BitVec 512

/-- Bits `hi:lo` of a natural number, as a number. -/
def bits (n hi lo : Nat) : Nat := n / 2 ^ lo % 2 ^ (hi + 1 - lo)

/-- Bit `k` of a natural number. -/
def bit (n k : Nat) : Bool := n.testBit k

/-- `1` for true, `0` for false. -/
def Bool.toWord (b : Bool) : Word := if b then 1 else 0

/-- Rounding up: the least number of pages, records or words of size `d` that hold `n`. -/
def ceilDiv (n d : Nat) : Nat := (n + d - 1) / d

end Sys2Proof
end

