-- ==== Sys2Proof/Config.lean ====
section
/-!
DEFINITION. What an implementation fixes, and the free values: constants with no body, which no proof can look into.
A statement that meets one of them holds whatever its value is.
-/
namespace Sys2Proof.Config

/-- Enabled acres per compute die (R1): 68 of the 72 built. -/
abbrev acresPerDie : Nat := 68
/-- Built acres per compute die (R1). -/
abbrev builtPerDie : Nat := 72
/-- Carrel bank size in bytes (R97). -/
abbrev bankSize : Nat := 24576
/-- Page size in bytes (R119). -/
abbrev pageSize : Nat := 65536
/-- Physical carrel banks of a core (R1). -/
abbrev coreBanks : Nat := 16
/-- Records of a core's environment store (R1). -/
abbrev coreRecords : Nat := 256
/-- Local desk entries of a core (R2). -/
abbrev coreDesks : Nat := 64
/-- Activity slots of a core (R18). -/
abbrev coreSlots : Nat := 4
/-- Weight of a fresh region (R27). -/
abbrev rootWeight : Nat := 2147483648
/-- The grant of R28. -/
abbrev grant : Nat := 65536
/-- No home-hint core (R11). -/
abbrev noHint : Nat := 0x1FFF

/-- FREE VALUE: what byte number `i` of a granule reads as under another key or tweak than it was written under (R126,
R127: such data is unreadable): the reader's key and tweak, the writer's, the 64 bytes written, the byte's number. -/
opaque wrongKeyByte : Nat → Nat → Nat → Nat → List (BitVec 8) → Nat → BitVec 8
/-- FREE VALUE: the CXL port that serves a 64 KiB page of the tier (R124: an interleave of 1, 2 or 4 ports). -/
opaque cxlPort : Nat → Nat
/-- FREE VALUE: where the device would place the next loan of `n` pages (R125: the device chooses, and the choice is
visible only through LBASE). Its argument is the model's free-value counter. -/
opaque loanBase : Nat → Nat
/-- FREE VALUE: which free intermediate pages a loan takes first (R125). -/
opaque loanPage : Nat → Nat
/-- FREE VALUE: bytes of a saved image that R404 does not lay out, by function and position. -/
opaque imageByte : Nat → Nat → BitVec 8
/-- FREE VALUE: SHA-256 (FIPS 180), which the spec names and does not define (R429, R430). -/
opaque sha256 : List (BitVec 8) → List (BitVec 8)
/-- FREE VALUE: whether a signature of a message verifies under the key with the given hash (R429; FIPS 205). -/
opaque slhVerify : List (BitVec 8) → List (BitVec 8) → List (BitVec 8) → Bool
/-- FREE VALUE: the signature of a message by the device identity key (R430). -/
opaque slhSign : List (BitVec 8) → List (BitVec 8)
/-- FREE VALUE: ML-KEM-768 encapsulation of key number `k` to a public key (R431; FIPS 203). -/
opaque kemWrap : Nat → List (BitVec 8) → List (BitVec 8)
/-- FREE VALUE: the key number that a wrapped key decapsulates to (R431). -/
opaque kemUnwrap : List (BitVec 8) → Nat
/-- FREE VALUE: the ML-KEM public key of the part (R430). -/
opaque kemPublic : List (BitVec 8)
/-- FREE VALUE: the frame offset, divided by 8, at which a write-back saves the tag mask of a WTANY or WTALL wait (R16,
R21: in the header that the device alone interprets). -/
opaque maskPlace : Nat
/-- FREE VALUE: the general free values, one per number. -/
opaque freeWord : Nat → BitVec 64

end Sys2Proof.Config
end

