-- ==== Sys2Proof/Syntax.lean ====
section
/-!
DEFINITION. The instructions of Yaldan 2: every row of spec/opcode_table.json is one constructor of `Instr`. The 120
slot instructions carry the fields of their form (R225); the 72 device events carry the operands that say which
instance of the event happens. The prefix word (7Fh, R229) is no row: it is part of the vector instruction after it
and has its own structure `Pfx`.
-/
namespace Sys2Proof

/-! ### Names used by the fields -/

/-- The predicate of a slot that is not a test (R211): none, `p` must be 1, `p` must be 0. -/
inductive Pm where | always | ifTrue | ifFalse
deriving DecidableEq, Repr, Inhabited

/-- The combine type of a test (R212). -/
inductive Combine where | sole | ift | iff | gate | all | any | alln | anyn
deriving DecidableEq, Repr, Inhabited

/-- An operand of a slot (R208). -/
inductive Opnd where | l | r | p | x
deriving DecidableEq, Repr, Inhabited

/-- A target field (R208): an operand of a slot. -/
structure Target where
  slot : BitVec 7
  opnd : Opnd
deriving DecidableEq, Repr, Inhabited

/-- A target field or 1FFh, no target. -/
abbrev Tgt := Option Target

/-- Register classes of RD, WR and XRD (R230). -/
inductive Cls where | s | v | m | c
deriving DecidableEq, Repr, Inhabited

/-- Access types of forms L and S (R226). -/
inductive Ty where | i8 | n8 | i16 | n16 | i32 | n32 | w64
deriving DecidableEq, Repr, Inhabited

/-- Element types of the vector instructions (R227). -/
inductive ETy where | i8 | n8 | i16 | n16 | i32 | n32 | i64 | n64 | bf16 | f16 | f32 | e4m3 | e5m2 | q4n
deriving DecidableEq, Repr, Inhabited

/-- Rounding codes (R156). -/
inductive Rnd where | rne | rtz | rdn | rup | rna | rs
deriving DecidableEq, Repr, Inhabited

/-- MULH variants (R259). -/
inductive MulhKind where | ss | nn | sn
deriving DecidableEq, Repr, Inhabited

/-- DIV and REM variants (R260). -/
inductive DivKind where | s64 | n64 | s32 | n32
deriving DecidableEq, Repr, Inhabited

/-- Shift kinds of SHI (R239) and VSHIFT (R316). -/
inductive ShKind where | shl | shr | sha
deriving DecidableEq, Repr, Inhabited

/-- EXT variants (R263). -/
inductive ExtKind where | i8 | n8 | i16 | n16 | i32 | n32
deriving DecidableEq, Repr, Inhabited

/-- CNT variants (R267). -/
inductive CntKind where | pop | lz | tz | brev
deriving DecidableEq, Repr, Inhabited

/-- Conditions of TEST (R269); TESTI has the first eight (R270). -/
inductive Cond where | eq | ne | lt | ge | ltu | geu | le | gt | leu | gtu | bitset | bitclr
deriving DecidableEq, Repr, Inhabited

/-- Conditions of FTEST (R271). -/
inductive FCond where | eq | ne | lt | le | unord | ord | gt | ge
deriving DecidableEq, Repr, Inhabited

/-- The conversions of FCVT (R167). -/
inductive CvtKind where
  | f32f64 | f64f32 | i64f32 | n64f32 | i64f64 | n64f64 | f32i64 | f32n64 | f64i64 | f64n64
  | f32f16 | f16f32 | f32bf16 | bf16f32
deriving DecidableEq, Repr, Inhabited

/-- The operations of AMO (R281). -/
inductive AmoOp where | add | min | max | nmin | nmax | swap | and | or
deriving DecidableEq, Repr, Inhabited

/-- The fields LBASE reads (R103). -/
inductive LField where | base | len | tier
deriving DecidableEq, Repr, Inhabited

/-- Gang shapes named by GANG (R300). -/
inductive Shape where | quad | acre
deriving DecidableEq, Repr, Inhabited

/-- Combine codes of GATHER (R62). -/
inductive GOp where | add | min | max | and | or | xor | count
deriving DecidableEq, Repr, Inhabited

/-- What CPUT writes (R81). -/
inductive PutMode where | val | ref | vec
deriving DecidableEq, Repr, Inhabited

/-- Fusion modes (R179). -/
inductive Fuse where | sep | kfuse | nfuse | full
deriving DecidableEq, Repr, Inhabited

/-- What TLBINV removes (R328). -/
inductive TlbKind where | addr | vf | all
deriving DecidableEq, Repr, Inhabited

/-- RESUME modes (R331). -/
inductive ResumeMode where | retry | kill | next
deriving DecidableEq, Repr, Inhabited

/-- Conditions of VCMP (R314). -/
inductive VCond where | eq | ne | lt | le | gt | ge | unord | ord
deriving DecidableEq, Repr, Inhabited

/-- Functions of VLOGIC (R315). -/
inductive VLog where | and | or | xor | andn | not | select
deriving DecidableEq, Repr, Inhabited

/-- Addressing modes of VLD and VST (R318). -/
inductive VMode where | unit | strided | indexed | bcast
deriving DecidableEq, Repr, Inhabited

/-- Functions of VRED (R320). -/
inductive VRedFn where | sum | min | max | and | or | dot | first | count
deriving DecidableEq, Repr, Inhabited

/-- Functions of VPERM (R321). -/
inductive VPermFn where | perm | bcast | sup | sdn | iota | comp | exp | ext
deriving DecidableEq, Repr, Inhabited

/-- Functions of VSPEC (R322). -/
inductive Spec where | exp2 | log2 | rcp | rsqrt | sqrt | tanh | sigmoid | erf
deriving DecidableEq, Repr, Inhabited

/-- The prefix word of a vector instruction (R229). -/
structure Pfx where
  mask : BitVec 3
  rnd  : Rnd
  zp   : Bool
  sat  : Bool
  acc  : Bool
  tile : BitVec 3
  frag : BitVec 8
deriving DecidableEq, Repr, Inhabited

/-! ### Names used by the events -/

/-- An activity or gang member: its function (0 physical, 1-16 virtual, R386) and its serial (R9). -/
structure Aid where
  fn     : Nat
  serial : Nat
deriving DecidableEq, Repr, Inhabited

/-- A host window message's sender (a fabric device number, R407) and the function whose window it names. -/
structure HostReq where
  host : Nat
  fn   : Nat
deriving DecidableEq, Repr, Inhabited

/-- Why a tenant is pre-empted (R355, R370 type 02h). -/
inductive PreReason where | sliceEnd | hypervisor | restoreElsewhere
deriving DecidableEq, Repr, Inhabited

/-- A detected hardware error's place (R362, R371, R425, R426): data of an activity's carrel byte, an activity's
context, a record of a core's environment store, a physical memory granule, or a place that nothing contains. -/
inductive ErrLoc where
  | carrel (a : Aid) (off : Nat)
  | register (a : Aid) (cls : Cls) (n : Nat)
  | envRecord (core index : Nat)
  | tile (a : Aid) (tile row col : Nat)
  | context (a : Aid)
  | memory (key : Nat)
  | other (loc : Nat)
deriving DecidableEq, Repr, Inhabited

/-- What a firmware image presents to the boot ROM (R429): the stages in order, each with its bytes, its signature
and the number of the public-key hash fuse it names. -/
structure FwStage where
  bytes : List Byte
  sig   : List Byte
  fuse  : Nat
deriving DecidableEq, Repr, Inhabited

/-- An attestation report (R430). -/
structure Report where
  nonce    : List Byte
  measure  : List (List Byte)
  records  : List Byte
  kemKey   : List Byte
  sig      : List Byte
deriving DecidableEq, Repr, Inhabited

/-- What a bring-up meets (R432): host nodes of record 0 and the record's addresses as the management controller gives
them, the time of the first lock, and the number of the first of the steps 1 and 3 to 6 that fails, if one does. -/
structure BootCfg where
  vfbase : Nat
  record : List Byte
  time   : Nat
  failed : Option Nat
deriving DecidableEq, Repr, Inhabited

/-- What a kill acts on (R330, R349, R365): a launch queue, or the tree of a region. -/
inductive KillTarget where
  | queue (fn q : Nat)
  | tree (fn region : Nat)
deriving DecidableEq, Repr, Inhabited

/-- Why a slot word is no instruction (R228, R244): its opcode is unassigned, its predicate code is not allowed, a
field has an unlisted value, a target is named where none is allowed, or it is a prefix. -/
inductive Refuse where | opcode | predicate | field | target | pfx
deriving DecidableEq, Repr, Inhabited

/-- The instructions and device events of spec/opcode_table.json. -/
inductive Instr where
  -- registers, constants and exits (R248 to R256)
  | rd (cls : Cls) (reg : BitVec 5) (t1 t2 : Tgt)
  | wr (cls : Cls) (reg : BitVec 5)
  | mov (pm : Pm) (t1 t2 : Tgt)
  | null (pm : Pm) (t1 t2 : Tgt)
  | geni (pm : Pm) (imm : BitVec 13) (t1 : Tgt)
  | genu (pm : Pm) (imm : BitVec 13) (t1 : Tgt)
  | genc (pm : Pm) (imm : BitVec 13) (t1 : Tgt)
  | br (pm : Pm) (ex : BitVec 3) (off : BitVec 19)
  | bri (pm : Pm) (ex : BitVec 3)
  | call (pm : Pm) (ex : BitVec 3) (off : BitVec 19)
  | ret (pm : Pm) (ex : BitVec 3)
  | trap (pm : Pm) (num : BitVec 13)
  -- integer arithmetic and logic (R257 to R268)
  | add (pm : Pm) (w32 : Bool) (t1 t2 : Tgt)
  | sub (pm : Pm) (w32 : Bool) (t1 t2 : Tgt)
  | addi (pm : Pm) (imm : BitVec 13) (t1 : Tgt)
  | mul (pm : Pm) (w32 : Bool) (t1 t2 : Tgt)
  | mulh (pm : Pm) (kind : MulhKind) (t1 t2 : Tgt)
  | div (pm : Pm) (kind : DivKind) (t1 t2 : Tgt)
  | rem (pm : Pm) (kind : DivKind) (t1 t2 : Tgt)
  | and (pm : Pm) (w32 : Bool) (t1 t2 : Tgt)
  | or (pm : Pm) (w32 : Bool) (t1 t2 : Tgt)
  | xor (pm : Pm) (w32 : Bool) (t1 t2 : Tgt)
  | andi (pm : Pm) (imm : BitVec 13) (t1 : Tgt)
  | ori (pm : Pm) (imm : BitVec 13) (t1 : Tgt)
  | shl (pm : Pm) (w32 : Bool) (t1 t2 : Tgt)
  | shr (pm : Pm) (w32 : Bool) (t1 t2 : Tgt)
  | sha (pm : Pm) (w32 : Bool) (t1 t2 : Tgt)
  | shi (pm : Pm) (kind : ShKind) (w32 : Bool) (amount : BitVec 6) (t1 : Tgt)
  | min (pm : Pm) (w32 uns : Bool) (t1 t2 : Tgt)
  | max (pm : Pm) (w32 uns : Bool) (t1 t2 : Tgt)
  | ext (pm : Pm) (kind : ExtKind) (t1 t2 : Tgt)
  | bfx (pm : Pm) (w32 sign : Bool) (t1 t2 : Tgt)
  | bfi (pm : Pm) (w32 : Bool) (t1 t2 : Tgt)
  | cnt (pm : Pm) (w32 : Bool) (kind : CntKind) (t1 t2 : Tgt)
  | sel (pm : Pm) (t1 t2 : Tgt)
  -- tests and scalar floating point (R269 to R276)
  | test (ct : Combine) (cond : Cond) (t1 t2 : Tgt)
  | testi (ct : Combine) (cond : Cond) (imm : BitVec 10) (t1 : Tgt)
  | ftest (ct : Combine) (f64 : Bool) (cond : FCond) (t1 t2 : Tgt)
  | fadd (pm : Pm) (f64 : Bool) (rnd : Rnd) (t1 t2 : Tgt)
  | fsub (pm : Pm) (f64 : Bool) (rnd : Rnd) (t1 t2 : Tgt)
  | fmul (pm : Pm) (f64 : Bool) (rnd : Rnd) (t1 t2 : Tgt)
  | fma (pm : Pm) (f64 : Bool) (rnd : Rnd) (t1 t2 : Tgt)
  | fdiv (pm : Pm) (f64 : Bool) (rnd : Rnd) (t1 t2 : Tgt)
  | fsqrt (pm : Pm) (f64 : Bool) (rnd : Rnd) (t1 t2 : Tgt)
  | fmm (pm : Pm) (f64 max : Bool) (t1 t2 : Tgt)
  | fcvt (pm : Pm) (kind : CvtKind) (t1 t2 : Tgt)
  -- carrel memory (R279 to R282)
  | ld (pm : Pm) (lsid : BitVec 5) (ty : Ty) (imm : BitVec 5) (t1 : Tgt)
  | st (pm : Pm) (lsid : BitVec 5) (ty : Ty) (imm : BitVec 5)
  | pld (pm : Pm) (lsid : BitVec 5) (ty : Ty) (imm : BitVec 5) (t1 : Tgt)
  | pst (pm : Pm) (lsid : BitVec 5) (ty : Ty) (imm : BitVec 5)
  | amo (pm : Pm) (lsid : BitVec 5) (op : AmoOp) (imm : BitVec 5) (t1 : Tgt)
  | cas (pm : Pm) (lsid : BitVec 5) (ty : Ty) (imm : BitVec 5) (t1 : Tgt)
  -- copy commands, tags, bank formats (R283 to R289)
  | cin (pm : Pm) (tag : BitVec 6) (clo : Option (BitVec 3)) (t1 : Tgt)
  | cout (pm : Pm) (tag : BitVec 6) (clo : Option (BitVec 3)) (t1 : Tgt)
  | cgath (pm : Pm) (tag : BitVec 6) (clo : Option (BitVec 3)) (t1 : Tgt)
  | cscat (pm : Pm) (tag : BitVec 6) (clo : Option (BitVec 3)) (t1 : Tgt)
  | cbank (pm : Pm) (tag : BitVec 6) (clo : Option (BitVec 3)) (t1 : Tgt)
  | cfill (pm : Pm) (tag : BitVec 6) (clo : Option (BitVec 3)) (t1 : Tgt)
  | wtany (pm : Pm) (ex : BitVec 3) (off : BitVec 19)
  | wtall (pm : Pm) (ex : BitVec 3) (off : BitVec 19)
  | tagff (pm : Pm) (clr : Bool) (t1 t2 : Tgt)
  | tagclr (pm : Pm) (t1 t2 : Tgt)
  | wcnt (pm : Pm) (ex : BitVec 3) (off : BitVec 19)
  | bfmt (pm : Pm) (bank fmt : BitVec 4) (t1 : Tgt)
  -- ownership (R290 to R294)
  | palloc (pm : Pm) (cxl : Bool) (k : BitVec 3) (t1 : Tgt)
  | pfree (pm : Pm) (k : BitVec 3) (t1 : Tgt)
  | lsplit (pm : Pm) (k : BitVec 3) (t1 : Tgt)
  | lgive (pm : Pm) (k : BitVec 3) (t1 : Tgt)
  | seal (pm : Pm) (k : BitVec 3) (t1 : Tgt)
  | unseal (pm : Pm) (ex : BitVec 3) (k : BitVec 3) (off : BitVec 16)
  | shopen (pm : Pm) (t1 t2 : Tgt)
  | shclose (pm : Pm) (t1 t2 : Tgt)
  | lbase (pm : Pm) (field : LField) (shelf : Bool) (k : BitVec 3) (t1 : Tgt)
  -- activities and meetings (R295 to R304)
  | spawn (pm : Pm) (share region : Bool) (banks : BitVec 4) (c : BitVec 3) (t1 : Tgt)
  | retire (pm : Pm) (ex : BitVec 3)
  | yield (pm : Pm) (ex : BitVec 3) (off : BitVec 16)
  | sleep (pm : Pm) (ex : BitVec 3) (off : BitVec 16)
  | gang (pm : Pm) (ex : BitVec 3) (shape : Shape) (off : BitVec 16)
  | split (pm : Pm) (ex : BitVec 3) (off : BitVec 16)
  | meet (pm : Pm) (ex : BitVec 3) (off : BitVec 16)
  | gather (pm : Pm) (ex : BitVec 3) (op : GOp) (off : BitVec 16)
  | part (pm : Pm) (ex : BitVec 3) (off : BitVec 16)
  | xrd (pm : Pm) (cls : Cls) (t1 t2 : Tgt)
  -- closures (R305 to R310)
  | cenv (pm : Pm) (t1 : Tgt)
  | cput (pm : Pm) (mode : PutMode) (w : BitVec 5) (t1 : Tgt)
  | cdrop (c : BitVec 3)
  | envrd (pm : Pm) (lsid : BitVec 5) (ty : Ty) (w : BitVec 5) (t1 : Tgt)
  | envwr (pm : Pm) (lsid : BitVec 5) (ty : Ty) (w : BitVec 5)
  | apply (pm : Pm) (ex : BitVec 3) (c : BitVec 3)
  | vapply (pm : Pm) (ex : BitVec 3) (m : BitVec 3) (off : BitVec 16)
  -- matrix commands (R323 to R325)
  | mfuse (pm : Pm) (mode : Fuse) (t1 : Tgt)
  | mwload (pm : Pm) (sparse : Bool) (t1 : Tgt)
  | mwswap (pm : Pm) (t1 : Tgt)
  | mstream (pm : Pm) (zb ow : Bool) (tile : BitVec 3) (t1 : Tgt)
  | mstore (pm : Pm) (tile : BitVec 3) (t1 : Tgt)
  | mrel (pm : Pm) (mask : BitVec 8) (t1 : Tgt)
  | mwait (pm : Pm) (t1 t2 : Tgt)
  | mldacc (pm : Pm) (i32 : Bool) (tile : BitVec 3) (t1 : Tgt)
  -- system instructions (R326 to R332)
  | srd (pm : Pm) (num : BitVec 13) (t1 : Tgt)
  | swr (pm : Pm) (num : BitVec 13) (t1 : Tgt)
  | tlbinv (pm : Pm) (kind : TlbKind) (t1 t2 : Tgt)
  | scrub (pm : Pm) (t1 : Tgt)
  | killq (pm : Pm) (t1 t2 : Tgt)
  | resume (pm : Pm) (mode : ResumeMode) (t1 t2 : Tgt)
  | hcall (pm : Pm) (ex : BitVec 3) (off : BitVec 16)
  -- vector instructions (R311 to R322)
  | vadd (pm : Pm) (ty : ETy) (t1 t2 : Tgt)
  | vsub (pm : Pm) (ty : ETy) (t1 t2 : Tgt)
  | vmul (pm : Pm) (ty : ETy) (t1 t2 : Tgt)
  | vfma (pm : Pm) (ty : ETy) (t1 t2 : Tgt)
  | vmin (pm : Pm) (ty : ETy) (t1 t2 : Tgt)
  | vmax (pm : Pm) (ty : ETy) (t1 t2 : Tgt)
  | vcmp (pm : Pm) (ty : ETy) (cond : VCond) (t1 : Tgt)
  | vlogic (pm : Pm) (ty : ETy) (fn : VLog) (t1 : Tgt)
  | vshift (pm : Pm) (ty : ETy) (kind : ShKind) (var : Bool) (amount : BitVec 6) (t1 : Tgt)
  | vcvt (pm : Pm) (src dst : ETy) (part : BitVec 2) (t1 : Tgt)
  | vld (pm : Pm) (lsid : BitVec 5) (ty : ETy) (mode : VMode) (t1 : Tgt)
  | vst (pm : Pm) (lsid : BitVec 5) (ty : ETy) (mode : VMode)
  | vred (pm : Pm) (ty : ETy) (fn : VRedFn) (t1 : Tgt)
  | vperm (pm : Pm) (ty : ETy) (fn : VPermFn) (s : BitVec 6) (t1 : Tgt)
  | vspec (pm : Pm) (ty : ETy) (fn : Spec) (t1 : Tgt)
  -- device events: blocks, engines, activities
  | blockStart (a : Aid)
  | blockCommit (a : Aid)
  | blockFault (a : Aid)
  | copyComplete (a : Aid) (tag : Nat)
  | translationWalk (fn acre va : Nat)
  | matrixCommandStart (a : Aid) (idx : Nat) (early : Bool)
  | matrixCommandComplete (a : Aid) (idx : Nat)
  | launch (fn q : Nat)
  | dispatch (die : Nat)
  | writeBack (a : Aid)
  | priorityAging (a : Aid)
  | gangReservation (a : Aid)
  | retireEffect (a : Aid)
  | killFinish (k : KillTarget)
  | sleepDeadline (a : Aid)
  -- desks and meetings
  | meetArrival (msg : Nat)
  | gatherArrival (msg : Nat)
  | meetExpiry (fn : Nat) (key : Word)
  | gatherExpiry (fn : Nat) (key : Word) (party : Aid)
  | deskKill (msg : Nat)
  | pairPlacement (fn : Nat) (key : Word)
  | travelArrival (meeting : Nat)
  | landingNotice (msg : Nat)
  | partLanding (a : Aid)
  -- pre-emption, slices, schedule, function records
  | preemptionRequest (fn : Nat) (why : PreReason)
  | preemptAbortDeadline (fn : Nat)
  | preemptSave (fn : Nat)
  | sliceEnd (group : Nat)
  | scheduleLaunch (entry : Nat)
  | vfCommit (v : Nat)
  | vfCommitDone (v : Nat)
  | vfSave (v : Nat)
  | vfRestore (v : Nat)
  | scrubClearDone
  -- host windows
  | doorbell (h : HostReq) (q value : Nat)
  | loanAllocate (h : HostReq) (word : Word)
  | loanFree (h : HostReq) (word : Word)
  | podCatalogueWrite (h : HostReq) (entry : Nat) (value : Word)
  | hostWindowWrite (h : HostReq) (off : Nat) (data : List Byte)
  | hostWindowRead (h : HostReq) (off len : Nat)
  -- fabric
  | flitReceive (link : Nat) (flit : List Byte)
  | linkReplay (link seq : Nat)
  | laneRetrainCommand (link : Nat)
  | endToEndAck (dst seq : Nat)
  | messageRetry (dst seq link : Nat)
  | ptpMessage (time : Nat)
  | cxlPortDown (port : Nat)
  -- power, reliability, boot
  | powerMeasure (otherDraw : Nat) (demand : List (Nat × Nat))
  | coreGate (core : Nat)
  | droop (acre : Nat)
  | thermalEvent (sensor milliC : Nat)
  | thermalThrottleStep (acre : Nat)
  | fatalError (unit loc : Nat)
  | correctedError (unit : Nat) (loc : ErrLoc) (wholeDevice : Bool)
  | uncorrectedError (unit : Nat) (loc : ErrLoc)
  | regulatorPhaseFail (acre phase : Nat)
  | patrolScrub
  | patrolScrubEnable
  | patrolScrubDisable
  | coldReset (cfg : BootCfg)
  | warmReset (cfg : BootCfg)
  | firmwareImage (stages : List FwStage)
  | attestationRequest (nonce : List Byte)
  | keyExport (v : Nat) (report : Report)
  | keyImport (slot : Nat) (blob : List Byte)
  | keyImportExpiry (slot : Nat)
  | blackboxRead (ring index : Nat)
  | blackboxUnfreeze
  -- events that end one of the above
  | linkRetrainDone (link : Nat) (lanesGood : Nat)
  | droopRecovery (acre stretched : Nat)
  | cxlPortUp (port : Nat)
  | pageRetirementDone (page : Nat)
deriving DecidableEq, Repr

end Sys2Proof
end

