-- ==== Sys2Proof/Machine/State.lean ====
section
/-!
DEFINITION. The state of a Yaldan 2 part, whole: activities and gangs, cores and their environment stores, desks and
meetings, functions with their region tables, loans, shelves and queues, physical memory, the matrix arrays, the
fabric, power, reliability and security state, and the model's own scheduling data. Everything is plain data.
-/
namespace Sys2Proof.Machine

/-! ### Tokens, handles, environments -/

/-- The kind of a handle (R74). -/
inductive HKind where | empty | store | spilled | bare
deriving DecidableEq, Repr, Inhabited

/-- A 64-bit handle, field by field (R74). -/
structure Handle where
  kind  : HKind
  gen   : BitVec 12
  index : BitVec 8
  entry : BitVec 42
deriving DecidableEq, Repr, Inhabited

/-- The empty handle, reset value of every C register (R74). -/
def Handle.none : Handle := ⟨.empty, 0, 0, 0⟩

/-- A token (R209): a vector carries a null mark for each of its 64 bytes; a lane is null when one of its bytes is. -/
inductive Token where
  | scalar (w : Word)
  | vector (v : Vec) (nulls : BitVec 64)
  | handle (h : Handle)
  | null
deriving DecidableEq, Repr, Inhabited

/-- An environment (R76): owner, count, word count, the two-bit kind of each word and the words. `reserver` names the
activity whose uncommitted CENV holds it; `lastUse` orders the victims of R86; `bad` holds the records of it, counted
from its first, with a detected uncorrectable error (R362, R426). -/
structure Env where
  owner    : Nat
  count    : Nat
  words    : Nat
  kinds    : List Nat
  vals     : List Word
  lastUse  : Nat
  reserver : Option Aid
  bad      : List Nat
deriving DecidableEq, Repr, Inhabited

/-! ### Activities -/

/-- A loan register (R102); base and length in 64 KiB pages of tenant virtual address space. `owner` is the function in
whose address space the shelf lies: another than the holder's once a sealed register was given across functions (R68). -/
inductive LReg where
  | empty
  | loan (base pages : Nat) (cxl : Bool)
  | sealed (base pages : Nat) (cxl : Bool) (id owner : Nat)
deriving DecidableEq, Repr, Inhabited

/-- What a VAPPLY entry of the apply stack adds (R88): target, the closures still to run with their snapshot
handles, each participating lane's choice, and M7 before the VAPPLY. -/
structure VTurns where
  target    : Nat
  remaining : List (Nat × Handle)
  choices   : List (Option Nat)
  savedM7   : Word
  badM7     : Bool
deriving DecidableEq, Repr, Inhabited

/-- An apply-stack entry (R88); `call` marks one that CALL pushed, which holds no reference of its own (R83). -/
structure Frame where
  call    : Bool
  ret     : Nat
  env     : Handle
  prevgen : Nat
  turns   : Option VTurns
deriving DecidableEq, Repr, Inhabited

/-- The causes of R361, in the order of their codes 1 to 32. -/
inductive Cause where
  | illegalEncoding | illegalEntry | collision | multipleExit | missingExit | incomplete | repeatCount
  | translation1 | translation2 | loanRights | carrelRights | misalignment | bankFormat | shape | tagBusy | luggage
  | meetingState | danglingFrame | environmentWord | refcount | applyStack | environmentBudget | weight
  | gangDivergence | tilesLive | strictCode | recordIntegrity | regionState | privilege | dataError | trap | hcall
deriving DecidableEq, Repr, Inhabited

/-- A fault as a slot raises it: cause and detail words (R361). -/
structure Flt where
  cause : Cause
  a     : Word
  b     : Word
deriving DecidableEq, Repr, Inhabited

/-- A fault record (R360) and the block at which the activity stopped. -/
structure FaultRec where
  block  : Nat
  cause  : Cause
  slot   : Nat
  member : Nat
  origin : Nat
  serial : Nat
  a      : Word
  b      : Word
deriving DecidableEq, Repr, Inhabited

/-- The states of R10. `retired` is never held: a retired activity is gone, and its last record stands in its pool
(`Func.spent`, R14). -/
inductive Run where | ready | running | waiting | faulted
deriving DecidableEq, Repr, Inhabited

/-- Wait kinds (R16). -/
inductive WKind where
  | none | meet | gather | part | wtany | wtall | wcnt | sleep | yield | unseal | gang | split
deriving DecidableEq, Repr, Inhabited

/-- Where a ready activity waits for dispatch (R22): in no queue, in its region's ready queue, or in the region's ready
overflow chain. -/
inductive Queued where | no | queue | chain
deriving DecidableEq, Repr, Inhabited

/-- How control passed to the block at `resume` (R206, R207): already checked, or to be checked at the first
dispatch. -/
inductive Entry where
  | checked
  | launch
  | closure (words : Nat)
  | handler
deriving DecidableEq, Repr, Inhabited

/-- A shape record (R112), field by field as its words give them. -/
structure ShapeRec where
  words : List Word
deriving DecidableEq, Repr, Inhabited

/-- The completion closure of a copy command (R93, R284): the entry, the child's copy of the environment, the weight
taken at issue, the record reserved for the child. -/
structure Child where
  entry  : BitVec 42
  env    : Option Env
  weight : Nat
  recAt  : Nat
deriving DecidableEq, Repr, Inhabited

/-- The six copy commands (R283). -/
inductive CopyKind where | cin | cout | cgath | cscat | cbank | cfill
deriving DecidableEq, Repr, Inhabited

/-- A copy command in flight (R111 to R117): its issue number, shape, index list, the carrel-side format (for CBANK
source and destination formats), the elements already moved, and the first failure. -/
structure Copy where
  kind   : CopyKind
  tag    : Nat
  seq    : Nat
  shape  : ShapeRec
  index  : List Nat
  fmtA   : Nat
  fmtB   : Nat
  moved  : List Nat
  failed : Option (Nat × Nat)
  child  : Option Child
deriving DecidableEq, Repr, Inhabited

/-- A reserved Q4N scale code met by a CBANK (R285, R165): the tag, the offset and the reserved bits. -/
structure StrictHit where
  tag : Nat
  off : Nat
  val : Word
deriving DecidableEq, Repr, Inhabited

/-- How the partner left a meeting (R55). -/
inductive Left where | present | parted | killed
deriving DecidableEq, Repr, Inhabited

/-- A register snapshot (R51), with the registers that held a detected error when it was taken (R362). -/
structure Snap where
  s   : Vector Word 32
  v   : Vector Vec 32
  m   : Vector Word 8
  c   : Vector Handle 8
  bad : List (Cls × Nat)
deriving DecidableEq, Repr, Inhabited

/-- A party's side of a meeting in progress (R46 to R55). `lugFirst`, `lugCount` and `lugRo` are its own luggage
descriptor; `parting` the number of the partner's execution that its PART waits for. -/
structure MeetSt where
  partner  : Aid
  first    : Bool
  lugFirst : Nat
  lugCount : Nat
  lugRo    : Bool
  begun    : Bool
  left     : Left
  parting  : Option Nat
  snap     : Snap
deriving DecidableEq, Repr, Inhabited

/-! ### Executions of blocks -/

/-- Whether a slot has fired (R211 to R217). `pending` has fired and sends its token later (SCRUB, R329). -/
inductive Fired where
  | notYet
  | done
  | nulled
  | pending
  | faulted (f : Flt)
deriving DecidableEq, Repr, Inhabited

/-- The exit that a slot fired, with what it captured (R221). -/
inductive Exit where
  | branch (target : Nat)
  | indirect (target : Nat)
  | call (target : Nat)
  | ret
  | retire
  | apply (c : Nat)
  | vapply (m : Nat) (choice : Token) (target : Nat)
  | wtany (mask : Word) (target : Nat)
  | wtall (mask : Word) (target : Nat)
  | wcnt (thr : Word) (target : Nat)
  | unseal (k target : Nat)
  | yield (target : Nat)
  | sleep (dur : Word) (target : Nat)
  | gang (shape : Shape) (target : Nat)
  | split (target : Nat)
  | meet (key lug tmo : Word) (target : Nat)
  | gather (op : GOp) (key arity : Word) (contrib : Token) (tmo : Nat) (target : Nat)
  | part (target : Nat)
  | hcall (arg : Word) (target : Nat)
deriving DecidableEq, Repr, Inhabited

/-- The matrix commands (R182). -/
inductive MKind where
  | mfuse (mode : Fuse)
  | mwload (sparse : Bool)
  | mwswap
  | mstream (zb ow : Bool) (tile : Nat)
  | mstore (tile : Nat)
  | mrel (mask : Nat)
  | mldacc (i32 : Bool) (tile : Nat)
deriving DecidableEq, Repr, Inhabited

/-- What a fired slot will do at the commit (R216), with the reservations it made when it fired (R277). -/
inductive Effect where
  | none
  | write (cls : Cls) (n : Nat) (t : Token)
  | store (partner : Bool) (data : List (Nat × Byte))
  | exit (e : Exit)
  | trap (num : Nat)
  | copy (kind : CopyKind) (tag : Nat) (clo : Option Nat) (shape : Nat)
  | tagClear (mask : Word)
  | bfmt (bank fmt : Nat)
  | palloc (k base pages : Nat) (cxl : Bool) (ipas : List Nat)
  | pfree (k : Nat)
  | lsplit (k head tail : Nat)
  | lgive (k : Nat)
  | seal (k id : Nat)
  | shopen (slot id : Nat)
  | shclose (slot : Nat)
  | spawn (c banks child : Nat) (share : Option Word) (image : Option Word)
  | cenv (h : Handle) (words : Nat)
  | cput (h : Handle) (cells : List (Nat × Nat × Word))
  | cdrop (c : Nat)
  | matrix (k : MKind) (shape : Option Nat)
  | swr (num : Nat) (val : Word)
  | killq (vf q : Nat)
  | resume (target : Aid) (mode : ResumeMode) (patch : Option (Nat × Word))
deriving DecidableEq, Repr, Inhabited

/-- A slot of an execution: the tokens that have arrived (operand, sending slot, token; in order of arrival), whether
it has fired, what it read from memory and what it will do. -/
structure SlotSt where
  ins    : List (Opnd × Nat × Token)
  status : Fired
  reads  : List (Nat × Byte)
  eff    : Effect
deriving DecidableEq, Repr, Inhabited

/-- A block in flight: its number, its address and words as fetched, and its slots. `start` is the time at which the
execution started. -/
structure Flight where
  seq   : Nat
  addr  : Nat
  hdr   : List Word32
  words : List Word32
  slots : List SlotSt
  start : Nat
deriving DecidableEq, Repr, Inhabited

/-- A core and slot (R18). -/
structure Place where
  core : Nat
  slot : Nat
deriving DecidableEq, Repr, Inhabited

/-- An activity or a gang member (R8 to R20). `behind` is the core at which a party that travelled left banks, and how
many, `framed` how many of its banks its spill frame holds since (R49); `rep` is N and i of a repeating block (R223);
`gang` the lead's serial and the member number; `handler` the region whose domain a handler was spawned for; `trap` a
trap still to be raised (number, block, slot); `record` the words of the continuation record as last written, `recAt`
its address in the root's pool, `link` the record that follows it in the overflow chain (R11, R22); `frame` the spill
frame's pages; `bad` the places of detected uncorrectable errors (R362); `reshape` the gang shape that a saved or
waiting gang will take; `unsolved` a fault whose resolution waits for a restore (R368). -/
structure Act where
  id       : Aid
  region   : Nat
  run      : Run
  retiring : Bool
  prio     : Nat
  readyAt  : Nat
  readySeq : Nat
  weight   : Nat
  hint     : Nat
  place    : Option Place
  saved    : Bool
  resume   : Nat
  entry    : Entry
  s        : Vector Word 32
  v        : Vector Vec 32
  m        : Vector Word 8
  c        : Vector Handle 8
  l        : Vector LReg 8
  sh       : Vector (Option Nat) 8
  stack    : List Frame
  env      : Handle
  gen      : Nat
  frameCtr : Nat
  lives    : BitVec 32
  livev    : BitVec 32
  livem    : BitVec 8
  livec    : BitVec 8
  tags     : Word
  tagerr   : Word
  tagwhy   : List (Nat × Word)
  copies   : List Copy
  strict   : List StrictHit
  seed     : Word
  banks    : Nat
  fmts     : Vector (BitVec 4) 16
  carrel   : List Host.Cell
  wkind    : WKind
  wop      : Nat
  wmask    : Word
  waitFrom : Nat
  meet     : Option MeetSt
  behind   : Option (Nat × Nat)
  framed   : Nat
  gang     : Option (Nat × Nat)
  flight   : Option Flight
  rep      : Option (Nat × Nat)
  flt      : List Word
  fault    : Option FaultRec
  handler  : Option Nat
  trap     : Option (Nat × Nat × Nat)
  record   : List Word
  recAt    : Nat
  queued   : Queued
  link     : Nat
  frame    : List Nat
  frameEnv : List Env
  bad      : List ErrLoc
  reshape  : Option Shape
  unsolved : Bool
  attempts : Nat
  retryAt  : Nat
deriving DecidableEq, Repr, Inhabited

/-! ### Gangs and matrix arrays -/

/-- An element of a stationary plane (R178, R185, R186): its bits in the plane format, and for Q4N its block scale
and superscale. -/
structure PCell where
  k : Nat
  n : Nat
  val : Nat
  b : Nat
  sc : Nat
deriving DecidableEq, Repr, Inhabited

/-- A stationary plane of one quadrant (R178): the format code of R98 or none, the sparse flag and the elements that
contribute products, by logical K and N inside the quadrant. -/
structure Plane where
  fmt    : Option Nat
  sparse : Bool
  cells  : List PCell
deriving DecidableEq, Repr, Inhabited

/-- The type of a tile (R191). -/
inductive TileTy where | none | fp32 | int32
deriving DecidableEq, Repr, Inhabited

/-- A physical tile of one quadrant (R191): type, live or released, and its nonzero elements (64 × row + column). -/
structure Tile where
  ty    : TileTy
  live  : Bool
  elems : List (Nat × Word32)
deriving DecidableEq, Repr, Inhabited

/-- What a matrix command captured from one member's carrel (R183). -/
structure MData where
  fmt   : Nat
  elems : List (Nat × Nat × PCell)
  rows  : Nat
deriving DecidableEq, Repr, Inhabited

/-- A matrix command of a gang (R181, R192): its number, the issuing block and slot, each member's shape record offset
and record, and how far it has come. `hits` are the reserved scale codes met (R165), `reported` says that a failure has
been reported (R367). -/
structure MCmd where
  idx     : Nat
  kind    : MKind
  block   : Nat
  slot    : Nat
  offs    : List Nat
  shapes  : List ShapeRec
  quads   : List (List Nat)
  started : Bool
  data    : List MData
  early   : Bool
  swapped : Bool
  group   : Nat
  done    : Bool
  failed  : Bool
  hits    : List StrictHit
  reported : Bool
deriving DecidableEq, Repr, Inhabited

/-- A gang (R32, R179): lead, shape, members in order, the quadrant or acre it occupies, its fusion mode, and per
quadrant the two planes and eight tiles; the commands not yet completed or not yet reported. -/
structure Gang where
  fn      : Nat
  lead    : Nat
  shape   : Shape
  members : List Nat
  site    : Option Nat
  mode    : Fuse
  active  : List Plane
  shadow  : List Plane
  tiles   : List (List Tile)
  cmds    : List MCmd
  nextIdx : Nat
deriving DecidableEq, Repr, Inhabited

/-! ### Desks, meetings, messages -/

/-- A party at a desk (R41, R43, R65): its record's address, its deadline (none: never) and, for a gathering, its
contribution. -/
structure Party where
  id       : Aid
  recAt    : Nat
  deadline : Option Nat
  lug      : Word
  contrib  : Vec
deriving DecidableEq, Repr, Inhabited

/-- An open gathering round (R65). -/
structure Round where
  arity   : Word
  op      : GOp
  parties : List Party
deriving DecidableEq, Repr, Inhabited

/-- What a desk holds (R38): a meeting's waiting first party and matched pairs, or a gathering's round. -/
inductive DeskSt where
  | meeting (first : Option Party) (pairs : List (Party × Party))
  | gathering (number : Nat) (round : Option Round)
deriving DecidableEq, Repr, Inhabited

/-- A desk (R38 to R40): the tenant, the key, its home core, whether it is an overflow entry and then the device-held
page that holds it (R13), and the region charged. -/
structure Desk where
  fn       : Nat
  key      : Word
  home     : Nat
  overflow : Bool
  pages    : List Nat
  payer    : Nat × Nat
  st       : DeskSt
deriving DecidableEq, Repr, Inhabited

/-- Messages between activities and desks (R385): arrivals, kills, landings. `seq` is the number the events name. -/
inductive MsgKind where
  | meetArrival (p : Party) (key : Word)
  | gatherArrival (p : Party) (key arity : Word) (op : GOp)
  | kill (fn : Nat) (key : Word) (victim : Aid)
  | landing (dest : Aid) (status : Nat) (s15 : Word) (v15 : Option Vec)
deriving DecidableEq, Repr, Inhabited

/-- A message on its way. -/
structure Msg where
  seq  : Nat
  kind : MsgKind
deriving DecidableEq, Repr, Inhabited

/-- A meeting whose parties are placed (R44, R336): first and second party, the core, the parties that travel. -/
structure Meeting where
  num     : Nat
  first   : Aid
  second  : Aid
  core    : Nat
  begun   : Bool
deriving DecidableEq, Repr, Inhabited

/-! ### Functions -/

/-- The life of a region (R22). -/
inductive RState where | built | open | complete | killed
deriving DecidableEq, Repr, Inhabited

/-- A region control block (R22), field by field, with its index. `devp` are its device-held pages: those of the ready
queue, then in a root those of the record pool, then overflow pages; `rqhead` and `rqtail` count the entries taken from
and put into the queue, `rchain` names the activities of the ready overflow chain in order. The fields kids, acts, slotu,
acreu and check are what `State.rcbWords` computes; `bad` says that the entry's check code fails (R23). -/
structure Region where
  idx      : Nat
  parent   : Option Nat
  level    : Nat
  rstate   : RState
  strict   : Bool
  slotb    : Nat
  acreb    : Nat
  bprio    : Nat
  policy   : Nat
  ovr      : BitVec 16
  pageb    : Nat
  pageu    : Nat
  envb     : Nat
  envu     : Nat
  keyb     : Nat
  keyu     : Nat
  power    : Nat
  handler  : Nat
  harg     : Word
  issued   : Nat
  returned : Nat
  notice   : Word
  nval     : Word
  rqlog    : Nat
  rqhead   : Nat
  rqtail   : Nat
  rchain   : List Nat
  rcount   : Nat
  rfree    : Nat
  share    : Nat
  deficit  : Nat
  lq       : Nat
  held     : Nat
  devp     : List Nat
  bad      : Bool
deriving DecidableEq, Repr, Inhabited

/-- A shelf of a tenant (R106 to R110): its range, the register's keeper, whether it is being unsealed and whether
its pages are freed when the open count reaches zero (R110). `payer` is the function and region charged. -/
structure Shelf where
  id        : Nat
  base      : Nat
  pages     : Nat
  cxl       : Bool
  keeper    : Option Aid
  payer     : Nat × Nat
  unsealing : Bool
  freeing   : Bool
deriving DecidableEq, Repr, Inhabited

/-- A stage-1 mapping built by the device (R119): a page of tenant virtual address space to an intermediate page. -/
structure S1Page where
  va  : Nat
  ipa : Nat
  cxl : Bool
deriving DecidableEq, Repr, Inhabited

/-- The state field of a function record (R387). -/
inductive FState where | off | running | parked | changing
deriving DecidableEq, Repr, Inhabited

/-- The committed values of a function record (R387). -/
structure VfRec where
  quad    : List Nat
  chan    : List Nat
  lqbase  : Nat
  lqcount : Nat
  pageb   : Nat
  power   : Nat
  kslot   : Nat
  group   : Nat
  slice   : Nat
  s2root  : Nat
  podcat  : Nat
  rtable  : Nat
  rtcount : Nat
  save    : Nat
  savep   : Nat
  h0v     : Bool
  h0      : Nat
  h1v     : Bool
  h1      : Nat
  en      : Bool
  lstab   : Nat
  hcrgn   : Nat
deriving DecidableEq, Repr, Inhabited

/-- The host nodes of a record (R387): those whose valid bit is set. -/
def VfRec.hosts (r : VfRec) : List Nat := (if r.h0v then [r.h0] else []) ++ if r.h1v then [r.h1] else []

/-- What a function keeps in its own memory beside an image of it (R404): the region table with the weights and uses
that it holds, the records of retired activities and the written-back activities with their gangs, overflow desks, the
mappings with their stage-1 tables, the device-held pages, the shelves and host-held loans, the counters, and the queues
whose records are discarded. -/
structure Held where
  regions   : List Region
  spent     : List (Nat × List Word)
  written   : List Act
  gangs     : List Gang
  desks     : List Desk
  stage1    : List S1Page
  tables    : List (Nat × Nat)
  devPages  : List Nat
  shelves   : List Shelf
  hostLoans : List (Nat × Nat × Bool)
  serialCtr : Nat
  shelfCtr  : Nat
  pageu     : Nat
  discards  : List Nat
deriving DecidableEq, Repr, Inhabited

/-- What a saved image of a function holds (R357, R404): the activities that were resident, their gangs, the desks with
their matched pairs, the meetings and the ring indices; nothing in it names a physical core. `held` is what the
function's own memory held beside it when it was written. -/
structure Saved where
  fn       : Nat
  acts     : List Act
  gangs    : List Gang
  desks    : List Desk
  meetings : List Meeting
  prod     : List Nat
  cons     : List Nat
  held     : Held
deriving DecidableEq, Repr, Inhabited

/-- What a pre-emption does once the state is at block boundaries (R355, R391, R396, R402). -/
inductive PreGoal where
  | stay
  | slice (next : Nat)
  | save
  | reshape
deriving DecidableEq, Repr, Inhabited

/-- A pre-emption in progress (R355): the request time, the reason, whether step 2 is over, and what follows. -/
structure Preempt where
  since  : Nat
  why    : PreReason
  closed : Bool
  goal   : PreGoal
deriving DecidableEq, Repr, Inhabited

/-- A function (R386 to R410): its committed record, its D fields and everything the device keeps for it. `spent` holds
the last records of retired activities, by address, while nothing else has taken their place in the pool (R14, R30);
`prodAt` and `consAt` are the ring indices when the last image was written (R404);
`tables` the intermediate pages of the stage-1 tables, by table number (R13, R119: 0 and 1 the halves of the level-1
table, 2 + i the level-2 table of level-1 entry i, 16386 + j the level-3 table of the 2 MiB range j). -/
structure Func where
  cfg       : VfRec
  next      : Option VfRec
  state     : FState
  held      : Bool
  status    : Nat
  slices    : Nat
  sliceFrom : Nat
  sliceLen  : Nat
  charged   : Nat
  debt      : Nat
  pageu     : Nat
  serialCtr : Nat
  shelfCtr  : Nat
  prod      : List Nat
  cons      : List Nat
  hostLoans : List (Nat × Nat × Bool)
  loanRes   : Word
  shelves   : List Shelf
  stage1    : List S1Page
  devPages  : List Nat
  regions   : List Region
  preempt   : Option Preempt
  key       : Nat
  served    : List (Nat × Nat × Nat)
  image     : Nat
  discards  : List Nat
  spent     : List (Nat × List Word)
  tables    : List (Nat × Nat)
  prodAt    : List Nat
  consAt    : List Nat
deriving DecidableEq, Repr, Inhabited

/-! ### Cores, acres, fabric, reliability, security -/

/-- A core: its environment store by index, the generations of its store indices, gating, the divider ratio in
eighths, the most that the power manager allows it (R421), the cycle count of %cycles in units of 1/160 cycle, since
when no slot is in use, the activity that issued last (R353), its block cache and its fetch predictor (R438), most
recently used first. -/
structure Core where
  num      : Nat
  envs     : List (Nat × Env)
  gens     : List (Nat × Nat)
  gated    : Bool
  divider  : Nat
  cap      : Nat
  cycles   : Nat
  idleFrom : Nat
  last     : Option Aid
  cache    : List Nat
  pred     : List (Nat × Nat × Nat)
deriving DecidableEq, Repr, Inhabited

/-- An entry of a translation cache (R121): function, stage (1 from a tenant virtual page to an intermediate page, 2
from an intermediate page to a physical page), the page and its target in units of 64 KiB, the tier, whether the entry
read was a 2 MiB leaf, and the intermediate pages, each with whether a 2 MiB leaf mapped it, whose stage-2 entries the
translation used (R328). -/
structure TlbEntry where
  fn     : Nat
  stage  : Nat
  page   : Nat
  target : Nat
  cxl    : Bool
  big    : Bool
  used   : List (Nat × Bool)
deriving DecidableEq, Repr, Inhabited

/-- An acre: its translation cache, the droop stretch, the last droop record, the throttle steps taken and the failed
phases (R419, R423, R424), the ramp-down filler, quadrant by quadrant in watts, what of it gangs have stopped since the
last measurement, the arithmetic load last measured (R422), and the rail's voltage (R419). -/
structure Acre where
  num       : Nat
  tlb       : List TlbEntry
  drooping  : Bool
  stretched : Nat
  lastDroop : Option Nat
  throttled : Bool
  steps     : Nat
  nextStep  : Nat
  phases    : List Nat
  filler    : List (Nat × Nat)
  dropped   : Nat
  load      : Nat
  rail      : Word
deriving DecidableEq, Repr, Inhabited

/-- A Slaide link (R411 to R416): up, lanes, retraining or shedding, with its start and the most lanes it may come back
with; the next sequence numbers, the replay buffer (sequence, flit), replays of one flit in succession, the times of the
retrains and the lanes and times of the errors within the last millisecond, the error counter, the messages (sender,
sequence) of which a flit was dropped, those of which flits have come and the last has not, and the types whose next
message may be the rest of one whose flit could not be told (R416). -/
structure Link where
  up       : Bool
  lanes    : Nat
  training : Bool
  since    : Nat
  limit    : Nat
  txNext   : Nat
  rxNext   : Nat
  buffer   : List (Nat × List Byte)
  replays  : Nat
  replayOf : Nat
  retrains : List Nat
  wrong    : List (Nat × Nat)
  errors   : Nat
  drops    : List (Nat × Nat)
  opened   : List (Nat × Nat)
  blind    : List Nat
  /-- Flits that wait to be sent, in the order of sending: type, header, data (R412). -/
  queue    : List (Nat × List Byte × List Byte)
deriving DecidableEq, Repr, Inhabited

/-- A message kept until it is acknowledged end to end (R415). -/
structure Kept where
  dst    : Nat
  seq    : Nat
  type   : Nat
  fn     : Nat
  sentAt : Nat
  link   : Option Nat
  data   : List Byte
deriving DecidableEq, Repr, Inhabited

/-- A black-box entry before its encoding (R369, R370). -/
structure BbEntry where
  time   : Nat
  type   : Nat
  die    : Nat
  core   : Nat
  vf     : Nat
  serial : Nat
  sub    : Nat
  data   : List Word
  seq    : Nat
deriving DecidableEq, Repr, Inhabited

/-- A black-box ring (R369): its entries by position, the next sequence number and the frozen flag. -/
structure Ring where
  entries : List (Nat × BbEntry)
  next    : Nat
  frozen  : Bool
deriving DecidableEq, Repr, Inhabited

/-- What the device sends to the world: host window completions (R407), fabric writes (R410), management answers
(R372, R430, R431). -/
inductive Out where
  | hostDone (h : HostReq) (ok : Bool) (data : List Byte)
  | fabricWrite (dst addr : Nat) (val : Word)
  | replayReq (link seq : Nat)
  | flit (link seq : Nat) (data : List Byte)
  | bbEntry (words : List Word)
  | report (r : Report)
  | wrappedKey (data : List Byte)
deriving DecidableEq, Repr, Inhabited

/-- The security processor and boot state (R429 to R431): public-key hash fuses, revoked fuses, measurement
register, recovery, accepted firmware measurements, imported keys (slot, key, time), the key under which the identity
of another part is certified, the firmware image that the next cold reset verifies, and Kloxus's certificate over the
part's own identity key. -/
structure Sec where
  fuses    : List (List Byte)
  revoked  : List Nat
  measure  : List Byte
  recovery : Bool
  accepted : List (List Byte)
  imports  : List (Nat × Nat × Nat)
  identity : List Byte
  firmware : List FwStage
  cert     : List Byte
deriving DecidableEq, Repr, Inhabited

/-- A kill that has started and not finished (R330, R349): its regions, the activities it ended, and the schedule entry
that waits for it. -/
structure Kill where
  target : KillTarget
  regions : List Nat
  victims : List Aid
  entry  : Option Nat
deriving DecidableEq, Repr, Inhabited

/-- The operations of the %vf group (R388). -/
inductive VfOp where | commit | save | restore
deriving DecidableEq, Repr, Inhabited

/-- An entry of the launch schedule table (R348, R349) as the device follows it: its number, whether its en was last
seen as 1, and, for each copy of its template still in a ring, the function, the queue and the ring index. -/
structure Sched where
  entry  : Nat
  on     : Bool
  copies : List (Nat × Nat × Nat)
deriving DecidableEq, Repr, Inhabited

/-- What moves next (the model's scheduling data): an event, the next step of a core's block engine, one step of a
given activity, one of its slots, an early element
of a copy command (R134 to R136), or the passing of time in nanoseconds. -/
inductive Move where
  | event (i : Instr)
  | issue (core : Nat)
  | run (a : Aid)
  | slot (a : Aid) (k : Nat)
  | element (a : Aid) (tag k : Nat)
  | clock (ns : Nat)
deriving DecidableEq, Repr

/-- The whole part. `agenda` and `turn` are the model's scheduling data. `cores` and `acres` list those that have left
the content they share with all others; `base` is that content for a core. `units` holds for each die's dispatch unit
the core whose free slot it served last (R351); `images` what the images written to save areas hold, by their bytes
(R404). `keyTags` and `keyOver` hold the key and the tweak under which a page was zeroed and a granule was last written
(R126), `poison` the bytes of memory with a detected uncorrectable error, `timeFrac` the millionths of a nanosecond that
device time has not yet counted (R347), `grants` and `shares` the watts granted to each function and to each of its
regions (R406). -/
structure State where
  time      : Nat
  locked    : Bool
  ratePpm   : Int
  timeFrac  : Nat
  agenda    : List Move
  turn      : Nat
  cur       : Option (Aid × Nat)
  fresh     : Nat
  acts      : List Act
  gangs     : List Gang
  cores     : List Core
  acres     : List Acre
  base      : Core
  disabled  : List Nat
  mem       : List Host.Cell
  poison    : List Nat
  keyTags   : List (Nat × Nat × Nat)
  keyOver   : List (Nat × Nat × Option Nat)
  desks     : List Desk
  msgs      : List Msg
  meetings  : List Meeting
  funcs     : List Func
  vfbase    : Nat
  vfPending : List (VfOp × Nat)
  vfBusy    : Option (VfOp × Nat)
  vfLast    : Nat
  vfStatus  : Nat
  scrub     : Option (List Nat × Aid × Nat)
  kills     : List Kill
  images    : List (List Byte × Saved)
  units     : List (Nat × Nat)
  owners    : List (Nat × Nat)
  sched     : List Sched
  ports     : List Bool
  links     : List Link
  kept      : List Kept
  accepted  : List (Nat × Nat)
  e2eNext   : List (Nat × Nat)
  device    : Nat
  out       : List Out
  rings     : List Ring
  stopped   : Bool
  pool      : Nat
  grants    : List (Nat × Nat)
  shares    : List (Nat × Nat × Nat)
  patrol    : Bool
  corrected : List (Nat × Nat × Nat)
  retiring  : List (Nat × Nat × Nat)
  spares    : List (Nat × Nat)
  nextKey   : Nat
  sec       : Sec
deriving DecidableEq, Repr

/-! ### Reset -/

/-- Reset content of a core: nothing in its store, ratio 1, not gated. -/
def Core.reset (n : Nat) : Core := ⟨n, [], [], false, 8, 8, 0, 0, none, [], []⟩

/-- Reset content of an acre. -/
def Acre.reset (n : Nat) : Acre := ⟨n, [], false, 0, none, false, 0, 0, [], [], 0, 0, 0⟩

/-- Reset content of a link: up with four lanes (R432 step 5). -/
def Link.reset : Link := ⟨true, 4, false, 0, 4, 0, 0, [], 0, 0, [], [], 0, [], [], [], []⟩

/-- Reset content of a ring (R369). -/
def Ring.reset : Ring := ⟨[], 0, false⟩

/-- The record of a function that is off. -/
def VfRec.off : VfRec :=
  ⟨[], [], 0, 0, 0, 0, 0, 0, 0, 0, 0, 0, 0, 0, 0, false, 0, false, 0, false, 0, 0⟩

/-- A function that is off (R387). -/
def Func.off : Func :=
  ⟨VfRec.off, none, .off, false, 0, 0, 0, 0, 0, 0, 0, 1, 1, List.replicate 64 0, List.replicate 64 0, [], 0, [], [],
    [], [], none, 0, [], 0, [], [], [], List.replicate 64 0, List.replicate 64 0⟩

/-- The factory configuration of record 0 (R432): quadrants 0-3, channels 0-1, power share 2,048, one launch queue. The
addresses and counts that the spec leaves to the management controller are the model's (assumption log 3). -/
def VfRec.factory : VfRec :=
  { VfRec.off with
    quad := [0, 1, 2, 3], chan := [0, 1], power := 2048, lqcount := 1, pageb := 0xFFFFFFFF, rtcount := 4096,
    lqbase := 0x40000000, rtable := 0x40100000, podcat := 0x40080000, s2root := 0x10000000, en := true }

/-- The physical function after bring-up (R9, R432). -/
def Func.physical : Func :=
  { Func.off with cfg := VfRec.factory, state := .running }

/-- The state after reset: bring-up is complete, record 0 is committed, no activity exists, memory is zero
(R432, R433). -/
def State.reset : State where
  time := 0
  locked := true
  ratePpm := 0
  timeFrac := 0
  agenda := []
  turn := 0
  cur := none
  fresh := 0
  acts := []
  gangs := []
  cores := []
  acres := []
  base := Core.reset 0
  disabled := [68, 69, 70, 71, 140, 141, 142, 143, 212, 213, 214, 215, 284, 285, 286, 287]
  mem := []
  poison := []
  keyTags := []
  keyOver := []
  desks := []
  msgs := []
  meetings := []
  funcs := Func.physical :: List.replicate 16 Func.off
  vfbase := 0x20000000
  vfPending := []
  vfBusy := none
  vfLast := 0
  vfStatus := 0
  scrub := none
  kills := []
  images := []
  units := []
  owners := []
  sched := []
  ports := [true, true, true, true]
  links := List.replicate 24 Link.reset
  kept := []
  accepted := []
  e2eNext := []
  device := 0
  out := []
  rings := List.replicate 6 Ring.reset
  stopped := false
  pool := 0
  grants := []
  shares := []
  patrol := true
  corrected := []
  retiring := []
  spares := []
  nextKey := 1
  sec := ⟨[[], [], [], []], [], List.replicate 32 0, false, [], [], [], [], []⟩

/-! ### Why a step stops -/

/-- Faults: the reasons a step stops with no next state. -/
inductive Fault where
  /-- Raised by every slot meaning when no slot is selected to fire, when the selected slot does not hold that
  instruction, or when its operands have not arrived. The hardware never fires a slot then. Safe. -/
  | notFiring
deriving DecidableEq, Repr

/-- Refusals. -/
inductive Refusal where
  /-- Raised by Dispatch for an instruction that has no meaning yet. Safe. -/
  | notModelled (mnemonic : String)
deriving DecidableEq, Repr

end Sys2Proof.Machine
end

