-- ==== Sys2Proof/WellFormed.lean ====
section
/-!
DEFINITION. Which values of the fields of an instruction the opcode map lists (R231, R239 to R243), where the field's
type allows more. A well-formed slot instruction is exactly one that has a word (`Decode.encode`). Device events have
no words; they are well-formed whatever their operands.
-/
namespace Sys2Proof

/-- A target field never names operand x of slot 127, whose code is 1FFh, no target (R208). -/
def Tgt.ok (t : Tgt) : Bool := t != some ⟨127, .x⟩

/-- Lane width of an element type in bits (R197); lanes of q4n are FP32. -/
def ETy.width : ETy → Nat
  | .i8 | .n8 | .e4m3 | .e5m2 => 8
  | .i16 | .n16 | .bf16 | .f16 => 16
  | .i32 | .n32 | .f32 | .q4n => 32
  | .i64 | .n64 => 64

/-- Lane count of an element type (R197). -/
def ETy.lanes (t : ETy) : Nat := 512 / t.width

/-- The integer element types 0 to 7. -/
def ETy.isInt : ETy → Bool
  | .i8 | .n8 | .i16 | .n16 | .i32 | .n32 | .i64 | .n64 => true
  | _ => false

/-- The signed integer element types. -/
def ETy.isSigned : ETy → Bool
  | .i8 | .i16 | .i32 | .i64 => true
  | _ => false

/-- The types 0 to 12, which every vector instruction but VLD is limited to (R243). -/
def ETy.plain (t : ETy) : Bool := t != .q4n

/-- The special registers that exist (R231). -/
def sregAssigned (n : Nat) : Bool :=
  n ≤ 8 || (0x10 ≤ n && n ≤ 0x14) || (0x20 ≤ n && n ≤ 0x22) || (0x30 ≤ n && n ≤ 0x33) || (0x40 ≤ n && n ≤ 0x43)
    || (0x100 ≤ n && n ≤ 0x104)

/-- The special registers that SWR may name (R231). -/
def sregWritable (n : Nat) : Bool :=
  n == 0x22 || (0x30 ≤ n && n ≤ 0x33) || (0x100 ≤ n && n ≤ 0x103)

/-- The parts VCVT may name for a pair of types (R169). -/
def cvtPartOk (src dst : ETy) (p : Nat) : Bool :=
  if src.width < dst.width then p < dst.width / src.width
  else if dst.width < src.width then p < src.width / dst.width
  else p == 0

/-- Well-formedness: the listed values of R239 to R243 and R231. -/
def wellFormed : Instr → Bool
  | .rd cls reg t1 t2 => (match cls with | .m | .c => reg.toNat < 8 | _ => true) && Tgt.ok t1 && Tgt.ok t2
  | .wr cls reg => (match cls with | .m | .c => reg.toNat < 8 | _ => true)
  | .mov _ t1 t2 | .null _ t1 t2 | .sel _ t1 t2 | .tagclr _ t1 t2 | .shopen _ t1 t2 | .shclose _ t1 t2
  | .mwait _ t1 t2 | .killq _ t1 t2 | .add _ _ t1 t2 | .sub _ _ t1 t2 | .mul _ _ t1 t2 | .and _ _ t1 t2
  | .or _ _ t1 t2 | .xor _ _ t1 t2 | .shl _ _ t1 t2 | .shr _ _ t1 t2 | .sha _ _ t1 t2 | .min _ _ _ t1 t2
  | .max _ _ _ t1 t2 | .mulh _ _ t1 t2 | .div _ _ t1 t2 | .rem _ _ t1 t2 | .ext _ _ t1 t2 | .bfx _ _ _ t1 t2
  | .bfi _ _ t1 t2 | .cnt _ _ _ t1 t2 | .test _ _ t1 t2 | .ftest _ _ _ t1 t2 | .fadd _ _ _ t1 t2
  | .fsub _ _ _ t1 t2 | .fmul _ _ _ t1 t2 | .fma _ _ _ t1 t2 | .fdiv _ _ _ t1 t2 | .fsqrt _ _ _ t1 t2
  | .fmm _ _ _ t1 t2 | .fcvt _ _ t1 t2 | .tagff _ _ t1 t2 | .xrd _ _ t1 t2 | .tlbinv _ _ t1 t2
  | .resume _ _ t1 t2 => Tgt.ok t1 && Tgt.ok t2
  | .geni _ _ t1 | .genu _ _ t1 | .genc _ _ t1 | .addi _ _ t1 | .andi _ _ t1 | .ori _ _ t1 | .ld _ _ _ _ t1
  | .pld _ _ _ _ t1 | .amo _ _ _ _ t1 | .cas _ _ _ _ t1 | .cin _ _ _ t1 | .cout _ _ _ t1 | .cgath _ _ _ t1
  | .cscat _ _ _ t1 | .cbank _ _ _ t1 | .cfill _ _ _ t1 | .bfmt _ _ _ t1 | .palloc _ _ _ t1 | .pfree _ _ t1
  | .lsplit _ _ t1 | .lgive _ _ t1 | .seal _ _ t1 | .lbase _ _ _ _ t1 | .spawn _ _ _ _ _ t1 | .cenv _ t1
  | .mfuse _ _ t1 | .mwload _ _ t1 | .mwswap _ t1 | .mstream _ _ _ _ t1 | .mstore _ _ t1 | .mrel _ _ t1
  | .mldacc _ _ _ t1 | .scrub _ t1 => Tgt.ok t1
  | .shi _ _ w32 amount t1 => (!w32 || amount.toNat < 32) && Tgt.ok t1
  | .testi _ cond _ t1 =>
      (match cond with | .leu | .gtu | .bitset | .bitclr => false | _ => true) && Tgt.ok t1
  | .cput _ _ _ t1 => Tgt.ok t1
  | .envrd _ _ _ w t1 => w.toNat < 30 && Tgt.ok t1
  | .envwr _ _ _ w => w.toNat < 30
  | .srd _ num t1 => sregAssigned num.toNat && Tgt.ok t1
  | .swr _ num t1 => sregWritable num.toNat && Tgt.ok t1
  | .vadd _ ty t1 t2 | .vsub _ ty t1 t2 | .vmul _ ty t1 t2 | .vfma _ ty t1 t2 | .vmin _ ty t1 t2
  | .vmax _ ty t1 t2 => ty.plain && Tgt.ok t1 && Tgt.ok t2
  | .vcmp _ ty cond t1 =>
      ty.plain && (match cond with | .unord | .ord => !ty.isInt | _ => true) && Tgt.ok t1
  | .vlogic _ ty _ t1 => ty.plain && Tgt.ok t1
  | .vshift _ ty _ var amount t1 =>
      ty.isInt && (if var then amount == 0 else decide (amount.toNat < ty.width)) && Tgt.ok t1
  | .vcvt _ src dst part t1 => src.plain && dst.plain && cvtPartOk src dst part.toNat && Tgt.ok t1
  | .vld _ _ _ _ t1 => Tgt.ok t1
  | .vst _ _ ty mode => ty.plain && mode != .bcast
  | .vred _ ty fn t1 => ty.plain && (match fn with | .and | .or => ty.isInt | _ => true) && Tgt.ok t1
  | .vperm _ ty fn s t1 =>
      ty.plain && (match fn with | .sup | .sdn | .ext => decide (s.toNat < ty.lanes) | _ => s == 0) && Tgt.ok t1
  | .vspec _ ty _ t1 => (match ty with | .bf16 | .f16 | .f32 => true | _ => false) && Tgt.ok t1
  | .br .. | .bri .. | .call .. | .ret .. | .trap .. | .st .. | .pst .. | .wtany .. | .wtall .. | .wcnt ..
  | .unseal .. | .retire .. | .yield .. | .sleep .. | .gang .. | .split .. | .meet .. | .gather .. | .part ..
  | .cdrop .. | .apply .. | .vapply .. | .hcall .. => true
  | .blockStart .. | .blockCommit .. | .blockFault .. | .copyComplete .. | .translationWalk ..
  | .matrixCommandStart .. | .matrixCommandComplete .. | .launch .. | .dispatch .. | .writeBack ..
  | .priorityAging .. | .gangReservation .. | .retireEffect .. | .killFinish .. | .sleepDeadline ..
  | .meetArrival .. | .gatherArrival .. | .meetExpiry .. | .gatherExpiry .. | .deskKill .. | .pairPlacement ..
  | .travelArrival .. | .landingNotice .. | .partLanding .. | .preemptionRequest .. | .preemptAbortDeadline ..
  | .preemptSave .. | .sliceEnd .. | .scheduleLaunch .. | .vfCommit .. | .vfCommitDone .. | .vfSave ..
  | .vfRestore .. | .scrubClearDone | .doorbell .. | .loanAllocate .. | .loanFree .. | .podCatalogueWrite ..
  | .hostWindowWrite .. | .hostWindowRead .. | .flitReceive .. | .linkReplay .. | .laneRetrainCommand ..
  | .endToEndAck .. | .messageRetry .. | .ptpMessage .. | .cxlPortDown .. | .powerMeasure .. | .coreGate ..
  | .droop .. | .thermalEvent .. | .thermalThrottleStep .. | .fatalError .. | .correctedError ..
  | .uncorrectedError .. | .regulatorPhaseFail .. | .patrolScrub | .patrolScrubEnable | .patrolScrubDisable
  | .coldReset .. | .warmReset .. | .firmwareImage .. | .attestationRequest .. | .keyExport .. | .keyImport ..
  | .keyImportExpiry .. | .blackboxRead .. | .blackboxUnfreeze | .linkRetrainDone .. | .droopRecovery ..
  | .cxlPortUp .. | .pageRetirementDone .. => true

/-- The rows of the table that have a word: the 120 slot instructions. -/
def isSlotInstr : Instr → Bool
  | .blockStart .. | .blockCommit .. | .blockFault .. | .copyComplete .. | .translationWalk ..
  | .matrixCommandStart .. | .matrixCommandComplete .. | .launch .. | .dispatch .. | .writeBack ..
  | .priorityAging .. | .gangReservation .. | .retireEffect .. | .killFinish .. | .sleepDeadline ..
  | .meetArrival .. | .gatherArrival .. | .meetExpiry .. | .gatherExpiry .. | .deskKill .. | .pairPlacement ..
  | .travelArrival .. | .landingNotice .. | .partLanding .. | .preemptionRequest .. | .preemptAbortDeadline ..
  | .preemptSave .. | .sliceEnd .. | .scheduleLaunch .. | .vfCommit .. | .vfCommitDone .. | .vfSave ..
  | .vfRestore .. | .scrubClearDone | .doorbell .. | .loanAllocate .. | .loanFree .. | .podCatalogueWrite ..
  | .hostWindowWrite .. | .hostWindowRead .. | .flitReceive .. | .linkReplay .. | .laneRetrainCommand ..
  | .endToEndAck .. | .messageRetry .. | .ptpMessage .. | .cxlPortDown .. | .powerMeasure .. | .coreGate ..
  | .droop .. | .thermalEvent .. | .thermalThrottleStep .. | .fatalError .. | .correctedError ..
  | .uncorrectedError .. | .regulatorPhaseFail .. | .patrolScrub | .patrolScrubEnable | .patrolScrubDisable
  | .coldReset .. | .warmReset .. | .firmwareImage .. | .attestationRequest .. | .keyExport .. | .keyImport ..
  | .keyImportExpiry .. | .blackboxRead .. | .blackboxUnfreeze | .linkRetrainDone .. | .droopRecovery ..
  | .cxlPortUp .. | .pageRetirementDone .. => false
  | _ => true

end Sys2Proof
end

