-- ==== Sys2Proof/Decode.lean ====
section
/-!
DEFINITION. Decoding of a slot word (R225 to R229, R237 to R243), total on every word and every list of bytes: it
gives the instruction, or the reason why the word is none. After it, the encoder, written from the same tables. What
decoding refuses for the sake of a whole block (R34, R198, R205, R210, R218, R230) is in Machine/BlockDecode.lean.
-/
namespace Sys2Proof

/-! ### Codes of the named fields -/

/-- Code of a `Pm` (R211). -/
def Pm.code : Pm → Nat
  | .always => 0
  | .ifTrue => 1
  | .ifFalse => 2

/-- The `Pm` of a code (R211), if it has one. -/
def Pm.ofCode : Nat → Option Pm
  | 0 => some .always
  | 1 => some .ifTrue
  | 2 => some .ifFalse
  | _ => none

/-- Code of a `Combine` (R212). -/
def Combine.code : Combine → Nat
  | .sole => 0
  | .ift => 1
  | .iff => 2
  | .gate => 3
  | .all => 4
  | .any => 5
  | .alln => 6
  | .anyn => 7

/-- The `Combine` of a code (R212), if it has one. -/
def Combine.ofCode : Nat → Option Combine
  | 0 => some .sole
  | 1 => some .ift
  | 2 => some .iff
  | 3 => some .gate
  | 4 => some .all
  | 5 => some .any
  | 6 => some .alln
  | 7 => some .anyn
  | _ => none

/-- Code of a `Opnd` (R208). -/
def Opnd.code : Opnd → Nat
  | .l => 0
  | .r => 1
  | .p => 2
  | .x => 3

/-- The `Opnd` of a code (R208), if it has one. -/
def Opnd.ofCode : Nat → Option Opnd
  | 0 => some .l
  | 1 => some .r
  | 2 => some .p
  | 3 => some .x
  | _ => none

/-- Code of a `Cls` (R230). -/
def Cls.code : Cls → Nat
  | .s => 0
  | .v => 1
  | .m => 2
  | .c => 3

/-- The `Cls` of a code (R230), if it has one. -/
def Cls.ofCode : Nat → Option Cls
  | 0 => some .s
  | 1 => some .v
  | 2 => some .m
  | 3 => some .c
  | _ => none

/-- Code of a `Ty` (R226). -/
def Ty.code : Ty → Nat
  | .i8 => 0
  | .n8 => 1
  | .i16 => 2
  | .n16 => 3
  | .i32 => 4
  | .n32 => 5
  | .w64 => 6

/-- The `Ty` of a code (R226), if it has one. -/
def Ty.ofCode : Nat → Option Ty
  | 0 => some .i8
  | 1 => some .n8
  | 2 => some .i16
  | 3 => some .n16
  | 4 => some .i32
  | 5 => some .n32
  | 6 => some .w64
  | _ => none

/-- Code of a `ETy` (R227). -/
def ETy.code : ETy → Nat
  | .i8 => 0
  | .n8 => 1
  | .i16 => 2
  | .n16 => 3
  | .i32 => 4
  | .n32 => 5
  | .i64 => 6
  | .n64 => 7
  | .bf16 => 8
  | .f16 => 9
  | .f32 => 10
  | .e4m3 => 11
  | .e5m2 => 12
  | .q4n => 13

/-- The `ETy` of a code (R227), if it has one. -/
def ETy.ofCode : Nat → Option ETy
  | 0 => some .i8
  | 1 => some .n8
  | 2 => some .i16
  | 3 => some .n16
  | 4 => some .i32
  | 5 => some .n32
  | 6 => some .i64
  | 7 => some .n64
  | 8 => some .bf16
  | 9 => some .f16
  | 10 => some .f32
  | 11 => some .e4m3
  | 12 => some .e5m2
  | 13 => some .q4n
  | _ => none

/-- Code of a `Rnd` (R156). -/
def Rnd.code : Rnd → Nat
  | .rne => 0
  | .rtz => 1
  | .rdn => 2
  | .rup => 3
  | .rna => 4
  | .rs => 5

/-- The `Rnd` of a code (R156), if it has one. -/
def Rnd.ofCode : Nat → Option Rnd
  | 0 => some .rne
  | 1 => some .rtz
  | 2 => some .rdn
  | 3 => some .rup
  | 4 => some .rna
  | 5 => some .rs
  | _ => none

/-- Code of a `MulhKind` (R259). -/
def MulhKind.code : MulhKind → Nat
  | .ss => 0
  | .nn => 1
  | .sn => 2

/-- The `MulhKind` of a code (R259), if it has one. -/
def MulhKind.ofCode : Nat → Option MulhKind
  | 0 => some .ss
  | 1 => some .nn
  | 2 => some .sn
  | _ => none

/-- Code of a `DivKind` (R260). -/
def DivKind.code : DivKind → Nat
  | .s64 => 0
  | .n64 => 1
  | .s32 => 2
  | .n32 => 3

/-- The `DivKind` of a code (R260), if it has one. -/
def DivKind.ofCode : Nat → Option DivKind
  | 0 => some .s64
  | 1 => some .n64
  | 2 => some .s32
  | 3 => some .n32
  | _ => none

/-- Code of a `ShKind` (R239, R316). -/
def ShKind.code : ShKind → Nat
  | .shl => 0
  | .shr => 1
  | .sha => 2

/-- The `ShKind` of a code (R239, R316), if it has one. -/
def ShKind.ofCode : Nat → Option ShKind
  | 0 => some .shl
  | 1 => some .shr
  | 2 => some .sha
  | _ => none

/-- Code of a `ExtKind` (R263). -/
def ExtKind.code : ExtKind → Nat
  | .i8 => 0
  | .n8 => 1
  | .i16 => 2
  | .n16 => 3
  | .i32 => 4
  | .n32 => 5

/-- The `ExtKind` of a code (R263), if it has one. -/
def ExtKind.ofCode : Nat → Option ExtKind
  | 0 => some .i8
  | 1 => some .n8
  | 2 => some .i16
  | 3 => some .n16
  | 4 => some .i32
  | 5 => some .n32
  | _ => none

/-- Code of a `CntKind` (R267). -/
def CntKind.code : CntKind → Nat
  | .pop => 0
  | .lz => 1
  | .tz => 2
  | .brev => 3

/-- The `CntKind` of a code (R267), if it has one. -/
def CntKind.ofCode : Nat → Option CntKind
  | 0 => some .pop
  | 1 => some .lz
  | 2 => some .tz
  | 3 => some .brev
  | _ => none

/-- Code of a `Cond` (R269). -/
def Cond.code : Cond → Nat
  | .eq => 0
  | .ne => 1
  | .lt => 2
  | .ge => 3
  | .ltu => 4
  | .geu => 5
  | .le => 6
  | .gt => 7
  | .leu => 8
  | .gtu => 9
  | .bitset => 10
  | .bitclr => 11

/-- The `Cond` of a code (R269), if it has one. -/
def Cond.ofCode : Nat → Option Cond
  | 0 => some .eq
  | 1 => some .ne
  | 2 => some .lt
  | 3 => some .ge
  | 4 => some .ltu
  | 5 => some .geu
  | 6 => some .le
  | 7 => some .gt
  | 8 => some .leu
  | 9 => some .gtu
  | 10 => some .bitset
  | 11 => some .bitclr
  | _ => none

/-- Code of a `FCond` (R271). -/
def FCond.code : FCond → Nat
  | .eq => 0
  | .ne => 1
  | .lt => 2
  | .le => 3
  | .unord => 4
  | .ord => 5
  | .gt => 6
  | .ge => 7

/-- The `FCond` of a code (R271), if it has one. -/
def FCond.ofCode : Nat → Option FCond
  | 0 => some .eq
  | 1 => some .ne
  | 2 => some .lt
  | 3 => some .le
  | 4 => some .unord
  | 5 => some .ord
  | 6 => some .gt
  | 7 => some .ge
  | _ => none

/-- Code of a `CvtKind` (R167). -/
def CvtKind.code : CvtKind → Nat
  | .f32f64 => 0
  | .f64f32 => 1
  | .i64f32 => 2
  | .n64f32 => 3
  | .i64f64 => 4
  | .n64f64 => 5
  | .f32i64 => 6
  | .f32n64 => 7
  | .f64i64 => 8
  | .f64n64 => 9
  | .f32f16 => 10
  | .f16f32 => 11
  | .f32bf16 => 12
  | .bf16f32 => 13

/-- The `CvtKind` of a code (R167), if it has one. -/
def CvtKind.ofCode : Nat → Option CvtKind
  | 0 => some .f32f64
  | 1 => some .f64f32
  | 2 => some .i64f32
  | 3 => some .n64f32
  | 4 => some .i64f64
  | 5 => some .n64f64
  | 6 => some .f32i64
  | 7 => some .f32n64
  | 8 => some .f64i64
  | 9 => some .f64n64
  | 10 => some .f32f16
  | 11 => some .f16f32
  | 12 => some .f32bf16
  | 13 => some .bf16f32
  | _ => none

/-- Code of a `AmoOp` (R241). -/
def AmoOp.code : AmoOp → Nat
  | .add => 0
  | .min => 1
  | .max => 2
  | .nmin => 3
  | .nmax => 4
  | .swap => 5
  | .and => 6
  | .or => 7

/-- The `AmoOp` of a code (R241), if it has one. -/
def AmoOp.ofCode : Nat → Option AmoOp
  | 0 => some .add
  | 1 => some .min
  | 2 => some .max
  | 3 => some .nmin
  | 4 => some .nmax
  | 5 => some .swap
  | 6 => some .and
  | 7 => some .or
  | _ => none

/-- Code of a `LField` (R103). -/
def LField.code : LField → Nat
  | .base => 0
  | .len => 1
  | .tier => 2

/-- The `LField` of a code (R103), if it has one. -/
def LField.ofCode : Nat → Option LField
  | 0 => some .base
  | 1 => some .len
  | 2 => some .tier
  | _ => none

/-- Code of a `GOp` (R62). -/
def GOp.code : GOp → Nat
  | .add => 0
  | .min => 1
  | .max => 2
  | .and => 3
  | .or => 4
  | .xor => 5
  | .count => 6

/-- The `GOp` of a code (R62), if it has one. -/
def GOp.ofCode : Nat → Option GOp
  | 0 => some .add
  | 1 => some .min
  | 2 => some .max
  | 3 => some .and
  | 4 => some .or
  | 5 => some .xor
  | 6 => some .count
  | _ => none

/-- Code of a `PutMode` (R81). -/
def PutMode.code : PutMode → Nat
  | .val => 0
  | .ref => 1
  | .vec => 2

/-- The `PutMode` of a code (R81), if it has one. -/
def PutMode.ofCode : Nat → Option PutMode
  | 0 => some .val
  | 1 => some .ref
  | 2 => some .vec
  | _ => none

/-- Code of a `Fuse` (R179). -/
def Fuse.code : Fuse → Nat
  | .sep => 0
  | .kfuse => 1
  | .nfuse => 2
  | .full => 3

/-- The `Fuse` of a code (R179), if it has one. -/
def Fuse.ofCode : Nat → Option Fuse
  | 0 => some .sep
  | 1 => some .kfuse
  | 2 => some .nfuse
  | 3 => some .full
  | _ => none

/-- Code of a `TlbKind` (R241). -/
def TlbKind.code : TlbKind → Nat
  | .addr => 0
  | .vf => 1
  | .all => 2

/-- The `TlbKind` of a code (R241), if it has one. -/
def TlbKind.ofCode : Nat → Option TlbKind
  | 0 => some .addr
  | 1 => some .vf
  | 2 => some .all
  | _ => none

/-- Code of a `ResumeMode` (R241). -/
def ResumeMode.code : ResumeMode → Nat
  | .retry => 0
  | .kill => 1
  | .next => 2

/-- The `ResumeMode` of a code (R241), if it has one. -/
def ResumeMode.ofCode : Nat → Option ResumeMode
  | 0 => some .retry
  | 1 => some .kill
  | 2 => some .next
  | _ => none

/-- Code of a `VCond` (R243). -/
def VCond.code : VCond → Nat
  | .eq => 0
  | .ne => 1
  | .lt => 2
  | .le => 3
  | .gt => 4
  | .ge => 5
  | .unord => 6
  | .ord => 7

/-- The `VCond` of a code (R243), if it has one. -/
def VCond.ofCode : Nat → Option VCond
  | 0 => some .eq
  | 1 => some .ne
  | 2 => some .lt
  | 3 => some .le
  | 4 => some .gt
  | 5 => some .ge
  | 6 => some .unord
  | 7 => some .ord
  | _ => none

/-- Code of a `VLog` (R243). -/
def VLog.code : VLog → Nat
  | .and => 0
  | .or => 1
  | .xor => 2
  | .andn => 3
  | .not => 4
  | .select => 5

/-- The `VLog` of a code (R243), if it has one. -/
def VLog.ofCode : Nat → Option VLog
  | 0 => some .and
  | 1 => some .or
  | 2 => some .xor
  | 3 => some .andn
  | 4 => some .not
  | 5 => some .select
  | _ => none

/-- Code of a `VMode` (R243). -/
def VMode.code : VMode → Nat
  | .unit => 0
  | .strided => 1
  | .indexed => 2
  | .bcast => 3

/-- The `VMode` of a code (R243), if it has one. -/
def VMode.ofCode : Nat → Option VMode
  | 0 => some .unit
  | 1 => some .strided
  | 2 => some .indexed
  | 3 => some .bcast
  | _ => none

/-- Code of a `Spec` (R243). -/
def Spec.code : Spec → Nat
  | .exp2 => 0
  | .log2 => 1
  | .rcp => 2
  | .rsqrt => 3
  | .sqrt => 4
  | .tanh => 5
  | .sigmoid => 6
  | .erf => 7

/-- The `Spec` of a code (R243), if it has one. -/
def Spec.ofCode : Nat → Option Spec
  | 0 => some .exp2
  | 1 => some .log2
  | 2 => some .rcp
  | 3 => some .rsqrt
  | 4 => some .sqrt
  | 5 => some .tanh
  | 6 => some .sigmoid
  | 7 => some .erf
  | _ => none

/-- Code of a `VPermFn` (R243). -/
def VPermFn.code : VPermFn → Nat
  | .perm => 0
  | .bcast => 1
  | .sup => 2
  | .sdn => 3
  | .iota => 4
  | .comp => 5
  | .exp => 6
  | .ext => 7

/-- The `VPermFn` of a code (R243), if it has one. -/
def VPermFn.ofCode : Nat → Option VPermFn
  | 0 => some .perm
  | 1 => some .bcast
  | 2 => some .sup
  | 3 => some .sdn
  | 4 => some .iota
  | 5 => some .comp
  | 6 => some .exp
  | 7 => some .ext
  | _ => none

/-- Code of a `VRedFn` (R243). -/
def VRedFn.code : VRedFn → Nat
  | .sum => 0
  | .min => 1
  | .max => 2
  | .and => 3
  | .or => 4
  | .dot => 5
  | .first => 6
  | .count => 7

/-- The `VRedFn` of a code (R243), if it has one. -/
def VRedFn.ofCode : Nat → Option VRedFn
  | 0 => some .sum
  | 1 => some .min
  | 2 => some .max
  | 3 => some .and
  | 4 => some .or
  | 5 => some .dot
  | 6 => some .first
  | 7 => some .count
  | _ => none

/-- Code of a `Shape` (R242). -/
def Shape.code : Shape → Nat
  | .quad => 1
  | .acre => 2

/-- The `Shape` of a code (R242), if it has one. -/
def Shape.ofCode : Nat → Option Shape
  | 1 => some .quad
  | 2 => some .acre
  | _ => none

/-- A target field of 9 bits (R208). -/
def Tgt.ofCode (n : Nat) : Tgt :=
  if n = 511 then none else (Opnd.ofCode (n % 4)).map fun o => ⟨BitVec.ofNat 7 (n / 4), o⟩

/-- The 9 bits of a target field. -/
def Tgt.code : Tgt → Nat
  | none => 511
  | some t => 4 * t.slot.toNat + t.opnd.code

/-! ### Field readers of the forms (R225) -/

/-- Opcode, bits 31:25. -/
def fOp (n : Nat) : Nat := n / 33554432 % 128
/-- Bits 24:22: pm, ct or, in form P, the mask. -/
def fPm (n : Nat) : Nat := n / 4194304 % 8
/-- Bits 21:18: fn of forms I, E and V. -/
def fFn (n : Nat) : Nat := n / 262144 % 16
/-- Bits 17:9: t1 of forms I, G and V, imm9 of form E. -/
def fT1 (n : Nat) : Nat := n / 512 % 512
/-- Bits 8:0: t2, or the only target, or vf. -/
def fT2 (n : Nat) : Nat := n % 512
/-- Bits 21:9: imm13 of form K. -/
def fImm13 (n : Nat) : Nat := n / 512 % 8192
/-- Bits 21:19: cond of KT, ex of B and X, round of P. -/
def fEx (n : Nat) : Nat := n / 524288 % 8
/-- Bits 18:9: imm10 of form KT. -/
def fImm10 (n : Nat) : Nat := n / 512 % 1024
/-- Bits 21:17: lsid of forms L, S, VL and VS. -/
def fLsid (n : Nat) : Nat := n / 131072 % 32
/-- Bits 16:14: ty of forms L and S. -/
def fTy (n : Nat) : Nat := n / 16384 % 8
/-- Bits 13:9: imm5 of forms L and S. -/
def fImm5 (n : Nat) : Nat := n / 512 % 32
/-- Bits 18:0: off19 of form B. -/
def fOff19 (n : Nat) : Nat := n % 524288
/-- Bits 18:16: par3 of form X. -/
def fPar3 (n : Nat) : Nat := n / 65536 % 8
/-- Bits 15:0: off16 of form X. -/
def fOff16 (n : Nat) : Nat := n % 65536
/-- Bits 24:23: cls of forms G and W. -/
def fCls (n : Nat) : Nat := n / 8388608 % 4
/-- Bits 22:18: reg of forms G and W. -/
def fReg (n : Nat) : Nat := n / 262144 % 32
/-- Bits 16:13: ty4 of forms VL and VS. -/
def fTy4 (n : Nat) : Nat := n / 8192 % 16
/-- Bits 12:9: mode of forms VL and VS. -/
def fMode (n : Nat) : Nat := n / 512 % 16

/-! ### Steps of decoding -/

/-- The predicate of a slot that is no test (R211). -/
def getPm (n : Nat) : Except Refuse Pm := (Pm.ofCode (fPm n)).elim (.error .predicate) .ok
/-- A value of a named field, or the refusal of an unlisted value. -/
def listed {α : Type} (o : Option α) : Except Refuse α := o.elim (.error .field) .ok
/-- A condition that listed field values satisfy. -/
def need (b : Bool) : Except Refuse Unit := if b then .ok () else .error .field
/-- A target field that must be 1FFh (R246, R277). -/
def noTarget (n : Nat) : Except Refuse Unit := if n = 511 then .ok () else .error .target
/-- A one-bit field. -/
def flag (n : Nat) : Bool := n % 2 == 1


/-- Classes M and C have eight registers (R230). -/
def regOk (cls : Cls) (reg : Nat) : Bool := match cls with | .m | .c => decide (reg < 8) | _ => true
/-- UNORD and ORD exist for the float types only (R243). -/
def vcondOk (ty : ETy) (c : VCond) : Bool := match c with | .unord | .ord => !ty.isInt | _ => true
/-- The amount field of VSHIFT (R316). -/
def vshiftOk (ty : ETy) (var : Bool) (s : Nat) : Bool := if var then s == 0 else decide (s < ty.width)
/-- The and and or reductions exist for the integer types only (R243). -/
def vredOk (ty : ETy) (fn : VRedFn) : Bool := match fn with | .and | .or => ty.isInt | _ => true
/-- The immediate of VPERM (R243). -/
def vpermOk (ty : ETy) (fn : VPermFn) (s : Nat) : Bool :=
  match fn with | .sup | .sdn | .ext => decide (s < ty.lanes) | _ => s == 0
/-- VSPEC takes the types 8, 9 and 10 (R176). -/
def vspecOk (ty : ETy) : Bool := match ty with | .bf16 | .f16 | .f32 => true | _ => false

/-! ### One decoder for each opcode (R237 to R243) -/

/-- Decoding of opcode 01h. -/
def decode_rd (n : Nat) : Except Refuse Instr := do
  let cls ← listed (Cls.ofCode (fCls n))
  need (regOk cls (fReg n))
  return .rd cls (BitVec.ofNat 5 (fReg n)) (Tgt.ofCode (fT1 n)) (Tgt.ofCode (fT2 n))

/-- Decoding of opcode 02h. -/
def decode_wr (n : Nat) : Except Refuse Instr := do
  let cls ← listed (Cls.ofCode (fCls n))
  need (regOk cls (fReg n))
  need (n % 262144 == 0)
  return .wr cls (BitVec.ofNat 5 (fReg n))

/-- Decoding of opcode 03h. -/
def decode_mov (n : Nat) : Except Refuse Instr := do
  let pm ← getPm n
  need (fFn n == 0)
  return .mov pm (Tgt.ofCode (fT1 n)) (Tgt.ofCode (fT2 n))

/-- Decoding of opcode 04h. -/
def decode_null (n : Nat) : Except Refuse Instr := do
  let pm ← getPm n
  need (fFn n == 0)
  return .null pm (Tgt.ofCode (fT1 n)) (Tgt.ofCode (fT2 n))

/-- Decoding of opcode 05h. -/
def decode_geni (n : Nat) : Except Refuse Instr := do
  let pm ← getPm n
  return .geni pm (BitVec.ofNat 13 (fImm13 n)) (Tgt.ofCode (fT2 n))

/-- Decoding of opcode 06h. -/
def decode_genu (n : Nat) : Except Refuse Instr := do
  let pm ← getPm n
  return .genu pm (BitVec.ofNat 13 (fImm13 n)) (Tgt.ofCode (fT2 n))

/-- Decoding of opcode 07h. -/
def decode_genc (n : Nat) : Except Refuse Instr := do
  let pm ← getPm n
  return .genc pm (BitVec.ofNat 13 (fImm13 n)) (Tgt.ofCode (fT2 n))

/-- Decoding of opcode 08h. -/
def decode_br (n : Nat) : Except Refuse Instr := do
  let pm ← getPm n
  return .br pm (BitVec.ofNat 3 (fEx n)) (BitVec.ofNat 19 (fOff19 n))

/-- Decoding of opcode 09h. -/
def decode_bri (n : Nat) : Except Refuse Instr := do
  let pm ← getPm n
  need (fFn n < 8)
  noTarget (fT1 n)
  noTarget (fT2 n)
  return .bri pm (BitVec.ofNat 3 (fFn n))

/-- Decoding of opcode 0Ah. -/
def decode_call (n : Nat) : Except Refuse Instr := do
  let pm ← getPm n
  return .call pm (BitVec.ofNat 3 (fEx n)) (BitVec.ofNat 19 (fOff19 n))

/-- Decoding of opcode 0Bh. -/
def decode_ret (n : Nat) : Except Refuse Instr := do
  let pm ← getPm n
  need (fFn n < 8)
  noTarget (fT1 n)
  noTarget (fT2 n)
  return .ret pm (BitVec.ofNat 3 (fFn n))

/-- Decoding of opcode 0Ch. -/
def decode_trap (n : Nat) : Except Refuse Instr := do
  let pm ← getPm n
  noTarget (fT2 n)
  return .trap pm (BitVec.ofNat 13 (fImm13 n))

/-- Decoding of opcode 10h. -/
def decode_add (n : Nat) : Except Refuse Instr := do
  let pm ← getPm n
  need (fFn n < 2)
  return .add pm (flag (fFn n)) (Tgt.ofCode (fT1 n)) (Tgt.ofCode (fT2 n))

/-- Decoding of opcode 11h. -/
def decode_sub (n : Nat) : Except Refuse Instr := do
  let pm ← getPm n
  need (fFn n < 2)
  return .sub pm (flag (fFn n)) (Tgt.ofCode (fT1 n)) (Tgt.ofCode (fT2 n))

/-- Decoding of opcode 12h. -/
def decode_addi (n : Nat) : Except Refuse Instr := do
  let pm ← getPm n
  return .addi pm (BitVec.ofNat 13 (fImm13 n)) (Tgt.ofCode (fT2 n))

/-- Decoding of opcode 13h. -/
def decode_mul (n : Nat) : Except Refuse Instr := do
  let pm ← getPm n
  need (fFn n < 2)
  return .mul pm (flag (fFn n)) (Tgt.ofCode (fT1 n)) (Tgt.ofCode (fT2 n))

/-- Decoding of opcode 14h. -/
def decode_mulh (n : Nat) : Except Refuse Instr := do
  let pm ← getPm n
  let kind ← listed (MulhKind.ofCode (fFn n))
  return .mulh pm kind (Tgt.ofCode (fT1 n)) (Tgt.ofCode (fT2 n))

/-- Decoding of opcode 15h. -/
def decode_div (n : Nat) : Except Refuse Instr := do
  let pm ← getPm n
  let kind ← listed (DivKind.ofCode (fFn n))
  return .div pm kind (Tgt.ofCode (fT1 n)) (Tgt.ofCode (fT2 n))

/-- Decoding of opcode 16h. -/
def decode_rem (n : Nat) : Except Refuse Instr := do
  let pm ← getPm n
  let kind ← listed (DivKind.ofCode (fFn n))
  return .rem pm kind (Tgt.ofCode (fT1 n)) (Tgt.ofCode (fT2 n))

/-- Decoding of opcode 17h. -/
def decode_and (n : Nat) : Except Refuse Instr := do
  let pm ← getPm n
  need (fFn n < 2)
  return .and pm (flag (fFn n)) (Tgt.ofCode (fT1 n)) (Tgt.ofCode (fT2 n))

/-- Decoding of opcode 18h. -/
def decode_or (n : Nat) : Except Refuse Instr := do
  let pm ← getPm n
  need (fFn n < 2)
  return .or pm (flag (fFn n)) (Tgt.ofCode (fT1 n)) (Tgt.ofCode (fT2 n))

/-- Decoding of opcode 19h. -/
def decode_xor (n : Nat) : Except Refuse Instr := do
  let pm ← getPm n
  need (fFn n < 2)
  return .xor pm (flag (fFn n)) (Tgt.ofCode (fT1 n)) (Tgt.ofCode (fT2 n))

/-- Decoding of opcode 1Ah. -/
def decode_andi (n : Nat) : Except Refuse Instr := do
  let pm ← getPm n
  return .andi pm (BitVec.ofNat 13 (fImm13 n)) (Tgt.ofCode (fT2 n))

/-- Decoding of opcode 1Bh. -/
def decode_ori (n : Nat) : Except Refuse Instr := do
  let pm ← getPm n
  return .ori pm (BitVec.ofNat 13 (fImm13 n)) (Tgt.ofCode (fT2 n))

/-- Decoding of opcode 1Ch. -/
def decode_shl (n : Nat) : Except Refuse Instr := do
  let pm ← getPm n
  need (fFn n < 2)
  return .shl pm (flag (fFn n)) (Tgt.ofCode (fT1 n)) (Tgt.ofCode (fT2 n))

/-- Decoding of opcode 1Dh. -/
def decode_shr (n : Nat) : Except Refuse Instr := do
  let pm ← getPm n
  need (fFn n < 2)
  return .shr pm (flag (fFn n)) (Tgt.ofCode (fT1 n)) (Tgt.ofCode (fT2 n))

/-- Decoding of opcode 1Eh. -/
def decode_sha (n : Nat) : Except Refuse Instr := do
  let pm ← getPm n
  need (fFn n < 2)
  return .sha pm (flag (fFn n)) (Tgt.ofCode (fT1 n)) (Tgt.ofCode (fT2 n))

/-- Decoding of opcode 1Fh. -/
def decode_shi (n : Nat) : Except Refuse Instr := do
  let pm ← getPm n
  let kind ← listed (ShKind.ofCode (fImm13 n / 2048))
  need (fImm13 n / 128 % 16 == 0)
  need (!flag (fImm13 n / 64) || fImm13 n % 64 < 32)
  return .shi pm kind (flag (fImm13 n / 64)) (BitVec.ofNat 6 (fImm13 n % 64)) (Tgt.ofCode (fT2 n))

/-- Decoding of opcode 20h. -/
def decode_min (n : Nat) : Except Refuse Instr := do
  let pm ← getPm n
  need (fFn n < 4)
  return .min pm (flag (fFn n)) (flag (fFn n / 2)) (Tgt.ofCode (fT1 n)) (Tgt.ofCode (fT2 n))

/-- Decoding of opcode 21h. -/
def decode_max (n : Nat) : Except Refuse Instr := do
  let pm ← getPm n
  need (fFn n < 4)
  return .max pm (flag (fFn n)) (flag (fFn n / 2)) (Tgt.ofCode (fT1 n)) (Tgt.ofCode (fT2 n))

/-- Decoding of opcode 22h. -/
def decode_ext (n : Nat) : Except Refuse Instr := do
  let pm ← getPm n
  let kind ← listed (ExtKind.ofCode (fFn n))
  return .ext pm kind (Tgt.ofCode (fT1 n)) (Tgt.ofCode (fT2 n))

/-- Decoding of opcode 23h. -/
def decode_bfx (n : Nat) : Except Refuse Instr := do
  let pm ← getPm n
  need (fFn n < 4)
  return .bfx pm (flag (fFn n)) (flag (fFn n / 2)) (Tgt.ofCode (fT1 n)) (Tgt.ofCode (fT2 n))

/-- Decoding of opcode 24h. -/
def decode_bfi (n : Nat) : Except Refuse Instr := do
  let pm ← getPm n
  need (fFn n < 2)
  return .bfi pm (flag (fFn n)) (Tgt.ofCode (fT1 n)) (Tgt.ofCode (fT2 n))

/-- Decoding of opcode 25h. -/
def decode_cnt (n : Nat) : Except Refuse Instr := do
  let pm ← getPm n
  need (fFn n < 8)
  let kind ← listed (CntKind.ofCode (fFn n / 2))
  return .cnt pm (flag (fFn n)) kind (Tgt.ofCode (fT1 n)) (Tgt.ofCode (fT2 n))

/-- Decoding of opcode 26h. -/
def decode_sel (n : Nat) : Except Refuse Instr := do
  let pm ← getPm n
  need (fFn n == 0)
  return .sel pm (Tgt.ofCode (fT1 n)) (Tgt.ofCode (fT2 n))

/-- Decoding of opcode 28h. -/
def decode_test (n : Nat) : Except Refuse Instr := do
  let ct ← listed (Combine.ofCode (fPm n))
  let cond ← listed (Cond.ofCode (fFn n))
  return .test ct cond (Tgt.ofCode (fT1 n)) (Tgt.ofCode (fT2 n))

/-- Decoding of opcode 29h. -/
def decode_testi (n : Nat) : Except Refuse Instr := do
  let ct ← listed (Combine.ofCode (fPm n))
  let cond ← listed (Cond.ofCode (fEx n))
  return .testi ct cond (BitVec.ofNat 10 (fImm10 n)) (Tgt.ofCode (fT2 n))

/-- Decoding of opcode 2Ah. -/
def decode_ftest (n : Nat) : Except Refuse Instr := do
  let ct ← listed (Combine.ofCode (fPm n))
  let cond ← listed (FCond.ofCode (fFn n % 8))
  return .ftest ct (flag (fFn n / 8)) cond (Tgt.ofCode (fT1 n)) (Tgt.ofCode (fT2 n))

/-- Decoding of opcode 2Ch. -/
def decode_fadd (n : Nat) : Except Refuse Instr := do
  let pm ← getPm n
  let rnd ← listed (Rnd.ofCode (fFn n % 8))
  return .fadd pm (flag (fFn n / 8)) rnd (Tgt.ofCode (fT1 n)) (Tgt.ofCode (fT2 n))

/-- Decoding of opcode 2Dh. -/
def decode_fsub (n : Nat) : Except Refuse Instr := do
  let pm ← getPm n
  let rnd ← listed (Rnd.ofCode (fFn n % 8))
  return .fsub pm (flag (fFn n / 8)) rnd (Tgt.ofCode (fT1 n)) (Tgt.ofCode (fT2 n))

/-- Decoding of opcode 2Eh. -/
def decode_fmul (n : Nat) : Except Refuse Instr := do
  let pm ← getPm n
  let rnd ← listed (Rnd.ofCode (fFn n % 8))
  return .fmul pm (flag (fFn n / 8)) rnd (Tgt.ofCode (fT1 n)) (Tgt.ofCode (fT2 n))

/-- Decoding of opcode 2Fh. -/
def decode_fma (n : Nat) : Except Refuse Instr := do
  let pm ← getPm n
  let rnd ← listed (Rnd.ofCode (fFn n % 8))
  return .fma pm (flag (fFn n / 8)) rnd (Tgt.ofCode (fT1 n)) (Tgt.ofCode (fT2 n))

/-- Decoding of opcode 30h. -/
def decode_fdiv (n : Nat) : Except Refuse Instr := do
  let pm ← getPm n
  let rnd ← listed (Rnd.ofCode (fFn n % 8))
  return .fdiv pm (flag (fFn n / 8)) rnd (Tgt.ofCode (fT1 n)) (Tgt.ofCode (fT2 n))

/-- Decoding of opcode 31h. -/
def decode_fsqrt (n : Nat) : Except Refuse Instr := do
  let pm ← getPm n
  let rnd ← listed (Rnd.ofCode (fFn n % 8))
  return .fsqrt pm (flag (fFn n / 8)) rnd (Tgt.ofCode (fT1 n)) (Tgt.ofCode (fT2 n))

/-- Decoding of opcode 32h. -/
def decode_fmm (n : Nat) : Except Refuse Instr := do
  let pm ← getPm n
  need (fFn n / 2 % 4 == 0)
  return .fmm pm (flag (fFn n / 8)) (flag (fFn n)) (Tgt.ofCode (fT1 n)) (Tgt.ofCode (fT2 n))

/-- Decoding of opcode 33h. -/
def decode_fcvt (n : Nat) : Except Refuse Instr := do
  let pm ← getPm n
  let kind ← listed (CvtKind.ofCode (fFn n))
  return .fcvt pm kind (Tgt.ofCode (fT1 n)) (Tgt.ofCode (fT2 n))

/-- Decoding of opcode 34h. -/
def decode_ld (n : Nat) : Except Refuse Instr := do
  let pm ← getPm n
  let ty ← listed (Ty.ofCode (fTy n))
  return .ld pm (BitVec.ofNat 5 (fLsid n)) ty (BitVec.ofNat 5 (fImm5 n)) (Tgt.ofCode (fT2 n))

/-- Decoding of opcode 35h. -/
def decode_st (n : Nat) : Except Refuse Instr := do
  let pm ← getPm n
  let ty ← listed (Ty.ofCode (fTy n))
  need (fT2 n == 0)
  return .st pm (BitVec.ofNat 5 (fLsid n)) ty (BitVec.ofNat 5 (fImm5 n))

/-- Decoding of opcode 36h. -/
def decode_pld (n : Nat) : Except Refuse Instr := do
  let pm ← getPm n
  let ty ← listed (Ty.ofCode (fTy n))
  return .pld pm (BitVec.ofNat 5 (fLsid n)) ty (BitVec.ofNat 5 (fImm5 n)) (Tgt.ofCode (fT2 n))

/-- Decoding of opcode 37h. -/
def decode_pst (n : Nat) : Except Refuse Instr := do
  let pm ← getPm n
  let ty ← listed (Ty.ofCode (fTy n))
  need (fT2 n == 0)
  return .pst pm (BitVec.ofNat 5 (fLsid n)) ty (BitVec.ofNat 5 (fImm5 n))

/-- Decoding of opcode 38h. -/
def decode_amo (n : Nat) : Except Refuse Instr := do
  let pm ← getPm n
  let op ← listed (AmoOp.ofCode (fTy n))
  return .amo pm (BitVec.ofNat 5 (fLsid n)) op (BitVec.ofNat 5 (fImm5 n)) (Tgt.ofCode (fT2 n))

/-- Decoding of opcode 39h. -/
def decode_cas (n : Nat) : Except Refuse Instr := do
  let pm ← getPm n
  let ty ← listed (Ty.ofCode (fTy n))
  return .cas pm (BitVec.ofNat 5 (fLsid n)) ty (BitVec.ofNat 5 (fImm5 n)) (Tgt.ofCode (fT2 n))

/-- Decoding of opcode 3Ah. -/
def decode_cin (n : Nat) : Except Refuse Instr := do
  let pm ← getPm n
  need (fFn n % 8 == 0)
  need (flag (fFn n / 8) || fT1 n % 8 == 0)
  return .cin pm (BitVec.ofNat 6 (fT1 n / 8)) (if flag (fFn n / 8) then some (BitVec.ofNat 3 (fT1 n % 8)) else none) (Tgt.ofCode (fT2 n))

/-- Decoding of opcode 3Bh. -/
def decode_cout (n : Nat) : Except Refuse Instr := do
  let pm ← getPm n
  need (fFn n % 8 == 0)
  need (flag (fFn n / 8) || fT1 n % 8 == 0)
  return .cout pm (BitVec.ofNat 6 (fT1 n / 8)) (if flag (fFn n / 8) then some (BitVec.ofNat 3 (fT1 n % 8)) else none) (Tgt.ofCode (fT2 n))

/-- Decoding of opcode 3Ch. -/
def decode_cgath (n : Nat) : Except Refuse Instr := do
  let pm ← getPm n
  need (fFn n % 8 == 0)
  need (flag (fFn n / 8) || fT1 n % 8 == 0)
  return .cgath pm (BitVec.ofNat 6 (fT1 n / 8)) (if flag (fFn n / 8) then some (BitVec.ofNat 3 (fT1 n % 8)) else none) (Tgt.ofCode (fT2 n))

/-- Decoding of opcode 3Dh. -/
def decode_cscat (n : Nat) : Except Refuse Instr := do
  let pm ← getPm n
  need (fFn n % 8 == 0)
  need (flag (fFn n / 8) || fT1 n % 8 == 0)
  return .cscat pm (BitVec.ofNat 6 (fT1 n / 8)) (if flag (fFn n / 8) then some (BitVec.ofNat 3 (fT1 n % 8)) else none) (Tgt.ofCode (fT2 n))

/-- Decoding of opcode 3Eh. -/
def decode_cbank (n : Nat) : Except Refuse Instr := do
  let pm ← getPm n
  need (fFn n % 8 == 0)
  need (flag (fFn n / 8) || fT1 n % 8 == 0)
  return .cbank pm (BitVec.ofNat 6 (fT1 n / 8)) (if flag (fFn n / 8) then some (BitVec.ofNat 3 (fT1 n % 8)) else none) (Tgt.ofCode (fT2 n))

/-- Decoding of opcode 3Fh. -/
def decode_cfill (n : Nat) : Except Refuse Instr := do
  let pm ← getPm n
  need (fFn n % 8 == 0)
  need (flag (fFn n / 8) || fT1 n % 8 == 0)
  return .cfill pm (BitVec.ofNat 6 (fT1 n / 8)) (if flag (fFn n / 8) then some (BitVec.ofNat 3 (fT1 n % 8)) else none) (Tgt.ofCode (fT2 n))

/-- Decoding of opcode 40h. -/
def decode_wtany (n : Nat) : Except Refuse Instr := do
  let pm ← getPm n
  return .wtany pm (BitVec.ofNat 3 (fEx n)) (BitVec.ofNat 19 (fOff19 n))

/-- Decoding of opcode 41h. -/
def decode_wtall (n : Nat) : Except Refuse Instr := do
  let pm ← getPm n
  return .wtall pm (BitVec.ofNat 3 (fEx n)) (BitVec.ofNat 19 (fOff19 n))

/-- Decoding of opcode 42h. -/
def decode_tagff (n : Nat) : Except Refuse Instr := do
  let pm ← getPm n
  need (fFn n < 2)
  return .tagff pm (flag (fFn n)) (Tgt.ofCode (fT1 n)) (Tgt.ofCode (fT2 n))

/-- Decoding of opcode 43h. -/
def decode_tagclr (n : Nat) : Except Refuse Instr := do
  let pm ← getPm n
  need (fFn n == 0)
  return .tagclr pm (Tgt.ofCode (fT1 n)) (Tgt.ofCode (fT2 n))

/-- Decoding of opcode 44h. -/
def decode_wcnt (n : Nat) : Except Refuse Instr := do
  let pm ← getPm n
  return .wcnt pm (BitVec.ofNat 3 (fEx n)) (BitVec.ofNat 19 (fOff19 n))

/-- Decoding of opcode 45h. -/
def decode_bfmt (n : Nat) : Except Refuse Instr := do
  let pm ← getPm n
  need (fFn n == 0)
  need (fT1 n < 256)
  return .bfmt pm (BitVec.ofNat 4 (fT1 n / 16)) (BitVec.ofNat 4 (fT1 n % 16)) (Tgt.ofCode (fT2 n))

/-- Decoding of opcode 46h. -/
def decode_palloc (n : Nat) : Except Refuse Instr := do
  let pm ← getPm n
  need (fFn n < 2)
  need (fT1 n < 8)
  return .palloc pm (flag (fFn n)) (BitVec.ofNat 3 (fT1 n)) (Tgt.ofCode (fT2 n))

/-- Decoding of opcode 47h. -/
def decode_pfree (n : Nat) : Except Refuse Instr := do
  let pm ← getPm n
  need (fFn n == 0)
  need (fT1 n < 8)
  return .pfree pm (BitVec.ofNat 3 (fT1 n)) (Tgt.ofCode (fT2 n))

/-- Decoding of opcode 48h. -/
def decode_lsplit (n : Nat) : Except Refuse Instr := do
  let pm ← getPm n
  need (fFn n == 0)
  need (fT1 n < 8)
  return .lsplit pm (BitVec.ofNat 3 (fT1 n)) (Tgt.ofCode (fT2 n))

/-- Decoding of opcode 49h. -/
def decode_lgive (n : Nat) : Except Refuse Instr := do
  let pm ← getPm n
  need (fFn n == 0)
  need (fT1 n < 8)
  return .lgive pm (BitVec.ofNat 3 (fT1 n)) (Tgt.ofCode (fT2 n))

/-- Decoding of opcode 4Ah. -/
def decode_seal (n : Nat) : Except Refuse Instr := do
  let pm ← getPm n
  need (fFn n == 0)
  need (fT1 n < 8)
  return .seal pm (BitVec.ofNat 3 (fT1 n)) (Tgt.ofCode (fT2 n))

/-- Decoding of opcode 4Bh. -/
def decode_unseal (n : Nat) : Except Refuse Instr := do
  let pm ← getPm n
  return .unseal pm (BitVec.ofNat 3 (fEx n)) (BitVec.ofNat 3 (fPar3 n)) (BitVec.ofNat 16 (fOff16 n))

/-- Decoding of opcode 4Ch. -/
def decode_shopen (n : Nat) : Except Refuse Instr := do
  let pm ← getPm n
  need (fFn n == 0)
  return .shopen pm (Tgt.ofCode (fT1 n)) (Tgt.ofCode (fT2 n))

/-- Decoding of opcode 4Dh. -/
def decode_shclose (n : Nat) : Except Refuse Instr := do
  let pm ← getPm n
  need (fFn n == 0)
  return .shclose pm (Tgt.ofCode (fT1 n)) (Tgt.ofCode (fT2 n))

/-- Decoding of opcode 4Eh. -/
def decode_lbase (n : Nat) : Except Refuse Instr := do
  let pm ← getPm n
  let field ← listed (LField.ofCode (fFn n))
  need (fT1 n < 16)
  return .lbase pm field (flag (fT1 n / 8)) (BitVec.ofNat 3 (fT1 n % 8)) (Tgt.ofCode (fT2 n))

/-- Decoding of opcode 4Fh. -/
def decode_spawn (n : Nat) : Except Refuse Instr := do
  let pm ← getPm n
  need (fFn n < 4)
  need (fT1 n < 128)
  return .spawn pm (flag (fFn n)) (flag (fFn n / 2)) (BitVec.ofNat 4 (fT1 n / 8)) (BitVec.ofNat 3 (fT1 n % 8)) (Tgt.ofCode (fT2 n))

/-- Decoding of opcode 50h. -/
def decode_retire (n : Nat) : Except Refuse Instr := do
  let pm ← getPm n
  need (fFn n < 8)
  noTarget (fT1 n)
  noTarget (fT2 n)
  return .retire pm (BitVec.ofNat 3 (fFn n))

/-- Decoding of opcode 51h. -/
def decode_yield (n : Nat) : Except Refuse Instr := do
  let pm ← getPm n
  need (fPar3 n == 0)
  return .yield pm (BitVec.ofNat 3 (fEx n)) (BitVec.ofNat 16 (fOff16 n))

/-- Decoding of opcode 52h. -/
def decode_sleep (n : Nat) : Except Refuse Instr := do
  let pm ← getPm n
  need (fPar3 n == 0)
  return .sleep pm (BitVec.ofNat 3 (fEx n)) (BitVec.ofNat 16 (fOff16 n))

/-- Decoding of opcode 53h. -/
def decode_gang (n : Nat) : Except Refuse Instr := do
  let pm ← getPm n
  let shape ← listed (Shape.ofCode (fPar3 n))
  return .gang pm (BitVec.ofNat 3 (fEx n)) shape (BitVec.ofNat 16 (fOff16 n))

/-- Decoding of opcode 54h. -/
def decode_split (n : Nat) : Except Refuse Instr := do
  let pm ← getPm n
  need (fPar3 n == 0)
  return .split pm (BitVec.ofNat 3 (fEx n)) (BitVec.ofNat 16 (fOff16 n))

/-- Decoding of opcode 55h. -/
def decode_meet (n : Nat) : Except Refuse Instr := do
  let pm ← getPm n
  need (fPar3 n == 0)
  return .meet pm (BitVec.ofNat 3 (fEx n)) (BitVec.ofNat 16 (fOff16 n))

/-- Decoding of opcode 56h. -/
def decode_gather (n : Nat) : Except Refuse Instr := do
  let pm ← getPm n
  let op ← listed (GOp.ofCode (fPar3 n))
  return .gather pm (BitVec.ofNat 3 (fEx n)) op (BitVec.ofNat 16 (fOff16 n))

/-- Decoding of opcode 57h. -/
def decode_part (n : Nat) : Except Refuse Instr := do
  let pm ← getPm n
  need (fPar3 n == 0)
  return .part pm (BitVec.ofNat 3 (fEx n)) (BitVec.ofNat 16 (fOff16 n))

/-- Decoding of opcode 58h. -/
def decode_xrd (n : Nat) : Except Refuse Instr := do
  let pm ← getPm n
  let cls ← listed (Cls.ofCode (fFn n))
  return .xrd pm cls (Tgt.ofCode (fT1 n)) (Tgt.ofCode (fT2 n))

/-- Decoding of opcode 59h. -/
def decode_cenv (n : Nat) : Except Refuse Instr := do
  let pm ← getPm n
  need (fFn n == 0)
  need (fT1 n == 0)
  return .cenv pm (Tgt.ofCode (fT2 n))

/-- Decoding of opcode 5Ah. -/
def decode_cput (n : Nat) : Except Refuse Instr := do
  let pm ← getPm n
  need (fImm13 n < 128)
  let mode ← listed (PutMode.ofCode (fImm13 n / 32))
  return .cput pm mode (BitVec.ofNat 5 (fImm13 n % 32)) (Tgt.ofCode (fT2 n))

/-- Decoding of opcode 5Bh. -/
def decode_cdrop (n : Nat) : Except Refuse Instr := do
  need (fCls n == 3)
  need (fReg n < 8)
  need (n % 262144 == 0)
  return .cdrop (BitVec.ofNat 3 (fReg n))

/-- Decoding of opcode 5Ch. -/
def decode_envrd (n : Nat) : Except Refuse Instr := do
  let pm ← getPm n
  let ty ← listed (Ty.ofCode (fTy n))
  need (fImm5 n < 30)
  return .envrd pm (BitVec.ofNat 5 (fLsid n)) ty (BitVec.ofNat 5 (fImm5 n)) (Tgt.ofCode (fT2 n))

/-- Decoding of opcode 5Dh. -/
def decode_envwr (n : Nat) : Except Refuse Instr := do
  let pm ← getPm n
  let ty ← listed (Ty.ofCode (fTy n))
  need (fImm5 n < 30)
  need (fT2 n == 0)
  return .envwr pm (BitVec.ofNat 5 (fLsid n)) ty (BitVec.ofNat 5 (fImm5 n))

/-- Decoding of opcode 5Eh. -/
def decode_apply (n : Nat) : Except Refuse Instr := do
  let pm ← getPm n
  need (fOff16 n == 0)
  return .apply pm (BitVec.ofNat 3 (fEx n)) (BitVec.ofNat 3 (fPar3 n))

/-- Decoding of opcode 5Fh. -/
def decode_vapply (n : Nat) : Except Refuse Instr := do
  let pm ← getPm n
  return .vapply pm (BitVec.ofNat 3 (fEx n)) (BitVec.ofNat 3 (fPar3 n)) (BitVec.ofNat 16 (fOff16 n))

/-- Decoding of opcode 60h. -/
def decode_mfuse (n : Nat) : Except Refuse Instr := do
  let pm ← getPm n
  need (fFn n == 0)
  need (fT1 n < 4)
  let mode ← listed (Fuse.ofCode (fT1 n))
  return .mfuse pm mode (Tgt.ofCode (fT2 n))

/-- Decoding of opcode 61h. -/
def decode_mwload (n : Nat) : Except Refuse Instr := do
  let pm ← getPm n
  need (fFn n < 2)
  need (fT1 n == 0)
  return .mwload pm (flag (fFn n)) (Tgt.ofCode (fT2 n))

/-- Decoding of opcode 62h. -/
def decode_mwswap (n : Nat) : Except Refuse Instr := do
  let pm ← getPm n
  need (fFn n == 0)
  need (fT1 n == 0)
  return .mwswap pm (Tgt.ofCode (fT2 n))

/-- Decoding of opcode 63h. -/
def decode_mstream (n : Nat) : Except Refuse Instr := do
  let pm ← getPm n
  need (fFn n < 2)
  need (fT1 n < 16)
  return .mstream pm (flag (fFn n)) (flag (fT1 n / 8)) (BitVec.ofNat 3 (fT1 n % 8)) (Tgt.ofCode (fT2 n))

/-- Decoding of opcode 64h. -/
def decode_mstore (n : Nat) : Except Refuse Instr := do
  let pm ← getPm n
  need (fFn n == 0)
  need (fT1 n < 8)
  return .mstore pm (BitVec.ofNat 3 (fT1 n)) (Tgt.ofCode (fT2 n))

/-- Decoding of opcode 65h. -/
def decode_mrel (n : Nat) : Except Refuse Instr := do
  let pm ← getPm n
  need (fFn n == 0)
  need (fT1 n < 256)
  return .mrel pm (BitVec.ofNat 8 (fT1 n)) (Tgt.ofCode (fT2 n))

/-- Decoding of opcode 66h. -/
def decode_mwait (n : Nat) : Except Refuse Instr := do
  let pm ← getPm n
  need (fFn n == 0)
  return .mwait pm (Tgt.ofCode (fT1 n)) (Tgt.ofCode (fT2 n))

/-- Decoding of opcode 67h. -/
def decode_mldacc (n : Nat) : Except Refuse Instr := do
  let pm ← getPm n
  need (fFn n == 0)
  need (fT1 n < 16)
  return .mldacc pm (flag (fT1 n / 8)) (BitVec.ofNat 3 (fT1 n % 8)) (Tgt.ofCode (fT2 n))

/-- Decoding of opcode 68h. -/
def decode_srd (n : Nat) : Except Refuse Instr := do
  let pm ← getPm n
  need (sregAssigned (fImm13 n))
  return .srd pm (BitVec.ofNat 13 (fImm13 n)) (Tgt.ofCode (fT2 n))

/-- Decoding of opcode 69h. -/
def decode_swr (n : Nat) : Except Refuse Instr := do
  let pm ← getPm n
  need (sregWritable (fImm13 n))
  return .swr pm (BitVec.ofNat 13 (fImm13 n)) (Tgt.ofCode (fT2 n))

/-- Decoding of opcode 6Ah. -/
def decode_tlbinv (n : Nat) : Except Refuse Instr := do
  let pm ← getPm n
  let kind ← listed (TlbKind.ofCode (fFn n))
  return .tlbinv pm kind (Tgt.ofCode (fT1 n)) (Tgt.ofCode (fT2 n))

/-- Decoding of opcode 6Bh. -/
def decode_scrub (n : Nat) : Except Refuse Instr := do
  let pm ← getPm n
  need (fFn n == 0)
  need (fT1 n == 0)
  return .scrub pm (Tgt.ofCode (fT2 n))

/-- Decoding of opcode 6Ch. -/
def decode_killq (n : Nat) : Except Refuse Instr := do
  let pm ← getPm n
  need (fFn n == 0)
  return .killq pm (Tgt.ofCode (fT1 n)) (Tgt.ofCode (fT2 n))

/-- Decoding of opcode 6Dh. -/
def decode_resume (n : Nat) : Except Refuse Instr := do
  let pm ← getPm n
  let mode ← listed (ResumeMode.ofCode (fFn n))
  return .resume pm mode (Tgt.ofCode (fT1 n)) (Tgt.ofCode (fT2 n))

/-- Decoding of opcode 6Eh. -/
def decode_hcall (n : Nat) : Except Refuse Instr := do
  let pm ← getPm n
  need (fPar3 n == 0)
  return .hcall pm (BitVec.ofNat 3 (fEx n)) (BitVec.ofNat 16 (fOff16 n))

/-- Decoding of opcode 70h. -/
def decode_vadd (n : Nat) : Except Refuse Instr := do
  let pm ← getPm n
  let ty ← listed (ETy.ofCode (fFn n))
  need ty.plain
  return .vadd pm ty (Tgt.ofCode (fT1 n)) (Tgt.ofCode (fT2 n))

/-- Decoding of opcode 71h. -/
def decode_vsub (n : Nat) : Except Refuse Instr := do
  let pm ← getPm n
  let ty ← listed (ETy.ofCode (fFn n))
  need ty.plain
  return .vsub pm ty (Tgt.ofCode (fT1 n)) (Tgt.ofCode (fT2 n))

/-- Decoding of opcode 72h. -/
def decode_vmul (n : Nat) : Except Refuse Instr := do
  let pm ← getPm n
  let ty ← listed (ETy.ofCode (fFn n))
  need ty.plain
  return .vmul pm ty (Tgt.ofCode (fT1 n)) (Tgt.ofCode (fT2 n))

/-- Decoding of opcode 73h. -/
def decode_vfma (n : Nat) : Except Refuse Instr := do
  let pm ← getPm n
  let ty ← listed (ETy.ofCode (fFn n))
  need ty.plain
  return .vfma pm ty (Tgt.ofCode (fT1 n)) (Tgt.ofCode (fT2 n))

/-- Decoding of opcode 74h. -/
def decode_vmin (n : Nat) : Except Refuse Instr := do
  let pm ← getPm n
  let ty ← listed (ETy.ofCode (fFn n))
  need ty.plain
  return .vmin pm ty (Tgt.ofCode (fT1 n)) (Tgt.ofCode (fT2 n))

/-- Decoding of opcode 75h. -/
def decode_vmax (n : Nat) : Except Refuse Instr := do
  let pm ← getPm n
  let ty ← listed (ETy.ofCode (fFn n))
  need ty.plain
  return .vmax pm ty (Tgt.ofCode (fT1 n)) (Tgt.ofCode (fT2 n))

/-- Decoding of opcode 76h. -/
def decode_vcmp (n : Nat) : Except Refuse Instr := do
  let pm ← getPm n
  let ty ← listed (ETy.ofCode (fFn n))
  let cond ← listed (VCond.ofCode (fT2 n))
  need (ty.plain && vcondOk ty cond)
  return .vcmp pm ty cond (Tgt.ofCode (fT1 n))

/-- Decoding of opcode 77h. -/
def decode_vlogic (n : Nat) : Except Refuse Instr := do
  let pm ← getPm n
  let ty ← listed (ETy.ofCode (fFn n))
  let fn ← listed (VLog.ofCode (fT2 n))
  need ty.plain
  return .vlogic pm ty fn (Tgt.ofCode (fT1 n))

/-- Decoding of opcode 78h. -/
def decode_vshift (n : Nat) : Except Refuse Instr := do
  let pm ← getPm n
  let ty ← listed (ETy.ofCode (fFn n))
  let kind ← listed (ShKind.ofCode (fT2 n / 128))
  need (ty.isInt && vshiftOk ty (flag (fT2 n / 64)) (fT2 n % 64))
  return .vshift pm ty kind (flag (fT2 n / 64)) (BitVec.ofNat 6 (fT2 n % 64)) (Tgt.ofCode (fT1 n))

/-- Decoding of opcode 79h. -/
def decode_vcvt (n : Nat) : Except Refuse Instr := do
  let pm ← getPm n
  let src ← listed (ETy.ofCode (fFn n))
  need (fT2 n < 64)
  let dst ← listed (ETy.ofCode (fT2 n % 16))
  need (src.plain && dst.plain && cvtPartOk src dst (fT2 n / 16))
  return .vcvt pm src dst (BitVec.ofNat 2 (fT2 n / 16)) (Tgt.ofCode (fT1 n))

/-- Decoding of opcode 7Ah. -/
def decode_vld (n : Nat) : Except Refuse Instr := do
  let pm ← getPm n
  let ty ← listed (ETy.ofCode (fTy4 n))
  let mode ← listed (VMode.ofCode (fMode n))
  return .vld pm (BitVec.ofNat 5 (fLsid n)) ty mode (Tgt.ofCode (fT2 n))

/-- Decoding of opcode 7Bh. -/
def decode_vst (n : Nat) : Except Refuse Instr := do
  let pm ← getPm n
  let ty ← listed (ETy.ofCode (fTy4 n))
  let mode ← listed (VMode.ofCode (fMode n))
  need (ty.plain && mode != .bcast)
  need (fT2 n == 0)
  return .vst pm (BitVec.ofNat 5 (fLsid n)) ty mode

/-- Decoding of opcode 7Ch. -/
def decode_vred (n : Nat) : Except Refuse Instr := do
  let pm ← getPm n
  let ty ← listed (ETy.ofCode (fFn n))
  let fn ← listed (VRedFn.ofCode (fT2 n))
  need (ty.plain && vredOk ty fn)
  return .vred pm ty fn (Tgt.ofCode (fT1 n))

/-- Decoding of opcode 7Dh. -/
def decode_vperm (n : Nat) : Except Refuse Instr := do
  let pm ← getPm n
  let ty ← listed (ETy.ofCode (fFn n))
  let fn ← listed (VPermFn.ofCode (fT2 n / 64))
  need (ty.plain && vpermOk ty fn (fT2 n % 64))
  return .vperm pm ty fn (BitVec.ofNat 6 (fT2 n % 64)) (Tgt.ofCode (fT1 n))

/-- Decoding of opcode 7Eh. -/
def decode_vspec (n : Nat) : Except Refuse Instr := do
  let pm ← getPm n
  let ty ← listed (ETy.ofCode (fFn n))
  let fn ← listed (Spec.ofCode (fT2 n))
  need (vspecOk ty)
  return .vspec pm ty fn (Tgt.ofCode (fT1 n))

/-- Decoding of a slot word, by its opcode (R237). Every word gives an instruction or the reason why it is none. -/
def decodeNat (n : Nat) : Except Refuse Instr :=
  match fOp n with
  | 0x01 => decode_rd n
  | 0x02 => decode_wr n
  | 0x03 => decode_mov n
  | 0x04 => decode_null n
  | 0x05 => decode_geni n
  | 0x06 => decode_genu n
  | 0x07 => decode_genc n
  | 0x08 => decode_br n
  | 0x09 => decode_bri n
  | 0x0a => decode_call n
  | 0x0b => decode_ret n
  | 0x0c => decode_trap n
  | 0x10 => decode_add n
  | 0x11 => decode_sub n
  | 0x12 => decode_addi n
  | 0x13 => decode_mul n
  | 0x14 => decode_mulh n
  | 0x15 => decode_div n
  | 0x16 => decode_rem n
  | 0x17 => decode_and n
  | 0x18 => decode_or n
  | 0x19 => decode_xor n
  | 0x1a => decode_andi n
  | 0x1b => decode_ori n
  | 0x1c => decode_shl n
  | 0x1d => decode_shr n
  | 0x1e => decode_sha n
  | 0x1f => decode_shi n
  | 0x20 => decode_min n
  | 0x21 => decode_max n
  | 0x22 => decode_ext n
  | 0x23 => decode_bfx n
  | 0x24 => decode_bfi n
  | 0x25 => decode_cnt n
  | 0x26 => decode_sel n
  | 0x28 => decode_test n
  | 0x29 => decode_testi n
  | 0x2a => decode_ftest n
  | 0x2c => decode_fadd n
  | 0x2d => decode_fsub n
  | 0x2e => decode_fmul n
  | 0x2f => decode_fma n
  | 0x30 => decode_fdiv n
  | 0x31 => decode_fsqrt n
  | 0x32 => decode_fmm n
  | 0x33 => decode_fcvt n
  | 0x34 => decode_ld n
  | 0x35 => decode_st n
  | 0x36 => decode_pld n
  | 0x37 => decode_pst n
  | 0x38 => decode_amo n
  | 0x39 => decode_cas n
  | 0x3a => decode_cin n
  | 0x3b => decode_cout n
  | 0x3c => decode_cgath n
  | 0x3d => decode_cscat n
  | 0x3e => decode_cbank n
  | 0x3f => decode_cfill n
  | 0x40 => decode_wtany n
  | 0x41 => decode_wtall n
  | 0x42 => decode_tagff n
  | 0x43 => decode_tagclr n
  | 0x44 => decode_wcnt n
  | 0x45 => decode_bfmt n
  | 0x46 => decode_palloc n
  | 0x47 => decode_pfree n
  | 0x48 => decode_lsplit n
  | 0x49 => decode_lgive n
  | 0x4a => decode_seal n
  | 0x4b => decode_unseal n
  | 0x4c => decode_shopen n
  | 0x4d => decode_shclose n
  | 0x4e => decode_lbase n
  | 0x4f => decode_spawn n
  | 0x50 => decode_retire n
  | 0x51 => decode_yield n
  | 0x52 => decode_sleep n
  | 0x53 => decode_gang n
  | 0x54 => decode_split n
  | 0x55 => decode_meet n
  | 0x56 => decode_gather n
  | 0x57 => decode_part n
  | 0x58 => decode_xrd n
  | 0x59 => decode_cenv n
  | 0x5a => decode_cput n
  | 0x5b => decode_cdrop n
  | 0x5c => decode_envrd n
  | 0x5d => decode_envwr n
  | 0x5e => decode_apply n
  | 0x5f => decode_vapply n
  | 0x60 => decode_mfuse n
  | 0x61 => decode_mwload n
  | 0x62 => decode_mwswap n
  | 0x63 => decode_mstream n
  | 0x64 => decode_mstore n
  | 0x65 => decode_mrel n
  | 0x66 => decode_mwait n
  | 0x67 => decode_mldacc n
  | 0x68 => decode_srd n
  | 0x69 => decode_swr n
  | 0x6a => decode_tlbinv n
  | 0x6b => decode_scrub n
  | 0x6c => decode_killq n
  | 0x6d => decode_resume n
  | 0x6e => decode_hcall n
  | 0x70 => decode_vadd n
  | 0x71 => decode_vsub n
  | 0x72 => decode_vmul n
  | 0x73 => decode_vfma n
  | 0x74 => decode_vmin n
  | 0x75 => decode_vmax n
  | 0x76 => decode_vcmp n
  | 0x77 => decode_vlogic n
  | 0x78 => decode_vshift n
  | 0x79 => decode_vcvt n
  | 0x7a => decode_vld n
  | 0x7b => decode_vst n
  | 0x7c => decode_vred n
  | 0x7d => decode_vperm n
  | 0x7e => decode_vspec n
  | 0x7F => .error .pfx
  | _ => .error .opcode

/-- Decoding of a slot word. -/
def decodeWord (w : Word32) : Except Refuse Instr := decodeNat w.toNat

/-- Decoding of a prefix word (R229): none where a field has an unlisted value, or the word is no prefix. Which
fields an instruction allows is R198, checked with the block. -/
def decodePfx (w : Word32) : Option Pfx :=
  let n := w.toNat
  if fOp n = 0x7F ∧ n % 32 = 0 then
    (Rnd.ofCode (fEx n)).map fun r =>
      ⟨BitVec.ofNat 3 (fPm n), r, flag (n / 262144), flag (n / 131072), flag (n / 65536), BitVec.ofNat 3 (n / 8192),
        BitVec.ofNat 8 (n / 32)⟩
  else none

/-- The bytes of a slot word as memory holds them, least significant first (R150, R203). -/
def wordBytes (w : Word32) : List Byte :=
  [BitVec.ofNat 8 w.toNat, BitVec.ofNat 8 (w.toNat / 256), BitVec.ofNat 8 (w.toNat / 65536),
    BitVec.ofNat 8 (w.toNat / 16777216)]

/-- Decoding of bytes: the first instruction and the bytes after it, or the reason why there is none. -/
def decodeBytes : List Byte → Except Refuse (Instr × List Byte)
  | a :: b :: c :: d :: rest =>
    match decodeNat (a.toNat + 256 * b.toNat + 65536 * c.toNat + 16777216 * d.toNat) with
    | .ok i => .ok (i, rest)
    | .error e => .error e
  | _ => .error .field

/-- The instruction this decoder reads from a table row's word: the word's bytes as memory holds them, decoded. -/
def decodeTableWord (nbits w : Nat) : Option Instr :=
  if nbits ≤ 32 then
    match decodeBytes (wordBytes (BitVec.ofNat 32 w)) with
    | .ok (i, _) => some i
    | .error _ => none
  else none

/-! ### The encoder (R225, R237 to R243) -/

/-- Form I. -/
def encI (op pm fn : Nat) (t1 t2 : Tgt) : Nat := op * 33554432 + pm * 4194304 + fn * 262144 + t1.code * 512 + t2.code
/-- Form K. -/
def encK (op pm imm : Nat) (t1 : Tgt) : Nat := op * 33554432 + pm * 4194304 + imm * 512 + t1.code
/-- Form KT. -/
def encKT (op ct cond imm : Nat) (t1 : Tgt) : Nat :=
  op * 33554432 + ct * 4194304 + cond * 524288 + imm * 512 + t1.code
/-- Forms L and S. -/
def encL (op pm lsid ty imm t1 : Nat) : Nat :=
  op * 33554432 + pm * 4194304 + lsid * 131072 + ty * 16384 + imm * 512 + t1
/-- Form B. -/
def encB (op pm ex off : Nat) : Nat := op * 33554432 + pm * 4194304 + ex * 524288 + off
/-- Form X. -/
def encX (op pm ex par off : Nat) : Nat := op * 33554432 + pm * 4194304 + ex * 524288 + par * 65536 + off
/-- Forms G and W. -/
def encG (op cls reg t1 t2 : Nat) : Nat := op * 33554432 + cls * 8388608 + reg * 262144 + t1 * 512 + t2
/-- Form E. -/
def encE (op pm fn imm : Nat) (t1 : Tgt) : Nat := op * 33554432 + pm * 4194304 + fn * 262144 + imm * 512 + t1.code
/-- Form V. -/
def encV (op pm fn : Nat) (t1 : Tgt) (vf : Nat) : Nat :=
  op * 33554432 + pm * 4194304 + fn * 262144 + t1.code * 512 + vf
/-- Forms VL and VS. -/
def encVL (op pm lsid ty mode t1 : Nat) : Nat :=
  op * 33554432 + pm * 4194304 + lsid * 131072 + ty * 8192 + mode * 512 + t1

/-- The word of a slot instruction, as a number; 0, which is no instruction, for a device event. -/
def encodeNat : Instr → Nat
  | .rd cls reg t1 t2 => encG 0x1 cls.code reg.toNat t1.code t2.code
  | .wr cls reg => encG 0x2 cls.code reg.toNat 0 0
  | .mov pm t1 t2 => encI 0x3 pm.code (0) t1 t2
  | .null pm t1 t2 => encI 0x4 pm.code (0) t1 t2
  | .geni pm imm t1 => encK 0x5 pm.code imm.toNat t1
  | .genu pm imm t1 => encK 0x6 pm.code imm.toNat t1
  | .genc pm imm t1 => encK 0x7 pm.code imm.toNat t1
  | .br pm ex off => encB 0x8 pm.code ex.toNat off.toNat
  | .bri pm ex => encI 0x9 pm.code ex.toNat none none
  | .call pm ex off => encB 0xa pm.code ex.toNat off.toNat
  | .ret pm ex => encI 0xb pm.code ex.toNat none none
  | .trap pm num => encK 0xC pm.code num.toNat none
  | .add pm w32 t1 t2 => encI 0x10 pm.code (w32.toNat) t1 t2
  | .sub pm w32 t1 t2 => encI 0x11 pm.code (w32.toNat) t1 t2
  | .addi pm imm t1 => encK 0x12 pm.code imm.toNat t1
  | .mul pm w32 t1 t2 => encI 0x13 pm.code (w32.toNat) t1 t2
  | .mulh pm kind t1 t2 => encI 0x14 pm.code (kind.code) t1 t2
  | .div pm kind t1 t2 => encI 0x15 pm.code (kind.code) t1 t2
  | .rem pm kind t1 t2 => encI 0x16 pm.code (kind.code) t1 t2
  | .and pm w32 t1 t2 => encI 0x17 pm.code (w32.toNat) t1 t2
  | .or pm w32 t1 t2 => encI 0x18 pm.code (w32.toNat) t1 t2
  | .xor pm w32 t1 t2 => encI 0x19 pm.code (w32.toNat) t1 t2
  | .andi pm imm t1 => encK 0x1a pm.code imm.toNat t1
  | .ori pm imm t1 => encK 0x1b pm.code imm.toNat t1
  | .shl pm w32 t1 t2 => encI 0x1c pm.code (w32.toNat) t1 t2
  | .shr pm w32 t1 t2 => encI 0x1d pm.code (w32.toNat) t1 t2
  | .sha pm w32 t1 t2 => encI 0x1e pm.code (w32.toNat) t1 t2
  | .shi pm kind w32 amount t1 => encK 0x1F pm.code (2048 * kind.code + 64 * w32.toNat + amount.toNat) t1
  | .min pm w32 uns t1 t2 => encI 0x20 pm.code (w32.toNat + 2 * uns.toNat) t1 t2
  | .max pm w32 uns t1 t2 => encI 0x21 pm.code (w32.toNat + 2 * uns.toNat) t1 t2
  | .ext pm kind t1 t2 => encI 0x22 pm.code (kind.code) t1 t2
  | .bfx pm w32 sign t1 t2 => encI 0x23 pm.code (w32.toNat + 2 * sign.toNat) t1 t2
  | .bfi pm w32 t1 t2 => encI 0x24 pm.code (w32.toNat) t1 t2
  | .cnt pm w32 kind t1 t2 => encI 0x25 pm.code (w32.toNat + 2 * kind.code) t1 t2
  | .sel pm t1 t2 => encI 0x26 pm.code (0) t1 t2
  | .test ct cond t1 t2 => encI 0x28 ct.code cond.code t1 t2
  | .testi ct cond imm t1 => encKT 0x29 ct.code cond.code imm.toNat t1
  | .ftest ct f64 cond t1 t2 => encI 0x2A ct.code (8 * f64.toNat + cond.code) t1 t2
  | .fadd pm f64 rnd t1 t2 => encI 0x2c pm.code (8 * f64.toNat + rnd.code) t1 t2
  | .fsub pm f64 rnd t1 t2 => encI 0x2d pm.code (8 * f64.toNat + rnd.code) t1 t2
  | .fmul pm f64 rnd t1 t2 => encI 0x2e pm.code (8 * f64.toNat + rnd.code) t1 t2
  | .fma pm f64 rnd t1 t2 => encI 0x2f pm.code (8 * f64.toNat + rnd.code) t1 t2
  | .fdiv pm f64 rnd t1 t2 => encI 0x30 pm.code (8 * f64.toNat + rnd.code) t1 t2
  | .fsqrt pm f64 rnd t1 t2 => encI 0x31 pm.code (8 * f64.toNat + rnd.code) t1 t2
  | .fmm pm f64 max t1 t2 => encI 0x32 pm.code (8 * f64.toNat + max.toNat) t1 t2
  | .fcvt pm kind t1 t2 => encI 0x33 pm.code (kind.code) t1 t2
  | .ld pm lsid ty imm t1 => encL 0x34 pm.code lsid.toNat ty.code imm.toNat t1.code
  | .st pm lsid ty imm => encL 0x35 pm.code lsid.toNat ty.code imm.toNat 0
  | .pld pm lsid ty imm t1 => encL 0x36 pm.code lsid.toNat ty.code imm.toNat t1.code
  | .pst pm lsid ty imm => encL 0x37 pm.code lsid.toNat ty.code imm.toNat 0
  | .amo pm lsid op imm t1 => encL 0x38 pm.code lsid.toNat op.code imm.toNat t1.code
  | .cas pm lsid ty imm t1 => encL 0x39 pm.code lsid.toNat ty.code imm.toNat t1.code
  | .cin pm tag clo t1 => encE 0x3a pm.code (match clo with | none => 0 | some _ => 8) (8 * tag.toNat + (match clo with | none => 0 | some c => c.toNat)) t1
  | .cout pm tag clo t1 => encE 0x3b pm.code (match clo with | none => 0 | some _ => 8) (8 * tag.toNat + (match clo with | none => 0 | some c => c.toNat)) t1
  | .cgath pm tag clo t1 => encE 0x3c pm.code (match clo with | none => 0 | some _ => 8) (8 * tag.toNat + (match clo with | none => 0 | some c => c.toNat)) t1
  | .cscat pm tag clo t1 => encE 0x3d pm.code (match clo with | none => 0 | some _ => 8) (8 * tag.toNat + (match clo with | none => 0 | some c => c.toNat)) t1
  | .cbank pm tag clo t1 => encE 0x3e pm.code (match clo with | none => 0 | some _ => 8) (8 * tag.toNat + (match clo with | none => 0 | some c => c.toNat)) t1
  | .cfill pm tag clo t1 => encE 0x3f pm.code (match clo with | none => 0 | some _ => 8) (8 * tag.toNat + (match clo with | none => 0 | some c => c.toNat)) t1
  | .wtany pm ex off => encB 0x40 pm.code ex.toNat off.toNat
  | .wtall pm ex off => encB 0x41 pm.code ex.toNat off.toNat
  | .tagff pm clr t1 t2 => encI 0x42 pm.code (clr.toNat) t1 t2
  | .tagclr pm t1 t2 => encI 0x43 pm.code (0) t1 t2
  | .wcnt pm ex off => encB 0x44 pm.code ex.toNat off.toNat
  | .bfmt pm bank fmt t1 => encE 0x45 pm.code 0 (16 * bank.toNat + fmt.toNat) t1
  | .palloc pm cxl k t1 => encE 0x46 pm.code cxl.toNat k.toNat t1
  | .pfree pm k t1 => encE 0x47 pm.code 0 k.toNat t1
  | .lsplit pm k t1 => encE 0x48 pm.code 0 k.toNat t1
  | .lgive pm k t1 => encE 0x49 pm.code 0 k.toNat t1
  | .seal pm k t1 => encE 0x4a pm.code 0 k.toNat t1
  | .unseal pm ex k off => encX 0x4b pm.code ex.toNat (k.toNat) off.toNat
  | .shopen pm t1 t2 => encI 0x4c pm.code (0) t1 t2
  | .shclose pm t1 t2 => encI 0x4d pm.code (0) t1 t2
  | .lbase pm field shelf k t1 => encE 0x4E pm.code field.code (8 * shelf.toNat + k.toNat) t1
  | .spawn pm share region banks c t1 => encE 0x4F pm.code (share.toNat + 2 * region.toNat) (8 * banks.toNat + c.toNat) t1
  | .retire pm ex => encI 0x50 pm.code ex.toNat none none
  | .yield pm ex off => encX 0x51 pm.code ex.toNat (0) off.toNat
  | .sleep pm ex off => encX 0x52 pm.code ex.toNat (0) off.toNat
  | .gang pm ex shape off => encX 0x53 pm.code ex.toNat (shape.code) off.toNat
  | .split pm ex off => encX 0x54 pm.code ex.toNat (0) off.toNat
  | .meet pm ex off => encX 0x55 pm.code ex.toNat (0) off.toNat
  | .gather pm ex op off => encX 0x56 pm.code ex.toNat (op.code) off.toNat
  | .part pm ex off => encX 0x57 pm.code ex.toNat (0) off.toNat
  | .xrd pm cls t1 t2 => encI 0x58 pm.code (cls.code) t1 t2
  | .cenv pm t1 => encE 0x59 pm.code 0 0 t1
  | .cput pm mode w t1 => encK 0x5A pm.code (32 * mode.code + w.toNat) t1
  | .cdrop c => encG 0x5B 3 c.toNat 0 0
  | .envrd pm lsid ty w t1 => encL 0x5C pm.code lsid.toNat ty.code w.toNat t1.code
  | .envwr pm lsid ty w => encL 0x5D pm.code lsid.toNat ty.code w.toNat 0
  | .apply pm ex c => encX 0x5e pm.code ex.toNat (c.toNat) 0
  | .vapply pm ex m off => encX 0x5f pm.code ex.toNat (m.toNat) off.toNat
  | .mfuse pm mode t1 => encE 0x60 pm.code 0 mode.code t1
  | .mwload pm sparse t1 => encE 0x61 pm.code sparse.toNat 0 t1
  | .mwswap pm t1 => encE 0x62 pm.code 0 0 t1
  | .mstream pm zb ow tile t1 => encE 0x63 pm.code zb.toNat (8 * ow.toNat + tile.toNat) t1
  | .mstore pm tile t1 => encE 0x64 pm.code 0 tile.toNat t1
  | .mrel pm mask t1 => encE 0x65 pm.code 0 mask.toNat t1
  | .mwait pm t1 t2 => encI 0x66 pm.code (0) t1 t2
  | .mldacc pm i32 tile t1 => encE 0x67 pm.code 0 (8 * i32.toNat + tile.toNat) t1
  | .srd pm num t1 => encK 0x68 pm.code num.toNat t1
  | .swr pm num t1 => encK 0x69 pm.code num.toNat t1
  | .tlbinv pm kind t1 t2 => encI 0x6a pm.code (kind.code) t1 t2
  | .scrub pm t1 => encE 0x6B pm.code 0 0 t1
  | .killq pm t1 t2 => encI 0x6c pm.code (0) t1 t2
  | .resume pm mode t1 t2 => encI 0x6d pm.code (mode.code) t1 t2
  | .hcall pm ex off => encX 0x6e pm.code ex.toNat (0) off.toNat
  | .vadd pm ty t1 t2 => encI 0x70 pm.code (ty.code) t1 t2
  | .vsub pm ty t1 t2 => encI 0x71 pm.code (ty.code) t1 t2
  | .vmul pm ty t1 t2 => encI 0x72 pm.code (ty.code) t1 t2
  | .vfma pm ty t1 t2 => encI 0x73 pm.code (ty.code) t1 t2
  | .vmin pm ty t1 t2 => encI 0x74 pm.code (ty.code) t1 t2
  | .vmax pm ty t1 t2 => encI 0x75 pm.code (ty.code) t1 t2
  | .vcmp pm ty cond t1 => encV 0x76 pm.code ty.code t1 (cond.code)
  | .vlogic pm ty fn t1 => encV 0x77 pm.code ty.code t1 (fn.code)
  | .vshift pm ty kind var amount t1 => encV 0x78 pm.code ty.code t1 (128 * kind.code + 64 * var.toNat + amount.toNat)
  | .vcvt pm src dst part t1 => encV 0x79 pm.code src.code t1 (16 * part.toNat + dst.code)
  | .vld pm lsid ty mode t1 => encVL 0x7A pm.code lsid.toNat ty.code mode.code t1.code
  | .vst pm lsid ty mode => encVL 0x7B pm.code lsid.toNat ty.code mode.code 0
  | .vred pm ty fn t1 => encV 0x7c pm.code ty.code t1 (fn.code)
  | .vperm pm ty fn s t1 => encV 0x7d pm.code ty.code t1 (64 * fn.code + s.toNat)
  | .vspec pm ty fn t1 => encV 0x7e pm.code ty.code t1 (fn.code)
  | .blockStart .. | .blockCommit .. | .blockFault .. | .copyComplete .. | .translationWalk ..
  | .matrixCommandStart .. | .matrixCommandComplete .. | .launch .. | .dispatch .. | .writeBack ..
  | .priorityAging .. | .gangReservation .. | .retireEffect .. | .killFinish .. | .sleepDeadline ..
  | .meetArrival .. | .gatherArrival .. | .meetExpiry .. | .gatherExpiry .. | .deskKill .. | .pairPlacement ..
  | .travelArrival .. | .landingNotice .. | .partLanding .. | .preemptionRequest .. | .preemptAbortDeadline ..
  | .preemptSave .. | .sliceEnd .. | .scheduleLaunch .. | .vfCommit .. | .vfCommitDone .. | .vfSave ..
  | .vfRestore .. | .scrubClearDone .. | .doorbell .. | .loanAllocate .. | .loanFree .. | .podCatalogueWrite ..
  | .hostWindowWrite .. | .hostWindowRead .. | .flitReceive .. | .linkReplay .. | .laneRetrainCommand ..
  | .endToEndAck .. | .messageRetry .. | .ptpMessage .. | .cxlPortDown .. | .powerMeasure .. | .coreGate ..
  | .droop .. | .thermalEvent .. | .thermalThrottleStep .. | .fatalError .. | .correctedError ..
  | .uncorrectedError .. | .regulatorPhaseFail .. | .patrolScrub .. | .patrolScrubEnable ..
  | .patrolScrubDisable .. | .coldReset .. | .warmReset .. | .firmwareImage .. | .attestationRequest ..
  | .keyExport .. | .keyImport .. | .keyImportExpiry .. | .blackboxRead .. | .blackboxUnfreeze ..
  | .linkRetrainDone .. | .droopRecovery .. | .cxlPortUp .. | .pageRetirementDone .. => 0

/-- The word of a slot instruction (R225). -/
def encode (i : Instr) : Word32 := BitVec.ofNat 32 (encodeNat i)

end Sys2Proof
end

