-- ==== Sys2Proof/Machine/Float.lean ====
section
/-!
DEFINITION. Floating-point numbers (R152 to R161, R167 to R171): values are exact fractions with a sign, an operation
computes its exact result, and one rounding brings it into its format.
-/
namespace Sys2Proof.Machine

/-- A floating-point format (R152): exponent and fraction width, bias, and whether it has infinities. -/
structure FFmt where
  ebits : Nat
  fbits : Nat
  bias  : Nat
  inf   : Bool
deriving DecidableEq, Repr

/-- An exact value: NaN, an infinity, or a signed fraction. A zero keeps its sign. -/
inductive Num where
  | nan
  | inf (neg : Bool)
  | fin (neg : Bool) (n d : Nat)
deriving DecidableEq, Repr, Inhabited

/-- FP64 (R152). -/
def fp64 : FFmt := ⟨11, 52, 1023, true⟩
/-- FP32 (R152). -/
def fp32 : FFmt := ⟨8, 23, 127, true⟩
/-- FP16 (R152). -/
def fp16 : FFmt := ⟨5, 10, 15, true⟩
/-- BF16 (R152). -/
def bf16 : FFmt := ⟨8, 7, 127, true⟩
/-- E4M3 (R152): exponent 15 is normal, except with fraction 7, which is NaN. -/
def e4m3 : FFmt := ⟨4, 3, 7, false⟩
/-- E5M2 (R152). -/
def e5m2 : FFmt := ⟨5, 2, 15, true⟩

/-- Width of a format in bits. -/
def FFmt.width (f : FFmt) : Nat := f.ebits + f.fbits + 1

/-- The exponent field of all ones. -/
def FFmt.emax (f : FFmt) : Nat := 2 ^ f.ebits - 1

/-- Bits of the largest finite value (R152). -/
def FFmt.maxFin (f : FFmt) : Nat :=
  if f.inf then f.emax * 2 ^ f.fbits - 1 else 2 ^ (f.ebits + f.fbits) - 2

/-- Bits of the canonical NaN (R152). -/
def FFmt.nan (f : FFmt) : Nat :=
  if f.inf then f.emax * 2 ^ f.fbits + 2 ^ (f.fbits - 1) else 2 ^ (f.ebits + f.fbits) - 1

/-- The sign bit. -/
def FFmt.sign (f : FFmt) (neg : Bool) : Nat := if neg then 2 ^ (f.ebits + f.fbits) else 0

/-- Bits of an infinity. -/
def FFmt.infBits (f : FFmt) (neg : Bool) : Nat := f.emax * 2 ^ f.fbits + f.sign neg

/-- `n · 2^e / d` as a fraction. -/
def scale2 (n d : Nat) (e : Int) : Nat × Nat :=
  if e < 0 then (n, d * 2 ^ (-e).toNat) else (n * 2 ^ e.toNat, d)

/-- The value of the bits of a format (R152, R153); higher bits are ignored. -/
def FFmt.read (f : FFmt) (bits : Nat) : Num :=
  let m := bits % 2 ^ (f.ebits + f.fbits)
  let neg := bits / 2 ^ (f.ebits + f.fbits) % 2 == 1
  let e := m / 2 ^ f.fbits
  let fr := m % 2 ^ f.fbits
  if f.inf && e == f.emax then (if fr == 0 then .inf neg else .nan)
  else if !f.inf && m == 2 ^ (f.ebits + f.fbits) - 1 then .nan
  else
    let (n, ex) := if e == 0 then (fr, 1) else (fr + 2 ^ f.fbits, e)
    let q := scale2 n 1 ((ex : Int) - f.bias - f.fbits)
    .fin neg q.1 q.2

/-- The greatest `k` with `2^k ≤ n / d`, for `n, d > 0`. -/
def floorLog2 (n d : Nat) : Int :=
  let k : Int := (Nat.log2 n : Int) - Nat.log2 d
  let (a, b) := scale2 1 1 k
  if n * b < a * d then k - 1 else k

/-- Whether a magnitude between `q` and `q + 1` units rounds up: `r / d` is the discarded fraction (R156). Stochastic
rounding compares the top 32 discarded bits with the generator's (R158; a shorter field decides alike). -/
def roundUp (rnd : Rnd) (neg : Bool) (q r d rho : Nat) : Bool :=
  if r == 0 then false
  else match rnd with
    | .rne => 2 * r > d || (2 * r == d && q % 2 == 1)
    | .rtz => false
    | .rdn => neg
    | .rup => !neg
    | .rna => 2 * r ≥ d
    | .rs => r * 2 ^ 32 / d + rho ≥ 2 ^ 32

/-- The overflow result of a format (R157, R161). -/
def FFmt.overflow (f : FFmt) (rnd : Rnd) (sat neg : Bool) : Nat :=
  if sat then f.maxFin + f.sign neg
  else if !f.inf then f.nan
  else match rnd, neg with
    | .rtz, _ => f.maxFin + f.sign neg
    | .rdn, false => f.maxFin
    | .rup, true => f.maxFin + f.sign true
    | _, _ => f.infBits neg

/-- An exact value rounded once to a format (R156, R157, R161). `rho` is the generator's 32 bits (R158). -/
def FFmt.round (f : FFmt) (rnd : Rnd) (sat : Bool) (rho : Nat) : Num → Nat
  | .nan => f.nan
  | .inf neg => if f.inf then f.infBits neg else if sat then f.maxFin + f.sign neg else f.nan
  | .fin neg n d =>
    if n == 0 then f.sign neg
    else
      let qe : Int := Max.max (floorLog2 n d - f.fbits) (1 - (f.bias : Int) - f.fbits)
      let (a, b) := scale2 n d (-qe)
      let q := a / b
      let q' := if roundUp rnd neg q (a % b) b rho then q + 1 else q
      let m := ((qe + f.fbits + f.bias - 1).toNat) * 2 ^ f.fbits + q'
      if m > f.maxFin then f.overflow rnd sat neg else m + f.sign neg

/-- Whether an exact value needs rounding in a format is not asked: rounding an exact value returns it. The negation. -/
def Num.neg : Num → Num
  | .nan => .nan
  | .inf s => .inf (!s)
  | .fin s n d => .fin (!s) n d

/-- An integer as an exact value. -/
def Num.ofInt (i : Int) : Num := .fin (i < 0) i.natAbs 1

/-- The exact sum (R154): opposite infinities are invalid; a zero sum of opposite signs is +0, or −0 under RDN. -/
def Num.add (rnd : Rnd) : Num → Num → Num
  | .nan, _ => .nan
  | _, .nan => .nan
  | .inf s, .inf t => if s == t then .inf s else .nan
  | .inf s, .fin .. => .inf s
  | .fin .., .inf t => .inf t
  | .fin s n d, .fin t m e =>
    let a := n * e
    let b := m * d
    if s == t then .fin s (a + b) (d * e)
    else if a > b then .fin s (a - b) (d * e)
    else if b > a then .fin t (b - a) (d * e)
    else .fin (rnd == .rdn) 0 1

/-- The exact product (R154): 0 × ∞ is invalid. -/
def Num.mul : Num → Num → Num
  | .nan, _ => .nan
  | _, .nan => .nan
  | .inf s, .inf t => .inf (s != t)
  | .inf s, .fin t m _ => if m == 0 then .nan else .inf (s != t)
  | .fin s n _, .inf t => if n == 0 then .nan else .inf (s != t)
  | .fin s n d, .fin t m e => .fin (s != t) (n * m) (d * e)

/-- The exact quotient (R154, R273): 0 ÷ 0 and ∞ ÷ ∞ are invalid; a nonzero value over zero is infinite. -/
def Num.div : Num → Num → Num
  | .nan, _ => .nan
  | _, .nan => .nan
  | .inf _, .inf _ => .nan
  | .inf s, .fin t _ _ => .inf (s != t)
  | .fin s _ _, .inf t => .fin (s != t) 0 1
  | .fin s n d, .fin t m e =>
    if m == 0 then (if n == 0 then .nan else .inf (s != t)) else .fin (s != t) (n * e) (d * m)

/-- Integer square root by bits from the top. -/
def isqrtAux : Nat → Nat → Nat → Nat
  | 0, _, r => r
  | k + 1, n, r => if (r + 2 ^ k) * (r + 2 ^ k) ≤ n then isqrtAux k n (r + 2 ^ k) else isqrtAux k n r

/-- The integer square root. -/
def isqrt (n : Nat) : Nat := isqrtAux (Nat.log2 n / 2 + 1) n 0

/-- The square root (R177, R274). An inexact root is given as a fraction with 160 bits after the leading bit whose
last place marks that it is inexact; every rounding of it is that of the true root. -/
def Num.sqrt : Num → Num
  | .nan => .nan
  | .inf s => if s then .nan else .inf false
  | .fin s n d =>
    if n == 0 then .fin s 0 1
    else if s then .nan
    else
      let k := 2 * (160 + Nat.log2 d)
      let num := n * d * 2 ^ k
      let r := isqrt num
      if r * r == num then .fin false r (d * 2 ^ (k / 2)) else .fin false (2 * r + 1) (d * 2 ^ (k / 2 + 1))

/-- The order of two values that are not NaN, −0 equal to +0: `some .lt` and so on; none when a NaN is present. -/
def Num.cmp : Num → Num → Option Ordering
  | .nan, _ => none
  | _, .nan => none
  | .inf s, .inf t => some (if s == t then .eq else if s then .lt else .gt)
  | .inf s, .fin .. => some (if s then .lt else .gt)
  | .fin .., .inf t => some (if t then .gt else .lt)
  | .fin s n d, .fin t m e =>
    let a : Int := (if s then -(n : Int) else n) * e
    let b : Int := (if t then -(m : Int) else m) * d
    some (if a < b then .lt else if b < a then .gt else .eq)

/-- Whether a value is negative, a zero by its sign. -/
def Num.isNeg : Num → Bool
  | .nan => false
  | .inf s => s
  | .fin s _ _ => s

/-- The smaller of two values (R155): −0 below +0; NaN if any is. -/
def Num.min (a b : Num) : Num :=
  match a.cmp b with
  | none => .nan
  | some .lt => a
  | some .gt => b
  | some .eq => if a.isNeg then a else b

/-- The larger of two values (R155). -/
def Num.max (a b : Num) : Num :=
  match a.cmp b with
  | none => .nan
  | some .lt => b
  | some .gt => a
  | some .eq => if a.isNeg then b else a

/-- A value rounded to an integer (R168): NaN gives none; an infinity gives its sign. -/
def Num.roundInt (rnd : Rnd) (rho : Nat) : Num → Option (Bool ⊕ Int)
  | .nan => none
  | .inf s => some (.inl s)
  | .fin s n d =>
    let q := n / d
    let m := if roundUp rnd s q (n % d) d rho then q + 1 else q
    some (.inr (if s then -(m : Int) else m))

/-- Limits an integer to a range. -/
def clampInt (lo hi i : Int) : Int := if i < lo then lo else if hi < i then hi else i

/-- The range of a `w`-bit integer. -/
def intRange (signed : Bool) (w : Nat) : Int × Int :=
  if signed then (-(2 : Int) ^ (w - 1), (2 : Int) ^ (w - 1) - 1) else (0, (2 : Int) ^ w - 1)

/-- A float-to-integer conversion, clamped to the destination's range; NaN gives 0 (R168). -/
def Num.toIntClamp (rnd : Rnd) (rho : Nat) (signed : Bool) (w : Nat) (x : Num) : Int :=
  let (lo, hi) := intRange signed w
  match x.roundInt rnd rho with
  | none => 0
  | some (.inl true) => lo
  | some (.inl false) => hi
  | some (.inr i) => clampInt lo hi i

/-- The bits of an integer at width `w`. -/
def intBits (w : Nat) (i : Int) : Nat := (i % (2 : Int) ^ w).toNat

/-- The integer that `w` bits denote. -/
def bitsInt (signed : Bool) (w n : Nat) : Int :=
  let m := n % 2 ^ w
  if signed && m ≥ 2 ^ (w - 1) then (m : Int) - 2 ^ w else m

/-- One advance of the generator (R158). -/
def seedNext (x : Word) : Word :=
  let x := x ^^^ (x <<< 13)
  let x := x ^^^ (x >>> 7)
  x ^^^ (x <<< 17)

/-- `n` advances of the generator (R159). -/
def seedAdvance : Nat → Word → Word
  | 0, x => x
  | n + 1, x => seedAdvance n (seedNext x)

/-- The 32 bits that the generator gives to a position (R158). -/
def seedRho (x : Word) : Nat := x.toNat / 2 ^ 32

end Sys2Proof.Machine

namespace Sys2Proof

/-- The format of a float element type. -/
def ETy.ffmt : ETy → Machine.FFmt
  | .bf16 => Machine.bf16
  | .f16 => Machine.fp16
  | .e4m3 => Machine.e4m3
  | .e5m2 => Machine.e5m2
  | _ => Machine.fp32

end Sys2Proof
end

