-- ==== Sys2Proof/Machine/Memory.lean ====
section
/-!
DEFINITION. Byte memories: lists of (address, byte) in one canonical form, addresses strictly rising and no entry
equal to 0, which is what an unlisted address reads as. Physical memory and every activity's carrel are such lists.
Little-endian access (R150), CRC-16 and CRC-32 (R11, R411).
-/
namespace Sys2Proof.Machine

/-- What an address that is not listed reads as: 0 (R105, R129 for loans and banks; HBM is zeroed, R432). -/
def Memory.unlisted : Byte := 0

/-- The byte at an address. -/
def Memory.get : List Host.Cell → Nat → Byte
  | [], _ => Memory.unlisted
  | (k, b) :: m, a => if k = a then b else Memory.get m a

/-- Writes one byte, keeping the canonical form. -/
def Memory.set : List Host.Cell → Nat → Byte → List Host.Cell
  | [], a, b => if b = Memory.unlisted then [] else [(a, b)]
  | (k, c) :: m, a, b =>
    if a < k then (if b = Memory.unlisted then (k, c) :: m else (a, b) :: (k, c) :: m)
    else if a = k then (if b = Memory.unlisted then m else (a, b) :: m)
    else (k, c) :: Memory.set m a b

/-- Every address above a bound, strictly rising, no unlisted value stored. -/
def Memory.wfFrom : Nat → List Host.Cell → Bool
  | _, [] => true
  | lo, (k, b) :: m => decide (lo ≤ k) && decide (b ≠ Memory.unlisted) && Memory.wfFrom (k + 1) m

/-- The canonical form. -/
def Memory.wf (m : List Host.Cell) : Bool := Memory.wfFrom 0 m

/-- The bytes of a range. -/
def Memory.read (m : List Host.Cell) (a : Nat) : Nat → List Byte
  | 0 => []
  | n + 1 => Memory.get m a :: Memory.read m (a + 1) n

/-- Writes bytes from an address upwards. -/
def Memory.write : List Host.Cell → Nat → List Byte → List Host.Cell
  | m, _, [] => m
  | m, a, b :: bs => Memory.write (Memory.set m a b) (a + 1) bs

/-- Writes a list of (address, byte), later entries over earlier ones. -/
def Memory.writeList : List Host.Cell → List (Nat × Byte) → List Host.Cell
  | m, [] => m
  | m, (a, b) :: r => Memory.writeList (Memory.set m a b) r

/-- Keeps the part of a memory outside `lo ≤ a < hi`. -/
def Memory.clear (lo hi : Nat) (m : List Host.Cell) : List Host.Cell :=
  m.filter fun c => decide (c.1 < lo) || decide (hi ≤ c.1)

/-- The little-endian number of a list of bytes (R150). -/
def leNat : List Byte → Nat
  | [] => 0
  | b :: bs => b.toNat + 256 * leNat bs

/-- The `n` little-endian bytes of a number (R150). -/
def leBytes : Nat → Nat → List Byte
  | 0, _ => []
  | n + 1, v => BitVec.ofNat 8 v :: leBytes n (v / 256)

/-- The number in `n` bytes at an address. -/
def Memory.readNat (m : List Host.Cell) (a n : Nat) : Nat := leNat (Memory.read m a n)

/-- One bit of a CRC (R11): shift left, reduce by the polynomial. -/
def crcBits (width poly : Nat) : Nat → Nat → Nat
  | 0, c => c
  | k + 1, c =>
    let d := c * 2 % 2 ^ width
    crcBits width poly k (if c / 2 ^ (width - 1) % 2 = 1 then d ^^^ poly else d)

/-- A CRC without reflection or final inversion. -/
def crc (width poly : Nat) : Nat → List Byte → Nat
  | c, [] => c
  | c, b :: bs => crc width poly (crcBits width poly 8 (c ^^^ (b.toNat * 2 ^ (width - 8)))) bs

/-- CRC-16 of R11: polynomial 1021h, initial value FFFFh. -/
def crc16 (bs : List Byte) : Nat := crc 16 0x1021 0xFFFF bs

/-- CRC-32 of R411: polynomial 04C11DB7h, initial value FFFFFFFFh. -/
def crc32 (bs : List Byte) : Nat := crc 32 0x04C11DB7 0xFFFFFFFF bs

/-- The bytes of 64-bit words. -/
def wordsBytes : List Word → List Byte
  | [] => []
  | w :: ws => leBytes 8 w.toNat ++ wordsBytes ws

/-- `n` 64-bit words at an address. -/
def Memory.words (m : List Host.Cell) (a : Nat) : Nat → List Word
  | 0 => []
  | n + 1 => BitVec.ofNat 64 (Memory.readNat m a 8) :: Memory.words m (a + 8) n

/-- The update of an association list. -/
def assocSet {α : Type} (k : Nat) (v : α) (l : List (Nat × α)) : List (Nat × α) :=
  (k, v) :: l.filter fun p => p.1 != k

/-- The value of a key in an association list. -/
def assocGet {α : Type} (k : Nat) : List (Nat × α) → Option α
  | [] => none
  | (j, v) :: l => if j = k then some v else assocGet k l

/-- `[a, a + 1, …]`, `n` numbers. -/
def upFrom (a : Nat) : Nat → List Nat
  | 0 => []
  | n + 1 => a :: upFrom (a + 1) n

end Sys2Proof.Machine
end

