-- ==== Sys2Proof/Machine/Ops.lean ====
section
/-!
DEFINITION. The named operations over the state that every other file uses: activities, functions, regions and their
budgets, the part's topology, physical memory with translation and encryption, page charges, environments and
handles, serials and records.
-/
namespace Sys2Proof.Machine

/-! ### Activities and functions -/

/-- The activity with an identity. -/
def State.act (s : State) (a : Aid) : Option Act := s.acts.find? fun x => x.id = a

/-- Replaces an activity by one of the same identity. -/
def State.setAct (s : State) (x : Act) : State :=
  { s with acts := s.acts.map fun y => if y.id = x.id then x else y }

/-- Changes an activity, if it exists. -/
def State.modAct (s : State) (a : Aid) (f : Act → Act) : State :=
  { s with acts := s.acts.map fun y => if y.id = a then f y else y }

/-- A function's state; functions above 16 read as off. -/
def State.fn (s : State) (v : Nat) : Func := s.funcs.getD v Func.off

/-- Replaces a function's state. -/
def State.setFn (s : State) (v : Nat) (f : Func) : State := { s with funcs := s.funcs.set v f }

/-- Changes a function's state. -/
def State.modFn (s : State) (v : Nat) (g : Func → Func) : State := s.setFn v (g (s.fn v))

/-- A fresh number of the model (free values, order of becoming ready, commands, messages). -/
def State.tick (s : State) : Nat × State := (s.fresh, { s with fresh := s.fresh + 1 })

/-- The gang of an activity. -/
def State.gangOf (s : State) (x : Act) : Option Gang :=
  match x.gang with
  | none => none
  | some (lead, _) => s.gangs.find? fun g => g.fn = x.id.fn ∧ g.lead = lead

/-- Replaces a gang. -/
def State.setGang (s : State) (g : Gang) : State :=
  { s with gangs := s.gangs.map fun h => if h.fn = g.fn ∧ h.lead = g.lead then g else h }

/-- The members of an activity's gang in member order, or the activity alone. -/
def State.crew (s : State) (x : Act) : List Act :=
  match s.gangOf x with
  | none => [x]
  | some g => g.members.filterMap fun n => s.act ⟨g.fn, n⟩

/-- Physical function activities hold hypervisor privilege (R326). -/
def Act.hyper (x : Act) : Bool := x.id.fn == 0

/-! ### Regions (R22 to R26) -/

/-- A region of a function by index. -/
def Func.region (f : Func) (g : Nat) : Option Region := f.regions.find? fun r => r.idx = g

/-- A region after a write of fields of its entry (R22, R23). DESIGN CHOICE (assumption log 80): an entry whose check
code has failed goes on failing it, so that no write hides the error, until another region takes its place in the table.
-/
def Region.write (r : Region) (f : Region → Region) : Region := { f r with bad := r.bad }

/-- Changes a region. -/
def State.modRegion (s : State) (v g : Nat) (f : Region → Region) : State :=
  s.modFn v fun fn => { fn with regions := fn.regions.map fun r => if r.idx = g then r.write f else r }

/-- A region and its ancestors, nearest first; trees are at most 8 levels deep. -/
def chainAux (f : Func) : Nat → Nat → List Region
  | 0, _ => []
  | k + 1, g =>
    match f.region g with
    | none => []
    | some r => r :: (match r.parent with | none => [] | some p => chainAux f k p)

/-- A region and its ancestors. -/
def Func.chain (f : Func) (g : Nat) : List Region := chainAux f 8 g

/-- Whether a region has its own value of a setting: a root treats every bit as set (R24). -/
def Region.owns (r : Region) (bit : Nat) : Bool := r.parent.isNone || r.ovr.getLsbD bit

/-- The effective value of an inheritable setting (R24). -/
def Func.effective {α : Type} (f : Func) (g bit : Nat) (sel : Region → α) (dflt : α) : α :=
  match (f.chain g).find? fun r => r.owns bit with
  | none => dflt
  | some r => sel r

/-- The effective strict flag (R24, bit 8). -/
def Func.strict (f : Func) (g : Nat) : Bool := f.effective g 8 (·.strict) false

/-- The base priority of a region's activities (R26). -/
def Func.baseprio (f : Func) (g : Nat) : Nat := f.effective g 6 (·.bprio) 0

/-- Whether a use fits the budget of a region and of every ancestor that has one (R24). -/
def Func.fits (f : Func) (g bit n : Nat) (used budget : Region → Nat) : Bool :=
  (f.chain g).all fun r => !r.owns bit || decide (used r + n ≤ budget r)

/-- Changes a region and all its ancestors. -/
def State.modChain (s : State) (v g : Nat) (h : Region → Region) : State :=
  let ids := ((s.fn v).chain g).map (·.idx)
  s.modFn v fun f => { f with regions := f.regions.map fun r => if r.idx ∈ ids then r.write h else r }

/-- Whether a region lies in the tree of another. -/
def Func.within (f : Func) (g top : Nat) : Bool := (f.chain g).any fun r => r.idx = top

/-- The root of a region's tree. -/
def Func.root (f : Func) (g : Nat) : Option Region := (f.chain g).getLast?

/-- Changes the root of a region's tree. -/
def State.modRoot (s : State) (v g : Nat) (h : Region → Region) : State :=
  match (s.fn v).root g with
  | none => s
  | some r => s.modRegion v r.idx h

/-- Pages of a ready queue (R22). -/
def queuePages (rqlog : Nat) : Nat := ceilDiv (8 * 2 ^ rqlog) 65536

/-- Pages of a root's record pool (R22). -/
def poolPages (rcount : Nat) : Nat := ceilDiv rcount 1024

/-- The record pool pages of a root. -/
def Region.pool (r : Region) : List Nat :=
  if r.parent.isNone then (r.devp.drop (queuePages r.rqlog)).take (poolPages r.rcount) else []

/-- The overflow pages of a region's ready queue (R22). -/
def Region.overPages (r : Region) : Nat :=
  r.devp.length - queuePages r.rqlog - (if r.parent.isNone then poolPages r.rcount else 0)

/-- Activities that a region's ready queue holds outside the overflow chain (R22). -/
def Region.queueRoom (r : Region) : Nat := 2 ^ r.rqlog + 8192 * r.overPages

/-- The address of a region's table entry (R22). -/
def Func.rcbAt (f : Func) (g : Nat) : Nat := f.cfg.rtable + 256 * g

/-- The first entry of the region table, from an activity's region to its root, that fails its check code when the device
reads the chain for it (R23, R24): its address. -/
def State.badEntry (s : State) (x : Act) : Option Nat :=
  (((s.fn x.id.fn).chain x.region).find? (·.bad)).map fun r => (s.fn x.id.fn).rcbAt r.idx

/-! ### Topology (R2, R4, R386) -/

/-- Physical acres that are enabled, ascending. -/
def State.enabledAcres (s : State) : List Nat := (upFrom 0 288).filter fun a => !s.disabled.contains a

/-- The four cores of an enabled quadrant number, ascending. DESIGN CHOICE (assumption log 62): a physical core number is
16 × acre + 4 × quadrant + core, the 72 built acres of a die following those of the die before. -/
def State.quadCores (s : State) (q : Nat) : List Nat :=
  match s.enabledAcres[q / 4]? with
  | none => []
  | some a => upFrom (a * 16 + q % 4 * 4) 4

/-- The cores of a function's quadrant set, ascending (R339). -/
def State.fnCores (s : State) (v : Nat) : List Nat := (s.fn v).cfg.quad.flatMap s.quadCores

/-- Acre of a core. -/
def acreOf (c : Nat) : Nat := c / 16
/-- Quadrant within the acre of a core. -/
def quadOf (c : Nat) : Nat := c / 4 % 4
/-- Die of a core. -/
def dieOf (c : Nat) : Nat := c / (16 * Config.builtPerDie)

/-- A core's state. -/
def State.core (s : State) (c : Nat) : Core :=
  (s.cores.find? fun x => x.num = c).getD { s.base with num := c }

/-- Changes a core's state. -/
def State.modCore (s : State) (c : Nat) (f : Core → Core) : State :=
  { s with cores := f (s.core c) :: s.cores.filter fun x => x.num != c }

/-- An acre's state. -/
def State.acre (s : State) (a : Nat) : Acre := (s.acres.find? fun x => x.num = a).getD (Acre.reset a)

/-- Changes an acre's state. -/
def State.modAcre (s : State) (a : Nat) (f : Acre → Acre) : State :=
  { s with acres := f (s.acre a) :: s.acres.filter fun x => x.num != a }

/-- The offset of a register within its file: what a data error in it names (R361). -/
def regOffset (cls : Cls) (n : Nat) : Nat := (match cls with | .v => 64 | _ => 8) * n

/-- A register that is written anew holds no detected error any more (R362). -/
def Act.mended (x : Act) (cls : Cls) (n : Nat) : Act :=
  { x with bad := x.bad.filter fun b => b != .register x.id cls n }

/-- Whether the core of an activity is stopped (R419): a stopped core fires nothing and ends no block. -/
def State.halted (s : State) (a : Aid) : Bool :=
  match (s.act a).bind fun x => x.place with
  | some p => (s.core p.core).divider == 0
  | none => false

/-- The activities that hold a slot on a core. -/
def State.onCore (s : State) (c : Nat) : List Act :=
  s.acts.filter fun x => match x.place with | some p => p.core == c | none => false

/-- The lowest free slot of a core. -/
def State.freeSlot (s : State) (c : Nat) : Option Nat :=
  (upFrom 0 Config.coreSlots).find? fun k => !((s.onCore c).any fun x => x.place == some ⟨c, k⟩)

/-- The carrel banks an activity occupies at the core of its slot: its luggage alone after travel (R49). -/
def Act.banksHere (x : Act) : Nat :=
  match x.meet, x.behind with
  | some m, some _ => m.lugCount
  | _, _ => x.banks

/-- The banks that the spill frame of a party that travelled holds (R49), until its next dispatch brings its banks
together. -/
def Act.framedBanks (x : Act) : Nat := x.framed

/-- The carrel banks of a core that are taken, those that travelled parties left behind included (R49). -/
def State.banksUsed (s : State) (c : Nat) : Nat :=
  ((s.onCore c).map Act.banksHere).sum +
    (s.acts.map fun x => match x.behind with | some (d, n) => if d = c then n else 0 | none => 0).sum

/-! ### Physical memory (R119 to R127, R386, R393) -/

/-- The key of a physical byte: HBM addresses as they are, CXL addresses above them. -/
def memKey (cxl : Bool) (pa : Nat) : Nat := if cxl then 2 ^ 48 + pa else pa

/-- A byte of physical memory as an access names it: its key, and the tweak of its granule, bits 47:6 of the intermediate
address (R126). The device's own access by physical address has none. -/
structure Loc where
  key : Nat
  tw  : Option Nat
deriving DecidableEq, Repr, Inhabited

/-- The place of an intermediate byte that lies at a physical address. -/
def Loc.of (ipa pa : Nat) (cxl : Bool) : Loc := ⟨memKey cxl pa, some (ipa / 64)⟩

/-- The encryption key and tweak under which a physical granule was last written (R126), no tweak where the device wrote
it by physical address; none since the zeroing of a cold reset, which is such a write under the first key of slot 0
(R432). -/
def State.tagAt (s : State) (key : Nat) : Option (Nat × Option Nat) :=
  match assocGet (key / 64) s.keyOver with
  | some t => some t
  | none => (assocGet (key / 65536) s.keyTags).map fun t => (t.1, some (t.2 * 1024 + key / 64 % 1024))

/-- Whether a function's access decrypts a byte (R126): key and tweak are those of the last write. Where the device
reads or wrote hypervisor memory by physical address there is no intermediate address and the key alone decides (DESIGN
CHOICE, assumption log 61). What a cold reset zeroed, slot 0 reads as zero until a warm reset destroys its key (R433).
-/
def State.sealOk (s : State) (v : Nat) (l : Loc) : Bool :=
  match s.tagAt l.key with
  | none => v == 0 && (s.fn 0).key == 0
  | some t => t.1 == (s.fn v).key &&
    (match t.2, l.tw with
      | some a, some b => a == b
      | _, _ => true)

/-- A byte of physical memory read under a function's key (R126, R127). -/
def State.physGet (s : State) (v : Nat) (l : Loc) : Byte :=
  if s.sealOk v l then Memory.get s.mem l.key
  else
    let t := (s.tagAt l.key).getD (0, none)
    Config.wrongKeyByte (s.fn v).key (l.tw.getD 0) t.1 (t.2.getD 0) (Memory.read s.mem (l.key / 64 * 64) 64) (l.key % 64)

/-- A byte of physical HBM as the hypervisor's key reads it (R126: tables, records, save areas, templates); a byte with
an uncorrectable error is never delivered and reads as 0 (R426; DESIGN CHOICE, assumption log 61). -/
def State.hvByte (s : State) (pa : Nat) : Byte := if s.poison.contains pa then 0 else s.physGet 0 ⟨pa, none⟩

/-- Bytes of physical HBM as the hypervisor's key reads them. -/
def State.hvRead (s : State) (pa n : Nat) : List Byte := (upFrom pa n).map s.hvByte

/-- Eight bytes of hypervisor memory as a number; a word with an uncorrectable error reads as 0. -/
def State.hv64 (s : State) (pa : Nat) : Nat :=
  if (upFrom pa 8).any s.poison.contains then 0 else leNat (s.hvRead pa 8)

/-- A translation table entry (R120) read from HBM: reserved bits checked, leaf allowed at levels 2 and 3.
DESIGN CHOICE (assumption log 68): in an entry that is no leaf every tier but 00 counts as a reserved value. -/
def entryOk (level e : Nat) : Bool :=
  bit e 63 && bits e 59 48 == 0 && bits e 15 0 == 0 &&
    (if bit e 62 then (level == 3 || (level == 2 && bits e 20 16 == 0)) && decide (bits e 61 60 < 2)
      else decide (level < 3) && bits e 61 60 == 0)

/-- The physical HBM pages that exist for a function (R386, R393): a channel of its set, ordinary or spare range. -/
def chanOk (chan : List Nat) (pa : Nat) : Bool :=
  chan.contains (pa / 2 ^ 32) && decide (pa % 2 ^ 32 < 3 * 2 ^ 30 + 16 * 2 ^ 20)

/-- The stage-2 walk of an intermediate address (R119, R120, R393): physical page address of 64 KiB and tier. -/
def State.walk2 (s : State) (v ipa : Nat) : Option (Nat × Bool) :=
  let cfg := (s.fn v).cfg
  let leafOk (e off : Nat) : Option (Nat × Bool) :=
    let cxl := bits e 61 60 == 1
    let pa := bits e 47 16 * 65536 + off
    if cxl || chanOk cfg.chan pa then some (pa, cxl) else none
  let e1 := s.hv64 (cfg.s2root + 8 * bits ipa 47 34)
  if !entryOk 1 e1 then none
  else
    let e2 := s.hv64 (bits e1 47 16 * 65536 + 8 * bits ipa 33 21)
    if !entryOk 2 e2 then none
    else if bit e2 62 then leafOk e2 (bits ipa 20 16 * 65536)
    else
      let e3 := s.hv64 (bits e2 47 16 * 65536 + 8 * bits ipa 20 16)
      if !entryOk 3 e3 then none else leafOk e3 0

/-- Stage 1 (R119): the intermediate page of a tenant virtual page, both in 64 KiB pages. -/
def Func.stage1Page (f : Func) (page : Nat) : Option Nat := (f.stage1.find? fun e => e.va = page).map (·.ipa)

/-- The first mapping of a 2 MiB range that stage 1 maps as one page: 32 intermediate pages in a row, aligned, of one
tier (R119, R120). -/
def Func.bigPage (f : Func) (page : Nat) : Option S1Page :=
  if f.stage1.length < 32 then none
  else
    let lo := page / 32 * 32
    match f.stage1.find? fun e => e.va = lo with
    | none => none
    | some e =>
      if e.ipa % 32 = 0 ∧ (upFrom 1 31).all (fun j => f.stage1.any fun d => d == ⟨lo + j, e.ipa + j, e.cxl⟩) then some e
      else none

/-- A stage-1 leaf (R120). -/
def leafEntry (e : S1Page) : Nat := 3 * 2 ^ 62 + (if e.cxl then 2 ^ 60 else 0) + e.ipa * 65536

/-- The intermediate page of a stage-1 table. -/
def Func.tableAt (f : Func) (t : Nat) : Option Nat := assocGet t f.tables

/-- The numbers of the stage-1 tables that a page's walk visits, with the offsets of their entries (R119). -/
def s1Slots (page : Nat) : List (Nat × Nat) :=
  [(page / 262144 / 8192, 8 * (page / 262144 % 8192)), (2 + page / 262144, 8 * (page / 32 % 8192)),
    (16386 + page / 32, 8 * (page % 32))]

/-- The stage-1 entry of a level that covers a page, as the device builds it (R119, R120). -/
def Func.s1Word (f : Func) (level page : Nat) : Nat :=
  let table (t : Nat) : Nat := 2 ^ 63 + (f.tableAt t).getD 0 * 65536
  match level with
  | 1 => if f.stage1.any fun e => e.va / 262144 == page / 262144 then table (2 + page / 262144) else 0
  | 2 =>
    match f.bigPage page with
    | some e => leafEntry e
    | none => if f.stage1.any fun e => e.va / 32 == page / 32 then table (16386 + page / 32) else 0
  | _ => match f.stage1.find? fun e => e.va = page with | some e => leafEntry e | none => 0

/-- The stage-2 translation of an intermediate page by an acre's translation cache, else a walk (R121). -/
def State.stage2 (s : State) (v acre ip : Nat) : Option (Nat × Bool) :=
  match (s.acre acre).tlb.find? fun e => e.fn = v ∧ e.stage = 2 ∧ e.page = ip with
  | some e => some (e.target * 65536, e.cxl)
  | none => s.walk2 v (ip * 65536)

/-- A stage-1 table entry read at its intermediate address under the tenant's key: the page of the table needs a stage-2
translation (R121), the entry no uncorrectable error (R426). The failure is the entry's intermediate address, or none for
an entry that cannot be read. -/
def State.s1Read (s : State) (v acre ipa : Nat) : Except (Option Nat) Nat :=
  match s.stage2 v acre (ipa / 65536) with
  | none => .error (some ipa)
  | some (pa, cxl) =>
    let o := ipa % 65536
    if (upFrom (memKey cxl (pa + o)) 8).any s.poison.contains then .error none
    else .ok (leNat ((upFrom 0 8).map fun i => s.physGet v (Loc.of (ipa + i) (pa + o + i) cxl)))

/-- What a stage-1 walk finds: the intermediate page, whether its mapping is a 2 MiB page, and the pages of the tables
that it visited. -/
structure S1Walk where
  ip     : Nat
  big    : Bool
  tables : List Nat
deriving DecidableEq, Repr

/-- The stage-1 walk of a tenant page (R119 to R121) through the tables in memory; the failure is a stage-1 fault, or the
intermediate address of the table entry whose stage-2 translation fails. -/
def State.s1Walk (s : State) (v acre page : Nat) : Except (Option Nat) S1Walk :=
  match (s.fn v).tableAt (page / 262144 / 8192) with
  | none => .error none
  | some root => do
    let e1 ← s.s1Read v acre (root * 65536 + 8 * (page / 262144 % 8192))
    if !entryOk 1 e1 then throw none
    let e2 ← s.s1Read v acre (bits e1 47 16 * 65536 + 8 * (page / 32 % 8192))
    if !entryOk 2 e2 then throw none
    if bit e2 62 then return ⟨bits e2 47 16 + page % 32, true, [root, bits e1 47 16]⟩
    let e3 ← s.s1Read v acre (bits e2 47 16 * 65536 + 8 * (page % 32))
    if !entryOk 3 e3 then throw none
    return ⟨bits e3 47 16, false, [root, bits e1 47 16, bits e2 47 16]⟩

/-- The intermediate page of a tenant page, or why there is none (see `State.s1Walk`). -/
def State.walk1 (s : State) (v acre page : Nat) : Except (Option Nat) Nat := (s.s1Walk v acre page).map (·.ip)

/-- How a translation ends: a physical address with its tier and the intermediate address, or the failing stage (R361
codes 8 and 9). -/
inductive Xlate where
  | ok (pa : Nat) (cxl : Bool) (ipa : Nat)
  | stage1 (va : Nat)
  | stage2 (va ipa : Nat)
deriving DecidableEq, Repr

/-- Translation of a tenant virtual address (R119, R121): each stage by an entry of the acre's translation cache, else
by a walk. -/
def State.translate (s : State) (v acre va : Nat) : Xlate :=
  let page := va / 65536
  let first : Except (Option Nat) Nat :=
    match (s.acre acre).tlb.find? fun e => e.fn = v ∧ e.stage = 1 ∧ e.page = page with
    | some e => .ok e.target
    | none => s.walk1 v acre page
  match first with
  | .error none => .stage1 va
  | .error (some i) => .stage2 va i
  | .ok ip =>
    match s.stage2 v acre ip with
    | none => .stage2 va (ip * 65536 + va % 65536)
    | some (pa, cxl) => .ok (pa + va % 65536) cxl (ip * 65536 + va % 65536)

/-- Whether an address of the CXL tier can be reached (R1, R124): inside its 8 TiB, by a port that is up. -/
def State.cxlUp (s : State) (pa : Nat) : Bool :=
  decide (pa < 2 ^ 43) && (s.ports.all id || s.ports.getD (Config.cxlPort (pa / 65536) % 4) false)

/-- Whether a physical address can be reached: HBM always. -/
def State.memUp (s : State) (pa : Nat) (cxl : Bool) : Bool := !cxl || s.cxlUp pa

/-- Whether a granule already carries the tag that a write puts on it (R126): a write by physical address leaves the
tweak of one that its key decrypts. -/
def State.tagged (s : State) (v : Nat) (l : Loc) : Bool :=
  s.sealOk v l && (l.tw.isNone || ((s.tagAt l.key).bind (·.2)).isSome)

/-- Writes a byte of physical memory under a function's key. A granule last written under another key or tweak is first
read as this one reads it (R126: the data unit is the granule). -/
def State.physSet (s : State) (v : Nat) (l : Loc) (b : Byte) : State :=
  let g := l.key / 64
  { s with
    mem := Memory.set (if s.sealOk v l then s.mem
      else Memory.write s.mem (g * 64) ((upFrom (g * 64) 64).map fun k => s.physGet v ⟨k, l.tw⟩)) l.key b
    keyOver := if s.tagged v l then s.keyOver else assocSet g ((s.fn v).key, l.tw) s.keyOver
    poison := s.poison.filter (· != l.key) }

/-- Writes bytes of hypervisor memory upwards from a physical address. -/
def State.physWrite (v : Nat) : State → Nat → List Byte → State
  | s, _, [] => s
  | s, key, b :: bs => State.physWrite v (s.physSet v ⟨key, none⟩ b) (key + 1) bs

/-- Makes a 64 KiB page read zero under a function's key and an intermediate page (R105, R127). -/
def State.zeroPage (s : State) (v ip key : Nat) : State :=
  { s with
    mem := Memory.clear key (key + 65536) s.mem
    keyTags := assocSet (key / 65536) ((s.fn v).key, ip) s.keyTags
    keyOver := s.keyOver.filter fun p => p.1 / 1024 != key / 65536
    poison := s.poison.filter fun k => k / 65536 != key / 65536 }

/-- A byte at an intermediate address (rings, pod catalogue: R387), none where stage 2 does not map it, its CXL port is
down, or it has an uncorrectable error (R426). -/
def State.ipaGet (s : State) (v ipa : Nat) : Option Byte :=
  match s.walk2 v (ipa / 65536 * 65536) with
  | none => none
  | some (pa, cxl) =>
    let l := Loc.of ipa (pa + ipa % 65536) cxl
    if s.memUp (pa + ipa % 65536) cxl && !s.poison.contains l.key then some (s.physGet v l) else none

/-- Bytes at an intermediate address; bytes that cannot be read are 0 and make nothing valid. -/
def State.ipaRead (s : State) (v ipa n : Nat) : List Byte := (upFrom ipa n).map fun a => (s.ipaGet v a).getD 0

/-- Writes bytes at an intermediate address; bytes that stage 2 does not map, or whose port is down, are not written. -/
def State.ipaWrite (v : Nat) : State → Nat → List Byte → State
  | s, _, [] => s
  | s, ipa, b :: bs =>
    State.ipaWrite v (match s.walk2 v (ipa / 65536 * 65536) with
      | none => s
      | some (pa, cxl) =>
        if s.memUp (pa + ipa % 65536) cxl then s.physSet v (Loc.of ipa (pa + ipa % 65536) cxl) b else s) (ipa + 1) bs

/-- The acre whose translation cache serves the device's own accesses: none (R95, R121). -/
abbrev noAcre : Nat := 0xFFFF

/-- Bytes at a tenant virtual address, for the device's own reads of RCB images and notices (R95). -/
def State.vaRead (s : State) (v va n : Nat) : List Byte :=
  (upFrom va n).map fun a =>
    match s.walk1 v noAcre (a / 65536) with
    | .error _ => 0
    | .ok ip => (s.ipaGet v (ip * 65536 + a % 65536)).getD 0

/-- Writes bytes at a tenant virtual address. -/
def State.vaWrite (v : Nat) : State → Nat → List Byte → State
  | s, _, [] => s
  | s, a, b :: bs =>
    State.vaWrite v (match s.walk1 v noAcre (a / 65536) with
      | .error _ => s
      | .ok ip => State.ipaWrite v s (ip * 65536 + a % 65536) [b]) (a + 1) bs

/-! ### Pages (R13, R24, R105, R125, R394) -/

/-- Indices of the entries of a table that hold something: only listed bytes can make an entry valid. -/
def State.tableHits (s : State) (base n : Nat) : List Nat :=
  ((s.mem.filter fun c => decide (base ≤ c.1) && decide (c.1 < base + 8 * n)).map fun c => (c.1 - base) / 8).eraseDups

/-- Every 64 KiB intermediate page that a function's stage-2 tables map, with its tier, ascending (R125). -/
def State.mappedPages (s : State) (v : Nat) : List (Nat × Bool) :=
  let root := (s.fn v).cfg.s2root
  let cands := (s.tableHits root 16384).flatMap fun i1 =>
    let e1 := s.hv64 (root + 8 * i1)
    if !entryOk 1 e1 then [] else
      let t2 := bits e1 47 16 * 65536
      (s.tableHits t2 8192).flatMap fun i2 =>
        let e2 := s.hv64 (t2 + 8 * i2)
        if !entryOk 2 e2 then []
        else if bit e2 62 then upFrom (i1 * 262144 + i2 * 32) 32
        else (s.tableHits (bits e2 47 16 * 65536) 32).map fun i3 => i1 * 262144 + i2 * 32 + i3
  cands.filterMap fun p => (s.walk2 v (p * 65536)).map fun w => (p, w.2)

/-- The stage-1 tables that a set of mapped tenant pages needs (R119): the level-1 table takes two pages, each level-2
and each level-3 table one. The level-3 table of a range mapped as a 2 MiB page is kept for the time when a part of the
range is freed (DESIGN CHOICE, assumption log 25). -/
def neededTables (vas : List Nat) : List Nat :=
  if vas.isEmpty then []
  else 0 :: 1 :: ((vas.map (· / 262144)).eraseDups.map (2 + ·) ++ (vas.map (· / 32)).eraseDups.map (16386 + ·))

/-- Stage-1 table pages that a set of mapped tenant pages needs. -/
def tablePages (vas : List Nat) : Nat := (neededTables vas).length

/-- The intermediate pages that hold a function's rings, region table and pod catalogue (R125, R387). -/
def Func.fixedPages (f : Func) : List Nat :=
  upFrom (f.cfg.lqbase / 65536) (ceilDiv (f.cfg.lqbase % 65536 + 16384 * f.cfg.lqcount) 65536) ++
  upFrom (f.cfg.rtable / 65536) (ceilDiv (f.cfg.rtable % 65536 + 256 * f.cfg.rtcount) 65536) ++
  upFrom (f.cfg.podcat / 65536) 1

/-- The free intermediate pages of a tier (R125): those that no range, device-held page (R13) or fixed structure holds.
-/
def State.freePages (s : State) (v : Nat) (cxl : Bool) : List Nat :=
  let f := s.fn v
  let held := f.stage1.map (·.ipa) ++ f.devPages ++ f.tables.map (·.2) ++ f.fixedPages
  ((s.mappedPages v).filter fun p => p.2 == cxl && !held.contains p.1).map (·.1)


/-- Whether `n` pages fit the budgets of a region chain and of the function (R24, R394). -/
def State.pagesFit (s : State) (v g n : Nat) : Bool :=
  (s.fn v).fits g 2 n (·.pageu) (·.pageb) && decide ((s.fn v).pageu + n ≤ (s.fn v).cfg.pageb)

/-- Charges pages to a region chain and the function. -/
def State.chargePages (s : State) (v g n : Nat) : State :=
  (s.modChain v g fun r => { r with pageu := r.pageu + n }).modFn v fun f => { f with pageu := f.pageu + n }

/-- Returns pages to a region chain and the function. -/
def State.returnPages (s : State) (v g n : Nat) : State :=
  (s.modChain v g fun r => { r with pageu := r.pageu - n }).modFn v fun f => { f with pageu := f.pageu - n }

/-- The effects recorded by an activity's execution. -/
def Act.effects (x : Act) : List Effect :=
  match x.flight with
  | none => []
  | some f => f.slots.map fun (sl : SlotSt) => sl.eff

/-- The intermediate pages that uncommitted PALLOCs of a function have picked (R291). -/
def State.promised (s : State) (v : Nat) : List Nat :=
  (s.acts.filter fun x => x.id.fn = v).flatMap fun x =>
    x.effects.flatMap fun e => match e with
      | .palloc _ _ _ _ ipas => ipas
      | _ => []

/-- The stage-1 mappings of a range of tenant pages. -/
def rangeMaps (base : Nat) (cxl : Bool) (ipas : List Nat) : List S1Page :=
  ((upFrom base ipas.length).zip ipas).map fun p => ⟨p.1, p.2, cxl⟩

/-- Takes pages for the stage-1 tables that a function's mappings need and gives back those that none needs any more
(R13, R119): a new table takes the lowest free page of tier HBM (DESIGN CHOICE, assumption log 25) that no uncommitted
PALLOC has picked. -/
def State.retable (s : State) (v : Nat) : State :=
  let f := s.fn v
  let need := neededTables (f.stage1.map (·.va))
  let kept := f.tables.filter fun t => need.contains t.1
  let missing := need.filter fun t => !kept.any fun k => k.1 == t
  let s1 : State := s.modFn v fun f => { f with tables := kept }
  if missing.isEmpty then s1
  else s1.modFn v fun f => { f with
    tables := kept ++ missing.zip ((s1.freePages v false).filter fun p => !(s1.promised v).contains p) }

/-- The entries of a function's stage-1 tables that are not zero, as the device builds them: intermediate address and
word (R119, R120). -/
def Func.s1Entries (f : Func) : List (Nat × Nat) :=
  (f.stage1.flatMap fun e => ((s1Slots e.va).zip [1, 2, 3]).filterMap fun t =>
    match f.tableAt t.1.1, f.s1Word t.2 e.va with
    | some p, w + 1 => some (p * 65536 + t.1.2, w + 1)
    | _, _ => none).eraseDups

/-- Makes an intermediate page of a function read zero under its key. -/
def State.zeroIpa (s : State) (v ip : Nat) : State :=
  match s.walk2 v (ip * 65536) with
  | none => s
  | some (pa, cxl) => s.zeroPage v ip (memKey cxl pa)

/-- Changes the stage-1 mappings of a function: its tables follow, a new one zeroed, and the device writes the entries
that change, under the tenant's key (R119, R126). -/
def State.mapStage1 (s : State) (v : Nat) (g : List S1Page → List S1Page) : State :=
  let f := s.fn v
  let s1 : State := (s.modFn v fun f => { f with stage1 := g f.stage1 }).retable v
  let now := s1.fn v
  let was := ({ f with tables := now.tables.filter f.tables.contains } : Func).s1Entries
  let gone := (was.filter fun e => !now.s1Entries.any fun d => d.1 == e.1).map fun e => (e.1, 0)
  let s2 : State := (now.tables.filter fun t => !f.tables.contains t).foldl (fun (t : State) n => t.zeroIpa v n.2) s1
  (gone ++ now.s1Entries.filter fun e => !was.contains e).foldl (fun t e => State.ipaWrite v t e.1 (leBytes 8 e.2)) s2

/-- A function's state with every uncommitted PALLOC of its activities charged and mapped, for the choices of another
(R291); only the tables' pages are taken, not their entries written. -/
def State.reserved (s : State) (v : Nat) : State :=
  ((s.acts.filter fun x => x.id.fn = v).foldl (fun t x =>
    x.effects.foldl (fun t e => match e with
      | .palloc _ base n cxl ipas =>
        (t.chargePages v x.region n).modFn v fun f => { f with stage1 := f.stage1 ++ rangeMaps base cxl ipas }
      | _ => t) t) s).retable v

/-- Takes `n` device-held pages of tier HBM charged to a region (R13); none when a budget or the tier cannot hold
them. -/
def State.takeDevice (s : State) (v g n : Nat) : Option (List Nat × State) :=
  let free := (s.reserved v).freePages v false
  if (s.reserved v).pagesFit v g n && decide (n ≤ free.length) then
    let ps := free.take n
    some (ps, (s.chargePages v g n).modFn v fun f => { f with devPages := f.devPages ++ ps })
  else none

/-- Gives device-held pages back. -/
def State.giveDevice (s : State) (v g : Nat) (ps : List Nat) : State :=
  (s.returnPages v g ps.length).modFn v fun f => { f with devPages := f.devPages.filter fun p => !ps.contains p }

/-- Frees a range of tenant pages: its stage-1 pages return to the free set and are scrubbed (R105). -/
def State.freeRange (s : State) (v base n : Nat) : State :=
  let f := s.fn v
  let gone := f.stage1.filter fun e => decide (base ≤ e.va) && decide (e.va < base + n)
  let s1 := gone.foldl (fun (t : State) e => t.zeroIpa v e.ipa) s
  let s2 : State := s1.mapStage1 v fun l => l.filter fun e => !(decide (base ≤ e.va) && decide (e.va < base + n))
  { s2 with acres := s2.acres.map fun a => { a with tlb := a.tlb.filter fun e =>
      !(e.fn == v && e.stage == 1 && decide (base ≤ e.page) && decide (e.page < base + n)) } }

/-- Whether a range of `n` tenant pages lies in the 48-bit space and meets no mapped page. DESIGN CHOICE (assumption log
88): page 0 is never the base of a range. -/
def Func.rangeFree (f : Func) (b n : Nat) : Bool :=
  decide (0 < b) && decide (b + n ≤ 2 ^ 32) && f.stage1.all fun e => decide (e.va < b) || decide (b + n ≤ e.va)

/-- A base for a new range of `n` tenant pages (R103, R125): the device's choice where it is aligned and free, else the
lowest aligned base with room, at page 1 or above a mapped page. -/
def State.chooseBase (s : State) (v n : Nat) : Nat :=
  let f := s.fn v
  let align := if n % 32 = 0 then 32 else 1
  let ok (b : Nat) : Bool := b % align == 0 && f.rangeFree b n
  let cand := (1 :: f.stage1.map fun e => e.va + 1).map fun b => ceilDiv b align * align
  if ok (Config.loanBase s.fresh) then Config.loanBase s.fresh else ((cand.filter ok).min?).getD align

/-- Maps `n` free pages at a base as a new zeroed range (R103, R105). -/
def State.mapRange (s : State) (v base : Nat) (cxl : Bool) (ipas : List Nat) : State :=
  (ipas.foldl (fun (t : State) p => t.zeroIpa v p) s).mapStage1 v fun l => l ++ rangeMaps base cxl ipas

/-- Moves the pages of a range from one function to another (R68): as many free pages of the receiver's stage 2 take the
contents under its key, at the same base where it is free there, and the giver's pages are freed and scrubbed; none when
the receiver has too few pages. The charge is the caller's. The spec does not say how the pages change hands (DESIGN
CHOICE, assumption log 11). -/
def State.moveRange (s : State) (v w base n : Nat) (cxl : Bool) : Option (Nat × State) :=
  let r := s.reserved w
  let dest := if (r.fn w).rangeFree base n then base else r.chooseBase w n
  let vas := (r.fn w).stage1.map (·.va)
  let more := tablePages (vas ++ upFrom dest n) - tablePages vas
  let free := r.freePages w cxl
  let room := if cxl then decide (n ≤ free.length) && decide (more ≤ (r.freePages w false).length)
    else decide (n + more ≤ free.length)
  if !room then none
  else
    let s1 : State := s.tick.2.mapRange w dest cxl (free.take n)
    let page (t : State) (ip : Nat) (j : Nat) : State :=
      match (s.fn v).stage1Page (base + j) with
      | none => t
      | some old =>
        match s.walk2 v (old * 65536), t.walk2 w (ip * 65536) with
        | some (pa, c), some (pb, d) =>
          let src (o : Nat) : Loc := Loc.of (old * 65536 + o) (pa + o) c
          let dst (o : Nat) : Loc := Loc.of (ip * 65536 + o) (pb + o) d
          let listed := (s.mem.filter fun e => decide (memKey c pa ≤ e.1) && decide (e.1 < memKey c pa + 65536)).map
            fun e => e.1 - memKey c pa
          let odd := ((upFrom 0 1024).filter fun g => !s.sealOk v (src (64 * g))).flatMap fun g => upFrom (64 * g) 64
          let t1 : State := (listed ++ odd).foldl (fun (u : State) o => u.physSet w (dst o) (s.physGet v (src o))) t
          let bad := s.poison.filter fun k => decide (memKey c pa ≤ k) && decide (k < memKey c pa + 65536)
          { t1 with poison := t1.poison ++ bad.map fun k => k - memKey c pa + memKey d pb }
        | _, _ => t
    let s2 : State := ((free.take n).zip (upFrom 0 n)).foldl (fun (t : State) p => page t p.1 p.2) s1
    some (dest, s2.freeRange v base n)

/-! ### Serials and records (R9, R11) -/

/-- The next serial not held by a live activity and not 0. -/
def serialAux (live : List Nat) : Nat → Nat → Nat
  | 0, n => n
  | k + 1, n =>
    if n % 2 ^ 32 = 0 ∨ live.contains (n % 2 ^ 32) then serialAux live k (n + 1) else n % 2 ^ 32

/-- Assigns a serial of a function (R9). -/
def State.newSerial (s : State) (v : Nat) : Nat × State :=
  let live := (s.acts.filter fun x => x.id.fn = v).map (·.id.serial)
  let n := serialAux live (live.length + 2) (s.fn v).serialCtr
  (n, s.modFn v fun f => { f with serialCtr := (n + 1) % 2 ^ 32 })

/-- The wait kind's code (R16). -/
def WKind.code : WKind → Nat
  | .none => 0 | .meet => 1 | .gather => 2 | .part => 3 | .wtany => 4 | .wtall => 5 | .wcnt => 6 | .sleep => 7
  | .yield => 8 | .unseal => 9 | .gang => 10 | .split => 11

/-- A bit mask of the registers that hold a loan (R11 livel). -/
def maskOf (bs : List Bool) : Nat := bs.foldr (fun b n => (if b then 1 else 0) + 2 * n) 0

/-- Words followed by the word of their check code (R11, R22). -/
def withCheck (ws : List Nat) : List Word :=
  let body := ws.map (BitVec.ofNat 64 ·)
  body ++ [BitVec.ofNat 64 (crc16 (wordsBytes body))]

/-- The 64-byte continuation record (R11) with a state and a shape, its check code computed. -/
def Act.recordAs (x : Act) (st shape : Nat) : List Word :=
  withCheck
    [x.resume / 16 * 16 + st,
     x.region * 2 ^ 40 + x.id.serial * 256 + x.prio * 16 + shape * 4,
     (x.frame.headD 0) * 65536 + x.stack.length,
     x.lives.toNat * 2 ^ 32 + x.livev.toNat,
     x.weight * 2 ^ 32 + (x.banks - 1) * 2 ^ 28 + x.livem.toNat * 65536 + x.livec.toNat * 256 +
       maskOf (x.l.toList.map fun r => match r with | .empty => false | _ => true),
     x.wkind.code * 2 ^ 60 + x.wop % 2 ^ 60,
     x.hint * 2 ^ 51 + x.link]

/-- The shape field of a record (R11): a gang's shape once it has formed. -/
def Act.shapeCode (x : Act) : Nat :=
  if x.wkind == .gang then 0 else match x.reshape with | some .quad => 1 | some .acre => 2 | none => 0

/-- The state field of a record (R11). -/
def Run.code : Run → Nat | .ready | .running => 0 | .waiting => 1 | .faulted => 2

/-- The continuation record of an activity as it stands. -/
def Act.recordWords (x : Act) : List Word := x.recordAs x.run.code x.shapeCode

/-- Writes the record with a fresh check code (R14). -/
def Act.stamp (x : Act) : Act := { x with record := x.recordWords }

/-- The shape field of an activity's record: that of its gang, if it has one. -/
def State.shapeOf (s : State) (x : Act) : Nat :=
  match s.gangOf x with
  | some g => (match g.shape with | .quad => 1 | .acre => 2)
  | none => x.shapeCode

/-- Whether a record passes its check code (R12). -/
def recordOk (r : List Word) : Bool :=
  r.length == 8 && crc16 (wordsBytes (r.take 7)) == (r.getD 7 0).toNat % 65536

/-- Writes the whole record of an activity that has left its slot, a gang's with its shape (R11, R14). -/
def State.writeRecord (s : State) (a : Aid) : State :=
  s.modAct a fun x =>
    if x.place.isSome then x else { x with record := x.recordAs x.run.code (s.shapeOf x) }

/-- A change of fields in the record of an activity that is not resident (R10, R11, R22). DESIGN CHOICE (assumption log
80): a record whose check code has failed stays as it is until it is read for dispatch, where the failure is found
(R12). -/
def State.stamp (s : State) (a : Aid) : State :=
  s.modAct a fun x =>
    if x.place.isSome || !recordOk x.record then x else { x with record := x.recordAs x.run.code (s.shapeOf x) }

/-- What a write-back or a save puts at the place of the operand of a WTANY or WTALL wait (R16): the frame offset of the
mask, in the header that the device alone interprets (R21), a free value. -/
def Act.maskSaved (x : Act) : Act :=
  { x with wop := match x.wkind with | .wtany | .wtall => Config.maskPlace % 2 ^ 54 | _ => x.wop }

/-- The addresses of the records that a function's activities hold, those reserved for completion closures included. -/
def State.takenRecords (s : State) (v : Nat) : List Nat :=
  (s.acts.filter fun x => x.id.fn = v).flatMap fun x =>
    x.recAt :: x.copies.filterMap fun c => c.child.map (·.recAt)

/-- The address of a record of a root's pool by number (R22). -/
def Region.recordAddr (r : Region) (i : Nat) : Nat := r.pool.getD (i / 1024) 0 * 65536 + i % 1024 * 64

/-- Takes the lowest free record of the root's pool (R22): its address, and the state without what it held before. -/
def State.takeRecord (s : State) (v g : Nat) : Nat × State :=
  match (s.fn v).root g with
  | none => (0, s)
  | some r =>
    let used := s.takenRecords v
    let cand := (upFrom 0 (used.length + 1)).map r.recordAddr
    let a := (cand.find? fun a => !used.contains a).getD 0
    (a, (s.modRegion v r.idx fun r => { r with rfree := r.rfree - 1 }).modFn v fun f =>
      { f with spent := f.spent.filter fun e => e.1 != a })

/-- Returns records. -/
def State.giveRecord (s : State) (v g n : Nat) : State := s.modRoot v g fun r => { r with rfree := r.rfree + n }

/-- Whether the root's pool has a free record. -/
def State.recordFree (s : State) (v g : Nat) : Bool :=
  match (s.fn v).root g with | some r => decide (0 < r.rfree) | none => false

/-- What a record's place in a pool holds (R11, R14): the record of the activity that has it, or the last one written. -/
def State.recordAt (s : State) (v a : Nat) : List Word :=
  match s.acts.find? fun x => x.id.fn = v ∧ x.recAt = a with
  | some x => x.record
  | none => (assocGet a (s.fn v).spent).getD []

/-! ### The region table (R22, R23) -/

/-- Resident slots in use by a region and its descendants. -/
def State.slotu (s : State) (v g : Nat) : Nat :=
  (s.acts.filter fun x => x.id.fn == v && x.place.isSome && (s.fn v).within x.region g).length

/-- Acres in use by a region and its descendants. -/
def State.acresOf (s : State) (v g : Nat) : List Nat :=
  ((s.acts.filter fun x => x.id.fn == v && (s.fn v).within x.region g).filterMap fun x =>
    x.place.map fun p => acreOf p.core).eraseDups

/-- The code of rstate (R22). -/
def RState.code : RState → Nat | .built => 0 | .open => 1 | .complete => 2 | .killed => 3

/-- The region control block of a region (R22), D fields and check code included. -/
def State.rcbWords (s : State) (v : Nat) (r : Region) : List Word :=
  let f := s.fn v
  let two (h l : Nat) : Nat := h * 2 ^ 32 + l
  let acts := (s.acts.filter fun x => x.id.fn == v && x.region == r.idx).length
  let kids := (f.regions.filter fun q => q.parent == some r.idx && (q.rstate == .open || q.rstate == .built)).length
  withCheck
    ([(match r.parent with | some p => f.rcbAt p | none => 0) + r.level * 32 + r.rstate.code * 4 + (if r.strict then 2 else 0),
      r.slotb * 2 ^ 48 + r.acreb * 2 ^ 39 + r.bprio * 2 ^ 35 + r.policy * 2 ^ 32 + r.ovr.toNat * 2 ^ 16,
      two r.pageb r.pageu, two r.envb r.envu, two r.keyb r.keyu,
      r.power * 2 ^ 48 + s.slotu v r.idx * 2 ^ 32 + (s.acresOf v r.idx).length * 2 ^ 16,
      r.handler, r.harg.toNat, r.issued, r.returned, r.notice.toNat, r.nval.toNat,
      r.devp.headD 0 * 65536 + r.rqlog, two r.rqhead r.rqtail, r.pool.headD 0 * 65536, two r.rcount r.rfree,
      two kids acts, two r.share r.deficit, r.lq * 2 ^ 58] ++ List.replicate 12 0)

/-- The starting %seed (R160). -/
def seedOf (serial : Nat) : Word := BitVec.ofNat 64 (serial * 2 ^ 32 + 0x5A5A5A5A)

/-- A fresh activity (R295): everything zero or empty but the serial's seed and the creation values of R11. -/
def Act.fresh (id : Aid) (region prio banks hint : Nat) : Act :=
  { id := id, region := region, run := .ready, retiring := false, prio := prio, readyAt := 0, readySeq := 0,
    weight := 0, hint := hint, place := none, saved := false, resume := 0, entry := .checked,
    s := Vector.replicate 32 0, v := Vector.replicate 32 0, m := Vector.replicate 8 0,
    c := Vector.replicate 8 Handle.none, l := Vector.replicate 8 .empty, sh := Vector.replicate 8 none,
    stack := [], env := Handle.none, gen := 0, frameCtr := 0,
    lives := BitVec.allOnes 32, livev := BitVec.allOnes 32, livem := BitVec.allOnes 8, livec := BitVec.allOnes 8,
    tags := 0, tagerr := 0, tagwhy := [], copies := [], strict := [], seed := seedOf id.serial,
    banks := banks, fmts := Vector.replicate 16 0, carrel := [], wkind := .none, wop := 0, wmask := 0,
    waitFrom := 0, meet := none, behind := none, framed := 0, gang := none, flight := none, rep := none,
    flt := [0, 0, 0, 0], fault := none, handler := none, trap := none, record := [], recAt := 0, queued := .no,
    link := 0, frame := [], frameEnv := [],
    bad := [], reshape := none, unsolved := false, attempts := 0, retryAt := 0 }

/-! ### Environments (R74 to R87) -/

/-- Records of an environment of `n` words (R76). -/
def envRecs (n : Nat) : Nat := if n ≤ 6 then 1 else 1 + ceilDiv (n - 6) 8

/-- The record of an environment that holds word `w` (R76). -/
def envRecOf (w : Nat) : Nat := if w < 6 then 0 else 1 + (w - 6) / 8

/-- Whether a read of word `w` of an environment meets a detected error (R362, R426): in the header, which every access
reads, or in the record of the word. -/
def Env.badWord (e : Env) (w : Nat) : Bool := e.bad.contains 0 || e.bad.contains (envRecOf w)

/-- The first word of an environment that cannot be read, where its records hold a detected error. -/
def Env.firstBad (e : Env) : Option Nat := (upFrom 0 30).find? e.badWord

/-- Generation of a store index (R87). -/
def Core.gen (c : Core) (i : Nat) : Nat := (assocGet i c.gens).getD 0

/-- Whether a record of a core's store is taken. -/
def Core.taken (c : Core) (r : Nat) : Bool :=
  c.envs.any fun p => decide (p.1 ≤ r) && decide (r < p.1 + envRecs p.2.words)

/-- The lowest index with `n` consecutive free records. -/
def Core.room (c : Core) (n : Nat) : Option Nat :=
  (upFrom 0 (Config.coreRecords + 1 - n)).find? fun i => (upFrom i n).all fun r => !c.taken r

/-- Free records of a core's store. -/
def Core.freeRecords (c : Core) : Nat :=
  Config.coreRecords - (c.envs.map fun p => envRecs p.2.words).sum

/-- Removes an environment from a store; its index takes a new generation (R87). -/
def Core.drop (c : Core) (i : Nat) : Core :=
  { c with envs := c.envs.filter fun p => p.1 != i, gens := assocSet i ((c.gen i + 1) % 4096) c.gens }

/-- The handle of the environment at a store index. -/
def Core.handle (c : Core) (i : Nat) (entry : BitVec 42) : Handle :=
  ⟨.store, BitVec.ofNat 12 (c.gen i), BitVec.ofNat 8 i, entry⟩

/-- The environment that a holder's handle names (R74): none for a bare or empty handle and for a stale generation. -/
def State.envOf (s : State) (x : Act) (h : Handle) : Option Env :=
  match h.kind with
  | .empty | .bare => none
  | .spilled => x.frameEnv[h.index.toNat]?
  | .store =>
    match x.place with
    | none => none
    | some p =>
      let c := s.core p.core
      if c.gen h.index.toNat = h.gen.toNat then assocGet h.index.toNat c.envs else none

/-- A stale kind-01 handle: a detected hardware error (R87). -/
def State.stale (s : State) (x : Act) (h : Handle) : Bool :=
  match h.kind with
  | .store | .spilled => (s.envOf x h).isNone
  | _ => false

/-- Whether the word count that an entry check compares lies in a record with a detected error (R76, R362). -/
def State.badHeader (s : State) (x : Act) (h : Handle) : Bool := (s.envOf x h).any fun e => e.bad.contains 0

/-- Word count that an entry check compares (R89). -/
def State.envWords (s : State) (x : Act) (h : Handle) : Nat := ((s.envOf x h).map (·.words)).getD 0

/-- Every handle an activity holds (R75, R83): C registers, current environment, stack entries and the closures that a
VAPPLY still has to run. -/
def Act.handles (x : Act) : List Handle :=
  x.c.toList ++ [x.env] ++ x.stack.flatMap fun f =>
    (if f.call then [] else [f.env]) ++ (match f.turns with | none => [] | some t => t.remaining.map (·.2))

/-- Applies a renaming to a token. -/
def Token.mapHandle (f : Handle → Handle) : Token → Token
  | .handle h => .handle (f h)
  | t => t

/-- Applies a renaming to the handle tokens of a block in flight (R75). -/
def Flight.mapHandles (fl : Flight) (f : Handle → Handle) : Flight :=
  { fl with slots := fl.slots.map fun sl =>
      { sl with
        ins := sl.ins.map fun a => (a.1, a.2.1, a.2.2.mapHandle f)
        eff := match sl.eff with
          | .write cls n t => .write cls n (t.mapHandle f)
          | e => e } }

/-- Applies a renaming to the elements of a vector. -/
def mapVec {α : Type} {n : Nat} (v : Vector α n) (f : α → α) : Vector α n := ⟨(v.toList.map f).toArray, by simp⟩

/-- Applies a renaming to every handle of an activity (R75), the partner's snapshot of it included. -/
def Act.mapHandles (x : Act) (f : Handle → Handle) : Act :=
  { x with
    c := mapVec x.c f
    env := f x.env
    meet := x.meet.map fun m => { m with snap := { m.snap with c := mapVec m.snap.c f } }
    flight := x.flight.map fun fl => fl.mapHandles f
    stack := x.stack.map fun fr => { fr with
      env := f fr.env
      turns := fr.turns.map fun t => { t with remaining := t.remaining.map fun p => (p.1, f p.2) } } }

/-- References of an activity to a store index. -/
def Act.refs (x : Act) (i : Nat) : Nat :=
  (x.handles.filter fun h => h.kind == .store && h.index.toNat == i).length

/-- Recounts the references to every committed environment of a core and frees those with none (R82, R83). -/
def State.recount (s : State) (c : Nat) : State :=
  let here := s.onCore c
  let core := s.core c
  let counted := core.envs.map fun p =>
    if p.2.reserver.isSome then p else (p.1, { p.2 with count := (here.map fun x => x.refs p.1).sum })
  let dead := counted.filter fun p => p.2.reserver.isNone && p.2.count == 0
  s.modCore c fun k => dead.foldl (fun k p => k.drop p.1) { k with envs := counted }

/-- Environment records that an activity holds: each environment once, in the store or in its frame, and those of its
pending completion children (R79, R284). -/
def State.envHeld (s : State) (x : Act) : Nat :=
  let hs := x.handles.filter fun h => h.kind == .store || h.kind == .spilled
  let ids := (hs.map fun h => (h.kind, h.index)).eraseDups
  (ids.map fun i => match s.envOf x ⟨i.1, (if i.1 == .store then
      (hs.find? fun h => h.index == i.2 && h.kind == .store).elim 0 (·.gen) else 0), i.2, 0⟩ with
    | some e => envRecs e.words | none => 0).sum +
  (x.copies.map fun c => match c.child with
    | some ch => (match ch.env with | some e => envRecs e.words | none => 0) | none => 0).sum

/-- Sets envu of every region of a function from what its activities hold (R79). -/
def State.refreshEnvu (s : State) (v : Nat) : State :=
  let f := s.fn v
  let uses := (s.acts.filter fun x => x.id.fn = v).map fun x => (x.region, s.envHeld x)
  s.setFn v { f with regions := f.regions.map fun r =>
    let n := (uses.map fun u => if f.within u.1 r.idx then u.2 else 0).sum
    if r.envu = n then r else r.write fun r => { r with envu := n } }

/-- The region whose environment budget a change exceeds, comparing with the use before it (R79). -/
def envOver (before after : Func) : Option Nat :=
  (after.regions.find? fun r => r.owns 3 && decide (r.envb < r.envu) &&
    (match before.region r.idx with | some q => decide (q.envu < r.envu) | none => true)).map (·.idx)

end Sys2Proof.Machine
end

