-- ==== Sys2Proof/Machine/Operands.lean ====
section
/-!
DEFINITION. Slots, tokens and firing (R208 to R214): which operands a slot uses, when it is ready, what it receives and
sends, and the one protocol by which every slot instruction fires.
-/
namespace Sys2Proof.Machine

/-! ### What the words of an instruction say -/

/-- The target fields of a slot instruction (R225). -/
def tgts : Instr → List Tgt
  | .rd _ _ t1 t2 | .mov _ t1 t2 | .null _ t1 t2 | .add _ _ t1 t2 | .sub _ _ t1 t2 | .mul _ _ t1 t2
  | .mulh _ _ t1 t2 | .div _ _ t1 t2 | .rem _ _ t1 t2 | .and _ _ t1 t2 | .or _ _ t1 t2 | .xor _ _ t1 t2
  | .shl _ _ t1 t2 | .shr _ _ t1 t2 | .sha _ _ t1 t2 | .min _ _ _ t1 t2 | .max _ _ _ t1 t2 | .ext _ _ t1 t2
  | .bfx _ _ _ t1 t2 | .bfi _ _ t1 t2 | .cnt _ _ _ t1 t2 | .sel _ t1 t2 | .test _ _ t1 t2 | .ftest _ _ _ t1 t2
  | .fadd _ _ _ t1 t2 | .fsub _ _ _ t1 t2 | .fmul _ _ _ t1 t2 | .fma _ _ _ t1 t2 | .fdiv _ _ _ t1 t2
  | .fsqrt _ _ _ t1 t2 | .fmm _ _ _ t1 t2 | .fcvt _ _ t1 t2 | .tagff _ _ t1 t2 | .tagclr _ t1 t2 | .shopen _ t1 t2
  | .shclose _ t1 t2 | .xrd _ _ t1 t2 | .mwait _ t1 t2 | .tlbinv _ _ t1 t2 | .killq _ t1 t2 | .resume _ _ t1 t2
  | .vadd _ _ t1 t2 | .vsub _ _ t1 t2 | .vmul _ _ t1 t2 | .vfma _ _ t1 t2 | .vmin _ _ t1 t2 | .vmax _ _ t1 t2 => [t1, t2]
  | .geni _ _ t1 | .genu _ _ t1 | .genc _ _ t1 | .addi _ _ t1 | .andi _ _ t1 | .ori _ _ t1 | .shi _ _ _ _ t1
  | .testi _ _ _ t1 | .ld _ _ _ _ t1 | .pld _ _ _ _ t1 | .amo _ _ _ _ t1 | .cas _ _ _ _ t1 | .cin _ _ _ t1
  | .cout _ _ _ t1 | .cgath _ _ _ t1 | .cscat _ _ _ t1 | .cbank _ _ _ t1 | .cfill _ _ _ t1 | .bfmt _ _ _ t1
  | .palloc _ _ _ t1 | .pfree _ _ t1 | .lsplit _ _ t1 | .lgive _ _ t1 | .seal _ _ t1 | .lbase _ _ _ _ t1
  | .spawn _ _ _ _ _ t1 | .cenv _ t1 | .cput _ _ _ t1 | .envrd _ _ _ _ t1 | .mfuse _ _ t1 | .mwload _ _ t1
  | .mwswap _ t1 | .mstream _ _ _ _ t1 | .mstore _ _ t1 | .mrel _ _ t1 | .mldacc _ _ _ t1 | .srd _ _ t1
  | .swr _ _ t1 | .scrub _ t1 | .vcmp _ _ _ t1 | .vlogic _ _ _ t1 | .vshift _ _ _ _ _ t1 | .vcvt _ _ _ _ t1
  | .vld _ _ _ _ t1 | .vred _ _ _ t1 | .vperm _ _ _ _ t1 | .vspec _ _ _ t1 => [t1]
  | _ => []

/-- The predicate condition of a slot (R211, R212): none where no p is used; `some (some b)` where p must be b;
`some none` where p is only awaited. -/
def predReq : Instr → Option (Option Bool)
  | .mov pm _ _ | .null pm _ _ | .geni pm _ _ | .genu pm _ _ | .genc pm _ _ | .br pm _ _ | .bri pm _ | .call pm _ _
  | .ret pm _ | .trap pm _ | .add pm _ _ _ | .sub pm _ _ _ | .addi pm _ _ | .mul pm _ _ _ | .mulh pm _ _ _
  | .div pm _ _ _ | .rem pm _ _ _ | .and pm _ _ _ | .or pm _ _ _ | .xor pm _ _ _ | .andi pm _ _ | .ori pm _ _
  | .shl pm _ _ _ | .shr pm _ _ _ | .sha pm _ _ _ | .shi pm _ _ _ _ | .min pm _ _ _ _ | .max pm _ _ _ _
  | .ext pm _ _ _ | .bfx pm _ _ _ _ | .bfi pm _ _ _ | .cnt pm _ _ _ _ | .sel pm _ _ | .fadd pm _ _ _ _
  | .fsub pm _ _ _ _ | .fmul pm _ _ _ _ | .fma pm _ _ _ _ | .fdiv pm _ _ _ _ | .fsqrt pm _ _ _ _ | .fmm pm _ _ _ _
  | .fcvt pm _ _ _ | .ld pm _ _ _ _ | .st pm _ _ _ | .pld pm _ _ _ _ | .pst pm _ _ _ | .amo pm _ _ _ _
  | .cas pm _ _ _ _ | .cin pm _ _ _ | .cout pm _ _ _ | .cgath pm _ _ _ | .cscat pm _ _ _ | .cbank pm _ _ _
  | .cfill pm _ _ _ | .wtany pm _ _ | .wtall pm _ _ | .tagff pm _ _ _ | .tagclr pm _ _ | .wcnt pm _ _
  | .bfmt pm _ _ _ | .palloc pm _ _ _ | .pfree pm _ _ | .lsplit pm _ _ | .lgive pm _ _ | .seal pm _ _
  | .unseal pm _ _ _ | .shopen pm _ _ | .shclose pm _ _ | .lbase pm _ _ _ _ | .spawn pm _ _ _ _ _ | .retire pm _
  | .yield pm _ _ | .sleep pm _ _ | .gang pm _ _ _ | .split pm _ _ | .meet pm _ _ | .gather pm _ _ _ | .part pm _ _
  | .xrd pm _ _ _ | .cenv pm _ | .cput pm _ _ _ | .envrd pm _ _ _ _ | .envwr pm _ _ _ | .apply pm _ _
  | .vapply pm _ _ _ | .mfuse pm _ _ | .mwload pm _ _ | .mwswap pm _ | .mstream pm _ _ _ _ | .mstore pm _ _
  | .mrel pm _ _ | .mwait pm _ _ | .mldacc pm _ _ _ | .srd pm _ _ | .swr pm _ _ | .tlbinv pm _ _ _ | .scrub pm _
  | .killq pm _ _ | .resume pm _ _ _ | .hcall pm _ _ | .vadd pm _ _ _ | .vsub pm _ _ _ | .vmul pm _ _ _
  | .vfma pm _ _ _ | .vmin pm _ _ _ | .vmax pm _ _ _ | .vcmp pm _ _ _ | .vlogic pm _ _ _ | .vshift pm _ _ _ _ _
  | .vcvt pm _ _ _ _ | .vld pm _ _ _ _ | .vst pm _ _ _ | .vred pm _ _ _ | .vperm pm _ _ _ _ | .vspec pm _ _ _ => match pm with | .always => none | .ifTrue => some (some true) | .ifFalse => some (some false)
  | .test ct _ _ _ | .testi ct _ _ _ | .ftest ct _ _ _ _ => match ct with
    | .sole => none | .ift => some (some true) | .iff => some (some false) | _ => some none
  | _ => none

/-- The data operands a slot instruction uses (R238), before R201 takes the left operand of a fragment read. -/
def dataOps : Instr → List Opnd
  | .wr _ _ | .mov _ _ _ | .genc _ _ _ | .bri _ _ | .addi _ _ _ | .andi _ _ _ | .ori _ _ _ | .shi _ _ _ _ _
  | .ext _ _ _ _ | .cnt _ _ _ _ _ | .testi _ _ _ _ | .fsqrt _ _ _ _ _ | .fcvt _ _ _ _ | .ld _ _ _ _ _
  | .pld _ _ _ _ _ | .cin _ _ _ _ | .cout _ _ _ _ | .cgath _ _ _ _ | .cscat _ _ _ _ | .cbank _ _ _ _
  | .cfill _ _ _ _ | .wtany _ _ _ | .wtall _ _ _ | .tagff _ _ _ _ | .tagclr _ _ _ | .wcnt _ _ _ | .palloc _ _ _ _
  | .lsplit _ _ _ | .shopen _ _ _ | .shclose _ _ _ | .sleep _ _ _ | .xrd _ _ _ _ | .envwr _ _ _ _ | .vapply _ _ _ _
  | .mwload _ _ _ | .mstream _ _ _ _ _ | .mstore _ _ _ | .mwait _ _ _ | .mldacc _ _ _ _ | .swr _ _ _
  | .tlbinv _ _ _ _ | .killq _ _ _ | .resume _ _ _ _ | .hcall _ _ _ | .vcvt _ _ _ _ _ | .vspec _ _ _ _ => [.l]
  | .add _ _ _ _ | .sub _ _ _ _ | .mul _ _ _ _ | .mulh _ _ _ _ | .div _ _ _ _ | .rem _ _ _ _ | .and _ _ _ _
  | .or _ _ _ _ | .xor _ _ _ _ | .shl _ _ _ _ | .shr _ _ _ _ | .sha _ _ _ _ | .min _ _ _ _ _ | .max _ _ _ _ _
  | .bfx _ _ _ _ _ | .test _ _ _ _ | .ftest _ _ _ _ _ | .fadd _ _ _ _ _ | .fsub _ _ _ _ _ | .fmul _ _ _ _ _
  | .fdiv _ _ _ _ _ | .fmm _ _ _ _ _ | .st _ _ _ _ | .pst _ _ _ _ | .amo _ _ _ _ _ | .cput _ _ _ _ | .cenv _ _
  | .vadd _ _ _ _ | .vsub _ _ _ _ | .vmul _ _ _ _ | .vmin _ _ _ _ | .vmax _ _ _ _ | .vcmp _ _ _ _ => [.l, .r]
  | .bfi _ _ _ _ | .sel _ _ _ | .fma _ _ _ _ _ | .cas _ _ _ _ _ | .meet _ _ _ | .gather _ _ _ _ | .vfma _ _ _ _ => [.l, .r, .x]
  | .spawn _ share region _ _ _ => (if share then [.r] else []) ++ (if region then [.x] else [])
  | .vld _ _ _ mode _ => (match mode with | .unit | .bcast => [.l] | _ => [.l, .r])
  | .vst _ _ _ mode => (match mode with | .unit => [.l, .r] | _ => [.l, .r, .x])
  | .vshift _ _ _ var _ _ => if var then [.l, .r] else [.l]
  | .vlogic _ _ fn _ => (match fn with | .not => [.l] | _ => [.l, .r])
  | .vperm _ _ fn _ _ => (match fn with | .iota => [] | .perm => [.l, .r] | _ => [.l])
  | .vred _ _ fn _ => (match fn with | .dot => [.l, .r] | _ => [.l])
  | _ => []

/-- The load/store ID of a memory operation (R218). -/
def lsidOf : Instr → Option Nat
  | .ld _ lsid _ _ _ | .st _ lsid _ _ | .pld _ lsid _ _ _ | .pst _ lsid _ _ | .amo _ lsid _ _ _ | .cas _ lsid _ _ _
  | .envrd _ lsid _ _ _ | .envwr _ lsid _ _ | .vld _ lsid _ _ _ | .vst _ lsid _ _ => some lsid.toNat
  | _ => none

/-- The memory operations that smask marks as stores (R218). -/
def isStore : Instr → Bool
  | .st _ _ _ _ | .pst _ _ _ _ | .amo _ _ _ _ _ | .cas _ _ _ _ _ | .envwr _ _ _ _ | .vst _ _ _ _ => true
  | _ => false

/-- The exits (R221). -/
def isExit : Instr → Bool
  | .br _ _ _ | .call _ _ _ | .wtany _ _ _ | .wtall _ _ _ | .wcnt _ _ _ | .unseal _ _ _ _ | .yield _ _ _
  | .sleep _ _ _ | .gang _ _ _ _ | .split _ _ _ | .meet _ _ _ | .gather _ _ _ _ | .part _ _ _ | .hcall _ _ _
  | .vapply _ _ _ _ | .apply _ _ _ | .bri _ _ | .ret _ _ | .retire _ _ => true
  | _ => false

/-- The vector instructions, opcodes 70h to 7Eh (R311). -/
def isVector : Instr → Bool
  | .vadd _ _ _ _ | .vsub _ _ _ _ | .vmul _ _ _ _ | .vfma _ _ _ _ | .vmin _ _ _ _ | .vmax _ _ _ _ | .vcmp _ _ _ _
  | .vlogic _ _ _ _ | .vshift _ _ _ _ _ _ | .vcvt _ _ _ _ _ | .vld _ _ _ _ _ | .vst _ _ _ _ | .vred _ _ _ _
  | .vperm _ _ _ _ _ | .vspec _ _ _ _ => true
  | _ => false

/-- The exit number of an exit (R220). -/
def exitNum : Instr → Nat
  | .br _ ex _ | .bri _ ex | .call _ ex _ | .ret _ ex | .wtany _ ex _ | .wtall _ ex _ | .wcnt _ ex _
  | .unseal _ ex _ _ | .retire _ ex | .yield _ ex _ | .sleep _ ex _ | .gang _ ex _ _ | .split _ ex _ | .meet _ ex _
  | .gather _ ex _ _ | .part _ ex _ | .apply _ ex _ | .vapply _ ex _ _ | .hcall _ ex _ => ex.toNat
  | _ => 0
/-! ### Tokens (R209) -/

/-- A token at a scalar operand: a vector gives its low 64 bits. -/
def Token.word : Token → Word
  | .scalar w => w
  | .vector v _ => BitVec.ofNat 64 v.toNat
  | _ => 0

/-- A token at a vector operand: a scalar is zero-extended. -/
def Token.vec : Token → Vec
  | .scalar w => BitVec.ofNat 512 w.toNat
  | .vector v _ => v
  | _ => 0

/-- The null marks of a token at a vector operand, one per byte. -/
def Token.nulls : Token → BitVec 64
  | .vector _ n => n
  | _ => 0

/-- Bit 0 of a predicate token. -/
def Token.truth (t : Token) : Bool := t.word.getLsbD 0

/-- The token that has arrived at an operand: the first one. -/
def SlotSt.arrived (sl : SlotSt) (o : Opnd) : Option Token := (sl.ins.find? fun a => a.1 == o).map (·.2.2)

/-- The second token that an operand received, if any (R214). -/
def SlotSt.second (sl : SlotSt) : Option Opnd :=
  [Opnd.l, .r, .p, .x].find? fun o => decide (2 ≤ (sl.ins.filter fun a => a.1 == o).length)

/-! ### Words of a flight -/

/-- The instruction of a slot of a block in flight. -/
def Flight.instr (f : Flight) (k : Nat) : Option Instr :=
  match f.words[k]? with
  | none => none
  | some w => (match decodeWord w with | .ok i => some i | .error _ => none)

/-- The prefix in front of a slot (R198). -/
def Flight.pfxOf (f : Flight) (k : Nat) : Option Pfx :=
  if k = 0 then none else
    match f.words[k - 1]? with
    | none => none
    | some w => decodePfx w

/-- A slot of a block in flight. -/
def Flight.slot (f : Flight) (k : Nat) : SlotSt := f.slots.getD k ⟨[], .notYet, [], .none⟩

/-- The opcodes with two target fields: forms I and G (R225, R237), but for BRI, RET and RETIRE (R246). -/
def twoTargets : List Nat :=
  [0x01, 0x03, 0x04, 0x10, 0x11, 0x13, 0x14, 0x15, 0x16, 0x17, 0x18, 0x19, 0x1C, 0x1D, 0x1E, 0x20, 0x21, 0x22, 0x23,
   0x24, 0x25, 0x26, 0x28, 0x2A, 0x2C, 0x2D, 0x2E, 0x2F, 0x30, 0x31, 0x32, 0x33, 0x42, 0x43, 0x4C, 0x4D, 0x58, 0x66,
   0x6A, 0x6C, 0x6D, 0x70, 0x71, 0x72, 0x73, 0x74, 0x75]
/-- The opcodes with their one target field in bits 8:0: forms K, KT, L, E and VL, but for TRAP (R246). -/
def lowTarget : List Nat :=
  [0x05, 0x06, 0x07, 0x12, 0x1A, 0x1B, 0x1F, 0x29, 0x34, 0x36, 0x38, 0x39, 0x3A, 0x3B, 0x3C, 0x3D, 0x3E, 0x3F, 0x45,
   0x46, 0x47, 0x48, 0x49, 0x4A, 0x4E, 0x4F, 0x59, 0x5A, 0x5C, 0x60, 0x61, 0x62, 0x63, 0x64, 0x65, 0x67, 0x68, 0x69,
   0x6B, 0x7A]
/-- The opcodes of form V, whose target field is in bits 17:9. -/
def highTarget : List Nat := [0x76, 0x77, 0x78, 0x79, 0x7C, 0x7D, 0x7E]

/-- The target fields that a word's opcode gives it, whether or not its other fields decode (R225, R237). -/
def rawTgts (w : Word32) : List Tgt :=
  let n := w.toNat
  if twoTargets.contains (fOp n) then [Tgt.ofCode (fT1 n), Tgt.ofCode (fT2 n)]
  else if lowTarget.contains (fOp n) then [Tgt.ofCode (fT2 n)]
  else if highTarget.contains (fOp n) then [Tgt.ofCode (fT1 n)]
  else []

/-- The target fields of a slot; those of a word that is refused for another field count too (R210, R244). -/
def Flight.tgtsOf (f : Flight) (j : Nat) : List Tgt :=
  match f.instr j with
  | some i => tgts i
  | none => rawTgts (f.words.getD j 0)

/-- Whether some slot of the block names an operand. -/
def Flight.names (f : Flight) (k : Nat) (o : Opnd) : Bool :=
  (upFrom 0 f.words.length).any fun j =>
    (f.tgtsOf j).any fun t => match t with | some g => g.slot.toNat == k && g.opnd == o | none => false

/-- The data operands a slot waits for, with R201: a fragment read has no left operand. -/
def Flight.needs (f : Flight) (k : Nat) (i : Instr) : List Opnd :=
  match f.pfxOf k with
  | some p => if p.acc && isVector i then (dataOps i).filter (· != .l) else dataOps i
  | none => dataOps i

/-- Whether the slot has a fourth operand (R200): some slot names the prefix's left operand. -/
def Flight.fourth (f : Flight) (k : Nat) : Bool := (f.pfxOf k).isSome && f.names (k - 1) .l

/-- The tokens at the data operands, the fourth operand last; none while one has not arrived. -/
def Flight.data (f : Flight) (k : Nat) (i : Instr) : Option (List Token) :=
  let own := (f.needs k i).map fun o => (f.slot k).arrived o
  let all := if f.fourth k then own ++ [(f.slot (k - 1)).arrived .l] else own
  if all.all (·.isSome) then some (all.filterMap id) else none

/-- How far a slot is (R211 to R213). `wait` lacks a token; `never` cannot fire any more; `drain` has its tokens and
waits for the further condition of its entry. -/
inductive Rdy where | wait | never | drain | fire | fireNull
deriving DecidableEq, Repr

/-- Whether an operand of a slot, its fourth operand included, has received two tokens (R214). -/
def Flight.collided (f : Flight) (k : Nat) : Bool :=
  (f.slot k).second.isSome || (f.fourth k && (f.slot (k - 1)).second.isSome)

/-- Whether a slot is ready, given whether its further condition holds. One that has raised a collision sends no token
(R214, R217): it never fires. -/
def Flight.ready (f : Flight) (k : Nat) (i : Instr) (cond : Bool) : Rdy :=
  if (f.slot k).status != .notYet || f.collided k then .never
  else
    let pred : Rdy := match predReq i with
      | none => .fire
      | some want =>
        match (f.slot k).arrived .p with
        | none => .wait
        | some .null => .fireNull
        | some t => (match want with | none => .fire | some b => if t.truth == b then .fire else .never)
    if pred == .wait || pred == .never then pred
    else
      match f.data k i with
      | none => .wait
      | some ts => if pred == .fireNull || ts.contains .null then .fireNull else if cond then .fire else .drain

/-! ### Sending -/

/-- Whether a slot that has not fired has all that it needs, its further condition aside. -/
def Flight.live (f : Flight) (k : Nat) : Bool :=
  match f.instr k with
  | none => false
  | some i => (match f.ready k i true with | .wait | .never => false | _ => true)

/-- Changes a slot of a block in flight. -/
def Flight.modSlot (f : Flight) (k : Nat) (g : SlotSt → SlotSt) : Flight :=
  { f with slots := f.slots.set k (g (f.slot k)) }

/-- Delivers a token from slot `src` to a target (R208). -/
def Flight.send (f : Flight) (src : Nat) (t : Tgt) (tok : Token) : Flight :=
  match t with
  | none => f
  | some g => f.modSlot g.slot.toNat fun sl => { sl with ins := sl.ins ++ [(g.opnd, src, tok)] }

/-- Sends a first and a second token to the target fields of a slot; forms with one target send the first (R211). -/
def Flight.sendAll (f : Flight) (k : Nat) (i : Instr) (a b : Token) : Flight :=
  match tgts i with
  | [t1, t2] => (f.send k t1 a).send k t2 b
  | [t1] => f.send k t1 a
  | _ => f

/-- Puts an activity's flight back. -/
def State.setFlight (s : State) (a : Aid) (f : Flight) : State := s.modAct a fun x => { x with flight := some f }

/-! ### Replay of loads (R219, R380) -/

/-- The slots that received a token from one of the given slots, and the vector instructions whose prefix did (R200). -/
def Flight.consumers (f : Flight) (from_ : List Nat) : List Nat :=
  (upFrom 0 f.slots.length).filter fun j =>
    !from_.contains j && (((f.slot j).ins.any fun a => from_.contains a.2.1) ||
      ((f.pfxOf j).isSome && from_.contains (j - 1)))

/-- The slots that depend on the given ones, fuel bounding the length of a chain. -/
def dependents (f : Flight) : Nat → List Nat → List Nat
  | 0, ks => ks
  | n + 1, ks =>
    let more := f.consumers ks
    if more.isEmpty then ks else dependents f n (ks ++ more)

/-- Takes back the firing of slots and every token they sent. The store that caused the replay, where it depends on a
load that it changed, stays performed until it fires again (R380). -/
def Flight.withdraw (f : Flight) (ks : List Nat) (store : Nat) : Flight :=
  { f with slots := ((upFrom 0 f.slots.length).zip f.slots).map fun p =>
      let ins := p.2.ins.filter fun a => !ks.contains a.2.1
      if ks.contains p.1 then ⟨ins, .notYet, [], if p.1 = store then p.2.eff else .none⟩
      else { p.2 with ins := ins } }

/-- The value of a byte of the own carrel or of partner space after the stores of lower ID that have fired, the
highest such ID winning (R219); `none` where no store writes it. -/
def Flight.overlay (f : Flight) (partner : Bool) (lsid off : Nat) : Option Byte :=
  let hits := (upFrom 0 f.slots.length).filterMap fun j =>
    match f.instr j, (f.slot j).eff with
    | some i, .store p data =>
      (match lsidOf i with
        | some id => if decide (id < lsid) && p == partner then
            ((data.filter fun d => d.1 = off).getLast?).map fun d => (id, d.2) else none
        | none => none)
    | _, _ => none
  (hits.foldl (fun best h => match best with
    | none => some h
    | some b => if b.1 < h.1 then some h else some b) (none : Option (Nat × Byte))).map (·.2)

/-- Whether a slot reads or writes partner space. -/
def partnerSpace : Instr → Bool
  | .pld .. | .pst .. => true
  | _ => false

/-- A fault that what a load read decides: an uncorrectable error or a reserved scale code in the bytes (R362, R319). -/
def Fired.readFault : Fired → Bool
  | .faulted e => e.cause == .dataError || e.cause == .strictCode
  | _ => false

/-- The loads that a store of lower ID, fired later, has changed: those whose bytes read otherwise now, and those that
raised a fault over the bytes they read. A VST that keeps a nibble of a byte counts as a load of it. -/
def Flight.staleLoads (f : Flight) (base : Bool → Nat → Byte) (store : Nat) : List Nat :=
  (upFrom 0 f.slots.length).filter fun j =>
    match f.instr j with
    | none => false
    | some i =>
      match lsidOf i with
      | none => false
      | some id =>
        j != store && ((f.slot j).status.readFault || ((f.slot j).status == .done &&
          (f.slot j).reads.any fun r =>
            ((f.overlay (partnerSpace i) id r.1).getD (base (partnerSpace i) r.1)) != r.2))

/-- Takes back every load that would read other bytes now, with all that depends on it but the slots `firm`; then those
that read the bytes of a store taken back with them, and so on. Each fires again. -/
def replayAux (base : Bool → Nat → Byte) (store : Nat) (firm : List Nat) : Nat → Flight → Flight
  | 0, f => f
  | n + 1, f =>
    let redo := ((f.staleLoads base store).flatMap fun j => dependents f f.slots.length [j]).filter fun j => !firm.contains j
    if redo.isEmpty then f else replayAux base store firm n (f.withdraw redo store)

/-- After a store has fired, or has fired null: the loads that read otherwise now fire again (R219). -/
def Flight.replay (f : Flight) (base : Bool → Nat → Byte) (store : Nat) : Flight :=
  replayAux base store [] f.slots.length f

/-- Where nothing of an execution can fire any more, a store that a replay took back and that has not fired again does
not perform: the loads that read its bytes fire again without them (R219). -/
def Flight.unperform (f : Flight) (base : Bool → Nat → Byte) : Flight :=
  if (f.slots.any fun sl => sl.status == .notYet && sl.eff != .none) && (upFrom 0 f.words.length).all (fun k => !f.live k)
  then
    replayAux base f.slots.length [] f.slots.length { f with slots := f.slots.map fun sl =>
      if sl.status == .notYet then { sl with eff := .none } else sl }
  else f

/-- After slot `k` has fired null: the loads that a store which does not perform changes fire again (R219). -/
def Flight.afterNull (f : Flight) (base : Bool → Nat → Byte) (k : Nat) (i : Instr) : Flight :=
  (if isStore i then f.replay base k else f).unperform base

/-- After slot `k` has raised a fault, which stands until the end of the block (R217): what it stored before a replay
made it fire again is no store that performs, and the loads that read it fire again (R219). -/
def Flight.fault (f : Flight) (base : Bool → Nat → Byte) (k : Nat) (e : Flt) : Flight :=
  let g := f.modSlot k fun sl => { sl with status := .faulted e, eff := .none }
  (match (f.slot k).eff with
    | .store _ _ => replayAux base k [k] f.slots.length g
    | _ => g).unperform base

/-- Instructions by which a block observes the completion of an engine command (R132): TAGFF, MWAIT, SRD of %tags,
%tagerr, %outw or %outr, and a vector instruction that reads an accumulator fragment. -/
def Flight.observes (f : Flight) (k : Nat) : Instr → Bool
  | .tagff .. | .mwait .. => true
  | .srd _ n _ => n.toNat == 0x10 || n.toNat == 0x11 || n.toNat == 0x13 || n.toNat == 0x14
  | i => isVector i && (match f.pfxOf k with | some p => p.acc | none => false)

/-- After slot `k` has fired: a store makes the loads that it changes fire again (R219), and so does an instruction that
observes the completion of an engine command (R132). -/
def Flight.refire (f : Flight) (base : Bool → Nat → Byte) (k : Nat) (i : Instr) (e : Effect) : Flight :=
  (match e with
    | .store _ _ => f.replay base k
    | _ => if f.observes k i then f.replay base f.slots.length else f).unperform base

/-- Environments reserved by an activity whose CENV no longer stands are released (R277). -/
def State.sweepReserved (s : State) (x : Act) : State :=
  match x.place with
  | none => s
  | some p =>
    let kept := match x.flight with
      | none => []
      | some f => f.slots.filterMap fun (sl : SlotSt) => match sl.eff with | .cenv h _ => some h.index.toNat | _ => none
    s.modCore p.core fun c =>
      (c.envs.filter fun e => e.2.reserver == some x.id && !kept.contains e.1).foldl (fun c e => c.drop e.1) c

/-! ### Firing -/

/-- What a firing slot sees: the state, its activity, the flight, its number, its instruction, its data tokens in
operand order (the fourth operand last) and its prefix. -/
structure Ctx where
  s    : State
  x    : Act
  fl   : Flight
  k    : Nat
  i    : Instr
  toks : List Token
  pred : Option Token
  pfx  : Option Pfx

/-- Token number `n` of the data operands. -/
def Ctx.tok (c : Ctx) (n : Nat) : Token := c.toks.getD n .null
/-- Scalar value of data operand `n`. -/
def Ctx.word (c : Ctx) (n : Nat) : Word := (c.tok n).word

/-- What a firing slot does: the tokens for its first and second target, what it will do at the commit, the bytes it
read, and the state with its immediate effects (reservations, cache invalidations). -/
structure FOut where
  a     : Token
  b     : Token
  eff   : Effect
  reads : List (Nat × Byte)
  s     : State
  late  : Bool

/-- Sends one token to both targets. -/
def Ctx.send (c : Ctx) (t : Token) : FOut := ⟨t, t, .none, [], c.s, false⟩
/-- Sends one token and records an effect. -/
def Ctx.sendEff (c : Ctx) (t : Token) (e : Effect) : FOut := ⟨t, t, e, [], c.s, false⟩
/-- Sends a scalar. -/
def Ctx.scalar (c : Ctx) (w : Word) : Except Flt FOut := .ok (c.send (.scalar w))
/-- Records an exit. -/
def Ctx.exit (c : Ctx) (e : Exit) : Except Flt FOut := .ok (c.sendEff .null (.exit e))

/-- A fault with no detail words. -/
def flt (c : Cause) : Flt := ⟨c, 0, 0⟩
/-- A fault with detail A. -/
def fltA (c : Cause) (a : Nat) : Flt := ⟨c, BitVec.ofNat 64 a, 0⟩
/-- A fault with both detail words. -/
def fltAB (c : Cause) (a b : Nat) : Flt := ⟨c, BitVec.ofNat 64 a, BitVec.ofNat 64 b⟩

/-- A byte of the executing activity's own carrel or of partner space as committed. -/
def State.baseByte (s : State) (x : Act) (partner : Bool) (off : Nat) : Byte :=
  if partner then
    match x.meet with
    | none => 0
    | some m =>
      match s.act m.partner with
      | none => 0
      | some y => (match y.meet with
        | none => 0
        | some n => Memory.get y.carrel (n.lugFirst * Config.bankSize + off))
  else Memory.get x.carrel off

/-- The context of the slot that is selected to fire, if there is one and it holds the given instruction. -/
def State.ctx (s : State) (i : Instr) : Option Ctx :=
  match s.cur with
  | none => none
  | some (a, k) =>
    match s.act a with
    | none => none
    | some x =>
      match x.flight with
      | none => none
      | some f =>
        if f.instr k == some i then
          some ⟨s, x, f, k, i, (f.data k i).getD [], (f.slot k).arrived .p, f.pfxOf k⟩
        else none

/-- THE FIRING PROTOCOL (R211, R213, R217) of every slot instruction: the selected slot must hold the instruction and be
ready; with a null token it fires null; otherwise `f` says what it sends, records or raises. A store that fires, or
fires null, makes the loads it changes fire again (R219); so does an instruction that observes the completion of a
command, since the command's accesses happen before the block's commit (R132). -/
def fireSlot (s : State) (i : Instr) (cond : Ctx → Bool) (f : Ctx → Except Flt FOut) :
    Host.Outcome State Fault Refusal :=
  match s.ctx i with
  | none => .fault .notFiring
  | some c =>
    let s0 := { s with cur := none }
    match c.fl.ready c.k i (cond c) with
    | .fireNull =>
      let fl := (c.fl.modSlot c.k fun sl => { sl with status := .nulled, eff := .none }).sendAll c.k i .null .null
      .next (s0.setFlight c.x.id (fl.afterNull (s.baseByte c.x) c.k i))
    | .fire =>
      (match f { c with s := s0 } with
        | .error e =>
          .next (s0.setFlight c.x.id (c.fl.fault (s.baseByte c.x) c.k e))
        | .ok o =>
          let cur := (match o.s.act c.x.id with | some y => y.flight.getD c.fl | none => c.fl)
          let fl := cur.modSlot c.k fun sl =>
            { sl with status := (if o.late then .pending else .done), eff := o.eff, reads := o.reads }
          let fl := if o.late then fl else fl.sendAll c.k i o.a o.b
          let fl := fl.refire (s.baseByte c.x) c.k i o.eff
          let s1 := o.s.setFlight c.x.id fl
          .next (match s1.act c.x.id with | none => s1 | some y => s1.sweepReserved y))
    | _ => .fault .notFiring

/-- The condition of a slot that has none. -/
def always (_ : Ctx) : Bool := true

end Sys2Proof.Machine
end

