-- ==== Sys2Proof/Machine/Quant.lean ====
section
/-!
DEFINITION. Carrel bank formats (R98 to R101) and the quantised format Q4N (R162 to R166): element sizes, conversions
between a bank element and an access type or another format, decoding and encoding of superblocks.
-/
namespace Sys2Proof.Machine

/-! ### Format codes (R98): 0 raw, 1 INT8, 2 INT16, 3 INT32, 4 FP32, 5 BF16, 6 FP16, 7 E4M3, 8 E5M2, 9 Q4N, 10 INT4 -/

/-- Element size in bytes (R98); INT4 and Q4N count as 1 byte in copy commands (R113). -/
def fmtSize : Nat → Nat
  | 2 | 5 | 6 => 2
  | 3 | 4 => 4
  | _ => 1

/-- Elements per bank (R98). -/
def fmtCount : Nat → Nat
  | 2 | 5 | 6 => 12288
  | 3 | 4 => 6144
  | 9 => 40960
  | 10 => 49152
  | _ => 24576

/-- The formats with 1-, 2- and 4-byte elements. -/
def fmtPlain (f : Nat) : Bool := 1 ≤ f && f ≤ 8

/-- The float format of a bank format. -/
def fmtFloat : Nat → Option FFmt
  | 4 => some fp32
  | 5 => some bf16
  | 6 => some fp16
  | 7 => some e4m3
  | 8 => some e5m2
  | _ => none

/-- The value of an element of a plain or INT4 format (R99, R151). -/
def fmtRead (f bits : Nat) : Num :=
  match fmtFloat f with
  | some ff => ff.read bits
  | none => Num.ofInt (bitsInt true (if f = 10 then 4 else 8 * fmtSize f) bits)

/-- A value as an element of a plain or INT4 format, RNE, saturating integers and E4M3 (R99). -/
def fmtWrite (f : Nat) (x : Num) : Nat :=
  match fmtFloat f with
  | some ff => ff.round .rne (f = 7) 0 x
  | none =>
    let w := if f = 10 then 4 else 8 * fmtSize f
    intBits w (x.toIntClamp .rne 0 true w)

/-- A value as an integer of a scalar access type (R99): RNE, saturating. -/
def tyFromNum (signed : Bool) (w : Nat) (x : Num) : Nat := intBits w (x.toIntClamp .rne 0 signed w)

/-- A vector lane type read as a value (R99, R319). -/
def etyRead (t : ETy) (bits : Nat) : Num :=
  if t.isInt then Num.ofInt (bitsInt t.isSigned t.width bits) else t.ffmt.read bits

/-- A value converted into a vector lane type (R99): RNE, integers saturate, E4M3 saturates. DESIGN CHOICE
(assumption log 72): a negative INT4 element loaded into an unsigned lane saturates to 0. -/
def etyWrite (t : ETy) (x : Num) : Nat :=
  if t.isInt then intBits t.width (x.toIntClamp .rne 0 t.isSigned t.width)
  else t.ffmt.round .rne (t == .e4m3) 0 x

/-! ### Q4N -/

/-- The codebook numerators n(c) (R162). -/
def q4nLevels : List Int := [-64, -46, -34, -26, -19, -12, -6, 0, 5, 11, 16, 22, 29, 37, 47, 64]

/-- Level numerator of a code (R162). -/
def q4nLevel (c : Nat) : Int := q4nLevels.getD (c % 16) 0

/-- The block scale that is read (R164): FFh reads as 254. -/
def q4nB (b : Nat) : Nat := if b = 255 then 254 else b

/-- The superscale that is read (R163, R164): a nonnegative fraction. -/
def q4nS (s : Nat) : Nat × Nat :=
  match fp32.read s with
  | .nan => (0, 1)
  | .inf _ => (match fp32.read fp32.maxFin with | .fin _ n d => (n, d) | _ => (0, 1))
  | .fin _ n d => (n, d)

/-- A reserved block scale (R164). -/
def q4nBadB (b : Nat) : Bool := b = 255
/-- A reserved superscale (R164): NaN, infinite or with its sign bit set. -/
def q4nBadS (s : Nat) : Bool :=
  match fp32.read s with
  | .fin neg _ _ => neg
  | _ => true

/-- The decoded FP32 value of a code (R163); a result that is or rounds to zero is +0. -/
def q4nDecode (c b s : Nat) : Nat :=
  let n := q4nLevel c
  let (sn, sd) := q4nS s
  let m := sn * q4nB b * n.natAbs
  let r := fp32.round .rne false 0 (.fin (n < 0) m (sd * 16256))
  if r % 2 ^ 31 = 0 then 0 else r

/-- A code's place in a bank (R100): the byte with its nibble, its block scale byte and its superscale. -/
def q4nCodeByte (c : Nat) : Nat := c / 2
/-- See `q4nCodeByte`. -/
def q4nBOff (c : Nat) : Nat := 20480 + c / 16
/-- See `q4nCodeByte`. -/
def q4nSOff (c : Nat) : Nat := 23040 + 4 * (c / 256)

/-- The absolute value of an FP32 input of the encoder as a fraction (R166): NaN as 0, infinities as the largest
finite value. -/
def q4nIn (bits : Nat) : Bool × Nat × Nat :=
  match fp32.read bits with
  | .nan => (false, 0, 1)
  | .inf s => (match fp32.read fp32.maxFin with | .fin _ n d => (s, n, d) | _ => (s, 0, 1))
  | .fin s n d => (s, n, d)

/-- The larger of two nonnegative fractions. -/
def fracMax (a b : Nat × Nat) : Nat × Nat := if a.1 * b.2 < b.1 * a.2 then b else a

/-- The code nearest to `t = p / q` (R166), ties to the smaller level magnitude: search over the codebook. -/
def q4nNearest (p : Int) (q : Nat) : Nat :=
  let dist (c : Nat) : Nat := (q4nLevel c * q - p).natAbs
  (upFrom 0 16).foldl (fun best c =>
    if dist c < dist best || (dist c == dist best && decide ((q4nLevel c).natAbs < (q4nLevel best).natAbs)) then c
    else best) 0

/-- One block of 16 elements under the superscale `s` (R166): block scale and codes. -/
def q4nBlock (s : Nat × Nat) (xs : List (Bool × Nat × Nat)) : Nat × List Nat :=
  let m := xs.foldl (fun acc x => fracMax acc (x.2.1, x.2.2)) (0, 1)
  if m.1 = 0 then (0, xs.map fun _ => 7)
  else
    let b := Nat.max 1 (Nat.min 254 (ceilDiv (254 * m.1 * s.2) (m.2 * s.1)))
    (b, xs.map fun x =>
      let p : Int := 16256 * x.2.1 * s.2
      q4nNearest (if x.1 then -p else p) (x.2.2 * s.1 * b))

/-- Cuts a list into pieces of `k`, at most `f` of them. -/
def chunks {α : Type} (k : Nat) : Nat → List α → List (List α)
  | 0, _ => []
  | f + 1, l => if l.isEmpty then [] else l.take k :: chunks k f (l.drop k)

/-- A superblock of 256 FP32 elements encoded (R166): superscale bits, block scales, codes. -/
def q4nEncode (xs : List Nat) : Nat × List Nat × List Nat :=
  let ys := xs.map q4nIn
  let s := ys.foldl (fun acc x => fracMax acc (x.2.1, x.2.2)) (0, 1)
  if s.1 = 0 then (0, List.replicate 16 0, xs.map fun _ => 7)
  else
    let bl := (chunks 16 16 ys).map (q4nBlock s)
    (fp32.round .rne false 0 (.fin false s.1 s.2), bl.map (·.1), (bl.map (·.2)).flatten)

/-! ### Whole-bank conversion (CBANK, R101) -/

/-- Element `i` of a bank image of the given format, as a value; Q4N codes decode by R163. -/
def bankElem (get : Nat → Byte) (f i : Nat) : Num :=
  if f = 9 then
    let code := (get (q4nCodeByte i)).toNat / (if i % 2 = 0 then 1 else 16) % 16
    fp32.read (q4nDecode code (get (q4nBOff i)).toNat
      (leNat [get (q4nSOff i), get (q4nSOff i + 1), get (q4nSOff i + 2), get (q4nSOff i + 3)]))
  else if f = 10 then fmtRead 10 ((get (i / 2)).toNat / (if i % 2 = 0 then 1 else 16) % 16)
  else
    let sz := fmtSize f
    fmtRead f (leNat ((upFrom (i * sz) sz).map get))

/-- Packs codes two to a byte, low nibble first. -/
def packNibbles : List Nat → List Byte
  | [] => []
  | [a] => [BitVec.ofNat 8 (a % 16)]
  | a :: b :: r => BitVec.ofNat 8 (a % 16 + 16 * (b % 16)) :: packNibbles r

/-- The bytes of superblock `j` of a Q4N bank, as (offset, byte). -/
def q4nSuperBytes (j : Nat) (e : Nat × List Nat × List Nat) : List (Nat × Byte) :=
  let put (off : Nat) (bs : List Byte) : List (Nat × Byte) := (upFrom off bs.length).zip bs
  put (128 * j) (packNibbles e.2.2) ++ put (20480 + 16 * j) (e.2.1.map (BitVec.ofNat 8 ·))
    ++ put (23040 + 4 * j) (leBytes 4 e.1)

/-- What CBANK writes into the destination bank (R101): the source is read by `get`, the destination's old bytes by
`old`; a raw bank on one side is taken as the other side's format; two raw banks copy bytes. -/
def bankConvert (get old : Nat → Byte) (src dst : Nat) : List (Nat × Byte) :=
  let sf := if src = 0 then dst else src
  let df := if dst = 0 then src else dst
  if sf = 0 then (upFrom 0 24576).map fun i => (i, get i)
  else
    let n := Nat.min (fmtCount sf) (fmtCount df)
    let vals := (upFrom 0 n).map (bankElem get sf)
    if df = 9 then
      let f32 := vals.map (fp32.round .rne false 0 ·)
      let sb := (chunks 256 160 f32).map fun xs => xs ++ List.replicate (256 - xs.length) 0
      ((upFrom 0 sb.length).zip sb).flatMap fun p => q4nSuperBytes p.1 (q4nEncode p.2)
    else if df = 10 then
      let nib := vals.map (fmtWrite 10)
      let full := packNibbles nib
      (upFrom 0 full.length).zip (if n % 2 = 0 then full else
        full.dropLast ++ [BitVec.ofNat 8 ((full.getLastD 0).toNat % 16 + (old (n / 2)).toNat / 16 * 16)])
    else
      let sz := fmtSize df
      (((upFrom 0 n).zip vals).flatMap fun p => (upFrom (p.1 * sz) sz).zip (leBytes sz (fmtWrite df p.2)))

/-- The first reserved scale code that decoding code `i` of a Q4N bank meets (R165, R361): offset and value. -/
def q4nReserved (get : Nat → Byte) (i : Nat) : Option (Nat × Nat) :=
  let b := (get (q4nBOff i)).toNat
  let so := q4nSOff i
  let s := leNat [get so, get (so + 1), get (so + 2), get (so + 3)]
  if q4nBadB b then some (q4nBOff i, b) else if q4nBadS s then some (so, s) else none

end Sys2Proof.Machine
end

