-- ==== Sys2Proof/Machine/Flags.lean ====
section
/-!
DEFINITION. The test conditions and combine types (R212, R269 to R271, R314): the machine has no flags register; a test
sends its result as two predicate tokens.
-/
namespace Sys2Proof.Machine

/-- The condition of TEST and TESTI (R269, R270). -/
def condHolds (c : Cond) (l r : Word) : Bool :=
  match c with
  | .eq => l == r
  | .ne => l != r
  | .lt => l.slt r
  | .ge => !l.slt r
  | .ltu => l.ult r
  | .geu => !l.ult r
  | .le => l.sle r
  | .gt => !l.sle r
  | .leu => l.ule r
  | .gtu => !l.ule r
  | .bitset => l.getLsbD (r.toNat % 64)
  | .bitclr => !l.getLsbD (r.toNat % 64)

/-- The condition of FTEST on two values (R271): unordered when either is a NaN. -/
def fcondHolds (c : FCond) (o : Option Ordering) : Bool :=
  match c, o with
  | .eq, some .eq => true
  | .ne, some .eq => false
  | .ne, _ => true
  | .lt, some .lt => true
  | .le, some .lt => true
  | .le, some .eq => true
  | .unord, none => true
  | .ord, some _ => true
  | .gt, some .gt => true
  | .ge, some .gt => true
  | .ge, some .eq => true
  | _, _ => false

/-- The two outputs of a test whose predicate operand is `p` and whose result is `c` (R212). -/
def combineOut (ct : Combine) (p c : Bool) : Bool × Bool :=
  match ct with
  | .sole | .ift | .iff => (c, !c)
  | .gate => (p && c, p && !c)
  | .all => (p && c, !(p && c))
  | .any => (p || c, !(p || c))
  | .alln => (p && !c, !(p && !c))
  | .anyn => (p || !c, !(p || !c))

/-- The condition of VCMP on two integer lanes (R314). -/
def vcondInt (c : VCond) (l r : Int) : Bool :=
  match c with
  | .eq => l == r
  | .ne => l != r
  | .lt => decide (l < r)
  | .le => decide (l ≤ r)
  | .gt => decide (r < l)
  | .ge => decide (r ≤ l)
  | .unord => false
  | .ord => true

/-- The condition of VCMP on two float lanes (R314). -/
def vcondFloat (c : VCond) (o : Option Ordering) : Bool :=
  fcondHolds (match c with
    | .eq => .eq | .ne => .ne | .lt => .lt | .le => .le | .gt => .gt | .ge => .ge | .unord => .unord | .ord => .ord) o

end Sys2Proof.Machine
end

