-- ==== Sys2Proof/Machine/Scalar.lean ====
section
/-!
DEFINITION. Registers, constants, exits within a block, integer arithmetic, logic and tests (R245 to R271).
-/
namespace Sys2Proof.Machine

/-- The outcome of a step. -/
abbrev Res := Host.Outcome State Fault Refusal

/-! ### The arithmetic (R257 to R268), on 64-bit operands -/

/-- The 32-bit variant of an operation: low halves in, result sign-extended (R245). -/
def inW32 (w32 : Bool) (f32 : BitVec 32 → BitVec 32 → BitVec 32) (f64 : Word → Word → Word) (l r : Word) : Word :=
  if w32 then (f32 (l.setWidth 32) (r.setWidth 32)).signExtend 64 else f64 l r

/-- ADD (R257). -/
def aluAdd (w32 : Bool) (l r : Word) : Word := inW32 w32 (· + ·) (· + ·) l r
/-- SUB (R257). -/
def aluSub (w32 : Bool) (l r : Word) : Word := inW32 w32 (· - ·) (· - ·) l r
/-- MUL (R257). -/
def aluMul (w32 : Bool) (l r : Word) : Word := inW32 w32 (· * ·) (· * ·) l r
/-- AND (R257). -/
def aluAnd (w32 : Bool) (l r : Word) : Word := inW32 w32 (· &&& ·) (· &&& ·) l r
/-- OR (R257). -/
def aluOr (w32 : Bool) (l r : Word) : Word := inW32 w32 (· ||| ·) (· ||| ·) l r
/-- XOR (R257). -/
def aluXor (w32 : Bool) (l r : Word) : Word := inW32 w32 (· ^^^ ·) (· ^^^ ·) l r

/-- An immediate of 13 bits, sign-extended (R251, R258). -/
def imm64 (imm : BitVec 13) : Word := imm.signExtend 64

/-- MULH (R259): bits 127:64 of the exact product. -/
def aluMulh (k : MulhKind) (l r : Word) : Word :=
  let a : Int := match k with | .ss | .sn => l.toInt | .nn => l.toNat
  let b : Int := match k with | .ss => r.toInt | .nn | .sn => r.toNat
  BitVec.ofInt 64 (a * b / 2 ^ 64)

/-- Quotient and remainder at width `w` (R260). -/
def divRem {w : Nat} (signed : Bool) (a b : BitVec w) : BitVec w × BitVec w :=
  if b = 0 then (BitVec.allOnes w, a)
  else if signed then
    if a = BitVec.intMin w && b == BitVec.allOnes w then (a, 0)
    else
      let q := a.toInt.tdiv b.toInt
      (BitVec.ofInt w q, BitVec.ofInt w (a.toInt - q * b.toInt))
  else (BitVec.ofNat w (a.toNat / b.toNat), BitVec.ofNat w (a.toNat % b.toNat))

/-- DIV and REM (R260): quotient and remainder of a variant. -/
def aluDivRem (k : DivKind) (l r : Word) : Word × Word :=
  match k with
  | .s64 => divRem true l r
  | .n64 => divRem false l r
  | .s32 => let q := divRem true (l.setWidth 32) (r.setWidth 32); (q.1.signExtend 64, q.2.signExtend 64)
  | .n32 => let q := divRem false (l.setWidth 32) (r.setWidth 32); (q.1.signExtend 64, q.2.signExtend 64)

/-- A shift by `n` (R261), `n` below the width. -/
def aluShift (k : ShKind) (w32 : Bool) (l : Word) (n : Nat) : Word :=
  if w32 then
    let a : BitVec 32 := l.setWidth 32
    (match k with | .shl => a <<< n | .shr => a >>> n | .sha => a.sshiftRight n).signExtend 64
  else match k with | .shl => l <<< n | .shr => l >>> n | .sha => l.sshiftRight n

/-- The shift amount of SHL, SHR and SHA (R261). -/
def shiftAmount (w32 : Bool) (r : Word) : Nat := r.toNat % (if w32 then 32 else 64)

/-- MIN and MAX (R262). -/
def aluMinMax (max w32 uns : Bool) (l r : Word) : Word :=
  let pick32 (a b : BitVec 32) : BitVec 32 :=
    if (if uns then a.ule b else a.sle b) then (if max then b else a) else (if max then a else b)
  let pick64 (a b : Word) : Word :=
    if (if uns then a.ule b else a.sle b) then (if max then b else a) else (if max then a else b)
  inW32 w32 pick32 pick64 l r

/-- EXT (R263). -/
def aluExt (k : ExtKind) (l : Word) : Word :=
  match k with
  | .i8 => (l.setWidth 8 : BitVec 8).signExtend 64
  | .n8 => (l.setWidth 8 : BitVec 8).setWidth 64
  | .i16 => (l.setWidth 16 : BitVec 16).signExtend 64
  | .n16 => (l.setWidth 16 : BitVec 16).setWidth 64
  | .i32 => (l.setWidth 32 : BitVec 32).signExtend 64
  | .n32 => (l.setWidth 32 : BitVec 32).setWidth 64

/-- Sign extension of a number from bit `w − 1` to `W` bits. -/
def signFrom (w W n : Nat) : Nat := if n.testBit (w - 1) then n + (2 ^ W - 2 ^ w) else n

/-- BFX (R264, R265). -/
def aluBfx (w32 sign : Bool) (l c : Word) : Word :=
  let W := if w32 then 32 else 64
  let p := c.toNat % W
  let w := c.toNat / 256 % W + 1
  let f := l.toNat % 2 ^ W / 2 ^ p % 2 ^ w
  let f := if sign && decide (w < W) then signFrom w W f else f
  if w32 then (BitVec.ofNat 32 f).signExtend 64 else BitVec.ofNat 64 f

/-- BFI (R264, R266). -/
def aluBfi (w32 : Bool) (l r c : Word) : Word :=
  let W := if w32 then 32 else 64
  let p := c.toNat % W
  let w := c.toNat / 256 % W + 1
  let mask : Word := BitVec.ofNat 64 ((2 ^ w - 1) * 2 ^ p % 2 ^ W)
  let v : Word := (l &&& ~~~mask) ||| ((r <<< p) &&& mask)
  if w32 then (v.setWidth 32).signExtend 64 else v

/-- Number of set bits among the low `k` bits. -/
def popcount : Nat → Nat → Nat
  | 0, _ => 0
  | k + 1, n => n % 2 + popcount k (n / 2)

/-- Number of zero bits below the lowest set bit, at most `k`. -/
def trailingZeros : Nat → Nat → Nat
  | 0, _ => 0
  | k + 1, n => if n % 2 = 1 then 0 else 1 + trailingZeros k (n / 2)

/-- CNT (R267). -/
def aluCnt (w32 : Bool) (k : CntKind) (l : Word) : Word :=
  let W := if w32 then 32 else 64
  let a := l.toNat % 2 ^ W
  let v := match k with
    | .pop => popcount W a
    | .lz => if a = 0 then W else W - 1 - Nat.log2 a
    | .tz => trailingZeros W a
    | .brev => leNat ((leBytes (W / 8) a).reverse)
  if w32 then (BitVec.ofNat 32 v).signExtend 64 else BitVec.ofNat 64 v

/-! ### Registers (R230, R224) -/

/-- The register that a name reaches: in an iteration of a repeating block S16-S31 and V16-V31 rotate (R224). The
stride is in header word 2. -/
def rotated (x : Act) (f : Flight) (cls : Cls) (n : Nat) : Nat :=
  match cls, x.rep with
  | .s, some (_, i) | .v, some (_, i) =>
    if n < 16 then n else 16 + ((n - 16) + i * bits (f.hdr.getD 2 0).toNat 26 24) % 16
  | _, _ => n

/-- A register as a token (R248). -/
def readReg (x : Act) (cls : Cls) (n : Nat) : Token :=
  match cls with
  | .s => .scalar (x.s.toList.getD n 0)
  | .v => .vector (x.v.toList.getD n 0) 0
  | .m => .scalar (x.m.toList.getD n 0)
  | .c => .handle (x.c.toList.getD n Handle.none)

/-- A register that holds a detected error is not read (R362). -/
def Act.regOk (x : Act) (cls : Cls) (n : Nat) : Except Flt Unit :=
  if x.bad.contains (.register x.id cls n) then .error (fltA .dataError (regOffset cls n)) else .ok ()

/-- RD (R248): the register as committed before the block. A register with an uncorrectable error raises data error
(R362). -/
def execRd (cls : Cls) (reg : BitVec 5) (t1 t2 : Tgt) (s : State) : Res :=
  fireSlot s (.rd cls reg t1 t2) always fun c =>
    let n := rotated c.x c.fl cls reg.toNat
    (c.x.regOk cls n).map fun _ => c.send (readReg c.x cls n)

/-- WR (R249): takes its token at the commit. -/
def execWr (cls : Cls) (reg : BitVec 5) (s : State) : Res :=
  fireSlot s (.wr cls reg) always fun c =>
    .ok (c.sendEff .null (.write cls (rotated c.x c.fl cls reg.toNat) (c.tok 0)))

/-- MOV (R250): sends its token unchanged. -/
def execMov (pm : Pm) (t1 t2 : Tgt) (s : State) : Res :=
  fireSlot s (.mov pm t1 t2) always fun c => .ok (c.send (c.tok 0))

/-- NULL (R250, R213). -/
def execNull (pm : Pm) (t1 t2 : Tgt) (s : State) : Res :=
  fireSlot s (.null pm t1 t2) always fun c => .ok (c.send .null)

/-- GENI (R251). -/
def execGeni (pm : Pm) (imm : BitVec 13) (t1 : Tgt) (s : State) : Res :=
  fireSlot s (.geni pm imm t1) always fun c => c.scalar (imm64 imm)

/-- GENU (R251). -/
def execGenu (pm : Pm) (imm : BitVec 13) (t1 : Tgt) (s : State) : Res :=
  fireSlot s (.genu pm imm t1) always fun c => c.scalar (imm.setWidth 64)

/-- GENC (R251). -/
def execGenc (pm : Pm) (imm : BitVec 13) (t1 : Tgt) (s : State) : Res :=
  fireSlot s (.genc pm imm t1) always fun c => c.scalar ((c.word 0 <<< 13) ||| imm.setWidth 64)

/-! ### Exits that only name a continuation, and TRAP (R252 to R256) -/

/-- The target of a B-form exit: block address + 16 × offset (R221), as a 64-bit address (DEDUCED, assumption log 97). -/
def target19 (f : Flight) (off : BitVec 19) : Nat := (((f.addr : Int) + 16 * off.toInt) % 2 ^ 64).toNat
/-- The target of an X-form exit. -/
def target16 (f : Flight) (off : BitVec 16) : Nat := (((f.addr : Int) + 16 * off.toInt) % 2 ^ 64).toNat
/-- The fall-through block (R205). -/
def fallThrough (f : Flight) : Nat := f.addr + 16 + 16 * ceilDiv f.words.length 4

/-- BR (R252). -/
def execBr (pm : Pm) (ex : BitVec 3) (off : BitVec 19) (s : State) : Res :=
  fireSlot s (.br pm ex off) always fun c => c.exit (.branch (target19 c.fl off))

/-- BRI (R254): an address that is no multiple of 16 raises misalignment. -/
def execBri (pm : Pm) (ex : BitVec 3) (s : State) : Res :=
  fireSlot s (.bri pm ex) always fun c =>
    let a := (c.word 0).toNat
    if a % 16 = 0 then c.exit (.indirect a) else .error (fltA .misalignment a)

/-- CALL (R253). -/
def execCall (pm : Pm) (ex : BitVec 3) (off : BitVec 19) (s : State) : Res :=
  fireSlot s (.call pm ex off) always fun c => c.exit (.call (target19 c.fl off))

/-- RET (R255). -/
def execRet (pm : Pm) (ex : BitVec 3) (s : State) : Res :=
  fireSlot s (.ret pm ex) always fun c => c.exit .ret

/-- TRAP (R256): recorded; raised after the commit. -/
def execTrap (pm : Pm) (num : BitVec 13) (s : State) : Res :=
  fireSlot s (.trap pm num) always fun c => .ok (c.sendEff .null (.trap num.toNat))

/-! ### Integer arithmetic and logic -/

/-- ADD (R257). -/
def execAdd (pm : Pm) (w32 : Bool) (t1 t2 : Tgt) (s : State) : Res :=
  fireSlot s (.add pm w32 t1 t2) always fun c => c.scalar (aluAdd w32 (c.word 0) (c.word 1))
/-- SUB (R257). -/
def execSub (pm : Pm) (w32 : Bool) (t1 t2 : Tgt) (s : State) : Res :=
  fireSlot s (.sub pm w32 t1 t2) always fun c => c.scalar (aluSub w32 (c.word 0) (c.word 1))
/-- ADDI (R258). -/
def execAddi (pm : Pm) (imm : BitVec 13) (t1 : Tgt) (s : State) : Res :=
  fireSlot s (.addi pm imm t1) always fun c => c.scalar (c.word 0 + imm64 imm)
/-- MUL (R257). -/
def execMul (pm : Pm) (w32 : Bool) (t1 t2 : Tgt) (s : State) : Res :=
  fireSlot s (.mul pm w32 t1 t2) always fun c => c.scalar (aluMul w32 (c.word 0) (c.word 1))
/-- MULH (R259). -/
def execMulh (pm : Pm) (kind : MulhKind) (t1 t2 : Tgt) (s : State) : Res :=
  fireSlot s (.mulh pm kind t1 t2) always fun c => c.scalar (aluMulh kind (c.word 0) (c.word 1))
/-- DIV (R260). -/
def execDiv (pm : Pm) (kind : DivKind) (t1 t2 : Tgt) (s : State) : Res :=
  fireSlot s (.div pm kind t1 t2) always fun c => c.scalar (aluDivRem kind (c.word 0) (c.word 1)).1
/-- REM (R260). -/
def execRem (pm : Pm) (kind : DivKind) (t1 t2 : Tgt) (s : State) : Res :=
  fireSlot s (.rem pm kind t1 t2) always fun c => c.scalar (aluDivRem kind (c.word 0) (c.word 1)).2
/-- AND (R257). -/
def execAnd (pm : Pm) (w32 : Bool) (t1 t2 : Tgt) (s : State) : Res :=
  fireSlot s (.and pm w32 t1 t2) always fun c => c.scalar (aluAnd w32 (c.word 0) (c.word 1))
/-- OR (R257). -/
def execOr (pm : Pm) (w32 : Bool) (t1 t2 : Tgt) (s : State) : Res :=
  fireSlot s (.or pm w32 t1 t2) always fun c => c.scalar (aluOr w32 (c.word 0) (c.word 1))
/-- XOR (R257). -/
def execXor (pm : Pm) (w32 : Bool) (t1 t2 : Tgt) (s : State) : Res :=
  fireSlot s (.xor pm w32 t1 t2) always fun c => c.scalar (aluXor w32 (c.word 0) (c.word 1))
/-- ANDI (R258). -/
def execAndi (pm : Pm) (imm : BitVec 13) (t1 : Tgt) (s : State) : Res :=
  fireSlot s (.andi pm imm t1) always fun c => c.scalar (c.word 0 &&& imm64 imm)
/-- ORI (R258). -/
def execOri (pm : Pm) (imm : BitVec 13) (t1 : Tgt) (s : State) : Res :=
  fireSlot s (.ori pm imm t1) always fun c => c.scalar (c.word 0 ||| imm64 imm)
/-- SHL (R261). -/
def execShl (pm : Pm) (w32 : Bool) (t1 t2 : Tgt) (s : State) : Res :=
  fireSlot s (.shl pm w32 t1 t2) always fun c =>
    c.scalar (aluShift .shl w32 (c.word 0) (shiftAmount w32 (c.word 1)))
/-- SHR (R261). -/
def execShr (pm : Pm) (w32 : Bool) (t1 t2 : Tgt) (s : State) : Res :=
  fireSlot s (.shr pm w32 t1 t2) always fun c =>
    c.scalar (aluShift .shr w32 (c.word 0) (shiftAmount w32 (c.word 1)))
/-- SHA (R261). -/
def execSha (pm : Pm) (w32 : Bool) (t1 t2 : Tgt) (s : State) : Res :=
  fireSlot s (.sha pm w32 t1 t2) always fun c =>
    c.scalar (aluShift .sha w32 (c.word 0) (shiftAmount w32 (c.word 1)))
/-- SHI (R261). -/
def execShi (pm : Pm) (kind : ShKind) (w32 : Bool) (amount : BitVec 6) (t1 : Tgt) (s : State) : Res :=
  fireSlot s (.shi pm kind w32 amount t1) always fun c => c.scalar (aluShift kind w32 (c.word 0) amount.toNat)
/-- MIN (R262). -/
def execMin (pm : Pm) (w32 uns : Bool) (t1 t2 : Tgt) (s : State) : Res :=
  fireSlot s (.min pm w32 uns t1 t2) always fun c => c.scalar (aluMinMax false w32 uns (c.word 0) (c.word 1))
/-- MAX (R262). -/
def execMax (pm : Pm) (w32 uns : Bool) (t1 t2 : Tgt) (s : State) : Res :=
  fireSlot s (.max pm w32 uns t1 t2) always fun c => c.scalar (aluMinMax true w32 uns (c.word 0) (c.word 1))
/-- EXT (R263). -/
def execExt (pm : Pm) (kind : ExtKind) (t1 t2 : Tgt) (s : State) : Res :=
  fireSlot s (.ext pm kind t1 t2) always fun c => c.scalar (aluExt kind (c.word 0))
/-- BFX (R265). -/
def execBfx (pm : Pm) (w32 sign : Bool) (t1 t2 : Tgt) (s : State) : Res :=
  fireSlot s (.bfx pm w32 sign t1 t2) always fun c => c.scalar (aluBfx w32 sign (c.word 0) (c.word 1))
/-- BFI (R266). -/
def execBfi (pm : Pm) (w32 : Bool) (t1 t2 : Tgt) (s : State) : Res :=
  fireSlot s (.bfi pm w32 t1 t2) always fun c => c.scalar (aluBfi w32 (c.word 0) (c.word 1) (c.word 2))
/-- CNT (R267). -/
def execCnt (pm : Pm) (w32 : Bool) (kind : CntKind) (t1 t2 : Tgt) (s : State) : Res :=
  fireSlot s (.cnt pm w32 kind t1 t2) always fun c => c.scalar (aluCnt w32 kind (c.word 0))
/-- SEL (R268): sends l or r unchanged. -/
def execSel (pm : Pm) (t1 t2 : Tgt) (s : State) : Res :=
  fireSlot s (.sel pm t1 t2) always fun c => .ok (c.send (if (c.tok 2).truth then c.tok 0 else c.tok 1))

/-! ### Tests -/

/-- Sends the two outputs of a test (R212). -/
def Ctx.test (c : Ctx) (ct : Combine) (r : Bool) : Except Flt FOut :=
  let o := combineOut ct (match c.pred with | some t => t.truth | none => false) r
  .ok ⟨.scalar (Bool.toWord o.1), .scalar (Bool.toWord o.2), .none, [], c.s, false⟩

/-- TEST (R269). -/
def execTest (ct : Combine) (cond : Cond) (t1 t2 : Tgt) (s : State) : Res :=
  fireSlot s (.test ct cond t1 t2) always fun c => c.test ct (condHolds cond (c.word 0) (c.word 1))
/-- TESTI (R270). -/
def execTesti (ct : Combine) (cond : Cond) (imm : BitVec 10) (t1 : Tgt) (s : State) : Res :=
  fireSlot s (.testi ct cond imm t1) always fun c => c.test ct (condHolds cond (c.word 0) (imm.signExtend 64))
/-- FTEST (R271). -/
def execFtest (ct : Combine) (f64 : Bool) (cond : FCond) (t1 t2 : Tgt) (s : State) : Res :=
  fireSlot s (.ftest ct f64 cond t1 t2) always fun c =>
    let f := if f64 then fp64 else fp32
    c.test ct (fcondHolds cond ((f.read (c.word 0).toNat).cmp (f.read (c.word 1).toNat)))

end Sys2Proof.Machine
end

