-- ==== Sys2Proof/Machine/MemoryOps.lean ====
section
/-!
DEFINITION. Carrel loads and stores, AMO and CAS, partner space, and the words of the current environment (R49, R50,
R92, R97 to R99, R218, R219, R279 to R282, R308).
-/
namespace Sys2Proof.Machine

/-! ### Access types (R226) -/

/-- Size in bytes. -/
def Ty.size : Ty → Nat
  | .i8 | .n8 => 1
  | .i16 | .n16 => 2
  | .i32 | .n32 => 4
  | .w64 => 8

/-- Whether a type is signed; the 64-bit type fills its register either way and counts as signed. -/
def Ty.signed : Ty → Bool
  | .n8 | .n16 | .n32 => false
  | _ => true

/-- The low bytes of a value extended to 64 bits as its type says. -/
def Ty.extend (ty : Ty) (n : Nat) : Word :=
  BitVec.ofInt 64 (bitsInt (Ty.signed ty) (8 * Ty.size ty) n)

/-- The value of the low bytes of a word, read as the type. -/
def Ty.value (ty : Ty) (w : Word) : Num := Num.ofInt (bitsInt (Ty.signed ty) (8 * Ty.size ty) w.toNat)

/-! ### Where an access may go (R49, R50, R97) -/

/-- Whether an activity holds a bank and can reach it: a party that travelled reaches its luggage alone (R49). -/
def Act.reaches (x : Act) (bank : Nat) : Bool :=
  decide (bank < x.banks) &&
    (match x.meet, x.behind with
      | some m, some _ => decide (m.lugFirst ≤ bank) && decide (bank < m.lugFirst + m.lugCount)
      | _, _ => true)

/-- Whether every byte of a range of the own carrel is reachable. -/
def Act.reachRange (x : Act) (off n : Nat) : Bool :=
  decide (off + n ≤ x.banks * Config.bankSize) && x.reaches (off / Config.bankSize) &&
    (n == 0 || x.reaches ((off + n - 1) / Config.bankSize))

/-- The format of a bank. -/
def Act.fmt (x : Act) (bank : Nat) : Nat := (x.fmts.toList.getD bank 0).toNat

/-- The partner that a party can reach, with the partner's side of the meeting (R50, R55). -/
def State.partner (s : State) (x : Act) : Option (Act × MeetSt) :=
  match x.meet with
  | none => none
  | some m =>
    if m.begun && m.left == .present then
      match s.act m.partner with
      | none => none
      | some y => (match y.meet with | some n => some (y, n) | none => none)
    else none

/-- Whether an access of the own carrel starts in a bank that is held and not away, and ends inside the banks held
(R280). -/
def Act.holds (x : Act) (a size : Nat) : Bool :=
  decide (a + size ≤ x.banks * Config.bankSize) && x.reaches (a / Config.bankSize)

/-- The last two checks of R280, bank format and alignment, of an access at offset `a` that lies in a bank of format `f`.
The result is the format that the access takes: 0 where bytes are taken as the instruction's type. -/
def formatAt (bank f a size : Nat) : Except Flt Nat :=
  if f = 10 ∨ (f = 9 ∧ a % Config.bankSize < 20480) then .error (fltA .bankFormat (bank + 16 * f))
  else
    let g := if f = 9 then 0 else f
    if a % (if g = 0 then size else fmtSize g) ≠ 0 then .error (fltA .misalignment a) else .ok g

/-- The checks of R280 in their order: meeting state, carrel rights, bank format, alignment. In partner space the rights
are tested of the offset itself (R50). -/
def Ctx.check (c : Ctx) (partner store : Bool) (a size : Nat) : Except Flt Nat :=
  if partner then
    match c.s.partner c.x with
    | none => .error (flt .meetingState)
    | some (y, n) =>
      let bank := n.lugFirst + a / Config.bankSize
      if n.lugCount * Config.bankSize ≤ a || (store && n.lugRo) then .error (fltA .carrelRights a)
      else formatAt bank (y.fmt bank) a size
  else if !c.x.holds a size then .error (fltA .carrelRights a)
  else formatAt (a / Config.bankSize) (c.x.fmt (a / Config.bankSize)) a size

/-- A byte as a load with a given load/store ID sees it (R219). -/
def Ctx.byte (c : Ctx) (partner : Bool) (lsid off : Nat) : Byte :=
  (c.fl.overlay partner lsid off).getD (c.s.baseByte c.x partner off)

/-- Bytes as a load sees them, with their offsets. -/
def Ctx.bytes (c : Ctx) (partner : Bool) (lsid off n : Nat) : List (Nat × Byte) :=
  (upFrom off n).map fun a => (a, c.byte partner lsid a)

/-- The number that read bytes denote. -/
def readNum (bs : List (Nat × Byte)) : Nat := leNat (bs.map (·.2))

/-- Whether a load with a given ID reads, at an offset, a byte that carries an uncorrectable error (R362); a byte that a
store of lower ID gives the load is not read from the carrel (R219). -/
def Ctx.badAt (c : Ctx) (partner : Bool) (lsid off : Nat) : Bool :=
  (c.fl.overlay partner lsid off).isNone &&
    if partner then
      (match c.s.partner c.x with
        | some (y, m) => y.bad.contains (.carrel y.id (m.lugFirst * Config.bankSize + off))
        | none => false)
    else c.x.bad.contains (.carrel c.x.id off)

/-- The first of the bytes that carries an uncorrectable error (R362). -/
def Ctx.badByte (c : Ctx) (partner : Bool) (lsid : Nat) (offs : List Nat) : Option Nat :=
  offs.find? (c.badAt partner lsid)

/-- Offsets with bytes. -/
def place (off : Nat) (bs : List Byte) : List (Nat × Byte) := (upFrom off bs.length).zip bs

/-- A load of a type at an offset (R279). -/
def Ctx.load (c : Ctx) (partner : Bool) (lsid : Nat) (ty : Ty) (a : Nat) : Except Flt FOut := do
  let f ← c.check partner false a (Ty.size ty)
  let n := if f = 0 then Ty.size ty else fmtSize f
  match c.badByte partner lsid (upFrom a n) with
  | some b => throw (fltA .dataError b)
  | none => pure ()
  let bs := c.bytes partner lsid a n
  let v := readNum bs
  let w := if f = 0 then Ty.extend ty v
    else Ty.extend ty (tyFromNum (Ty.signed ty) (8 * Ty.size ty) (fmtRead f v))
  return { c.send (.scalar w) with reads := bs }

/-- A store of a type at an offset (R279), buffered for the commit. -/
def Ctx.store (c : Ctx) (partner : Bool) (ty : Ty) (a : Nat) (w : Word) : Except Flt FOut := do
  let f ← c.check partner true a (Ty.size ty)
  let bs := if f = 0 then leBytes (Ty.size ty) w.toNat else leBytes (fmtSize f) (fmtWrite f (Ty.value ty w))
  return c.sendEff .null (.store partner (place a bs))

/-- The address of forms L and S (R279): l + sign-extended imm5 × size, modulo 2^64. -/
def lsAddr (l : Word) (imm : BitVec 5) (size : Nat) : Nat :=
  (l + BitVec.ofInt 64 (imm.toInt * size)).toNat

/-- LD (R279). -/
def execLd (pm : Pm) (lsid : BitVec 5) (ty : Ty) (imm : BitVec 5) (t1 : Tgt) (s : State) : Res :=
  fireSlot s (.ld pm lsid ty imm t1) always fun c =>
    c.load false lsid.toNat ty (lsAddr (c.word 0) imm (Ty.size ty))

/-- ST (R279). -/
def execSt (pm : Pm) (lsid : BitVec 5) (ty : Ty) (imm : BitVec 5) (s : State) : Res :=
  fireSlot s (.st pm lsid ty imm) always fun c =>
    c.store false ty (lsAddr (c.word 0) imm (Ty.size ty)) (c.word 1)

/-- PLD (R279, R50). -/
def execPld (pm : Pm) (lsid : BitVec 5) (ty : Ty) (imm : BitVec 5) (t1 : Tgt) (s : State) : Res :=
  fireSlot s (.pld pm lsid ty imm t1) always fun c =>
    c.load true lsid.toNat ty (lsAddr (c.word 0) imm (Ty.size ty))

/-- PST (R279, R50). -/
def execPst (pm : Pm) (lsid : BitVec 5) (ty : Ty) (imm : BitVec 5) (s : State) : Res :=
  fireSlot s (.pst pm lsid ty imm) always fun c =>
    c.store true ty (lsAddr (c.word 0) imm (Ty.size ty)) (c.word 1)

/-- The new value of AMO (R281). -/
def amoNew (op : AmoOp) (old r : Word) : Word :=
  match op with
  | .add => old + r
  | .min => if old.sle r then old else r
  | .max => if old.sle r then r else old
  | .nmin => if old.ule r then old else r
  | .nmax => if old.ule r then r else old
  | .swap => r
  | .and => old &&& r
  | .or => old ||| r

/-- The checks of AMO and CAS (R281): carrel rights, a raw bank or the raw part of a Q4N bank, alignment to the size. -/
def Ctx.checkRaw (c : Ctx) (lsid a size : Nat) : Except Flt Unit := do
  if !c.x.holds a size then throw (fltA .carrelRights a)
  let bank := a / Config.bankSize
  let f := c.x.fmt bank
  if ¬(f = 0 ∨ (f = 9 ∧ 20480 ≤ a % Config.bankSize)) then throw (fltA .bankFormat (bank + 16 * f))
  if a % size ≠ 0 then throw (fltA .misalignment a)
  match c.badByte false lsid (upFrom a size) with
  | some b => throw (fltA .dataError b)
  | none => pure ()

/-- AMO (R281): one read and one write at one ID. -/
def execAmo (pm : Pm) (lsid : BitVec 5) (op : AmoOp) (imm : BitVec 5) (t1 : Tgt) (s : State) : Res :=
  fireSlot s (.amo pm lsid op imm t1) always fun c => do
    let a := lsAddr (c.word 0) imm 8
    c.checkRaw lsid.toNat a 8
    let bs := c.bytes false lsid.toNat a 8
    let old : Word := BitVec.ofNat 64 (readNum bs)
    let new := amoNew op old (c.word 1)
    return { c.sendEff (.scalar old) (.store false (place a (leBytes 8 new.toNat))) with reads := bs }

/-- CAS (R282): writes nothing when the comparison fails, and counts as performed. -/
def execCas (pm : Pm) (lsid : BitVec 5) (ty : Ty) (imm : BitVec 5) (t1 : Tgt) (s : State) : Res :=
  fireSlot s (.cas pm lsid ty imm t1) always fun c => do
    let size := Ty.size ty
    let a := lsAddr (c.word 0) imm size
    c.checkRaw lsid.toNat a size
    let bs := c.bytes false lsid.toNat a size
    let old := readNum bs
    let data := if old == (c.word 1).toNat % 2 ^ (8 * size) then place a (leBytes size (c.word 2).toNat) else []
    return { c.sendEff (.scalar (Ty.extend ty old)) (.store false data) with reads := bs }

/-! ### The current environment (R77, R78, R92, R308) -/

/-- The generation of the frame at a depth (R78); the stack's top entry stands first. -/
def Act.frameGen (x : Act) (d : Nat) : Nat :=
  if d = x.stack.length then x.gen
  else match x.stack[x.stack.length - 1 - d]? with
    | some f => f.prevgen
    | none => 0

/-- A by-reference word's generation, depth and offset (R77). -/
def refFields (w : Word) : Nat × Nat × Nat := (bits w.toNat 63 48, bits w.toNat 47 41, bits w.toNat 18 0)

/-- A by-reference word (R77). -/
def refWord (fgen depth off : Nat) : Word := BitVec.ofNat 64 (fgen * 2 ^ 48 + depth * 2 ^ 41 + off)

/-- What ENVRD and ENVWR find at word `w` (R92): the environment, the word's kind and, for a by-reference word that
passes its checks, the carrel offset. -/
def Ctx.envWord (c : Ctx) (w : Nat) : Except Flt (Env × Nat × Option Nat) := do
  if c.s.stale c.x c.x.env then throw (fltA .recordIntegrity c.x.recAt)
  match c.s.envOf c.x c.x.env with
  | none => throw (fltA .environmentWord w)
  | some e =>
    if w ≥ e.words then throw (fltA .environmentWord w)
    if e.badWord w then throw (fltA .dataError (8 * w))
    let k := e.kinds.getD w 0
    if k = 1 then
      let v := e.vals.getD w 0
      let (fgen, d, off) := refFields v
      if c.x.id.serial ≠ e.owner ∨ d > c.x.stack.length ∨ c.x.frameGen d ≠ fgen then
        throw ⟨.danglingFrame, v, BitVec.ofNat 64 c.x.stack.length⟩
      return (e, k, some off)
    else return (e, k, none)

/-- The 512-bit value of words w to w + 7 of an environment (R81, R92). -/
def Env.vecAt (e : Env) (w : Nat) : Vec :=
  BitVec.ofNat 512 ((upFrom 0 8).foldr (fun j n => (e.vals.getD (w + j) 0).toNat + 2 ^ 64 * n) 0)

/-- ENVRD (R92, R308). -/
def execEnvrd (pm : Pm) (lsid : BitVec 5) (ty : Ty) (w : BitVec 5) (t1 : Tgt) (s : State) : Res :=
  fireSlot s (.envrd pm lsid ty w t1) always fun c => do
    let (e, k, off) ← c.envWord w.toNat
    match off with
    | some o => c.load false lsid.toNat ty o
    | none =>
      if k = 2 then
        if ty ≠ .w64 then throw (fltA .environmentWord w.toNat)
        match (upFrom w.toNat 8).find? e.badWord with
        | some j => throw (fltA .dataError (8 * j))
        | none => return c.send (.vector (e.vecAt w.toNat) 0)
      else c.scalar (Ty.extend ty (e.vals.getD w.toNat 0).toNat)

/-- ENVWR (R92, R308). -/
def execEnvwr (pm : Pm) (lsid : BitVec 5) (ty : Ty) (w : BitVec 5) (s : State) : Res :=
  fireSlot s (.envwr pm lsid ty w) always fun c => do
    let (_, _, off) ← c.envWord w.toNat
    match off with
    | some o => c.store false ty o (c.word 0)
    | none => throw (fltA .environmentWord w.toNat)

end Sys2Proof.Machine
end

