-- ==== Sys2Proof/Machine/Copy.lean ====
section
/-!
DEFINITION. Copy commands, tags and bank formats (R98, R111 to R118, R133, R283 to R289): shape records, the elements
of a command, the checks at the issuing commit, the move of one element, and the slot meanings.
-/
namespace Sys2Proof.Machine

/-! ### Shape records (R112) -/

/-- Word `i` of a shape record as a number. -/
def ShapeRec.w (r : ShapeRec) (i : Nat) : Nat := (r.words.getD i 0).toNat
/-- Device base address. -/
def ShapeRec.daddr (r : ShapeRec) : Nat := bits (r.w 0) 47 0
/-- Index width in bytes: iw 1 means 16 bits. -/
def ShapeRec.iwBytes (r : ShapeRec) : Nat := if bit (r.w 1) 48 then 2 else 4
/-- Rank. -/
def ShapeRec.rank (r : ShapeRec) : Nat := bits (r.w 1) 47 40
/-- Format override enable. -/
def ShapeRec.oven (r : ShapeRec) : Bool := bit (r.w 1) 39
/-- Device-side format code. -/
def ShapeRec.ofmt (r : ShapeRec) : Nat := bits (r.w 1) 35 32
/-- Carrel base offset. -/
def ShapeRec.coff (r : ShapeRec) : Nat := bits (r.w 1) 18 0
/-- Extent of dimension `k`: 1 at and above the rank (R113). -/
def ShapeRec.dim (r : ShapeRec) (k : Nat) : Nat := if k < r.rank then bits (r.w 2) (16 * k + 15) (16 * k) else 1
/-- A signed 32-bit stride packed two to a word. -/
def ShapeRec.stride (r : ShapeRec) (base k : Nat) : Int :=
  (BitVec.ofNat 32 (bits (r.w (base + k / 2)) (32 * (k % 2) + 31) (32 * (k % 2)))).toInt
/-- Device stride of dimension `k`. -/
def ShapeRec.dstride (r : ShapeRec) (k : Nat) : Int := r.stride 3 k
/-- Carrel stride of dimension `k`. -/
def ShapeRec.cstride (r : ShapeRec) (k : Nat) : Int := r.stride 5 k
/-- Index count. -/
def ShapeRec.icount (r : ShapeRec) : Nat := bits (r.w 7) 63 32
/-- Carrel offset of the index list. -/
def ShapeRec.ioff (r : ShapeRec) : Nat := bits (r.w 7) 31 0
/-- Whether every reserved bit is zero. -/
def ShapeRec.reservedOk (r : ShapeRec) : Bool :=
  bits (r.w 0) 63 48 == 0 && bits (r.w 1) 63 49 == 0 && bits (r.w 1) 38 36 == 0 && bits (r.w 1) 31 19 == 0

/-- The shape record at a carrel offset. -/
def shapeAt (carrel : List Host.Cell) (off : Nat) : ShapeRec := ⟨Memory.words carrel off 8⟩

/-- The commands with an index list. -/
def CopyKind.indexed : CopyKind → Bool
  | .cgath | .cscat => true
  | _ => false
/-- The commands that write device memory. -/
def CopyKind.toDevice : CopyKind → Bool
  | .cout | .cscat | .cfill => true
  | _ => false

/-- The index list of a command (R113), as committed. -/
def ShapeRec.indexList (r : ShapeRec) (carrel : List Host.Cell) : List Nat :=
  (upFrom 0 r.icount).map fun j => Memory.readNat carrel (r.ioff + j * r.iwBytes) r.iwBytes

/-- Extent of loop `k` (R113): the last dimension of an indexed command runs over the index list. -/
def ShapeRec.extent (r : ShapeRec) (kind : CopyKind) (k : Nat) : Nat :=
  if kind.indexed && k + 1 == r.rank then r.icount else r.dim k

/-- Number of elements. -/
def ShapeRec.count (r : ShapeRec) (kind : CopyKind) : Nat :=
  r.extent kind 0 * r.extent kind 1 * r.extent kind 2 * r.extent kind 3

/-- Device address and carrel offset of element `n` in the order of R113, dimension 0 innermost. -/
def ShapeRec.elem (r : ShapeRec) (kind : CopyKind) (index : List Nat) (n : Nat) : Int × Int :=
  let e := r.extent kind
  let i (k : Nat) : Nat :=
    match k with
    | 0 => n % e 0
    | 1 => n / e 0 % e 1
    | 2 => n / (e 0 * e 1) % e 2
    | _ => n / (e 0 * e 1 * e 2) % e 3
  let last := r.rank - 1
  let dx := if kind.indexed then index.getD (i last) 0 else i last
  let dev := (upFrom 0 last).foldl (fun (a : Int) k => a + (i k : Int) * r.dstride k) (r.daddr : Int)
    + (dx : Int) * r.dstride last
  let car := match kind with
    | .cfill => (r.coff : Int)
    | _ => (upFrom 0 r.rank).foldl (fun (a : Int) k => a + (i k : Int) * r.cstride k) (r.coff : Int)
  (dev, car)

/-- Carrel element size (R113). -/
def Copy.ec (c : Copy) : Nat := fmtSize c.fmtA
/-- Device element size (R113). -/
def Copy.ed (c : Copy) : Nat := if c.shape.oven then fmtSize c.shape.ofmt else c.ec
/-- Number of elements; a CBANK moves its banks as one. -/
def Copy.count (c : Copy) : Nat := match c.kind with | .cbank => 1 | k => c.shape.count k
/-- Device address and carrel offset of an element. -/
def Copy.elem (c : Copy) (n : Nat) : Int × Int := c.shape.elem c.kind c.index n

/-- The device ranges a command touches, one per element. -/
def Copy.ranges (c : Copy) : List (Int × Nat) :=
  match c.kind with
  | .cbank => []
  | _ => (upFrom 0 c.count).map fun n => ((c.elem n).1, c.ed)

/-- Whether two lists of ranges share a byte. -/
def rangesMeet (a b : List (Int × Nat)) : Bool :=
  let lo (l : List (Int × Nat)) : Int := l.foldl (fun m r => min m r.1) (l.headD (0, 0)).1
  let hi (l : List (Int × Nat)) : Int := l.foldl (fun m r => max m (r.1 + r.2)) (l.headD (0, 0)).1
  if a.isEmpty || b.isEmpty || decide (hi a ≤ lo b) || decide (hi b ≤ lo a) then false
  else a.any fun r => b.any fun q => decide (r.1 < q.1 + q.2) && decide (q.1 < r.1 + r.2)

/-- Whether a command touches device bytes from `base`, `n` of them. -/
def Copy.touchesDevice (c : Copy) (base n : Nat) : Bool := rangesMeet c.ranges [((base : Int), n)]

/-- Whether a command touches a carrel bank: its element bytes, its source and destination banks. -/
def Copy.touchesBank (c : Copy) (bank : Nat) : Bool :=
  match c.kind with
  | .cbank => c.shape.coff / Config.bankSize == bank || c.shape.ioff / Config.bankSize == bank
  | _ => (upFrom 0 c.count).any fun n => decide ((c.elem n).2.toNat / Config.bankSize = bank)

/-- Two commands that must be performed in issue order (R133). -/
def Copy.conflicts (c d : Copy) : Bool := (c.kind.toDevice || d.kind.toDevice) && rangesMeet c.ranges d.ranges

/-- %outr (R117). -/
def Act.outr (x : Act) : Nat := (x.copies.filter fun c => c.kind == .cin || c.kind == .cgath).length
/-- %outw (R117). -/
def Act.outw (x : Act) : Nat := (x.copies.filter fun c => c.kind.toDevice).length
/-- Whether a tag is busy (R115). -/
def Act.busy (x : Act) (tag : Nat) : Bool := x.copies.any fun c => c.tag == tag

/-! ### Device ranges an activity may touch (R114) -/

/-- The base and length in pages of a loan register in state loan. -/
def LReg.range : LReg → Option (Nat × Nat)
  | .loan b p _ => some (b, p)
  | _ => none

/-- The register whose loan holds a page. -/
def Act.loanOf (x : Act) (page : Nat) : Option Nat :=
  (upFrom 0 8).find? fun k =>
    match (x.l.toList.getD k .empty).range with
    | some (b, p) => decide (b ≤ page) && decide (page < b + p)
    | none => false

/-- Whether a device byte lies in a held loan. -/
def Act.inLoan (x : Act) (addr : Int) : Bool := decide (0 ≤ addr) && (x.loanOf (addr.toNat / 65536)).isSome

/-- A shelf of a function by id. -/
def Func.shelf (f : Func) (id : Nat) : Option Shelf := f.shelves.find? fun s => s.id = id

/-- Whether a device byte lies in the shelf of an open slot. -/
def State.inOpenShelf (s : State) (x : Act) (addr : Int) : Bool :=
  decide (0 ≤ addr) && x.sh.toList.any fun o =>
    match o with
    | none => false
    | some id => (match (s.fn x.id.fn).shelf id with
      | none => false
      | some sf => decide (sf.base ≤ addr.toNat / 65536) && decide (addr.toNat / 65536 < sf.base + sf.pages))

/-! ### The checks at the issuing commit (R114) -/

/-- Whether a condition holds of every byte of a range. -/
def eachByte (a : Int) (n : Nat) (p : Int → Bool) : Option Int :=
  ((upFrom 0 n).map fun j => a + (j : Int)).find? fun b => !p b

/-- A range of the carrel that a commit reads holds no uncorrectable error (R362); the fault names the first bad byte. -/
def Act.goodData (x : Act) (off n : Nat) : Except Flt Unit :=
  match (upFrom off n).find? fun o => x.bad.contains (.carrel x.id o) with
  | some o => .error (fltA .dataError o)
  | none => .ok ()

/-- The command that a slot issues, once it passes every check of R114 but the last two rows. `x` is the issuer as its
block leaves it; `off` the shape record's offset. DESIGN CHOICE (assumption log 111): an icount above 65,535 is taken as
it is. -/
def State.buildCopy (s : State) (x : Act) (kind : CopyKind) (tag seq off : Nat) : Except Flt Copy := do
  if off % 64 ≠ 0 then throw (fltA .misalignment off)
  if !x.reachRange off 64 then throw (fltA .carrelRights off)
  let r := shapeAt x.carrel off
  let shape := fltA .shape off
  if !r.reservedOk then throw shape
  match kind with
  | .cbank =>
    x.goodData off 64
    let a := r.coff / Config.bankSize
    let b := r.ioff / Config.bankSize
    if !x.reaches a then throw (fltA .carrelRights r.coff)
    if !x.reaches b then throw (fltA .carrelRights r.ioff)
    if x.busy tag then throw (fltA .tagBusy tag)
    if r.coff % Config.bankSize ≠ 0 ∨ r.ioff % Config.bankSize ≠ 0 ∨ a = b then throw shape
    return ⟨kind, tag, seq, r, [], x.fmt a, x.fmt b, [], none, none⟩
  | _ =>
    let fmt := x.fmt (r.coff / Config.bankSize)
    x.goodData off 64
    if r.rank = 0 ∨ 4 < r.rank then throw shape
    if (upFrom 0 r.rank).any fun k => r.dim k == 0 then throw shape
    if kind.indexed ∧ r.icount = 0 then throw shape
    if r.oven ∧ (r.ofmt = 0 ∨ 8 < r.ofmt ∨ !fmtPlain fmt) then throw shape
    let c : Copy := ⟨kind, tag, seq, r, if kind.indexed then r.indexList x.carrel else [], fmt, 0, [], none, none⟩
    let all := (upFrom 0 c.count).map c.elem
    let ec := c.ec
    let ed := c.ed
    if all.any fun e => decide (0 ≤ e.2) && decide (e.2.toNat / Config.bankSize < x.banks) &&
        x.fmt (e.2.toNat / Config.bankSize) != fmt then throw shape
    match all.find? fun e => decide (e.1 % (ed : Int) ≠ 0) || decide (e.2 % (ec : Int) ≠ 0) with
    | some e => throw ⟨.misalignment, BitVec.ofInt 64 (if e.1 % (ed : Int) ≠ 0 then e.1 else e.2), 0⟩
    | none => pure ()
    match all.find? fun e => decide (e.2 < 0) || !x.reachRange e.2.toNat ec with
    | some e => throw ⟨.carrelRights, BitVec.ofInt 64 e.2, 0⟩
    | none => pure ()
    if kind.indexed && !x.reachRange r.ioff (r.icount * r.iwBytes) then throw (fltA .carrelRights r.ioff)
    if kind.indexed then x.goodData r.ioff (r.icount * r.iwBytes)
    let may (b : Int) : Bool := x.inLoan b || (!kind.toDevice && s.inOpenShelf x b)
    match all.findSome? fun e => eachByte e.1 ed may with
    | some b => throw ⟨.loanRights, BitVec.ofInt 64 b, 0⟩
    | none => pure ()
    if x.busy tag then throw (fltA .tagBusy tag)
    return c

/-! ### Moving elements (R113, R116, R134) -/

/-- Why a device byte cannot be moved (R116), or its place in physical memory. -/
def State.devByte (s : State) (v acre addr : Nat) : Except Nat Loc :=
  match s.translate v acre addr with
  | .stage1 _ => .error 1
  | .stage2 _ _ => .error 2
  | .ok pa cxl ipa => if s.memUp pa cxl then .ok (Loc.of ipa pa cxl) else .error 4

/-- The places of `n` device bytes: the first failing byte with its cause, or the places. -/
def State.devBytes (s : State) (v acre addr n : Nat) : Except (Nat × Nat) (List Loc) :=
  (upFrom addr n).mapM fun a =>
    match s.devByte v acre a with
    | .ok k => .ok k
    | .error c => .error (c, a)

/-- Writes one byte to each of several places. -/
def State.physWriteAt (v : Nat) (s : State) : List (Loc × Byte) → State
  | [] => s
  | (k, b) :: r => State.physWriteAt v (s.physSet v k b) r

/-- The acre whose walker serves an activity (R121). -/
def Act.acre (x : Act) : Nat := match x.place with | some p => acreOf p.core | none => 0

/-- The conversion of a copied element (R113): its bits from one format to another when override is set. -/
def Copy.convert (c : Copy) (bitsIn : Nat) : Nat :=
  if !c.shape.oven then bitsIn
  else if c.kind.toDevice then fmtWrite c.shape.ofmt (fmtRead c.fmtA bitsIn)
  else fmtWrite c.fmtA (fmtRead c.shape.ofmt bitsIn)

/-- Reserved scale codes that a CBANK meets (R285, R367): each once, in element order. -/
def bankHits (carrel : List Host.Cell) (src fs fd : Nat) : List (Nat × Nat) :=
  if (if fs = 0 then fd else fs) = 9 then
    let get (o : Nat) : Byte := Memory.get carrel (src + o)
    ((upFrom 0 (Nat.min 40960 (fmtCount (if fd = 0 then fs else fd)))).filterMap (q4nReserved get)).eraseDups.map
      fun h => (src + h.1, h.2)
  else []

/-- Whether a CBANK between two formats reads byte `o` of its source bank (R101). -/
def bankReads (fs fd o : Nat) : Bool :=
  let f := if fs = 0 then fd else fs
  let n := Nat.min (fmtCount f) (fmtCount (if fd = 0 then f else fd))
  if f = 0 then true
  else if f = 9 then (upFrom 0 n).any fun i =>
    o == q4nCodeByte i || o == q4nBOff i || (decide (q4nSOff i ≤ o) && decide (o < q4nSOff i + 4))
  else if f = 10 then decide (o < ceilDiv n 2)
  else decide (o < n * fmtSize f)

/-- Clears the error marks of carrel bytes that have been rewritten. -/
def Act.rewritten (x : Act) (p : Nat → Bool) : Act :=
  { x with bad := x.bad.filter fun b => match b with | .carrel _ o => !p o | _ => true }

/-- Moves element `n` of an activity's command: the state with the element moved, or the failure (cause, address) of
R116. Bytes known to be bad are never written: they fail the element with cause 3. A CBANK converts its bank (R101) and
records the reserved codes in a strict region (R285); its failure names the carrel offset of the bad byte, since it has
no device address (DESIGN CHOICE, assumption log 50). -/
def State.moveElem (s : State) (x : Act) (c : Copy) (n : Nat) : Except (Nat × Nat) State :=
  match c.kind with
  | .cbank =>
    let src := c.shape.coff
    let dst := c.shape.ioff
    let get (o : Nat) : Byte := Memory.get x.carrel (src + o)
    let old (o : Nat) : Byte := Memory.get x.carrel (dst + o)
    match x.bad.find? fun b => match b with
        | .carrel _ o => decide (src ≤ o) && decide (o < src + Config.bankSize) && bankReads c.fmtA c.fmtB (o - src)
        | _ => false with
    | some (.carrel _ o) => .error (3, o)
    | _ =>
      let data := (bankConvert get old c.fmtA c.fmtB).map fun d => (dst + d.1, d.2)
      let hits := if (s.fn x.id.fn).strict x.region then bankHits x.carrel src c.fmtA c.fmtB else []
      .ok (s.modAct x.id fun y => { (y.rewritten fun o => data.any fun d => d.1 == o) with
        carrel := Memory.writeList y.carrel data
        strict := y.strict ++ hits.map fun h => ⟨c.tag, h.1, BitVec.ofNat 64 h.2⟩ })
  | _ =>
    let e := c.elem n
    match s.devBytes x.id.fn x.acre e.1.toNat c.ed with
    | .error f => .error f
    | .ok locs =>
      if c.kind.toDevice then
        if (upFrom e.2.toNat c.ec).any fun o => x.bad.contains (.carrel x.id o) then .error (3, e.1.toNat)
        else
          let v := c.convert (Memory.readNat x.carrel e.2.toNat c.ec)
          .ok (s.physWriteAt x.id.fn (locs.zip (leBytes c.ed v)))
      else
        match (locs.zip (upFrom e.1.toNat c.ed)).find? fun k => s.poison.contains k.1.key with
        | some k => .error (3, k.2)
        | none =>
          let v := c.convert (leNat (locs.map fun l => s.physGet x.id.fn l))
          .ok (s.modAct x.id fun y => { (y.rewritten fun o => decide (e.2.toNat ≤ o) && decide (o < e.2.toNat + c.ec)) with
            carrel := Memory.write y.carrel e.2.toNat (leBytes c.ec v) })

/-- Marks an element as moved. -/
def Act.markMoved (x : Act) (tag n : Nat) : Act :=
  { x with copies := x.copies.map fun c => if c.tag = tag then { c with moved := c.moved ++ [n] } else c }

/-- The 64-byte granule that an element writes: of device memory for a command to the device, of the carrel else. A CBANK
writes its bank as one. -/
def Copy.granule (c : Copy) (n : Nat) : Int :=
  match c.kind with
  | .cbank => 0
  | _ => (if c.kind.toDevice then (c.elem n).1 else (c.elem n).2) / 64

/-- Cuts elements into those of one granule each, in the order of their first elements. -/
def Copy.groups (c : Copy) (ns : List Nat) : List (List Nat) :=
  let gs := ns.map fun n => (c.granule n, n)
  (gs.map (·.1)).eraseDups.map fun g => (gs.filter fun p => p.1 == g).map (·.2)

/-- Moves the elements of one granule in order: all of them, or none and the first failure (R134, R136: a granule is all
old or all new). -/
def State.moveGranule (a : Aid) (c : Copy) : State → List Nat → Except (Nat × Nat) State
  | s, [] => .ok s
  | s, n :: ns =>
    match s.act a with
    | none => .ok s
    | some x =>
      match s.moveElem x c n with
      | .error f => .error f
      | .ok t => State.moveGranule a c t ns

/-- Moves the elements of a list granule by granule, stopping at the first failure. -/
def State.moveGroups (a : Aid) (c : Copy) : State → List (List Nat) → State × Option (Nat × Nat)
  | s, [] => (s, none)
  | s, g :: gs =>
    match s.moveGranule a c g with
    | .error f => (s, some f)
    | .ok t => State.moveGroups a c t gs

/-- Moves elements in order, granule by granule, up to the first failure. -/
def State.moveAll (s : State) (a : Aid) (c : Copy) (ns : List Nat) : State × Option (Nat × Nat) :=
  s.moveGroups a c (c.groups ns)

/-- Whether a command must still wait for an earlier one (R133). -/
def Act.mustWait (x : Act) (c : Copy) : Bool := x.copies.any fun d => decide (d.seq < c.seq) && c.conflicts d

/-- The tag bits after a completion (R115, R116). -/
def Act.tagDone (x : Act) (c : Copy) (failed : Option (Nat × Nat)) : Act :=
  let b : Word := BitVec.ofNat 64 (2 ^ c.tag)
  let y := { x with copies := x.copies.filter fun d => d.tag != c.tag }
  match failed with
  | none => { y with tags := y.tags ||| b }
  | some (cause, addr) =>
    { y with
      tagerr := y.tagerr ||| b
      tagwhy := (c.tag, BitVec.ofNat 64 (cause * 2 ^ 56 + c.tag * 2 ^ 48 + addr % 2 ^ 48)) ::
        y.tagwhy.filter fun p => p.1 != c.tag }

/-- %tagwhy (R116): the record of the lowest-numbered failed tag, or 0. -/
def Act.tagWhy (x : Act) : Word :=
  match (upFrom 0 64).find? fun j => x.tagerr.getLsbD j with
  | none => 0
  | some j => (assocGet j x.tagwhy).getD 0

/-- Frees the done tags of a mask (R115). -/
def Act.clearTags (x : Act) (mask : Word) : Act :=
  { x with tags := x.tags &&& ~~~mask, tagerr := x.tagerr &&& ~~~mask }

/-! ### Slots -/

/-- Sends 0 and records a copy command. -/
def Ctx.copy (c : Ctx) (kind : CopyKind) (tag : BitVec 6) (clo : Option (BitVec 3)) : Except Flt FOut :=
  .ok (c.sendEff (.scalar 0) (.copy kind tag.toNat (clo.map (·.toNat)) (c.word 0).toNat))

/-- CIN (R283). -/
def execCin (pm : Pm) (tag : BitVec 6) (clo : Option (BitVec 3)) (t1 : Tgt) (s : State) : Res :=
  fireSlot s (.cin pm tag clo t1) always fun c => c.copy .cin tag clo
/-- COUT (R283). -/
def execCout (pm : Pm) (tag : BitVec 6) (clo : Option (BitVec 3)) (t1 : Tgt) (s : State) : Res :=
  fireSlot s (.cout pm tag clo t1) always fun c => c.copy .cout tag clo
/-- CGATH (R283). -/
def execCgath (pm : Pm) (tag : BitVec 6) (clo : Option (BitVec 3)) (t1 : Tgt) (s : State) : Res :=
  fireSlot s (.cgath pm tag clo t1) always fun c => c.copy .cgath tag clo
/-- CSCAT (R283). -/
def execCscat (pm : Pm) (tag : BitVec 6) (clo : Option (BitVec 3)) (t1 : Tgt) (s : State) : Res :=
  fireSlot s (.cscat pm tag clo t1) always fun c => c.copy .cscat tag clo
/-- CBANK (R283, R285). -/
def execCbank (pm : Pm) (tag : BitVec 6) (clo : Option (BitVec 3)) (t1 : Tgt) (s : State) : Res :=
  fireSlot s (.cbank pm tag clo t1) always fun c => c.copy .cbank tag clo
/-- CFILL (R283). -/
def execCfill (pm : Pm) (tag : BitVec 6) (clo : Option (BitVec 3)) (t1 : Tgt) (s : State) : Res :=
  fireSlot s (.cfill pm tag clo t1) always fun c => c.copy .cfill tag clo

/-- The mask's CBANK commands have completed (R286). -/
def noBank (mask : Word) (x : Act) : Bool := x.copies.all fun p => !(p.kind == .cbank && mask.getLsbD p.tag)

/-- The CBANK rule of R286 on a slot whose left operand is a tag mask. -/
def bankQuiet (c : Ctx) : Bool := noBank (c.word 0) c.x

/-- The strict-reserved-code report of a masked CBANK (R165, R286). -/
def Ctx.strictTags (c : Ctx) : Except Flt Unit :=
  match c.x.strict.find? fun h => (c.word 0).getLsbD h.tag with
  | some h => .error ⟨.strictCode, BitVec.ofNat 64 h.off, h.val⟩
  | none => .ok ()

/-- WTANY (R286). -/
def execWtany (pm : Pm) (ex : BitVec 3) (off : BitVec 19) (s : State) : Res :=
  fireSlot s (.wtany pm ex off) bankQuiet fun c => do
    c.strictTags
    c.exit (.wtany (c.word 0) (target19 c.fl off))
/-- WTALL (R286). -/
def execWtall (pm : Pm) (ex : BitVec 3) (off : BitVec 19) (s : State) : Res :=
  fireSlot s (.wtall pm ex off) bankQuiet fun c => do
    c.strictTags
    c.exit (.wtall (c.word 0) (target19 c.fl off))
/-- WCNT (R286). -/
def execWcnt (pm : Pm) (ex : BitVec 3) (off : BitVec 19) (s : State) : Res :=
  fireSlot s (.wcnt pm ex off) always fun c => c.exit (.wcnt (c.word 0) (target19 c.fl off))

/-- The lowest done tag of a mask, or 64 (R287). -/
def Act.findDone (x : Act) (mask : Word) : Nat :=
  ((upFrom 0 64).find? fun j => (mask &&& (x.tags ||| x.tagerr)).getLsbD j).getD 64

/-- TAGFF (R287). -/
def execTagff (pm : Pm) (clr : Bool) (t1 t2 : Tgt) (s : State) : Res :=
  fireSlot s (.tagff pm clr t1 t2) bankQuiet fun c => do
    c.strictTags
    let j := c.x.findDone (c.word 0)
    return c.sendEff (.scalar (BitVec.ofNat 64 j))
      (if clr && decide (j < 64) then .tagClear (BitVec.ofNat 64 (2 ^ j)) else .none)

/-- TAGCLR (R288). -/
def execTagclr (pm : Pm) (t1 t2 : Tgt) (s : State) : Res :=
  fireSlot s (.tagclr pm t1 t2) always fun c => .ok (c.sendEff (.scalar 0) (.tagClear (c.word 0)))

/-- BFMT (R289): a reserved code raises bank-format, a bank that is not held or away carrel-rights; the code is looked at
first (DESIGN CHOICE, assumption log 89). -/
def execBfmt (pm : Pm) (bank fmt : BitVec 4) (t1 : Tgt) (s : State) : Res :=
  fireSlot s (.bfmt pm bank fmt t1) always fun c => do
    if 11 ≤ fmt.toNat then throw (fltA .bankFormat (bank.toNat + 16 * fmt.toNat))
    if !c.x.reaches bank.toNat then throw (fltA .carrelRights (bank.toNat * Config.bankSize))
    return c.sendEff (.scalar 0) (.bfmt bank.toNat fmt.toNat)

end Sys2Proof.Machine
end

