-- ==== Sys2Proof/Machine/Environments.lean ====
section
/-!
DEFINITION. The environment store of a core: spilling, reloading and copying environments, and the spill frames that
hold what does not fit (R20, R21, R82 to R88, R93).
-/
namespace Sys2Proof.Machine

/-! ### Spill frames (R20, R21) -/

/-- Set bits of a mask. -/
def maskCount (w n : Nat) : Nat := ((upFrom 0 w).filter fun k => n.testBit k).length

/-- Bytes of a whole saved context (R20, R21): header, live registers, held loans and open slots of 8 bytes each (R333),
apply stack, four bits of format for each held bank, banks, environment records, live tiles. -/
def Act.saveBytes (x : Act) (recs tiles : Nat) : Nat :=
  256 + 8 * maskCount 32 x.lives.toNat + 64 * maskCount 32 x.livev.toNat + 8 * maskCount 8 x.livem.toNat +
    8 * maskCount 8 x.livec.toNat + 8 * (x.l.toList.filter (· != .empty)).length +
    8 * (x.sh.toList.filter (·.isSome)).length + 48 * x.stack.length + ceilDiv x.banks 2 + Config.bankSize * x.banks +
    64 * recs + 16384 * tiles

/-- Bytes of the frame of a resident activity (R49, R86, R88): header, entries above the 16th, spilled environments,
banks of a travelled party that lie in it. -/
def Act.frameBytes (x : Act) : Nat :=
  let recs := (x.frameEnv.map fun e => envRecs e.words).sum
  if recs = 0 ∧ x.stack.length ≤ 16 ∧ x.framedBanks = 0 then 0
  else 256 + 48 * (x.stack.length - 16) + 64 * recs + Config.bankSize * x.framedBanks

/-- Gives an activity's frame the pages that `bytes` need; none when the budget cannot hold them (R21). -/
def State.growFrame (s : State) (a : Aid) (bytes : Nat) : Option State :=
  match s.act a with
  | none => none
  | some x =>
    let need := ceilDiv bytes Config.pageSize
    if need ≤ x.frame.length then some s
    else
      match s.takeDevice a.fn x.region (need - x.frame.length) with
      | none => none
      | some (ps, t) => some (t.modAct a fun y => { y with frame := y.frame ++ ps })

/-- Returns the frame pages that an activity no longer needs. -/
def State.shrinkFrame (s : State) (a : Aid) : State :=
  match s.act a with
  | none => s
  | some x =>
    let keep := ceilDiv x.frameBytes Config.pageSize
    if x.frame.length ≤ keep then s
    else (s.giveDevice a.fn x.region (x.frame.drop keep)).modAct a fun y => { y with frame := y.frame.take keep }

/-- Frees the spilled environments that no handle of the activity names any more (R83); a snapshot's handle of one
becomes stale. -/
def Act.sweepFrame (x : Act) : Act :=
  let used (i : Nat) : Bool := x.handles.any fun h => h.kind == .spilled && h.index.toNat == i
  let keep := (upFrom 0 x.frameEnv.length).filter used
  if keep.length = x.frameEnv.length then x
  else
    let renum (h : Handle) : Handle :=
      if h.kind == .spilled then { h with index := BitVec.ofNat 8 ((keep.idxOf? h.index.toNat).getD 255) } else h
    { x.mapHandles renum with frameEnv := keep.filterMap fun i => x.frameEnv[i]? }

/-- Moves the banks that a travelled party left on a core to its spill frame (R49); none when no budget holds them. -/
def State.clearBehind (s : State) (a : Aid) : Option State :=
  match s.act a with
  | none => none
  | some x =>
    let y := { x with behind := x.behind.map fun d => (d.1, 0), framed := x.framed + (x.behind.map (·.2)).getD 0 }
    (s.setAct y).growFrame a y.frameBytes

/-- The state in which a core has `n` free banks for a dispatch or a meeting: banks that travelled parties left there go
to their frames only as far as needed (R49). -/
def State.makeBanks (s : State) (c n : Nat) : Option State :=
  let fits (t : State) : Bool := decide (n ≤ Config.coreBanks - t.banksUsed c)
  let left := s.acts.filter fun x => match x.behind with | some (d, k) => d == c && decide (0 < k) | none => false
  let t : State := left.foldl (fun (t : State) x => if fits t then t else (t.clearBehind x.id).getD t) s
  if fits t then some t else none

/-! ### Spilling (R86) -/

/-- The holders of a store environment. -/
def State.envHolders (s : State) (core i : Nat) : List Act := (s.onCore core).filter fun x => 0 < x.refs i

/-- Whether an environment is pinned (R86). -/
def State.pinned (s : State) (core i : Nat) (e : Env) : Bool :=
  e.reserver.isSome || (s.envHolders core i).any fun x =>
    (x.run == .running && x.env.kind == .store && x.env.index.toNat == i) ||
      (match x.meet with | some m => m.begun | none => false)

/-- The victims of a core in order (R86): those of suspended holders first, then oldest last use first. -/
def State.victims (s : State) (core : Nat) : List Nat :=
  let free := (s.core core).envs.filter fun p => !s.pinned core p.1 p.2
  let key (p : Nat × Env) : Nat × Nat :=
    (if (s.envHolders core p.1).any fun x => x.run == .running then 1 else 0, p.2.lastUse)
  let le (p q : Nat × Env) : Bool :=
    decide ((key p).1 < (key q).1) || ((key p).1 == (key q).1 && decide ((key p).2 ≤ (key q).2))
  (free.foldl (fun acc p => (acc.takeWhile fun q => le q p) ++ [p] ++ acc.dropWhile fun q => le q p) []).map (·.1)

/-- Spills one environment to its holder's frame; none when the page budget cannot hold the frame (R86). DESIGN CHOICE
(assumption log 109): beyond 256 environments in a frame the position in a handle (R74) is taken modulo 256. -/
def State.spillEnv (s : State) (core i : Nat) : Option State :=
  match assocGet i (s.core core).envs, s.envHolders core i with
  | some e, x :: _ =>
    let pos := x.frameEnv.length
    let f (h : Handle) : Handle :=
      if h.kind == .store && h.index.toNat == i then ⟨.spilled, 0, BitVec.ofNat 8 pos, h.entry⟩ else h
    let spilled (y : Act) : Act := { y.mapHandles f with frameEnv := y.frameEnv ++ [e] }
    ((s.modAct x.id spilled).growFrame x.id (spilled x).frameBytes).map fun t => t.modCore core fun c => c.drop i
  | some _, [] => some (s.modCore core fun c => c.drop i)
  | none, _ => none

/-- Spills victims until `n` consecutive records are free; none when no victim remains (R86). -/
def makeRoomAux (core n : Nat) : Nat → State → List Nat → Option State
  | 0, _, _ => none
  | k + 1, s, tried =>
    if ((s.core core).room n).isSome then some s
    else
      match (s.victims core).find? fun i => !tried.contains i with
      | none => none
      | some i =>
        (match s.spillEnv core i with
          | some t => makeRoomAux core n k t tried
          | none => makeRoomAux core n k s (i :: tried))

/-- Makes room for an environment of `n` records. DESIGN CHOICE (assumption log 83): where enough records are free and no
`n` of them in a row (R76), environments are spilled as where too few are free (R86). -/
def State.makeRoom (s : State) (core n : Nat) : Option State := makeRoomAux core n 600 s []

/-- Places an environment in a core's store, spilling where needed: its index and the new state. -/
def State.putEnv (s : State) (core : Nat) (e : Env) : Option (Nat × State) :=
  match s.makeRoom core (envRecs e.words) with
  | none => none
  | some t =>
    match (t.core core).room (envRecs e.words) with
    | none => none
    | some i => some (i, t.modCore core fun c => { c with envs := c.envs ++ [(i, e)] })

/-! ### Reloading (R87) -/

/-- Whether two environments are one, its count aside: what a pre-emption saved for both parties of a meeting. -/
def Env.same (d e : Env) : Bool := { d with count := 0 } == { e with count := 0 }

/-- The store index at which the partner of a meeting in progress holds, on the same core, the environment that both
parties referenced when a pre-emption saved their frames: until one of them leaves the meeting it is one environment
(R73, R85, R357). -/
def State.twin (s : State) (x : Act) (core : Nat) (e : Env) : Option Nat :=
  match x.meet with
  | none => none
  | some m =>
    match (if m.begun && m.left == Left.present then s.act m.partner else none) with
    | none => none
    | some y =>
      if y.place.any fun p => p.core == core then
        ((s.core core).envs.find? fun p => p.2.same e && 0 < y.refs p.1).map (·.1)
      else none

/-- The environment `e` of a party's frame has been reloaded and used now; the partner's frame, where it holds the same
one, knows it by the new last use. -/
def State.twinUsed (s : State) (x : Act) (e : Env) (now : Nat) : State :=
  match x.meet with
  | none => s
  | some m => if m.begun then
      s.modAct m.partner fun y => { y with
        frameEnv := y.frameEnv.map fun d => if d.same e then { d with lastUse := now } else d }
    else s

/-- Reloads the environment that a holder's frame holds at a position: the holder's handles to it become kind 01. -/
def State.reload (s : State) (a : Aid) (pos : Nat) : Option State :=
  match s.act a with
  | none => none
  | some x =>
    match x.place, x.frameEnv[pos]? with
    | some p, some e =>
      let put : Option (Nat × State) := match s.twin x p.core e with
        | some i => some (i, s)
        | none => (s.putEnv p.core { e with lastUse := s.fresh }).map fun r => (r.1, r.2.twinUsed x e s.fresh)
      (match put with
        | none => none
        | some (i, t) =>
          let g := (t.core p.core).gen i
          let f (h : Handle) : Handle :=
            if h.kind == .spilled then
              if h.index.toNat = pos then ⟨.store, BitVec.ofNat 12 g, BitVec.ofNat 8 i, h.entry⟩
              else if pos < h.index.toNat then { h with index := h.index - 1 } else h
            else h
          some ((t.tick.2.modAct a fun y => { y.mapHandles f with frameEnv := y.frameEnv.eraseIdx pos }).shrinkFrame a))
    | _, _ => none

/-- Reloads every spilled environment that a list of handles names. -/
def State.reloadAll (a : Aid) : Nat → State → (Act → List Handle) → Option State
  | 0, s, _ => some s
  | n + 1, s, sel =>
    match s.act a with
    | none => none
    | some x =>
      match (sel x).find? fun h => h.kind == .spilled with
      | none => some s
      | some h =>
        match s.reload a h.index.toNat with
        | none => none
        | some t => State.reloadAll a n t sel

/-- Marks an environment as used now (R86). -/
def State.touchEnv (s : State) (x : Act) (h : Handle) : State :=
  match h.kind, x.place with
  | .store, some p =>
    (s.tick.2).modCore p.core fun c => { c with envs := c.envs.map fun e =>
      if e.1 = h.index.toNat then (e.1, { e.2 with lastUse := s.fresh }) else e }
  | _, _ => s

/-- Uses an environment that a handle names (R86, R87): one in the spill frame is reloaded; none when no records can be
had. -/
def State.useEnv (s : State) (x : Act) (h : Handle) : Option State :=
  if h.kind == .spilled then s.reload x.id h.index.toNat else some (s.touchEnv x h)

/-- Frees what a frame holds and no handle names (R83), and the pages that this leaves over (R21). -/
def State.sweep (s : State) (a : Aid) : State := (s.modAct a Act.sweepFrame).shrinkFrame a

/-! ### Copies of environments (R93) -/

/-- The copy that a new activity receives (R93): count 1, owner the child. -/
def Env.childCopy (e : Env) (serial : Nat) : Env := { e with owner := serial, count := 1, reserver := none }

/-- Whether an environment holds a by-reference word (R93). -/
def Env.hasRef (e : Env) : Bool := e.kinds.contains 1

/-- A new environment as CENV writes it (R76, R80). -/
def Env.new (owner n lastUse : Nat) (r : Aid) : Env :=
  ⟨owner, 0, n, List.replicate n 0, List.replicate n 0, lastUse, some r, []⟩

end Sys2Proof.Machine
end

