-- ==== Sys2Proof/Machine/Ownership.lean ====
section
/-!
DEFINITION. Loans and shelves (R102 to R110, R290 to R294): the choices and reservations made when a slot fires; the
effects themselves take place at the commit.
-/
namespace Sys2Proof.Machine

/-! ### Reservations of executions in flight (R277, R291) -/

/-- The registers that an activity's execution has reserved: by PALLOC and as tails of LSPLIT. -/
def Act.takenRegs (x : Act) : List Nat :=
  x.effects.filterMap fun e => match e with
    | .palloc k .. => some k
    | .lsplit _ _ tail => some tail
    | _ => none

/-- A loan register. -/
def Act.reg (x : Act) (k : Nat) : LReg := x.l.toList.getD k .empty

/-- Base, length and tier of a register in state loan or sealed. -/
def LReg.info : LReg → Option (Nat × Nat × Bool)
  | .empty => none
  | .loan b p c => some (b, p, c)
  | .sealed b p c _ _ => some (b, p, c)

/-- No copy command of the activity touches a register's range (R105). -/
def Act.drained (x : Act) (k : Nat) : Bool :=
  match (x.reg k).info with
  | none => true
  | some (b, p, _) => !(x.copies.any fun c => c.touchesDevice (b * 65536) (p * 65536))

/-- The drain of R105 for a register field. -/
def drainOf (k : BitVec 3) (c : Ctx) : Bool := c.x.drained k.toNat

/-- The slots of a block that can still fire while slot `k` does not: those with their tokens, and those whose missing
tokens come from such slots. -/
def Flight.canFire (f : Flight) (k : Nat) : Nat → List Nat → List Nat
  | 0, ks => ks
  | n + 1, ks =>
    let next := (upFrom 0 f.words.length).filter fun j =>
      j != k && (ks.contains j ||
        match f.instr j with
        | none => false
        | some i =>
          (f.slot j).status == .notYet && f.ready j i true != .never &&
            (((match predReq i with | none => [] | some _ => [Opnd.p]) ++ f.needs j i).all fun o =>
              ((f.slot j).arrived o).isSome || ks.any fun src =>
                match f.instr src with
                | none => false
                | some g => (tgts g).contains (some ⟨BitVec.ofNat 7 j, o⟩)))
    f.canFire k n next

/-- Lower-numbered LSPLITs that may still choose a register before this one (R291). -/
def lsplitTurn (c : Ctx) : Bool :=
  let lower := (upFrom 0 c.k).filter fun j =>
    match c.fl.instr j with | some (.lsplit ..) => (c.fl.slot j).status == .notYet | _ => false
  if lower.isEmpty then true
  else
    let live := c.fl.canFire c.k c.fl.words.length []
    !(lower.any fun j => live.contains j)

/-- A loan-rights fault that names a register or slot number. -/
def noLoan (k : Nat) : Flt := fltA .loanRights k

/-- PALLOC (R103, R105, R125, R291): result 3, 1 or 2 reserves nothing. -/
def execPalloc (pm : Pm) (cxl : Bool) (k : BitVec 3) (t1 : Tgt) (s : State) : Res :=
  fireSlot s (.palloc pm cxl k t1) always fun c => do
    let v := c.x.id.fn
    let n := (c.word 0).toNat
    if c.x.reg k.toNat ≠ .empty ∨ c.x.takenRegs.contains k.toNat then throw (noLoan k.toNat)
    if n = 0 ∨ 16777215 < n then return c.send (.scalar 3)
    let r := c.s.reserved v
    if !r.pagesFit v c.x.region n then return c.send (.scalar 1)
    let base := r.chooseBase v n
    let vas := (r.fn v).stage1.map (·.va)
    let more := tablePages (vas ++ upFrom base n) - tablePages vas
    let free := r.freePages v cxl
    let room := if cxl then decide (n ≤ free.length) && decide (more ≤ (r.freePages v false).length)
      else decide (n + more ≤ free.length)
    if !room then return c.send (.scalar 2)
    let start := Config.loanPage c.s.fresh % free.length
    let pick := ((free.drop start) ++ (free.take start)).take n
    let pick := if cxl then pick else ((free.reverse.drop start) ++ (free.reverse.take start)).take n
    return { c.sendEff (.scalar 0) (.palloc k.toNat base n cxl pick) with s := (c.s.tick).2 }

/-- PFREE (R103, R105). -/
def execPfree (pm : Pm) (k : BitVec 3) (t1 : Tgt) (s : State) : Res :=
  fireSlot s (.pfree pm k t1) (drainOf k) fun c =>
    match c.x.reg k.toNat with
    | .loan .. => .ok (c.sendEff (.scalar 0) (.pfree k.toNat))
    | _ => .error (noLoan k.toNat)

/-- LSPLIT (R103, R291). -/
def execLsplit (pm : Pm) (k : BitVec 3) (t1 : Tgt) (s : State) : Res :=
  fireSlot s (.lsplit pm k t1) lsplitTurn fun c => do
    let p := (c.word 0).toNat
    match c.x.reg k.toNat with
    | .loan _ n _ =>
      if p = 0 ∨ n ≤ p then throw (noLoan k.toNat)
      let named (r : Nat) : Bool := (upFrom 0 c.fl.words.length).any fun j =>
        match c.fl.instr j with | some (.palloc _ _ kk _) => kk.toNat == r | _ => false
      let tail := (upFrom 0 8).find? fun r =>
        c.x.reg r == .empty && !named r && !c.x.takenRegs.contains r
      match tail with
      | none => throw (noLoan k.toNat)
      | some t => return c.sendEff (.scalar (BitVec.ofNat 64 t)) (.lsplit k.toNat p t)
    | _ => throw (noLoan k.toNat)

/-- LGIVE (R52, R104, R292); whether there is a partner is looked at before the register (DESIGN CHOICE, assumption log
89). -/
def execLgive (pm : Pm) (k : BitVec 3) (t1 : Tgt) (s : State) : Res :=
  fireSlot s (.lgive pm k t1) (drainOf k) fun c =>
    match c.s.partner c.x with
    | none => .error (flt .meetingState)
    | some _ =>
      match c.x.reg k.toNat with
      | .empty => .error (noLoan k.toNat)
      | _ => .ok (c.sendEff (.scalar 0) (.lgive k.toNat))

/-- The shelf counter after an id is taken: it skips 0 and every id of an existing shelf (R106). -/
def shelfNext (live : List Nat) : Nat → Nat → Nat
  | 0, n => n % 2 ^ 32
  | k + 1, n => if n % 2 ^ 32 = 0 ∨ live.contains (n % 2 ^ 32) then shelfNext live k (n + 1) else n % 2 ^ 32

/-- Takes a shelf id (R106). -/
def State.newShelf (s : State) (v : Nat) : Nat × State :=
  let f := s.fn v
  let live := f.shelves.map (·.id)
  (f.shelfCtr, s.modFn v fun f =>
    { f with shelfCtr := shelfNext (f.shelfCtr :: live) (live.length + 3) (f.shelfCtr + 1) })

/-- SEAL (R103, R105, R106): the id is taken when it fires. -/
def execSeal (pm : Pm) (k : BitVec 3) (t1 : Tgt) (s : State) : Res :=
  fireSlot s (.seal pm k t1) (drainOf k) fun c =>
    match c.x.reg k.toNat with
    | .loan .. =>
      let n := c.s.newShelf c.x.id.fn
      .ok { c.sendEff (.scalar (BitVec.ofNat 64 n.1)) (.seal k.toNat n.1) with s := n.2 }
    | _ => .error (noLoan k.toNat)

/-- Whether an activity is in a meeting in progress (R55, R56). -/
def Act.inMeeting (x : Act) : Bool := match x.meet with | some m => m.begun | none => false

/-- UNSEAL (R109, R293): an exit. -/
def execUnseal (pm : Pm) (ex : BitVec 3) (k : BitVec 3) (off : BitVec 16) (s : State) : Res :=
  fireSlot s (.unseal pm ex k off) always fun c =>
    if c.x.inMeeting then .error (flt .meetingState)
    else match c.x.reg k.toNat with
      | .sealed _ _ _ id v =>
        if v == c.x.id.fn && c.x.sh.toList.contains (some id) then .error (noLoan k.toNat)
        else c.exit (.unseal k.toNat (target16 c.fl off))
      | _ => .error (noLoan k.toNat)

/-- The open-shelf slots that an execution has reserved. -/
def Act.takenSlots (x : Act) : List Nat :=
  x.effects.filterMap fun e => match e with | .shopen n _ => some n | _ => none

/-- SHOPEN (R107, R294). -/
def execShopen (pm : Pm) (t1 t2 : Tgt) (s : State) : Res :=
  fireSlot s (.shopen pm t1 t2) always fun c =>
    match (c.s.fn c.x.id.fn).shelf (c.word 0).toNat with
    | none => c.scalar (-2)
    | some sf =>
      if sf.unsealing then c.scalar (-1)
      else
        match (upFrom 0 8).find? fun n => (c.x.sh.toList.getD n none).isNone && !c.x.takenSlots.contains n with
        | none => c.scalar (-3)
        | some n => .ok (c.sendEff (.scalar (BitVec.ofNat 64 n)) (.shopen n sf.id))

/-- The open slot that a SHCLOSE names, with its shelf id. -/
def Ctx.openSlot (c : Ctx) : Option (Nat × Nat) :=
  let n := (c.word 0).toNat
  if n < 8 then (c.x.sh.toList.getD n none).map fun id => (n, id) else none

/-- The drain of R108: no CIN or CGATH of the executor reads the slot's shelf. -/
def shelfDrained (c : Ctx) : Bool :=
  match c.openSlot with
  | none => true
  | some (_, id) =>
    match (c.s.fn c.x.id.fn).shelf id with
    | none => true
    | some sf => !(c.x.copies.any fun p => !p.kind.toDevice && p.touchesDevice (sf.base * 65536) (sf.pages * 65536))

/-- SHCLOSE (R108, R294). -/
def execShclose (pm : Pm) (t1 t2 : Tgt) (s : State) : Res :=
  fireSlot s (.shclose pm t1 t2) shelfDrained fun c =>
    match c.openSlot with
    | none => .error ⟨.loanRights, c.word 0, 0⟩
    | some (n, _) => .ok (c.sendEff (.scalar 0) (.shclose n))

/-- LBASE (R103, R291). -/
def execLbase (pm : Pm) (field : LField) (shelf : Bool) (k : BitVec 3) (t1 : Tgt) (s : State) : Res :=
  fireSlot s (.lbase pm field shelf k t1) always fun c =>
    let info : Option (Nat × Nat × Bool) :=
      if shelf then
        match c.x.sh.toList.getD k.toNat none with
        | none => none
        | some id => ((c.s.fn c.x.id.fn).shelf id).map fun sf => (sf.base, sf.pages, sf.cxl)
      else (c.x.reg k.toNat).info
    match info with
    | none => .error (noLoan k.toNat)
    | some (b, p, cxl) =>
      c.scalar (BitVec.ofNat 64 (match field with
        | .base => b * 65536
        | .len => p
        | .tier => if cxl then 1 else 0))

end Sys2Proof.Machine
end

