-- ==== Sys2Proof/Machine/Activity.lean ====
section
/-!
DEFINITION. Activities, meetings and closures as their slots fire (R46 to R51, R56, R80, R81, R295 to R310, R332): what
is checked, reserved and recorded. The effects take place at the commit.
-/
namespace Sys2Proof.Machine

/-! ### SPAWN and the exits of activities -/

/-- The image address of a SPAWN with fn bit 1. -/
def Ctx.image (c : Ctx) (share region : Bool) : Option Word :=
  if region then some (c.word (if share then 1 else 0)) else none

/-- SPAWN of a region fires only after every copy of the spawner touching the image has completed (R296). -/
def imageQuiet (share region : Bool) (c : Ctx) : Bool :=
  match c.image share region with
  | none => true
  | some a => !(c.x.copies.any fun p => p.touchesDevice a.toNat 256)

/-- SPAWN (R295): reserves and sends the child's serial. -/
def execSpawn (pm : Pm) (share region : Bool) (banks : BitVec 4) (c : BitVec 3) (t1 : Tgt) (s : State) : Res :=
  fireSlot s (.spawn pm share region banks c t1) (imageQuiet share region) fun k =>
    let n := k.s.newSerial k.x.id.fn
    .ok { k.sendEff (.scalar (BitVec.ofNat 64 n.1))
        (.spawn c.toNat (banks.toNat + 1) n.1 (if share then some (k.word 0) else none) (k.image share region)) with
      s := n.2 }

/-- A meeting-state fault inside a meeting (R56, R298, R300). -/
def Ctx.outside (c : Ctx) : Except Flt Unit := if c.x.inMeeting then .error (flt .meetingState) else .ok ()

/-- RETIRE (R298). -/
def execRetire (pm : Pm) (ex : BitVec 3) (s : State) : Res :=
  fireSlot s (.retire pm ex) always fun c => do
    c.outside
    c.exit .retire

/-- YIELD (R299). -/
def execYield (pm : Pm) (ex : BitVec 3) (off : BitVec 16) (s : State) : Res :=
  fireSlot s (.yield pm ex off) always fun c => c.exit (.yield (target16 c.fl off))

/-- SLEEP (R299). -/
def execSleep (pm : Pm) (ex : BitVec 3) (off : BitVec 16) (s : State) : Res :=
  fireSlot s (.sleep pm ex off) always fun c => c.exit (.sleep (c.word 0) (target16 c.fl off))

/-- GANG (R300). -/
def execGang (pm : Pm) (ex : BitVec 3) (shape : Shape) (off : BitVec 16) (s : State) : Res :=
  fireSlot s (.gang pm ex shape off) always fun c => do
    c.outside
    if c.x.stack.length ≠ 0 then throw (fltA .applyStack c.x.stack.length)
    c.exit (.gang shape (target16 c.fl off))

/-- SPLIT (R301): the tiles are checked at the commit. -/
def execSplit (pm : Pm) (ex : BitVec 3) (off : BitVec 16) (s : State) : Res :=
  fireSlot s (.split pm ex off) always fun c => c.exit (.split (target16 c.fl off))

/-! ### Meetings and gatherings -/

/-- The luggage descriptor (R46): first bank, count and ro. -/
def lugFields (d : Word) : Nat × Nat × Bool := (bits d.toNat 3 0, bits d.toNat 6 4, bit d.toNat 7)

/-- The check of R47. -/
def Act.lugOk (x : Act) (d : Word) : Bool :=
  let l := lugFields d
  decide (l.2.1 ≤ 4) && d.toNat / 256 == 0 &&
    (l.2.1 == 0 || (decide (l.1 + l.2.1 ≤ 16) && decide (l.1 + l.2.1 ≤ x.banks)))

/-- No copy of an activity touches the banks from `first`, `count` of them (R48, R303). -/
def Act.banksQuiet (x : Act) (first count : Nat) : Bool :=
  !(x.copies.any fun p => (upFrom first count).any p.touchesBank)

/-- The drain of MEET (R302). -/
def meetQuiet (c : Ctx) : Bool :=
  let l := lugFields (c.word 1)
  c.x.banksQuiet l.1 l.2.1

/-- MEET (R302): key, luggage descriptor, timeout. -/
def execMeet (pm : Pm) (ex : BitVec 3) (off : BitVec 16) (s : State) : Res :=
  fireSlot s (.meet pm ex off) meetQuiet fun c => do
    c.outside
    if !c.x.lugOk (c.word 1) then throw ⟨.luggage, c.word 1, 0⟩
    c.exit (.meet (c.word 0) (c.word 1) (c.word 2) (target16 c.fl off))

/-- GATHER (R302): key, arity word, contribution; the timeout is S13 as committed before the block (R60). -/
def execGather (pm : Pm) (ex : BitVec 3) (op : GOp) (off : BitVec 16) (s : State) : Res :=
  fireSlot s (.gather pm ex op off) always fun c => do
    c.outside
    c.x.regOk .s 13
    c.exit (.gather op (c.word 0) (c.word 1) (c.tok 2) (bits (c.x.s.toList.getD 13 0).toNat 31 0)
      (target16 c.fl off))

/-- The drain of PART (R303). -/
def partQuiet (c : Ctx) : Bool :=
  match c.x.meet with
  | none => true
  | some m => c.x.banksQuiet m.lugFirst m.lugCount

/-- PART (R303). -/
def execPart (pm : Pm) (ex : BitVec 3) (off : BitVec 16) (s : State) : Res :=
  fireSlot s (.part pm ex off) partQuiet fun c => do
    if !c.x.inMeeting then throw (flt .meetingState)
    c.exit (.part (target16 c.fl off))

/-- XRD (R304): the partner's register as its snapshot holds it (R51), a detected error included that the register held
when the snapshot was taken (R362); a spilled environment is reloaded first (R87).
DESIGN CHOICE (assumption log 66): the snapshot does not keep an environment alive; a handle whose environment the
partner has dropped since fails as a stale one. -/
def execXrd (pm : Pm) (cls : Cls) (t1 t2 : Tgt) (s : State) : Res :=
  fireSlot s (.xrd pm cls t1 t2) always fun c => do
    let n := bits (c.word 0).toNat 4 0
    match c.s.partner c.x with
    | none => throw (flt .meetingState)
    | some (y, m) =>
      if (cls == .m || cls == .c) && decide (7 < n) then throw (flt .meetingState)
      if m.snap.bad.contains (cls, n) then throw (fltA .dataError (regOffset cls n))
      match cls with
      | .s => c.scalar (m.snap.s.toList.getD n 0)
      | .m => c.scalar (m.snap.m.toList.getD n 0)
      | .v => return c.send (.vector (m.snap.v.toList.getD n 0) 0)
      | .c =>
        let h := m.snap.c.toList.getD n Handle.none
        if h.kind == .spilled then
          match c.s.reload y.id h.index.toNat with
          | none => throw ⟨.environmentBudget, BitVec.allOnes 64, 0⟩
          | some t =>
            let h2 := match (t.act y.id).bind fun z => z.meet with
              | some m2 => m2.snap.c.toList.getD n Handle.none
              | none => h
            return { c.send (.handle h2) with s := t }
        else if c.s.stale y h then throw (fltA .recordIntegrity y.recAt)
        else return { c.send (.handle h) with s := c.s.touchEnv y h }

/-! ### Closures -/

/-- CENV (R80, R305): reserves the records, spilling where needed (R86). DESIGN CHOICE (assumption log 89): a misaligned
entry is looked at before the word count. -/
def execCenv (pm : Pm) (t1 : Tgt) (s : State) : Res :=
  fireSlot s (.cenv pm t1) always fun c => do
    let a := (c.word 0).toNat
    let n := (c.word 1).toNat
    if a % 64 ≠ 0 then throw (fltA .misalignment a)
    if 31 ≤ n then throw (fltA .environmentWord n)
    let entry := BitVec.ofNat 42 (bits a 47 6)
    if n = 0 then return c.send (.handle ⟨.bare, 0, 0, entry⟩)
    let core := match c.x.place with | some p => p.core | none => 0
    match c.s.putEnv core (Env.new c.x.id.serial n c.s.fresh c.x.id) with
    | none => throw ⟨.environmentBudget, BitVec.allOnes 64, 0⟩
    | some (i, t) =>
      let h := (t.core core).handle i entry
      return { c.sendEff (.handle h) (.cenv h n) with s := t.tick.2 }

/-- The word count of the environment that a CENV of this execution reserved for a handle token (R81). -/
def Flight.ownEnv (f : Flight) (h : Handle) : Option Nat :=
  f.slots.findSome? fun (sl : SlotSt) => match sl.eff with
    | .cenv g n => if g = h then some n else none
    | _ => none

/-- Whether a CPUT of this execution has written a word of an environment (R81). -/
def Flight.putDone (f : Flight) (h : Handle) (w : Nat) : Bool :=
  f.slots.any fun (sl : SlotSt) => match sl.eff with
    | .cput g cells => g == h && cells.any fun x => x.1 == w
    | _ => false

/-- CPUT (R81, R306). -/
def execCput (pm : Pm) (mode : PutMode) (w : BitVec 5) (t1 : Tgt) (s : State) : Res :=
  fireSlot s (.cput pm mode w t1) always fun c => do
    let bad := fltA .environmentWord w.toNat
    match c.tok 0 with
    | .handle h =>
      match c.fl.ownEnv h with
      | none => throw bad
      | some n =>
        let k := match mode with | .vec => 8 | _ => 1
        if n < w.toNat + k then throw bad
        if (upFrom w.toNat k).any fun j => c.fl.putDone h j then throw bad
        let r := c.word 1
        match mode with
        | .val => return c.sendEff (.handle h) (.cput h [(w.toNat, 0, r)])
        | .ref =>
          let off := bits r.toNat 18 0
          if c.x.banks * Config.bankSize ≤ off then throw (fltA .carrelRights off)
          let d := c.x.stack.length
          return c.sendEff (.handle h) (.cput h [(w.toNat, 1, refWord (c.x.frameGen d) d off)])
        | .vec =>
          let v := (c.tok 1).vec.toNat
          return c.sendEff (.handle h) (.cput h ((upFrom 0 8).map fun j =>
            (w.toNat + j, if j = 0 then 2 else 3, BitVec.ofNat 64 (v / 2 ^ (64 * j)))))
    | _ => throw bad

/-- CDROP (R307). -/
def execCdrop (c : BitVec 3) (s : State) : Res :=
  fireSlot s (.cdrop c) always fun k => .ok (k.sendEff .null (.cdrop c.toNat))

/-- APPLY (R309). -/
def execApply (pm : Pm) (ex : BitVec 3) (c : BitVec 3) (s : State) : Res :=
  fireSlot s (.apply pm ex c) always fun k => k.exit (.apply c.toNat)

/-- VAPPLY (R310). -/
def execVapply (pm : Pm) (ex : BitVec 3) (m : BitVec 3) (off : BitVec 16) (s : State) : Res :=
  fireSlot s (.vapply pm ex m off) always fun c =>
    c.exit (.vapply m.toNat (c.tok 0) (target16 c.fl off))

/-- HCALL (R332): meeting-state inside a meeting, privilege with hypervisor privilege. -/
def execHcall (pm : Pm) (ex : BitVec 3) (off : BitVec 16) (s : State) : Res :=
  fireSlot s (.hcall pm ex off) always fun c => do
    c.outside
    if c.x.hyper then throw (flt .privilege)
    c.exit (.hcall (c.word 0) (target16 c.fl off))

end Sys2Proof.Machine
end

