-- ==== Sys2Proof/Machine/BlockDecode.lean ====
section
/-!
DEFINITION. Blocks in memory: fetching from shelves, the entry check, decoding and its refusals (R34, R75, R96, R198,
R203 to R210, R218, R228, R230, R231, R244, R289, R290, R307, R326).
-/
namespace Sys2Proof.Machine

/-! ### Fetching (R96, R119) -/

/-- Whether a tenant page lies in a shelf of the function. -/
def Func.pageInShelf (f : Func) (page : Nat) : Bool :=
  f.shelves.any fun s => decide (s.base ≤ page) && decide (page < s.base + s.pages)

/-- A byte fetched from a shelf: no shelf, or a failing stage, is a translation fault; a byte with an uncorrectable
error, or behind a CXL port that is down, is a data error that names it (R426, R124; the spec names no cause for a
fetch: DESIGN CHOICE, assumption log 61). -/
def State.fetchByte (s : State) (v acre va : Nat) : Except Flt Byte :=
  if !(s.fn v).pageInShelf (va / 65536) then .error (fltA .translation1 va)
  else
    match s.translate v acre va with
    | .stage1 a => .error (fltA .translation1 a)
    | .stage2 a i => .error (fltAB .translation2 a i)
    | .ok pa cxl ipa =>
      let l := Loc.of ipa pa cxl
      if s.memUp pa cxl && !s.poison.contains l.key then .ok (s.physGet v l) else .error (fltA .dataError va)

/-- `n` 32-bit words fetched from an address (R150). -/
def State.fetchWords (s : State) (v acre va : Nat) : Nat → Except Flt (List Word32)
  | 0 => .ok []
  | n + 1 =>
    match (upFrom va 4).mapM fun a => s.fetchByte v acre a with
    | .error e => .error e
    | .ok bs =>
      match s.fetchWords v acre (va + 4) n with
      | .error e => .error e
      | .ok ws => .ok (BitVec.ofNat 32 (leNat bs) :: ws)

/-! ### Header fields (R203, R204) -/

/-- Header word `i` as a number. -/
def hw (hdr : List Word32) (i : Nat) : Nat := (hdr.getD i 0).toNat
/-- Slot count. -/
def hdrSlots (hdr : List Word32) : Nat := bits (hw hdr 0) 27 21 + 1
/-- Number of memory-operation slots. -/
def hdrMems (hdr : List Word32) : Nat := bits (hw hdr 0) 20 15
/-- Number of WR slots. -/
def hdrWrs (hdr : List Word32) : Nat := bits (hw hdr 0) 14 9
/-- Block kind (R206). -/
def hdrKind (hdr : List Word32) : Nat := bits (hw hdr 0) 8 6
/-- Trip register of a repeating block. -/
def hdrTrip (hdr : List Word32) : Nat := bits (hw hdr 2) 31 27
/-- Expected environment word count of a closure entry. -/
def hdrEwords (hdr : List Word32) : Nat := bits (hw hdr 3) 31 27
/-- Repeating kinds. -/
def kindRepeats (k : Nat) : Bool := k == 1 || k == 5
/-- Gang kinds. -/
def kindGang (k : Nat) : Bool := k == 4 || k == 5

/-- The header fields within R203 and R204. -/
def headerOk (hdr : List Word32) : Bool :=
  let k := hdrKind hdr
  bits (hw hdr 0) 31 28 == 0xB && decide (hdrMems hdr ≤ 32) && decide (hdrWrs hdr ≤ 32) && decide (k < 6) &&
    bits (hw hdr 0) 5 0 == 0 && hw hdr 1 / 2 ^ hdrMems hdr == 0 &&
    (if kindRepeats k then bits (hw hdr 2) 23 0 == 0 else hw hdr 2 == 0) &&
    (if k == 2 then bits (hw hdr 3) 26 0 == 0 && decide (hdrEwords hdr ≤ 30) else hw hdr 3 == 0)

/-! ### The entry check (R206, R207) -/

/-- The ways of entering a block, with what the check compares. -/
inductive Way where
  | continue_
  | exit
  | closure (words : Nat)
  | handler
deriving DecidableEq, Repr

/-- Whether a kind may be entered in a way by a single activity or a gang (R34, R206, R89). -/
def kindAllows (hdr : List Word32) (w : Way) (gang : Bool) (addr : Nat) : Bool :=
  let k := hdrKind hdr
  match w with
  | .continue_ => decide (k < 6)
  | .exit => if gang then kindGang k else k == 0 || k == 1
  | .closure n => !gang && k == 2 && addr % 64 == 0 && hdrEwords hdr == n
  | .handler => !gang && k == 3

/-- The header of the block at an address after the check of R207; `code` is the way number of R361 (0 exit, 1 dispatch,
2 RESUME, 3 spawn). Every byte of the block must lie in a shelf (R96). -/
def State.enter (s : State) (v acre addr : Nat) (w : Way) (gang : Bool) (code : Nat) : Except Flt (List Word32) := do
  let hdr ← s.fetchWords v acre addr 4
  if bits (hw hdr 0) 31 28 ≠ 0xB ∨ !kindAllows hdr w gang addr then throw (fltAB .illegalEntry addr code)
  let last := addr + 15 + 4 * hdrSlots hdr
  match (upFrom (addr / 65536) (last / 65536 - addr / 65536 + 1)).find? fun p => !(s.fn v).pageInShelf p with
  | some p => throw (fltA .translation1 (p * 65536))
  | none => return hdr

/-! ### Slots (R228, R244) -/

/-- An execution of a block with nothing fired. -/
def newFlight (seq addr : Nat) (hdr words : List Word32) (time : Nat) : Flight :=
  ⟨seq, addr, hdr, words, words.map fun _ => ⟨[], .notYet, [], .none⟩, time⟩

/-- The opcode of a slot word. -/
def opcodeOf (w : Word32) : Nat := bits w.toNat 31 25

/-- The opcodes of forms L, S, VL and VS, and those that store (R218). -/
def memOpcodes : List Nat := [0x34, 0x35, 0x36, 0x37, 0x38, 0x39, 0x5C, 0x5D, 0x7A, 0x7B]
/-- See `memOpcodes`. -/
def storeOpcodes : List Nat := [0x35, 0x37, 0x38, 0x39, 0x5D, 0x7B]

/-- The arrangement of R218: each ID once, smask marking the stores, the counts as the header gives them. -/
def arrangementOk (hdr words : List Word32) : Bool :=
  let mems := words.filter fun w => memOpcodes.contains (opcodeOf w)
  let ids := mems.map fun w => bits w.toNat 21 17
  mems.length == hdrMems hdr && (upFrom 0 (hdrMems hdr)).all (fun i => ids.contains i) &&
    mems.all (fun w => bit (hw hdr 1) (bits w.toNat 21 17) == storeOpcodes.contains (opcodeOf w)) &&
    (words.filter fun w => opcodeOf w == 2).length == hdrWrs hdr

/-- What a vector instruction uses of its prefix (R198), by opcode: zero policy, round and saturate, accumulator, fourth
operand. -/
def prefixUse (op : Nat) : Bool × Bool × Bool × Bool :=
  if [0x70, 0x71, 0x72, 0x73, 0x79].contains op then (true, true, true, true)
  else if [0x74, 0x75, 0x76, 0x7C].contains op then (true, false, true, false)
  else if op = 0x7B then (false, false, false, false)
  else if op = 0x7E then (true, true, false, false)
  else (true, false, false, false)

/-- The opcode of slot `k`, 0 beyond the last slot. -/
def Flight.op (f : Flight) (k : Nat) : Nat := opcodeOf (f.words.getD k 0)

/-- The opcodes of the vector instructions (R311). -/
def vectorOp (op : Nat) : Bool := decide (0x70 ≤ op) && decide (op ≤ 0x7E)

/-- Whether the prefix in slot `k` is well placed and well used (R198): the opcode after it decides, whether or not the
other fields of that word decode (R244). -/
def prefixOk (f : Flight) (k : Nat) : Bool :=
  match f.words[k]?.bind decodePfx with
  | some p =>
    let u := prefixUse (f.op (k + 1))
    vectorOp (f.op (k + 1)) && (u.1 || !p.zp) && (u.2.1 || (p.rnd == .rne && !p.sat)) && (u.2.2.1 || !p.acc) &&
      (p.acc || (p.tile == 0 && p.frag == 0))
  | none => false

/-- The opcodes that use the left operand alone in every variant (R238). -/
def opsL : List Nat :=
  [0x02, 0x03, 0x07, 0x09, 0x12, 0x1A, 0x1B, 0x1F, 0x22, 0x25, 0x29, 0x31, 0x33, 0x34, 0x36, 0x3A, 0x3B,
   0x3C, 0x3D, 0x3E, 0x3F, 0x40, 0x41, 0x42, 0x43, 0x44, 0x46, 0x48, 0x4C, 0x4D, 0x52, 0x58, 0x5D, 0x5F,
   0x61, 0x63, 0x64, 0x66, 0x67, 0x69, 0x6A, 0x6C, 0x6D, 0x6E, 0x79, 0x7E]
/-- The opcodes that use the left and the right operand in every variant. -/
def opsLR : List Nat :=
  [0x10, 0x11, 0x13, 0x14, 0x15, 0x16, 0x17, 0x18, 0x19, 0x1C, 0x1D, 0x1E, 0x20, 0x21, 0x23, 0x28, 0x2A,
   0x2C, 0x2D, 0x2E, 0x30, 0x32, 0x35, 0x37, 0x38, 0x59, 0x5A, 0x70, 0x71, 0x72, 0x74, 0x75, 0x76]
/-- The opcodes that use three operands in every variant. -/
def opsLRX : List Nat :=
  [0x24, 0x26, 0x2F, 0x39, 0x55, 0x56, 0x73]

/-- The data operands that a word uses by its opcode and the field that selects its variant (R238), whether or not its
other fields decode. DESIGN CHOICE (assumption log 79): a selecting field with an unlisted value uses what any variant
uses, and a reserved opcode uses nothing. -/
def rawData (n : Nat) : List Opnd :=
  if opsL.contains (fOp n) then [.l]
  else if opsLR.contains (fOp n) then [.l, .r]
  else if opsLRX.contains (fOp n) then [.l, .r, .x]
  else
    match fOp n with
    | 0x4F => (if bit n 18 then [.r] else []) ++ (if bit n 19 then [.x] else [])
    | 0x77 => if n % 8 = VLog.not.code then [.l] else [.l, .r]
    | 0x78 => if bit n 6 then [.l, .r] else [.l]
    | 0x7A => (match fMode n with | 0 | 3 => [.l] | _ => [.l, .r])
    | 0x7B => if fMode n = 0 then [.l, .r] else [.l, .r, .x]
    | 0x7C => if n % 8 = VRedFn.dot.code then [.l, .r] else [.l]
    | 0x7D => if fT2 n / 64 = VPermFn.iota.code then [] else if fT2 n / 64 = VPermFn.perm.code then [.l, .r] else [.l]
    | _ => []

/-- Whether a word uses its predicate by its opcode and its field pm or ct (R210, R212, R238). -/
def rawPred (n : Nat) : Bool :=
  if [0x28, 0x29, 0x2A].contains (fOp n) then fPm n != 0
  else (fPm n == 1 || fPm n == 2) &&
    !([0x00, 0x01, 0x02, 0x0D, 0x0E, 0x0F, 0x27, 0x2B, 0x5B, 0x6F, 0x7F].contains (fOp n))

/-- The operands that a slot uses, its predicate included (R210); a prefix has its left operand where the instruction
after it takes a fourth operand, and a fragment read has no left operand (R201). The opcode and its variant decide, so
that a word refused for another field is judged as well (R244). -/
def usedOps (f : Flight) (k : Nat) : List Opnd :=
  match f.instr k with
  | some i => (match predReq i with | none => [] | some _ => [Opnd.p]) ++ f.needs k i
  | none =>
    let n := (f.words.getD k 0).toNat
    if fOp n = 0x7F then
      if vectorOp (f.op (k + 1)) && (prefixUse (f.op (k + 1))).2.2.2 then [.l] else []
    else
      (if rawPred n then [Opnd.p] else []) ++
        (match f.pfxOf k with
          | some p => if p.acc && vectorOp (fOp n) then (rawData n).filter (· != .l) else rawData n
          | none => rawData n)

/-- Targets of slot `k` (R210): below the count, not itself, an operand that the named slot uses. -/
def targetsOk (f : Flight) (k : Nat) (i : Instr) : Bool :=
  (tgts i).all fun t =>
    match t with
    | none => true
    | some g =>
      decide (g.slot.toNat < f.words.length) && g.slot.toNat != k && (usedOps f g.slot.toNat).contains g.opnd

/-- Every operand that slot `k` uses is named by some target (R210); a prefix's left operand need not be. -/
def operandsNamed (f : Flight) (k : Nat) : Bool :=
  match f.instr k with
  | none => true
  | some _ => (usedOps f k).all fun o => f.names k o

/-- Whether a word makes handle tokens (R75): CENV, CPUT, RD and XRD of class C, whether or not its other fields decode.
-/
def handleWord (w : Word32) : Bool :=
  let n := w.toNat
  let op := fOp n
  op == 0x59 || op == 0x5A || (op == 0x01 && fCls n == 3) || (op == 0x58 && fFn n % 4 == 3)

/-- The slots whose tokens are handles (R75): CENV, CPUT, RD and XRD of class C, and every MOV fed by one. -/
def handleSlots (f : Flight) : Nat → List Nat → List Nat
  | 0, hs => hs
  | n + 1, hs =>
    handleSlots f n ((upFrom 0 f.words.length).filter fun k => hs.contains k || handleWord (f.words.getD k 0) ||
      (f.op k == 0x03 && hs.any fun j => (f.tgtsOf j).contains (some ⟨BitVec.ofNat 7 k, .l⟩)))

/-- Whether a word may receive a handle token at its left operand (R75): MOV, CPUT, WR of class C, by its opcode. -/
def takesHandle (w : Word32) : Bool :=
  let n := w.toNat
  fOp n == 0x03 || fOp n == 0x5A || (fOp n == 0x02 && fCls n == 3)

/-- The conditions of R75 on slot `k`. -/
def handlesOk (f : Flight) (hs : List Nat) (k : Nat) : Bool :=
  (!hs.contains k ||
    match f.instr k with
    | none => true
    | some i => (tgts i).all fun t =>
        match t with
        | none => true
        | some g => g.opnd == .l && takesHandle (f.words.getD g.slot.toNat 0)) &&
  (match f.instr k with
    | some (.wr .c _) => (upFrom 0 f.words.length).all fun j =>
        !(f.tgtsOf j).contains (some ⟨BitVec.ofNat 7 k, .l⟩) || hs.contains j || f.op j == 0x04
    | _ => true)

/-- What two slots of one block may not both name (R230, R231, R289, R290, R307). DESIGN CHOICE (assumption log 84): the
spec does not say which of two such slots is the bad one; the model takes every one but the lowest. -/
def exclusiveKey : Instr → Option (Nat × Nat)
  | .wr cls r => some (match cls with | .s => 0 | .v => 1 | .m => 2 | .c => 3, r.toNat)
  | .cdrop c => some (3, c.toNat)
  | .swr _ n _ => some (4, n.toNat)
  | .bfmt _ b _ _ => some (5, b.toNat)
  | .palloc _ _ k _ => some (6, k.toNat)
  | .pfree _ k _ => some (6, k.toNat)
  | .lsplit _ k _ => some (6, k.toNat)
  | .lgive _ k _ => some (6, k.toNat)
  | .seal _ k _ => some (6, k.toNat)
  | .unseal _ _ k _ => some (6, k.toNat)
  | _ => none

/-- No lower slot names the same thing: the higher of two is the bad one (assumption log 84). -/
def exclusiveOk (f : Flight) (k : Nat) : Bool :=
  match (f.instr k).bind exclusiveKey with
  | none => true
  | some q => (upFrom 0 k).all fun j => (f.instr j).bind exclusiveKey != some q

/-- The instructions that gang blocks may not hold, and those that only gang blocks may (R34). -/
def kindOk (gang : Bool) : Instr → Bool
  | .unseal .. | .gang .. | .meet .. | .gather .. | .part .. | .apply .. | .vapply .. => !gang
  | .mfuse .. | .mwload .. | .mwswap .. | .mstream .. | .mstore .. | .mrel .. | .mwait .. | .mldacc .. | .split .. => gang
  | _ => true

/-- The instructions that decoding refuses without hypervisor privilege (R228, R326). -/
def needsHyper : Instr → Bool
  | .tlbinv .. | .scrub .. | .killq .. => true
  | _ => false

/-- Why slot `k` is bad, if it is. -/
def slotFault (f : Flight) (hs : List Nat) (hyper : Bool) (k : Nat) : Option Cause :=
  let w := f.words.getD k 0
  match f.instr k with
  | none => if (decodePfx w).isSome && prefixOk f k then none else some .illegalEncoding
  | some i =>
    if (k % 4 = 0 ∧ bits w.toNat 31 28 = 0xB) ∨ !targetsOk f k i ∨ !operandsNamed f k ∨ !handlesOk f hs k ∨
        !exclusiveOk f k ∨ !kindOk (kindGang (hdrKind f.hdr)) i then some .illegalEncoding
    else if needsHyper i && !hyper then some .privilege
    else none

/-- The refusal of a block at decoding (R228): the fault with its slot, 255 for the header. -/
def decodeFault (f : Flight) (hyper : Bool) : Option (Flt × Nat) :=
  if !headerOk f.hdr || !arrangementOk f.hdr f.words then some (fltA .illegalEncoding (hw f.hdr 0), 255)
  else
    let hs := handleSlots f f.words.length []
    (upFrom 0 f.words.length).findSome? fun k =>
      (slotFault f hs hyper k).map fun c =>
        (if c == .illegalEncoding then fltA c (f.words.getD k 0).toNat else flt c, k)

end Sys2Proof.Machine
end

