-- ==== Sys2Proof/Machine/FloatOps.lean ====
section
/-!
DEFINITION. Scalar floating point (R272 to R276) and the places of the %seed generator within a block (R159).
-/
namespace Sys2Proof.Machine

/-- How many result positions a slot has if it rounds stochastically (R159): one for a scalar instruction, one per
result lane for a vector instruction whose prefix has code 101b. -/
def rsPositions (p : Option Pfx) : Instr → Nat
  | .fadd _ _ rnd _ _ | .fsub _ _ rnd _ _ | .fmul _ _ rnd _ _ | .fma _ _ rnd _ _ | .fdiv _ _ rnd _ _
  | .fsqrt _ _ rnd _ _ => if rnd == .rs then 1 else 0
  | i =>
    match p with
    | none => 0
    | some q =>
      if q.rnd == .rs then
        (match i with
          | .vadd _ ty _ _ | .vsub _ ty _ _ | .vmul _ ty _ _ | .vfma _ ty _ _ | .vspec _ ty _ _ => ty.lanes
          | .vcvt _ _ dst _ _ => dst.lanes
          | _ => 0)
      else 0

/-- Positions of the slots below `k` (R159). -/
def Flight.rsBelow (f : Flight) (k : Nat) : Nat :=
  ((upFrom 0 k).map fun j => match f.instr j with | some i => rsPositions (f.pfxOf j) i | none => 0).sum

/-- The generator's value before a slot's first position (R159). -/
def Ctx.seed (c : Ctx) : Word := seedAdvance (c.fl.rsBelow c.k) c.x.seed

/-- The 32 generator bits of a slot's position `n` (R158). -/
def Ctx.rho (c : Ctx) (n : Nat) : Nat := seedRho (seedAdvance (n + 1) c.seed)

/-- A result rounded once and sent: FP32 in bits 31:0 or FP64 (R272). -/
def Ctx.float (c : Ctx) (f64 : Bool) (rnd : Rnd) (x : Num) : Except Flt FOut :=
  let f := if f64 then fp64 else fp32
  c.scalar (BitVec.ofNat 64 (f.round rnd false (c.rho 0) x))

/-- Operand `n` of a scalar float instruction. -/
def Ctx.num (c : Ctx) (f64 : Bool) (n : Nat) : Num := (if f64 then fp64 else fp32).read (c.word n).toNat

/-- FADD (R273). -/
def execFadd (pm : Pm) (f64 : Bool) (rnd : Rnd) (t1 t2 : Tgt) (s : State) : Res :=
  fireSlot s (.fadd pm f64 rnd t1 t2) always fun c => c.float f64 rnd (Num.add rnd (c.num f64 0) (c.num f64 1))
/-- FSUB (R273). -/
def execFsub (pm : Pm) (f64 : Bool) (rnd : Rnd) (t1 t2 : Tgt) (s : State) : Res :=
  fireSlot s (.fsub pm f64 rnd t1 t2) always fun c =>
    c.float f64 rnd (Num.add rnd (c.num f64 0) (c.num f64 1).neg)
/-- FMUL (R273). -/
def execFmul (pm : Pm) (f64 : Bool) (rnd : Rnd) (t1 t2 : Tgt) (s : State) : Res :=
  fireSlot s (.fmul pm f64 rnd t1 t2) always fun c => c.float f64 rnd ((c.num f64 0).mul (c.num f64 1))
/-- FMA (R273): one rounding. -/
def execFma (pm : Pm) (f64 : Bool) (rnd : Rnd) (t1 t2 : Tgt) (s : State) : Res :=
  fireSlot s (.fma pm f64 rnd t1 t2) always fun c =>
    c.float f64 rnd (Num.add rnd ((c.num f64 0).mul (c.num f64 1)) (c.num f64 2))
/-- FDIV (R273). -/
def execFdiv (pm : Pm) (f64 : Bool) (rnd : Rnd) (t1 t2 : Tgt) (s : State) : Res :=
  fireSlot s (.fdiv pm f64 rnd t1 t2) always fun c => c.float f64 rnd ((c.num f64 0).div (c.num f64 1))
/-- FSQRT (R274). -/
def execFsqrt (pm : Pm) (f64 : Bool) (rnd : Rnd) (t1 t2 : Tgt) (s : State) : Res :=
  fireSlot s (.fsqrt pm f64 rnd t1 t2) always fun c => c.float f64 rnd (c.num f64 0).sqrt
/-- FMM (R275): exact. -/
def execFmm (pm : Pm) (f64 max : Bool) (t1 t2 : Tgt) (s : State) : Res :=
  fireSlot s (.fmm pm f64 max t1 t2) always fun c =>
    c.float f64 .rne (if max then (c.num f64 0).max (c.num f64 1) else (c.num f64 0).min (c.num f64 1))

/-- A conversion of FCVT on the bits of its operand (R167, R168, R276). -/
def fcvtBits (k : CvtKind) (w : Word) : Word :=
  let n := w.toNat
  let cvt (f : FFmt) (x : Num) : Word := BitVec.ofNat 64 (f.round .rne false 0 x)
  let int (signed : Bool) (x : Num) : Word := BitVec.ofInt 64 (x.toIntClamp .rtz 0 signed 64)
  match k with
  | .f32f64 => cvt fp64 (fp32.read n)
  | .f64f32 => cvt fp32 (fp64.read n)
  | .i64f32 => cvt fp32 (Num.ofInt w.toInt)
  | .n64f32 => cvt fp32 (Num.ofInt n)
  | .i64f64 => cvt fp64 (Num.ofInt w.toInt)
  | .n64f64 => cvt fp64 (Num.ofInt n)
  | .f32i64 => int true (fp32.read n)
  | .f32n64 => int false (fp32.read n)
  | .f64i64 => int true (fp64.read n)
  | .f64n64 => int false (fp64.read n)
  | .f32f16 => cvt fp16 (fp32.read n)
  | .f16f32 => cvt fp32 (fp16.read n)
  | .f32bf16 => cvt bf16 (fp32.read n)
  | .bf16f32 => cvt fp32 (bf16.read n)

/-- FCVT (R276). -/
def execFcvt (pm : Pm) (kind : CvtKind) (t1 t2 : Tgt) (s : State) : Res :=
  fireSlot s (.fcvt pm kind t1 t2) always fun c => c.scalar (fcvtBits kind (c.word 0))

end Sys2Proof.Machine
end

