-- ==== Sys2Proof/Machine/Flits.lean ====
section
/-!
DEFINITION. Flits, the sending order of a link and the messages that are kept until they are acknowledged end to end
(R411, R412, R415).
-/
namespace Sys2Proof.Machine

/-! ### Flits (R411, R412) -/

/-- A 128-bit header: type, sender, destination, function, sequence number, length, last flit; its check code computed.
-/
def flitHeader (type src dst vf seq len : Nat) (last : Bool) : List Byte :=
  let h := type * 2 ^ 124 + src * 2 ^ 115 + dst * 2 ^ 106 + vf * 2 ^ 101 + seq * 2 ^ 77 + len * 2 ^ 72 +
    (if last then 2 ^ 71 else 0)
  let body := (leBytes 16 h).drop 2
  leBytes 2 (crc16 body) ++ body

/-- The 232 payload bytes of a flit. -/
def flitPayload (data : List Byte) : List Byte := data.take 232 ++ List.replicate (232 - (data.take 232).length) 0

/-- A whole flit: header, payload, trailer with its CRC-32. -/
def flitBytes (header data : List Byte) (lseq lack : Nat) : List Byte :=
  let body := header ++ flitPayload data
  body ++ leBytes 8 (lseq * 2 ^ 52 + lack * 2 ^ 40 + crc32 body)

/-- A field of a received flit's header. -/
def headerBits (flit : List Byte) (hi lo : Nat) : Nat := bits (leNat (flit.take 16)) hi lo

/-- Whether a header passes its check code. -/
def flitHeaderOk (flit : List Byte) : Bool := crc16 ((flit.take 16).drop 2) == leNat (flit.take 2)

/-- The flits of a kept message's data: 232 bytes each, one at least. -/
def flitChunks : Nat → List Byte → List (List Byte)
  | 0, d => [d]
  | k + 1, d => if d.length ≤ 232 then [d] else d.take 232 :: flitChunks k (d.drop 232)

/-! ### Sending on a link (R412, R413) -/

/-- The die of the I/O port of a link: 12 links on each. -/
def linkDie (n : Nat) : Nat := 4 + n / 12

/-- A link. -/
def State.link (s : State) (n : Nat) : Option Link := s.links[n]?

/-- Replaces a link. -/
def State.setLink (s : State) (n : Nat) (l : Link) : State := { s with links := s.links.set n l }

/-- Whether a link can send: up, not in a retrain or shed, room in the replay buffer. -/
def Link.open_ (l : Link) : Bool := l.up && !l.training && decide (l.buffer.length < 128)

/-- The rank of a type of message in a link's order of sending (R412). -/
def flitRank : Nat → Nat
  | 7 => 0
  | 2 | 3 | 8 => 1
  | 1 => 2
  | 4 | 5 | 6 => 3
  | 9 => 4
  | _ => 5

/-- Puts a flit behind the queued ones of its rank and of the ranks before it (R412). -/
def Link.enqueue (l : Link) (type : Nat) (header data : List Byte) : Link :=
  let before (f : Nat × List Byte × List Byte) : Bool := decide (flitRank f.1 ≤ flitRank type)
  { l with queue := l.queue.filter before ++ [(type, header, data)] ++ l.queue.filter fun f => !before f }

/-- Sends queued flits, at most `fuel` of them, while the link can send. -/
def State.drain (n : Nat) : Nat → State → State
  | 0, s => s
  | fuel + 1, s =>
    match s.link n with
    | none => s
    | some l =>
      match l.queue with
      | [] => s
      | (_, header, data) :: rest =>
        if !l.open_ then s
        else
          let f := flitBytes header data l.txNext ((l.rxNext + 4095) % 4096)
          let t : State := s.setLink n { l with
            txNext := (l.txNext + 1) % 4096, buffer := l.buffer ++ [(l.txNext, f)], queue := rest }
          State.drain n fuel { t with out := t.out ++ [.flit n l.txNext f] }

/-- Sends what a link has queued, in order, as far as it can. -/
def State.flush (s : State) (n : Nat) : State :=
  match s.link n with
  | none => s
  | some l => State.drain n l.queue.length s

/-- Hands a flit to a link: it waits in the link's queue until the link can send it. -/
def State.sendFlit (s : State) (n type : Nat) (header data : List Byte) : State :=
  match s.link n with
  | none => s
  | some l => if !l.up then s else State.flush (s.setLink n (l.enqueue type header data)) n

/-! ### Messages (R415) -/

/-- Hands the flits of a kept message to a link. -/
def State.sendKept (s : State) (n : Nat) (k : Kept) : State :=
  let cs := flitChunks (k.data.length / 232 + 1) k.data
  ((upFrom 0 cs.length).zip cs).foldl (fun (t : State) c => t.sendFlit n k.type
    (flitHeader k.type s.device k.dst k.fn k.seq (ceilDiv c.2.length 8) (c.1 + 1 == cs.length)) c.2) s

/-- The link over which a message is first sent: the first one that is up. -/
def State.firstLink (s : State) : Option Nat :=
  (upFrom 0 s.links.length).find? fun n => match s.link n with | some l => l.up | none => false

/-- Sends a message and keeps it until its destination acknowledges it (R415); while no link is up it waits. -/
def State.keepMsg (s : State) (dst type v : Nat) (data : List Byte) : State :=
  let seq := (assocGet dst s.e2eNext).getD 0
  let k : Kept := ⟨dst, seq, type, v, s.time, s.firstLink, data⟩
  let t : State := { s with
    kept := s.kept ++ [k]
    e2eNext := assocSet dst ((seq + 1) % 2 ^ 24) s.e2eNext }
  match k.link with
  | none => t
  | some n => t.sendKept n k

end Sys2Proof.Machine
end

