-- ==== Sys2Proof/Machine/Special.lean ====
section
/-!
DEFINITION. The special functions of VSPEC (R176, R177, R322). The FP32 result is the exact value rounded RNE. The
transcendental functions are evaluated by fixed-point series whose error is below 2^-150 (2^-80 for erf), and the value so
found is rounded. The exact value of no FP32 input lies that close to a rounding boundary (assumption log 22), so the
rounding is that of the exact value.
-/
namespace Sys2Proof.Machine

/-- Fixed-point one: 2^200. -/
abbrev fxOne : Int := 2 ^ 200

/-- Product of two fixed-point numbers, rounded down. -/
def fxMul (a b : Int) : Int := a * b / fxOne

/-- A nonnegative or negative exact fraction as a fixed-point number, rounded down. -/
def fxOf (neg : Bool) (n d : Nat) : Int :=
  let q : Int := (n * 2 ^ 200 / d : Nat)
  if neg then -q else q

/-- `1 + x/1 (1 + x/2 (1 + … ))` with `k` terms: the exponential series, for small `x`. -/
def fxExpAux : Nat → Nat → Int → Int
  | 0, _, _ => fxOne
  | k + 1, j, x => fxOne + fxMul x (fxExpAux k (j + 1) x) / (j : Int)

/-- The exponential of a fixed-point number of magnitude at most one. -/
def fxExp (x : Int) : Int := fxExpAux 60 1 x

/-- The sum of `z^(2j+1) / (2j+1)`: the inverse hyperbolic tangent of `z`, with `k` terms. -/
def fxAtanhAux : Nat → Nat → Int → Int → Int
  | 0, _, _, _ => 0
  | k + 1, j, p, z2 => p / (j : Int) + fxAtanhAux k (j + 2) (fxMul p z2) z2

/-- The inverse hyperbolic tangent of a fixed-point number of magnitude at most 1/3. -/
def fxAtanh (z : Int) : Int := fxAtanhAux 80 1 z (fxMul z z)

/-- The natural logarithm of 2. -/
def fxLn2 : Int := 2 * fxAtanh (fxOne / 3)

/-- The natural logarithm of a fixed-point number between 1 and 2. -/
def fxLn (m : Int) : Int := 2 * fxAtanh ((m - fxOne) * fxOne / (m + fxOne))

/-- The sum `Σ (-1)^k x^(2k+1) / (k! (2k+1))` of the error function. -/
def fxErfAux : Nat → Nat → Int → Int → Int
  | 0, _, _, _ => 0
  | f + 1, k, p, x2 => p / (2 * k + 1 : Int) - fxErfAux f (k + 1) (fxMul p x2 / ((k : Int) + 1)) x2

/-- `4 (4 atan(1/5)) − 4 atan(1/239)`: the arc tangent series of `1/q`. -/
def fxAtanInv : Nat → Nat → Int → Int → Int
  | 0, _, _, _ => 0
  | f + 1, j, p, q2 => p / (j : Int) - fxAtanInv f (j + 2) (p / q2) q2

/-- The constant π. -/
def fxPi : Int := 16 * fxAtanInv 100 1 (fxOne / 5) 25 - 4 * fxAtanInv 40 1 (fxOne / 239) (239 * 239)

/-- Square root of a fixed-point number. -/
def fxSqrt (x : Int) : Int := (isqrt (x.toNat * 2 ^ 200) : Int)

/-- The rounding RNE to FP32 of `x · 2^e`, `x` in fixed point. -/
def fxRound (x : Int) (e : Int) : Nat :=
  let q := scale2 x.natAbs (2 ^ 200) e
  fp32.round .rne false 0 (.fin (x < 0) q.1 q.2)

/-- exp2 of a finite FP32 value (R176). Outside −160 to 160 the result is decided by the range alone. -/
def specExp2 (neg : Bool) (n d : Nat) : Nat :=
  if n == 0 then 0x3F800000
  else if n ≥ 160 * d then (if neg then 0 else 0x7F800000)
  else
    let q : Int := (n / d : Nat)
    let fl : Int := if neg then (if n % d == 0 then -q else -q - 1) else q
    let fr := fxOf neg n d - fl * fxOne
    if n % d == 0 then (fp32.round .rne false 0 (let r := scale2 1 1 fl; .fin false r.1 r.2))
    else if n * 2 ^ 60 < d then 0x3F800000
    else fxRound (fxExp (fxMul fr fxLn2)) fl

/-- log2 of a positive finite FP32 value (R176). -/
def specLog2 (n d : Nat) : Nat :=
  let k := floorLog2 n d
  let (a, b) := scale2 n d (-k)
  if a == b then (fp32.round .rne false 0 (Num.ofInt k))
  else
    let m : Int := (a * 2 ^ 200 / b : Nat)
    let l := fxLn m * fxOne / fxLn2
    fxRound (k * fxOne + l) 0

/-- `e^(-2|x|)`-like argument reduction: the exponential of `-y` for a nonnegative fixed-point `y` below 128. -/
def fxExpNeg (y : Int) : Int :=
  let k := y / fxLn2
  let r := y - k * fxLn2
  fxExp (-r) / 2 ^ k.toNat

/-- tanh of a finite FP32 value (R176): tiny values round to themselves, large ones to ±1. -/
def specTanh (neg : Bool) (n d : Nat) (inBits : Nat) : Nat :=
  let s := fp32.sign neg
  if n == 0 then s
  else if n * 2 ^ 14 < d then inBits
  else if n ≥ 20 * d then 0x3F800000 + s
  else
    let x := fxOf false n d
    let e := fxExpNeg (2 * x)
    fxRound ((fxOne - e) * fxOne / (fxOne + e)) 0 + s

/-- sigmoid of a finite FP32 value (R176). -/
def specSigmoid (neg : Bool) (n d : Nat) : Nat :=
  if n ≥ 110 * d then (if neg then 0 else 0x3F800000)
  else if n * 2 ^ 40 < d then 0x3F000000
  else
    let x := fxOf false n d
    let e := fxExpNeg x
    if neg then
      -- e / (1 + e), scaled up by the power of two that fxExpNeg shifted out
      let k := x / fxLn2
      let m := fxExp (-(x - k * fxLn2))
      fxRound (m * fxOne / (fxOne + e)) (-k)
    else fxRound (fxOne * fxOne / (fxOne + e)) 0

/-- erf of a finite FP32 value (R176). -/
def specErf (neg : Bool) (n d : Nat) : Nat :=
  let s := fp32.sign neg
  if n == 0 then s
  else if n ≥ 6 * d then 0x3F800000 + s
  else
    let (k, a, b) : Int × Nat × Nat :=
      if n < d then (let k := floorLog2 n d; let q := scale2 n d (-k); (k, q.1, q.2)) else (0, n, d)
    -- erf x = (2/√π) x Σ (−1)^j x^(2j) / (j! (2j+1)), the leading x scaled to [1, 2)
    let x := fxOf false n d
    let lead : Int := (a * 2 ^ 200 / b : Nat)
    let sum := fxErfAux 200 0 fxOne (fxMul x x)
    fxRound (2 * fxMul lead sum * fxOne / fxSqrt fxPi) k + s

/-- The FP32 result of a special function other than sqrt (R176, R177). -/
def specFp32 (f : Spec) (bits : Nat) : Nat :=
  let x := fp32.read bits
  let rne (y : Num) := fp32.round .rne false 0 y
  match f, x with
  | _, .nan => fp32.nan
  | .exp2, .inf s => if s then 0 else fp32.infBits false
  | .exp2, .fin s n d => specExp2 s n d
  | .log2, .inf s => if s then fp32.nan else fp32.infBits false
  | .log2, .fin s n d =>
    if n == 0 then fp32.infBits true else if s then fp32.nan else specLog2 n d
  | .rcp, y => rne (Num.div (Num.ofInt 1) y)
  | .rsqrt, .inf s => if s then fp32.nan else 0
  | .rsqrt, .fin s n d =>
    if n == 0 then fp32.infBits s else if s then fp32.nan
    else rne (Num.sqrt (.fin false d n))
  | .sqrt, y => rne y.sqrt
  | .tanh, .inf s => 0x3F800000 + fp32.sign s
  | .tanh, .fin s n d => specTanh s n d bits
  | .sigmoid, .inf s => if s then 0 else 0x3F800000
  | .sigmoid, .fin s n d => specSigmoid s n d
  | .erf, .inf s => 0x3F800000 + fp32.sign s
  | .erf, .fin s n d => specErf s n d

/-- A lane of VSPEC (R176, R322): sqrt rounds once to the element type by the rounding code; every other function
gives its FP32 result, converted RNE for FP16 and BF16; saturate turns an overflow into the largest finite value. -/
def specLane (f : Spec) (ty : ETy) (rnd : Rnd) (sat : Bool) (rho bits : Nat) : Nat :=
  let fmt := ty.ffmt
  let x := fmt.read bits
  match f with
  | .sqrt => fmt.round rnd sat rho x.sqrt
  | _ =>
    let r := specFp32 f (fp32.round .rne false 0 x)
    let exactInf := match f, x with
      | .exp2, .inf _ | .log2, .inf _ | .log2, .fin _ _ _ | .rcp, .fin _ 0 _ | .rsqrt, .fin _ 0 _ => true
      | _, _ => false
    let y := fp32.read r
    match y with
    | .inf s => if sat && !exactInf then fmt.maxFin + fmt.sign s else fmt.infBits s
    | _ => fmt.round .rne sat 0 y

end Sys2Proof.Machine
end

