-- ==== Sys2Proof/Machine/Vector.lean ====
section
/-!
DEFINITION. The vector unit (R197 to R202, R311 to R322): lanes, prefix, masks, lane nulls, elementwise arithmetic,
comparison, logic, shifts, conversion, vector loads and stores, reductions, permutations and special functions.
-/
namespace Sys2Proof.Machine

/-! ### Lanes (R197, R311) -/

/-- Lane `k` of a vector. -/
def lane (ty : ETy) (v : Vec) (k : Nat) : Nat := v.toNat / 2 ^ (ty.width * k) % 2 ^ ty.width

/-- The lanes of a vector. -/
def lanesOf (ty : ETy) (v : Vec) : List Nat := (upFrom 0 ty.lanes).map (lane ty v)

/-- Packs lanes of `w` bits into a number, the first lowest. -/
def packLanes (w : Nat) (ls : List Nat) : Nat := ls.foldr (fun a n => a % 2 ^ w + 2 ^ w * n) 0

/-- A vector of lanes, `none` marking a lane null (R209); a null lane holds zero. -/
def ofLanes (ty : ETy) (ls : List (Option Nat)) : Token :=
  .vector (BitVec.ofNat 512 (packLanes ty.width (ls.map fun o => o.getD 0)))
    (BitVec.ofNat 64 (packLanes (ty.width / 8)
      (ls.map fun o => match o with | some _ => 0 | none => 2 ^ (ty.width / 8) - 1)))

/-- Whether lane `k` of a token carries a lane null: some byte of it is marked. -/
def nullLane (ty : ETy) (n : BitVec 64) (k : Nat) : Bool :=
  n.toNat / 2 ^ (ty.width / 8 * k) % 2 ^ (ty.width / 8) != 0

/-! ### The prefix (R198 to R202) -/

/-- Bit `k` of the mask register; M0 and no prefix select every lane (R198, R229). -/
def Ctx.maskBit (c : Ctx) (k : Nat) : Bool :=
  match c.pfx with
  | none => true
  | some p => p.mask == 0 || (c.x.m.toList.getD p.mask.toNat 0).getLsbD k

/-- The mask register that an instruction uses holds no detected error (R362). -/
def Ctx.maskOk (c : Ctx) : Except Flt Unit :=
  match c.pfx with
  | none => .ok ()
  | some p => if p.mask == 0 then .ok () else c.x.regOk .m p.mask.toNat

/-- Zero policy. -/
def Ctx.zp (c : Ctx) : Bool := match c.pfx with | some p => p.zp | none => false
/-- Saturate. -/
def Ctx.sat (c : Ctx) : Bool := match c.pfx with | some p => p.sat | none => false
/-- Rounding code: RNE without a prefix (R156). -/
def Ctx.rnd (c : Ctx) : Rnd := match c.pfx with | some p => p.rnd | none => .rne

/-- What a non-participating lane of a vector result gives (R199). -/
def Ctx.skip (c : Ctx) : Option Nat := if c.zp then some 0 else none

/-- The member and quadrant geometry of R32 and R180: member m = 4q + c. -/
def memberOf (x : Act) : Nat := match x.gang with | some (_, m) => m | none => 0

/-- kq of a quadrant in a fusion mode (R179). -/
def kqOf (mode : Fuse) (q : Nat) : Nat := match mode with | .kfuse | .full => q / 2 | _ => 0
/-- nq of a quadrant in a fusion mode (R179). -/
def nqOf (mode : Fuse) (q : Nat) : Nat := match mode with | .nfuse | .full => q % 2 | _ => 0

/-- Sixteen lanes of an accumulator fragment (R201): row f / 4, columns 16 (f mod 4) and up, of the member's own
physical tile; none where the type does not fit the tile or the activity is no gang member. -/
def Ctx.fragment (c : Ctx) (p : Pfx) (ty : ETy) : Option Vec :=
  match c.s.gangOf c.x with
  | none => none
  | some g =>
    let q := memberOf c.x / 4
    let t := ((g.tiles.getD q []).getD p.tile.toNat ⟨.none, false, []⟩)
    let zero := kqOf g.mode q == 1 || !t.live || t.ty == .none
    let fits := match ty with
      | .f32 => zero || t.ty == .fp32
      | .i32 | .n32 => zero || t.ty == .int32
      | _ => false
    if !fits then none
    else if zero then some 0
    else
      let f := p.frag.toNat
      some (BitVec.ofNat 512 (packLanes 32 ((upFrom 0 16).map fun k =>
        ((assocGet (64 * (f / 4) + 16 * (f % 4) + k) t.elems).getD 0).toNat)))

/-- The tiles a matrix command writes, reads or releases, in whichever quadrants (R192). -/
def MCmd.tiles (m : MCmd) : List Nat :=
  match m.kind with
  | .mstream .. => m.quads.flatten.eraseDups
  | .mstore t | .mldacc _ t => [t]
  | .mrel mask => (upFrom 0 8).filter fun n => mask.testBit n
  | .mfuse _ => upFrom 0 8
  | _ => []

/-- Whether a command writes or releases a tile: MSTORE only reads it. -/
def MCmd.writes (m : MCmd) (t : Nat) : Bool :=
  match m.kind with | .mstore _ => false | _ => m.tiles.contains t

/-- The failed, unreported command that an instruction naming a tile depends on (R184, R367). -/
def Gang.failedOn (g : Gang) (t : Nat → Bool) : Option MCmd :=
  g.cmds.find? fun m => m.failed && !m.reported && (upFrom 0 8).any fun n => t n && m.writes n

/-- The detail words that name a failed command (R361). -/
def MCmd.report (m : MCmd) (member : Nat) : Flt :=
  fltAB .shape m.block ((m.offs.getD member 0) * 256 + m.slot)

/-- Whether elements of tile `t` of a quadrant hold a detected error that a member of the quadrant carries. -/
def State.tileBad (s : State) (g : Gang) (q t : Nat) (hit : Nat → Nat → Bool) : Option (Nat × Nat) :=
  (upFrom (4 * q) 4).findSome? fun m => (s.act ⟨g.fn, g.members.getD m 0⟩).bind fun y => y.bad.findSome? fun b => match b with
    | .tile _ n row col => if n == t && hit row col then some (row, col) else none
    | _ => none

/-- The first bad element of an accumulator fragment: row f / 4, columns 16 (f mod 4) and up (R201, R362). -/
def Ctx.badFragment (c : Ctx) (p : Pfx) : Option (Nat × Nat) :=
  match c.s.gangOf c.x with
  | none => none
  | some g =>
    let f := p.frag.toNat
    if kqOf g.mode (memberOf c.x / 4) == 1 then none
    else c.s.tileBad g (memberOf c.x / 4) p.tile.toNat fun row col => row == f / 4 && col / 16 == f % 4

/-- A fragment read waits for every earlier command that writes or releases its tile (R202). -/
def fragQuiet (c : Ctx) : Bool :=
  match c.pfx with
  | none => true
  | some p => !p.acc ||
    (match c.s.gangOf c.x with
      | none => true
      | some g => g.cmds.all fun m => m.done || m.failed || !m.writes p.tile.toNat)

/-- The vector operands of an elementwise instruction: the fragment, if one is read, stands for the left operand
(R201). The fourth operand is not among them. DESIGN CHOICE (assumption log 112): a detected error in the fragment is
raised before the report of a failed command that names its tile. -/
def Ctx.vecs (c : Ctx) (ty : ETy) : Except Flt (List Token) :=
  c.maskOk.bind fun _ =>
  match c.pfx with
  | some p =>
    if p.acc then
      match c.badFragment p, (c.s.gangOf c.x).bind fun g => g.failedOn fun n => n == p.tile.toNat with
      | some e, _ => .error (fltA .dataError (4 * (64 * e.1 + e.2)))
      | none, some m => .error (m.report (memberOf c.x))
      | none, none =>
        match c.fragment p ty with
        | none => .error (flt .shape)
        | some v => .ok (.vector v 0 :: c.toks)
    else .ok c.toks
  | none => .ok c.toks

/-- The fourth operand (R200): FP32 for float types, a signed integer for integer types. -/
def Ctx.fourth (c : Ctx) (isInt : Bool) : Option Num :=
  if c.fl.fourth c.k then
    let w := (c.toks.getLastD .null).word
    some (if isInt then Num.ofInt w.toInt else fp32.read w.toNat)
  else none

/-- Whether lane `k` participates in an elementwise instruction over `n` operands (R199). -/
def Ctx.part (c : Ctx) (ty : ETy) (ops : List Token) (k : Nat) : Bool :=
  c.maskBit k && ops.all fun t => !nullLane ty t.nulls k

/-- The value of a lane: a signed or unsigned integer or a float (R197). -/
def laneNum (ty : ETy) (n : Nat) : Num :=
  if ty.isInt then Num.ofInt (bitsInt ty.isSigned ty.width n) else ty.ffmt.read n

/-- Integer result of a lane: clamped when saturate is set, else wrapped (R161, R197). -/
def intLane (ty : ETy) (sat : Bool) (i : Int) : Nat :=
  let r := intRange ty.isSigned ty.width
  intBits ty.width (if sat then clampInt r.1 r.2 i else i)

/-- The exact integer of a value known to be one. -/
def Num.int : Num → Int
  | .fin s n d => if s then -((n / d : Nat) : Int) else (n / d : Nat)
  | _ => 0

/-- An elementwise result (R313): multiplied by the fourth operand, then rounded, clamped or wrapped. -/
def Ctx.finish (c : Ctx) (ty : ETy) (k : Nat) (q : Option Num) (e : Num) : Nat :=
  let e := match q with | some m => e.mul m | none => e
  if ty.isInt then intLane ty c.sat e.int else ty.ffmt.round c.rnd c.sat (c.rho k) e

/-- The shared shape of VADD to VMAX (R313): `f` gives the lane result from the lanes' values. -/
def Ctx.elementwise (c : Ctx) (ty : ETy) (n : Nat) (round : Bool) (f : List Num → Num) : Except Flt FOut := do
  let vs ← c.vecs ty
  let ops := vs.take n
  let q := c.fourth ty.isInt
  return c.send (ofLanes ty ((upFrom 0 ty.lanes).map fun k =>
    if c.part ty ops k then
      let e := f (ops.map fun t => laneNum ty (lane ty t.vec k))
      some (if round then c.finish ty k q e
        else if ty.isInt then intBits ty.width e.int else ty.ffmt.round .rne false 0 e)
    else c.skip))

/-- Sum of the first two lanes, in the instruction's rounding direction for a zero sum (R154). -/
def num2 (f : Num → Num → Num) (l : List Num) : Num := f (l.getD 0 .nan) (l.getD 1 .nan)

/-- VADD (R313). -/
def execVadd (pm : Pm) (ty : ETy) (t1 t2 : Tgt) (s : State) : Res :=
  fireSlot s (.vadd pm ty t1 t2) fragQuiet fun c => c.elementwise ty 2 true (num2 (Num.add c.rnd))
/-- VSUB (R313). -/
def execVsub (pm : Pm) (ty : ETy) (t1 t2 : Tgt) (s : State) : Res :=
  fireSlot s (.vsub pm ty t1 t2) fragQuiet fun c => c.elementwise ty 2 true (num2 fun a b => Num.add c.rnd a b.neg)
/-- VMUL (R313). -/
def execVmul (pm : Pm) (ty : ETy) (t1 t2 : Tgt) (s : State) : Res :=
  fireSlot s (.vmul pm ty t1 t2) fragQuiet fun c => c.elementwise ty 2 true (num2 Num.mul)
/-- VFMA (R313): no rounding of the product. -/
def execVfma (pm : Pm) (ty : ETy) (t1 t2 : Tgt) (s : State) : Res :=
  fireSlot s (.vfma pm ty t1 t2) fragQuiet fun c =>
    c.elementwise ty 3 true fun l => Num.add c.rnd ((l.getD 0 .nan).mul (l.getD 1 .nan)) (l.getD 2 .nan)
/-- VMIN (R313, R155). -/
def execVmin (pm : Pm) (ty : ETy) (t1 t2 : Tgt) (s : State) : Res :=
  fireSlot s (.vmin pm ty t1 t2) fragQuiet fun c => c.elementwise ty 2 false (num2 Num.min)
/-- VMAX (R313, R155). -/
def execVmax (pm : Pm) (ty : ETy) (t1 t2 : Tgt) (s : State) : Res :=
  fireSlot s (.vmax pm ty t1 t2) fragQuiet fun c => c.elementwise ty 2 false (num2 Num.max)

/-! ### Compare, logic, shift (R314 to R316) -/

/-- A mask token: bit k from lane k. -/
def maskWord (bs : List Bool) : Word := BitVec.ofNat 64 (maskOf bs)

/-- VCMP (R314). -/
def execVcmp (pm : Pm) (ty : ETy) (cond : VCond) (t1 : Tgt) (s : State) : Res :=
  fireSlot s (.vcmp pm ty cond t1) fragQuiet fun c => do
    let vs ← c.vecs ty
    let l := vs.getD 0 .null
    let r := vs.getD 1 .null
    c.scalar (maskWord ((upFrom 0 ty.lanes).map fun k =>
      c.part ty [l, r] k &&
        (let a := laneNum ty (lane ty l.vec k)
         let b := laneNum ty (lane ty r.vec k)
         if ty.isInt then vcondInt cond a.int b.int else vcondFloat cond (a.cmp b))))

/-- Bitwise function of VLOGIC on a lane (R315). -/
def vlogicBits (fn : VLog) (w l r : Nat) : Nat :=
  match fn with
  | .and => l &&& r
  | .or => l ||| r
  | .xor => l ^^^ r
  | .andn => l &&& (r ^^^ (2 ^ w - 1))
  | .not => l ^^^ (2 ^ w - 1)
  | .select => l

/-- VLOGIC (R315). -/
def execVlogic (pm : Pm) (ty : ETy) (fn : VLog) (t1 : Tgt) (s : State) : Res :=
  fireSlot s (.vlogic pm ty fn t1) always fun c =>
    let l := c.tok 0
    let r := c.toks.getD 1 (.scalar 0)
    c.maskOk.map fun _ => c.send (ofLanes ty ((upFrom 0 ty.lanes).map fun k =>
      if fn == .select then
        let t := if c.maskBit k then l else r
        if nullLane ty t.nulls k then c.skip else some (lane ty t.vec k)
      else if c.part ty [l, r] k then some (vlogicBits fn ty.width (lane ty l.vec k) (lane ty r.vec k))
      else c.skip))

/-- A lane of VSHIFT (R316). -/
def vshiftLane (kind : ShKind) (w a n : Nat) : Nat :=
  match kind with
  | .shl => if n < w then a * 2 ^ n % 2 ^ w else 0
  | .shr => if n < w then a / 2 ^ n else 0
  | .sha =>
    let i := bitsInt true w a
    if n < w then intBits w (i / 2 ^ n) else if i < 0 then 2 ^ w - 1 else 0

/-- VSHIFT (R316). -/
def execVshift (pm : Pm) (ty : ETy) (kind : ShKind) (var : Bool) (amount : BitVec 6) (t1 : Tgt) (s : State) : Res :=
  fireSlot s (.vshift pm ty kind var amount t1) always fun c =>
    let l := c.tok 0
    let r := c.toks.getD 1 (.scalar 0)
    c.maskOk.map fun _ => c.send (ofLanes ty ((upFrom 0 ty.lanes).map fun k =>
      if c.part ty [l, r] k then
        some (vshiftLane kind ty.width (lane ty l.vec k) (if var then lane ty r.vec k else amount.toNat))
      else c.skip))

/-! ### Conversion (R169, R170, R317) -/

/-- One element converted (R170). -/
def cvtElem (src dst : ETy) (rnd : Rnd) (sat : Bool) (rho : Nat) (x : Num) : Nat :=
  if dst.isInt then
    if src.isInt then intLane dst sat x.int
    else intBits dst.width (x.toIntClamp rnd rho dst.isSigned dst.width)
  else dst.ffmt.round rnd sat rho x

/-- VCVT (R317): the mask and the lane nulls are those of the destination lanes and their sources. DESIGN
CHOICE (assumption log 71): an integer 0 times a negative fourth operand is −0 in a float destination. -/
def execVcvt (pm : Pm) (src dst : ETy) (part : BitVec 2) (t1 : Tgt) (s : State) : Res :=
  fireSlot s (.vcvt pm src dst part t1) fragQuiet fun c => do
    let vs ← c.vecs src
    let l := vs.getD 0 .null
    let q := c.fourth src.isInt
    let rnd := if c.pfx.isNone && dst.isInt && !src.isInt then Rnd.rtz else c.rnd
    let n := dst.lanes
    let m := src.lanes
    let p := part.toNat
    return c.send (ofLanes dst ((upFrom 0 n).map fun k =>
      let from_ : Option Nat := if m < n then (if p * m ≤ k ∧ k < p * m + m then some (k - p * m) else none)
        else if n < m then some (p * n + k) else some k
      match from_ with
      | none => some 0
      | some i =>
        if c.maskBit k && !nullLane src l.nulls i then
          let e := laneNum src (lane src l.vec i)
          let e := match q with | some y => e.mul y | none => e
          some (cvtElem src dst rnd c.sat (c.rho k) e)
        else c.skip))

/-! ### Vector loads and stores (R318, R319) -/

/-- Where a lane of VLD or VST goes: a byte address, or an element index of an INT4 or Q4N bank. -/
def vAddr (mode : VMode) (ty : ETy) (es : Nat) (l : Word) (idx : Token) (k : Nat) : Nat :=
  let w : Word := match mode with
    | .unit => l + BitVec.ofNat 64 (k * es)
    | .strided => l + BitVec.ofInt 64 ((k : Int) * idx.word.toInt)
    | .indexed => l + BitVec.ofNat 64 (lane ty idx.vec k * es)
    | .bcast => l
  w.toNat

/-- Whether an address lies where its bank acts as raw, is nibble-coded, or has plain elements: 0 raw, 9 Q4N code
region, 10 INT4, else the format. DESIGN CHOICE (assumption log 93): the offsets 20,480 and above of a Q4N bank are raw
in every mode, so that the rows of R319 for a Q4N bank do not hold for them. -/
def Act.effFmt (x : Act) (a : Nat) : Nat :=
  let f := x.fmt (a / Config.bankSize)
  if f = 9 ∧ a % Config.bankSize ≥ 20480 then 0 else f

/-- The byte range that a lane reaches, as (offset, length), where its bank has effective format `f` (R318). In an INT4
bank and in the code region of a Q4N bank the lane's element index is 2 × l + k within the carrel. -/
def vRange (f : Nat) (mode : VMode) (ty : ETy) (l : Word) (idx : Token) (k : Nat) : Nat × Nat :=
  if f = 9 ∨ f = 10 then
    (match mode with
      | .unit => ((l + BitVec.ofNat 64 (k / 2)).toNat, 1)
      | .bcast => (l.toNat, 1)
      | _ => (vAddr mode ty 1 l idx k, 1))
  else
    let es := if f = 0 then ty.width / 8 else fmtSize f
    (vAddr mode ty es l idx k, es)

/-- The effective format of the bank that a lane reaches (R318): a format under whose element size the lane reaches a
bank of that very format, that of the bank at l before others; where none is, the format of the bank at l, raw when l
lies in no held bank. -/
def Ctx.laneFmt (c : Ctx) (mode : VMode) (ty : ETy) (l : Word) (idx : Token) (k : Nat) : Nat :=
  let held (a : Nat) : Bool := decide (a < c.x.banks * Config.bankSize)
  let base := if held l.toNat then c.x.effFmt l.toNat else 0
  let fits (f : Nat) : Bool := held (vRange f mode ty l idx k).1 && c.x.effFmt (vRange f mode ty l idx k).1 == f
  ((base :: upFrom 0 11).find? fits).getD base

/-- The checks of R319 for the participating lanes, each check over all lanes before the next. The result is the
effective format that the lanes share. -/
def Ctx.vCheck (c : Ctx) (store : Bool) (ty : ETy) (mode : VMode) (l : Word) (idx : Token) (ks : List Nat) :
    Except Flt Nat := do
  c.maskOk
  let f := match ks with | k :: _ => c.laneFmt mode ty l idx k | [] => 0
  let rs := ks.map fun k => vRange (c.laneFmt mode ty l idx k) mode ty l idx k
  match rs.find? fun r => !c.x.reachRange r.1 r.2 with
  | some r => throw (fltA .carrelRights r.1)
  | none => pure ()
  let bad := rs.find? fun r => c.x.effFmt r.1 != f || c.x.fmt (r.1 / Config.bankSize) != c.x.fmt ((rs.headD r).1 / Config.bankSize)
  let code := f == 9 || f == 10
  let wrong := bad.isSome || (code && (mode == .strided || mode == .indexed)) || (store && f == 9) ||
    (ty == .q4n && f != 9) || (f == 9 && ty != .q4n && ty != .f32)
  if wrong && !rs.isEmpty then
    let a := ((bad.getD (rs.headD (0, 0))).1)
    throw (fltA .bankFormat (a / Config.bankSize + 16 * c.x.fmt (a / Config.bankSize)))
  match rs.find? fun r => !code && r.1 % r.2 != 0 with
  | some r => throw (fltA .misalignment r.1)
  | none => pure ()
  if code && mode == .unit && l.toNat % (ty.lanes / 2) ≠ 0 && !rs.isEmpty then throw (fltA .misalignment l.toNat)
  return f

/-- A lane of VLD (R99, R163, R319). -/
def Ctx.vldLane (c : Ctx) (lsid f : Nat) (mode : VMode) (ty : ETy) (l : Word) (idx : Token) (k : Nat) :
    Except Flt (Nat × List (Nat × Byte)) :=
  let r := vRange f mode ty l idx k
  let odd := match mode with | .unit => k % 2 == 1 | _ => false
  let b0 := r.1 / Config.bankSize * Config.bankSize
  let code := 2 * (r.1 - b0) + if odd then 1 else 0
  let rd := if f = 9 then
      [q4nCodeByte code, q4nBOff code, q4nSOff code, q4nSOff code + 1, q4nSOff code + 2, q4nSOff code + 3].map (b0 + ·)
    else upFrom r.1 r.2
  match c.badByte false lsid rd with
  | some b => .error (fltA .dataError b)
  | none =>
    let reads := rd.map fun o => (o, c.byte false lsid o)
    if f = 9 then
      let get (o : Nat) : Byte := c.byte false lsid (b0 + o)
      let n := (get (q4nCodeByte code)).toNat / (if code % 2 = 0 then 1 else 16) % 16
      let v := q4nDecode n (get (q4nBOff code)).toNat
        (leNat [get (q4nSOff code), get (q4nSOff code + 1), get (q4nSOff code + 2), get (q4nSOff code + 3)])
      (match q4nReserved get code with
        | some (o, w) =>
          if (c.s.fn c.x.id.fn).strict c.x.region then .error (fltAB .strictCode (b0 + o) w) else .ok (v, reads)
        | none => .ok (v, reads))
    else
      let v := readNum reads
      if f = 10 then .ok (etyWrite ty (fmtRead 10 (v / (if odd then 16 else 1) % 16)), reads)
      else if f = 0 then .ok (v, reads)
      else .ok (etyWrite ty (fmtRead f v), reads)

/-- Participation of a lane of a vector memory operation: no operand carries a lane null in it (R199). -/
def Ctx.vPart (c : Ctx) (ty : ETy) (k : Nat) : Bool := c.maskBit k && c.toks.all fun t => !nullLane ty t.nulls k

/-- The loads of a list of lanes, in order; the first fault ends them. -/
def Ctx.vldAll (c : Ctx) (lsid f : Nat) (mode : VMode) (ty : ETy) (l : Word) (idx : Token) :
    List Nat → Except Flt (List (Option Nat) × List (Nat × Byte))
  | [] => .ok ([], [])
  | k :: ks => do
    if c.vPart ty k then
      let (v, bs) ← c.vldLane lsid f mode ty l idx k
      let rest ← c.vldAll lsid f mode ty l idx ks
      return (some v :: rest.1, bs ++ rest.2)
    else
      let rest ← c.vldAll lsid f mode ty l idx ks
      return (c.skip :: rest.1, rest.2)

/-- VLD (R318, R319). -/
def execVld (pm : Pm) (lsid : BitVec 5) (ty : ETy) (mode : VMode) (t1 : Tgt) (s : State) : Res :=
  fireSlot s (.vld pm lsid ty mode t1) always fun c => do
    let idx := c.toks.getD 1 (.scalar 0)
    let ks := (upFrom 0 ty.lanes).filter (c.vPart ty)
    let f ← c.vCheck false ty mode (c.word 0) idx ks
    let (ls, bs) ← c.vldAll lsid.toNat f mode ty (c.word 0) idx (upFrom 0 ty.lanes)
    return { c.send (ofLanes ty ls) with reads := bs }

/-- The bytes that a lane of VST writes (R319). Two INT4 lanes share a byte: the other nibble is that of the lower
lanes of the same instruction, else what the byte holds. -/
def Ctx.vstLane (c : Ctx) (lsid f : Nat) (mode : VMode) (ty : ETy) (l : Word) (idx data : Token)
    (acc : List (Nat × Byte)) (k : Nat) : List (Nat × Byte) :=
  let r := vRange f mode ty l idx k
  let v := lane ty data.vec k
  if f = 10 then
    let old : Byte := ((acc.filter fun p => p.1 = r.1).getLast?.map (·.2)).getD (c.byte false lsid r.1)
    let nib := fmtWrite 10 (etyRead ty v)
    let odd := match mode with | .unit => k % 2 == 1 | _ => false
    let b := if odd then old.toNat % 16 + 16 * nib else old.toNat / 16 * 16 + nib
    acc ++ [(r.1, BitVec.ofNat 8 b)]
  else
    acc ++ place r.1 (leBytes r.2 (if f = 0 then v else fmtWrite f (etyRead ty v)))

/-- VST (R318, R319). In an INT4 bank it reads the bytes of which it keeps a nibble, at its own ID; one
of them with an uncorrectable error is a data error (DEDUCED, assumption log 60). -/
def execVst (pm : Pm) (lsid : BitVec 5) (ty : ETy) (mode : VMode) (s : State) : Res :=
  fireSlot s (.vst pm lsid ty mode) always fun c => do
    let idx := c.toks.getD 2 (.scalar 0)
    let ks := (upFrom 0 ty.lanes).filter (c.vPart ty)
    let f ← c.vCheck true ty mode (c.word 0) idx ks
    let kept := if f = 10 then (ks.filter fun k => !ks.contains (k ^^^ 1)).map fun k =>
      (vRange f mode ty (c.word 0) idx k).1 else []
    match c.badByte false lsid.toNat kept with
    | some b => throw (fltA .dataError b)
    | none => pure ()
    return { c.sendEff .null (.store false
        (ks.foldl (c.vstLane lsid.toNat f mode ty (c.word 0) idx (c.tok 1)) [])) with
      reads := kept.map fun o => (o, c.byte false lsid.toNat o) }

/-! ### Reductions, permutations, special functions (R175, R320 to R322) -/

/-- One level of the adjacent-pair tree (R175). -/
def pairUp {α : Type} (f : α → α → α) : List α → List α
  | a :: b :: r => f a b :: pairUp f r
  | l => l

/-- The adjacent-pair tree, six levels for at most 64 lanes. -/
def treeFold {α : Type} (f : α → α → α) (dflt : α) : Nat → List α → α
  | 0, l => l.headD dflt
  | n + 1, l => treeFold f dflt n (pairUp f l)

/-- A value rounded RNE to FP32 and read back (R175 node results). -/
def viaFp32 (x : Num) : Num := fp32.read (fp32.round .rne false 0 x)

/-- VRED of float lanes (R175). Identities: −0 for sum and dot, ±∞ for min and max; DESIGN CHOICE
(assumption log 70): ±∞ for E4M3 as well, which rounds to its NaN when no lane takes part. -/
def redFloat (ty : ETy) (fn : VRedFn) (ls : List (Option Num)) : Word :=
  let ident : Num := match fn with | .min => .inf false | .max => .inf true | _ => .fin true 0 1
  let op : Num → Num → Num := match fn with
    | .min => Num.min | .max => Num.max | _ => fun a b => viaFp32 (Num.add .rne a b)
  let r := treeFold op ident 6 (ls.map fun o => o.getD ident)
  BitVec.ofNat 64 (ty.ffmt.round .rne false 0 r)

/-- VRED of integer lanes (R175): 64-bit working values. -/
def redInt (signed : Bool) (maxW : Nat) (fn : VRedFn) (ls : List (Option Int)) : Word :=
  let r := intRange signed maxW
  let ident : Word := match fn with
    | .min => BitVec.ofInt 64 r.2 | .max => BitVec.ofInt 64 r.1 | .and => BitVec.allOnes 64 | _ => 0
  let op : Word → Word → Word := match fn with
    | .min => fun a b => if (if signed then a.sle b else a.ule b) then a else b
    | .max => fun a b => if (if signed then a.sle b else a.ule b) then b else a
    | .and => (· &&& ·)
    | .or => (· ||| ·)
    | _ => (· + ·)
  treeFold op ident 6 (ls.map fun o => match o with | some i => BitVec.ofInt 64 i | none => ident)

/-- VRED (R320). -/
def execVred (pm : Pm) (ty : ETy) (fn : VRedFn) (t1 : Tgt) (s : State) : Res :=
  fireSlot s (.vred pm ty fn t1) fragQuiet fun c => do
    let vs ← c.vecs ty
    let l := vs.getD 0 .null
    let r := vs.getD 1 (.scalar 0)
    let ops := if fn == .dot then [l, r] else [l]
    let ks := upFrom 0 ty.lanes
    let p := c.part ty ops
    match fn with
    | .first => c.scalar (BitVec.ofNat 64
        (((ks.find? fun k => p k && lane ty l.vec k != 0)).getD ty.lanes))
    | .count => c.scalar (BitVec.ofNat 64 (ks.filter fun k => p k && lane ty l.vec k != 0).length)
    | _ =>
      if ty.isInt then
        c.scalar (redInt ty.isSigned ty.width fn (ks.map fun k =>
          if p k then
            let a := bitsInt ty.isSigned ty.width (lane ty l.vec k)
            some (if fn == .dot then a * bitsInt ty.isSigned ty.width (lane ty r.vec k) else a)
          else none))
      else
        c.scalar (redFloat ty fn (ks.map fun k =>
          if p k then
            let a := ty.ffmt.read (lane ty l.vec k)
            some (if fn == .dot then viaFp32 (a.mul (ty.ffmt.read (lane ty r.vec k))) else a)
          else none))

/-- Packs the lanes that compress keeps, then zeros (R321). -/
def compress (n : Nat) (kept : List Nat) : List (Option Nat) :=
  (kept ++ List.replicate (n - kept.length) 0).map some

/-- VPERM (R321). -/
def execVperm (pm : Pm) (ty : ETy) (fn : VPermFn) (sh : BitVec 6) (t1 : Tgt) (s : State) : Res :=
  fireSlot s (.vperm pm ty fn sh t1) always fun c => c.maskOk.bind fun _ =>
    let l := c.tok 0
    let n := ty.lanes
    let ks := upFrom 0 n
    let src (k : Nat) : Option Nat := if nullLane ty l.nulls k then c.skip else some (lane ty l.vec k)
    let vec (f : Nat → Option Nat) : Except Flt FOut :=
      .ok (c.send (ofLanes ty (ks.map fun k => if c.maskBit k then f k else c.skip)))
    match fn with
    | .perm =>
      let r := c.tok 1
      vec fun k => if nullLane ty r.nulls k then c.skip else src (lane ty r.vec k % n)
    | .bcast => vec fun _ => src 0
    | .sup => vec fun k => if sh.toNat ≤ k then src (k - sh.toNat) else some 0
    | .sdn => vec fun k => if k + sh.toNat < n then src (k + sh.toNat) else some 0
    | .iota => vec fun k => some (if ty.isInt then k % 2 ^ ty.width else ty.ffmt.round .rne false 0 (Num.ofInt k))
    | .comp =>
      .ok (c.send (ofLanes ty (compress n ((ks.filter fun k => c.maskBit k && !nullLane ty l.nulls k).map
        (lane ty l.vec)))))
    | .exp => vec fun k => src ((upFrom 0 k).filter c.maskBit).length
    | .ext =>
      if !c.maskBit sh.toNat || nullLane ty l.nulls sh.toNat then
        .ok (c.send (if c.zp then .scalar 0 else .null))
      else c.scalar (BitVec.ofNat 64 (lane ty l.vec sh.toNat))

/-- VSPEC (R322). -/
def execVspec (pm : Pm) (ty : ETy) (fn : Spec) (t1 : Tgt) (s : State) : Res :=
  fireSlot s (.vspec pm ty fn t1) always fun c =>
    let l := c.tok 0
    c.maskOk.map fun _ => c.send (ofLanes ty ((upFrom 0 ty.lanes).map fun k =>
      if c.part ty [l] k then some (specLane fn ty c.rnd c.sat (c.rho k) (lane ty l.vec k)) else c.skip))

end Sys2Proof.Machine
end

