-- ==== Sys2Proof/Machine/Matrix.lean ====
section
/-!
DEFINITION. The matrix arrays (R172 to R174, R178 to R196, R323 to R325): the commands as their slots fire, the checks at
the commit and at the start, and what each command does when it completes.
-/
namespace Sys2Proof.Machine

/-! ### Resources and order (R192) -/

/-- The resources of a command: 0 shadow plane, 1 active plane, 2 mode, 8 + n tile n. -/
def MCmd.resources (m : MCmd) : List Nat :=
  match m.kind with
  | .mwload _ => [0]
  | .mwswap => [0, 1]
  | .mfuse _ => [0, 1, 2] ++ (upFrom 8 8)
  | .mstream .. => 1 :: m.tiles.map (· + 8)
  | _ => m.tiles.map (· + 8)

/-- The tiles that a stream of `rows` rows from tile `t` writes (R188). -/
def streamTiles (t rows : Nat) : List Nat := (upFrom 0 (Nat.min 8 (ceilDiv rows 64))).map fun j => (t + j) % 8

/-- Whether two commands touch a common resource. -/
def MCmd.shares (m n : MCmd) : Bool := m.resources.any fun r => n.resources.contains r

/-- Number of quadrants of a gang. -/
def quadsOf : Shape → Nat
  | .quad => 1
  | .acre => 4
/-- Number of members of a gang. -/
def sizeOfShape : Shape → Nat
  | .quad => 4
  | .acre => 16

/-- A command still to act. -/
def MCmd.pending (m : MCmd) : Bool := !m.done && !m.failed

/-- Whether a command still matters: one that acts, one with a failure or a code to report, and a reported one as long
as an earlier command is to act, whose effect on the tiles that it made live it decides (R191, R367). -/
def Gang.keeps (g : Gang) (m : MCmd) : Bool :=
  if m.failed then !m.reported || g.cmds.any fun d => d.pending && decide (d.idx < m.idx) else !(m.done && m.hits.isEmpty)

/-- A gang without the commands that no longer matter. -/
def Gang.tidy (g : Gang) : Gang := { g with cmds := g.cmds.filter g.keeps }

/-- The mode and the sparse flags of the active and the shadow plane as the commands already issued leave them. -/
def Gang.projected (g : Gang) : Fuse × Bool × Bool :=
  let sp (ps : List Plane) : Bool := match ps with | p :: _ => p.sparse | [] => false
  (g.cmds.filter MCmd.pending).foldl (fun (a : Fuse × Bool × Bool) m => match m.kind with
    | .mfuse f => (f, false, false)
    | .mwload s => (a.1, a.2.1, s)
    | .mwswap => (a.1, a.2.2, a.2.1)
    | _ => a) (g.mode, sp g.active, sp g.shadow)

/-- A tile counts as live for MFUSE and SPLIT unless a committed MREL names it and no later command takes it (R191). -/
def Gang.liveTiles (g : Gang) : List Nat :=
  (upFrom 0 8).filter fun n =>
    (g.tiles.any fun ts => (ts.getD n ⟨.none, false, []⟩).live) &&
      g.cmds.foldl (fun live m => match m.kind with
        | .mrel mask => if m.pending && mask.testBit n then false else live
        | .mstream .. | .mldacc .. => if m.tiles.contains n then true else live
        | _ => live) true

/-- The mask of a list of bit numbers. -/
def bitsOf (ns : List Nat) : Nat := (ns.map fun n => 2 ^ n).sum

/-! ### Members' parts (R180, R183) -/

/-- Whether a member's part of a command is not empty. -/
def MKind.hasPart (k : MKind) (mode : Fuse) (m : Nat) : Bool :=
  match k with
  | .mwload _ => true
  | .mstream .. => m % 4 % 2 == 0 && nqOf mode (m / 4) == 0
  | .mstore _ | .mldacc .. => kqOf mode (m / 4) == 0
  | _ => false

/-- dim 0 that a command requires (R183). -/
def MKind.dim0 (k : MKind) (activeSparse : Bool) : Nat :=
  match k with
  | .mstream .. => if activeSparse then 64 else 32
  | _ => 32

/-- The element (i0, i1) of a matrix shape: its carrel offset, or in a Q4N bank its code number. -/
def ShapeRec.melem (r : ShapeRec) (q4 : Bool) (i0 i1 : Nat) : Int :=
  (if q4 then 2 * ((r.coff % Config.bankSize : Nat) : Int) else (r.coff : Int)) + (i0 : Int) * r.cstride 0 +
    (i1 : Int) * r.cstride 1

/-- Every index pair of a shape. -/
def pairs (a b : Nat) : List (Nat × Nat) := (upFrom 0 b).flatMap fun j => (upFrom 0 a).map fun i => (i, j)

/-- Element size of a command's carrel elements: raw banks of MSTORE and MLDACC hold 32-bit elements (R195). -/
def MKind.elemSize (k : MKind) (fmt : Nat) : Nat :=
  match k with
  | .mstore _ | .mldacc .. => if fmt = 0 then 4 else fmtSize fmt
  | _ => fmtSize fmt

/-- The bank formats a command allows (R188, R195). -/
def MKind.formats : MKind → List Nat
  | .mwload _ => [1, 5, 6, 7, 8, 9]
  | .mstream .. => [1, 5, 6, 7, 8]
  | _ => [0, 1, 2, 3, 4, 5, 6, 7, 8]

/-- Kept positions of group `gr` of an index word (R186). -/
def keptPos (w gr : Nat) : Nat × Nat := (w / 16 ^ gr % 4, w / 16 ^ gr / 4 % 4)

/-- Whether a vector of a sparse slice is live and its index word (R186). -/
def sparseVec (carrel : List Host.Cell) (ioff n v : Nat) : Option Nat :=
  if (Memory.get carrel (ioff + (4 * n + v) / 8)).toNat.testBit ((4 * n + v) % 8) then
    some (Memory.readNat carrel (ioff + 16 + 2 * (4 * n + v)) 2)
  else none

/-- The checks of a member's record at the commit (R183, R185, R186, R189). `x` is the member as its block leaves it.
The result is the record and the bank format. -/
def Act.checkMatrix (x : Act) (k : MKind) (m : Nat) (mode : Fuse) (activeSparse : Bool) (off : Nat) :
    Except Flt (ShapeRec × Nat) := do
  if off % 64 ≠ 0 then throw (fltA .misalignment off)
  if !x.reachRange off 64 then throw (fltA .carrelRights off)
  match (upFrom off 64).find? fun o => x.bad.contains (.carrel x.id o) with
  | some o => throw (fltA .dataError o)
  | none => pure ()
  let r := shapeAt x.carrel off
  let shape := fltA .shape off
  if !r.reservedOk ∨ r.rank ≠ 2 ∨ r.oven then throw shape
  let d1 := r.dim 1
  if r.dim 0 ≠ k.dim0 activeSparse then throw shape
  if (match k with | .mstream .. => d1 == 0 || decide (512 < d1) | _ => d1 != 32) then throw shape
  if !k.hasPart mode m then return (r, 0)
  let bank := r.coff / Config.bankSize
  let fmt := x.fmt bank
  let q4 := fmt = 9
  let all := pairs (r.dim 0) d1
  let base := bank * Config.bankSize
  if q4 then
    if 20480 ≤ r.coff % Config.bankSize then throw shape
    if all.any fun p => decide (r.melem true p.1 p.2 < 0) || decide (40960 ≤ r.melem true p.1 p.2) then throw shape
    match k with
    | .mwload sp =>
      if sp ∨ r.cstride 0 ≠ 1 ∨ (upFrom 0 32).any (fun j => decide (r.melem true 0 j % 16 ≠ 0)) then throw shape
    | _ => pure ()
  else
    if all.any fun p =>
        decide (0 ≤ r.melem false p.1 p.2) &&
        decide ((r.melem false p.1 p.2).toNat / Config.bankSize < x.banks) &&
        x.fmt ((r.melem false p.1 p.2).toNat / Config.bankSize) != fmt then throw shape
  match k with
  | .mwload true =>
    if (upFrom 0 128).any fun i =>
        match sparseVec x.carrel r.ioff (i / 4) (i % 4) with
        | none => false
        | some w => (upFrom 0 4).any fun gr => decide ((keptPos w gr).2 ≤ (keptPos w gr).1)
      then throw shape
  | _ => pure ()
  let size := k.elemSize fmt
  if !q4 then
    match all.find? fun p => decide (r.melem false p.1 p.2 % (size : Int) ≠ 0) with
    | some p => throw ⟨.misalignment, BitVec.ofInt 64 (r.melem false p.1 p.2), 0⟩
    | none => pure ()
  match k with
  | .mwload true => if r.ioff % 16 ≠ 0 then throw (fltA .misalignment r.ioff)
  | _ => pure ()
  if q4 then
    if !x.reaches bank then throw (fltA .carrelRights base)
  else
    match all.find? fun p => decide (r.melem false p.1 p.2 < 0) || !x.reachRange (r.melem false p.1 p.2).toNat size with
    | some p => throw ⟨.carrelRights, BitVec.ofInt 64 (r.melem false p.1 p.2), 0⟩
    | none => pure ()
  let extra := match k with
    | .mwload true => 272
    | .mstream true _ _ => ceilDiv (ceilDiv d1 8 * (r.dim 0 / 8)) 8
    | _ => 0
  if extra ≠ 0 && !x.reachRange r.ioff extra then throw (fltA .carrelRights r.ioff)
  if !k.formats.contains fmt then throw (fltA .bankFormat (bank % 16 + 16 * fmt))
  return (r, fmt)

/-! ### Capturing operands (R183, R185, R186, R189) -/

/-- An element of a Q4N bank as a stationary cell: code, block scale, superscale (R100, R185). -/
def q4nCell (carrel : List Host.Cell) (base code : Nat) : PCell :=
  let get (o : Nat) : Byte := Memory.get carrel (base + o)
  let so := q4nSOff code
  ⟨0, 0, (get (q4nCodeByte code)).toNat / (if code % 2 = 0 then 1 else 16) % 16, (get (q4nBOff code)).toNat,
    leNat [get so, get (so + 1), get (so + 2), get (so + 3)]⟩

/-- Whether an MSTREAM reads an element of a member's part: its block is not skipped (R189). -/
def ShapeRec.blockRead (r : ShapeRec) (carrel : List Host.Cell) (zb : Bool) (p : Nat × Nat) : Bool :=
  let b := p.2 / 8 * (r.dim 0 / 8) + p.1 / 8
  !(zb && (Memory.get carrel (r.ioff + b / 8)).toNat.testBit (b % 8))

/-- The elements that a member's part of a command reads, by (i0, i1): the rows of a dead vector (R186) and skipped
blocks (R189) are not read. -/
def ShapeRec.readElems (r : ShapeRec) (k : MKind) (carrel : List Host.Cell) : List (Nat × Nat) :=
  let all := pairs (r.dim 0) (r.dim 1)
  match k with
  | .mwload true => all.filter fun p => (sparseVec carrel r.ioff p.2 (p.1 / 8)).isSome
  | .mstream zb _ _ => all.filter (r.blockRead carrel zb)
  | .mwload false | .mldacc .. => all
  | _ => []

/-- The carrel offsets that a member's part of a command reads as it is issued: its elements with their scales, and its
metadata. -/
def Act.partOffs (k : MKind) (r : ShapeRec) (fmt : Nat) (carrel : List Host.Cell) : List Nat :=
  let base := r.coff / Config.bankSize * Config.bankSize
  let elem (p : Nat × Nat) : List Nat :=
    if fmt = 9 then
      let code := (r.melem true p.1 p.2).toNat
      [base + q4nCodeByte code, base + q4nBOff code] ++ upFrom (base + q4nSOff code) 4
    else upFrom (r.melem false p.1 p.2).toNat (k.elemSize fmt)
  let extra := match k with
    | .mwload true => 272
    | .mstream true _ _ => ceilDiv (ceilDiv (r.dim 1) 8 * (r.dim 0 / 8)) 8
    | _ => 0
  match k with
  | .mwload _ | .mstream .. | .mldacc .. => (r.readElems k carrel).flatMap elem ++ upFrom r.ioff extra
  | _ => []

/-- The first byte with a detected error that a member's part of a command would read (R362). -/
def Act.badPart (x : Act) (k : MKind) (m : Nat) (mode : Fuse) (r : ShapeRec) (fmt : Nat) : Option Nat :=
  if x.bad.isEmpty || !k.hasPart mode m then none
  else (Act.partOffs k r fmt x.carrel).find? fun o => x.bad.contains (.carrel x.id o)

/-- The elements of a member's part, by (i0, i1), as its carrel holds them. -/
def Act.capture (x : Act) (k : MKind) (r : ShapeRec) (fmt : Nat) : List (Nat × Nat × PCell) :=
  let base := r.coff / Config.bankSize * Config.bankSize
  let all := pairs (r.dim 0) (r.dim 1)
  let size := k.elemSize fmt
  let rd (p : Nat × Nat) : PCell :=
    if fmt = 9 then q4nCell x.carrel base (r.melem true p.1 p.2).toNat
    else ⟨0, 0, Memory.readNat x.carrel (r.melem false p.1 p.2).toNat size, 0, 0⟩
  match k with
  | .mwload true =>
    (upFrom 0 128).flatMap fun i =>
      let n := i / 4
      let v := i % 4
      match sparseVec x.carrel r.ioff n v with
      | none => []
      | some w => (upFrom 0 8).map fun j =>
          let kp := keptPos w (j / 2)
          let c := rd (8 * v + j, n)
          (8 * v + j, n, { c with k := 16 * v + 4 * (j / 2) + (if j % 2 = 0 then kp.1 else kp.2), n := n })
  | .mwload false => all.map fun p => (p.1, p.2, { rd p with k := p.1, n := p.2 })
  | .mstream zb _ _ => (all.filter (r.blockRead x.carrel zb)).map fun p => (p.1, p.2, rd p)
  | .mldacc .. => all.map fun p => (p.1, p.2, rd p)
  | _ => []

/-- The command with what its members' carrels hold now. -/
def State.captureAll (s : State) (g : Gang) (m : MCmd) : MCmd :=
  { m with data := ((upFrom 0 m.data.length).zip m.data).map fun p =>
      match s.act ⟨g.fn, g.members.getD p.1 0⟩, m.shapes[p.1]? with
      | some x, some r =>
        if m.kind.hasPart g.mode p.1 then { p.2 with elems := x.capture m.kind r p.2.fmt } else p.2
      | _, _ => p.2 }

/-! ### The checks at the start (R184, R188, R191) -/

/-- The array of a quadrant: quadrants with the same array are fused (R179). -/
def arrayOf (mode : Fuse) (q : Nat) : Nat :=
  match mode with
  | .sep => q
  | .kfuse => q % 2
  | .nfuse => q / 2
  | .full => 0

/-- The format pairs of R188. -/
def pairOk (stationary activation : Nat) : Bool :=
  match stationary with
  | 5 | 6 => activation == 5 || activation == 6
  | 7 | 8 => activation == 7 || activation == 8
  | 1 => activation == 1
  | 9 => activation == 5 || activation == 6
  | _ => false

/-- The tile type of a stationary format (R188). -/
def tileTyOf (fmt : Nat) : TileTy := if fmt = 1 then .int32 else .fp32

/-- All elements of a list are equal. -/
def allSame (l : List Nat) : Bool := l.all fun a => a == l.headD 0

/-- Whether a command passes the checks made when it starts. -/
def Gang.startOk (g : Gang) (m : MCmd) : Bool :=
  let nq := (quadsOf g.shape)
  let parts (a : Nat) : List MData :=
    ((upFrom 0 m.data.length).zip m.data).filterMap fun p =>
      if m.kind.hasPart g.mode p.1 && arrayOf g.mode (p.1 / 4) == a then some p.2 else none
  let arrays := ((upFrom 0 nq).map (arrayOf g.mode)).eraseDups
  arrays.all fun a =>
    let ps := parts a
    allSame (ps.map (·.fmt)) &&
      match m.kind with
      | .mstream _ ow _ =>
        allSame (ps.map (·.rows)) &&
        (upFrom 0 nq).all fun q =>
          arrayOf g.mode q != a ||
            match (g.active.getD q ⟨none, false, []⟩).fmt with
            | none => false
            | some f =>
              pairOk f ((ps.headD ⟨0, [], 0⟩).fmt) &&
                (ow || (m.quads.getD q []).all fun t =>
                  let tl := (g.tiles.getD q []).getD t ⟨.none, false, []⟩
                  !tl.live || tl.ty == .none || tl.ty == tileTyOf f)
      | _ => true

/-! ### Products (R172 to R174, R188) -/

/-- The products of one output element in a K-group: activation and stationary value, cut by logical K. -/
def groupSum (ps : List (Num × Num)) : Num :=
  match ps.foldl (fun a p => Num.add .rne a (Num.mul p.1 p.2)) (.fin false 0 1) with
  | .fin s n d => if n = 0 then .fin false 0 1 else .fin s n d
  | x => x

/-- FP32 accumulation over K-groups (R172). -/
def accGroups (acc : Nat) (groups : List (List (Num × Num))) : Nat :=
  groups.foldl (fun a ps => fp32.round .rne false 0 (Num.add .rne (fp32.read a) (groupSum ps))) acc

/-- FP32 accumulation over Q4N K-blocks (R174): level × activation, then block scale × superscale ÷ 16,256. -/
def accBlocks (acc : Nat) (blocks : List (List (Num × PCell))) : Nat :=
  blocks.foldl (fun a ps =>
    let p := groupSum (ps.map fun e => (e.1, Num.ofInt (q4nLevel e.2.val)))
    let c := (ps.headD (.nan, ⟨0, 0, 0, 0, 0⟩)).2
    let s := q4nS c.sc
    let t := if ps.isEmpty then .fin false 0 1 else Num.mul p (.fin false (q4nB c.b * s.1) (16256 * s.2))
    fp32.round .rne false 0 (Num.add .rne (fp32.read a) (fp32.read (fp32.round .rne false 0 t)))) acc

/-- The quadrants that supply K rows of an array to the tile quadrant `q` (kq = 0). -/
def kQuads (mode : Fuse) (q : Nat) : List Nat :=
  match mode with
  | .sep | .nfuse => [q]
  | .kfuse | .full => [q, q + 2]

/-- The activations that reach quadrant `q`'s tile: logical K, row, bits (R180, R188). -/
def Gang.activations (g : Gang) (m : MCmd) (q : Nat) (sparse : Bool) : List (Nat × Nat × Nat) :=
  (kQuads g.mode q).flatMap fun qk =>
    let sup := qk - nqOf g.mode qk
    [0, 2].flatMap fun c =>
      let base := if sparse then 128 * kqOf g.mode qk + 64 * (c / 2) else 64 * kqOf g.mode qk + 32 * (c / 2)
      (m.data.getD (4 * sup + c) ⟨0, [], 0⟩).elems.map fun e => (base + e.1, e.2.1, e.2.2.val)

/-- The stationary cells of a column of quadrant `q`'s array, by logical K. -/
def Gang.column (g : Gang) (q n : Nat) (sparse : Bool) : List (Nat × PCell) :=
  (kQuads g.mode q).flatMap fun qk =>
    let base := (if sparse then 128 else 64) * kqOf g.mode qk
    (((g.active.getD qk ⟨none, false, []⟩).cells).filter fun c => c.n == n).map fun c => (base + c.k, c)

/-- One element of a tile after a stream (R172 to R174). -/
def streamElem (fmt af : Nat) (start klen : Nat) (acts : List (Nat × Nat)) (col : List (Nat × PCell)) : Nat :=
  let at_ (k : Nat) : Option (Nat × PCell) :=
    match assocGet k acts, assocGet k col with
    | some a, some c => some (a, c)
    | _, _ => none
  if fmt = 1 then
    let sum : Int := ((upFrom 0 klen).filterMap fun k => (at_ k).map fun p =>
      bitsInt true 8 p.1 * bitsInt true 8 p.2.val).sum
    intBits 32 ((start : Int) + sum)
  else if fmt = 9 then
    accBlocks start ((upFrom 0 (klen / 16)).map fun j =>
      (upFrom (16 * j) 16).filterMap fun k => (at_ k).map fun p => (fmtRead af p.1, p.2))
  else
    let gs := if fmt = 5 ∨ fmt = 6 then 4 else 8
    accGroups start ((upFrom 0 (klen / gs)).map fun j =>
      (upFrom (gs * j) gs).filterMap fun k => (at_ k).map fun p => (fmtRead af p.1, fmtRead fmt p.2.val))

/-- Sets elements of a tile, keeping only nonzero ones. -/
def Tile.put (t : Tile) (es : List (Nat × Nat)) : Tile :=
  { t with elems := es.foldl (fun l e =>
      let l := l.filter fun p => p.1 != e.1
      if e.2 % 2 ^ 32 = 0 then l else (e.1, BitVec.ofNat 32 e.2) :: l) t.elems }

/-- Changes tile `n` of quadrant `q`. -/
def Gang.modTile (g : Gang) (q n : Nat) (f : Tile → Tile) : Gang :=
  { g with tiles := g.tiles.set q ((g.tiles.getD q []).set n (f ((g.tiles.getD q []).getD n ⟨.none, false, []⟩))) }

/-- The stream on quadrant `q`'s tiles (R188), from the command's next row group up to row `hi` (R190). -/
def Gang.streamQuad (g : Gang) (m : MCmd) (ow : Bool) (t0 hi q : Nat) : Gang :=
  let pl := g.active.getD q ⟨none, false, []⟩
  let fmt := pl.fmt.getD 0
  let klen := (if pl.sparse then 128 else 64) * (kQuads g.mode q).length
  let acts := g.activations m q pl.sparse
  let sup := 4 * (q - nqOf g.mode q)
  let dat := m.data.getD sup ⟨0, [], 0⟩
  (upFrom (8 * m.group) (Nat.min hi dat.rows - 8 * m.group)).foldl (fun h i =>
    let n := (t0 + i / 64) % 8
    let mine := (acts.filter fun a => a.2.1 == i).map fun a => (a.1, a.2.2)
    h.modTile q n fun t =>
      let t := if t.ty == tileTyOf fmt then t else { t with ty := tileTyOf fmt, elems := if ow then t.elems else [] }
      t.put ((upFrom 0 64).map fun c =>
        let e := 64 * (i % 64) + c
        let start := if ow then 0 else ((assocGet e t.elems).getD 0).toNat
        (e, streamElem fmt dat.fmt start klen mine (g.column q c pl.sparse)))) g

/-! ### Completion -/

/-- A released tile (R194). -/
def Tile.released : Tile := ⟨.none, false, []⟩

/-- Eight released tiles for each of `n` quadrants. -/
def freshTiles (n : Nat) : List (List Tile) := List.replicate n (List.replicate 8 Tile.released)

/-- Empty planes for `n` quadrants (R187). -/
def freshPlanes (n : Nat) : List Plane := List.replicate n ⟨none, false, []⟩

/-- Whether a command issued after number `idx` and still to act makes tile `n` of a quadrant live (R191). -/
def Gang.takenLater (g : Gang) (idx q n : Nat) : Bool :=
  g.cmds.any fun m => decide (idx < m.idx) && (m.quads.getD q []).contains n

/-- The planes that an MWLOAD fills (R185, R186). -/
def Gang.loaded (g : Gang) (m : MCmd) (sparse : Bool) : List Plane :=
  (upFrom 0 (quadsOf g.shape)).map fun q =>
    let cells := (upFrom 0 4).flatMap fun c =>
      (m.data.getD (4 * q + c) ⟨0, [], 0⟩).elems.map fun e =>
        { e.2.2 with k := (if sparse then 64 else 32) * (c / 2) + e.2.2.k, n := 32 * (c % 2) + e.2.2.n }
    ⟨some (m.data.getD (4 * q) ⟨0, [], 0⟩).fmt, sparse, cells⟩

/-- The reserved scale codes that a Q4N MWLOAD meets, each once (R165, R367): where a block scale and its superscale are
both reserved, the block scale. -/
def MCmd.reservedHits (m : MCmd) : List StrictHit :=
  ((upFrom 0 m.data.length).zip m.data).flatMap fun p =>
    match m.shapes[p.1]? with
    | none => []
    | some r =>
      let base := r.coff / Config.bankSize * Config.bankSize
      ((if p.2.fmt = 9 then p.2.elems else []).filterMap fun e =>
        let code := (r.melem true e.1 e.2.1).toNat
        if q4nBadB e.2.2.b then some (⟨p.1, base + q4nBOff code, BitVec.ofNat 64 e.2.2.b⟩ : StrictHit)
        else if q4nBadS e.2.2.sc then some ⟨p.1, base + q4nSOff code, BitVec.ofNat 64 e.2.2.sc⟩
        else none).eraseDups

/-- The first element with a detected error that a member's MSTORE would read, as the offset of its first byte in the
tile. -/
def State.badQuarter (s : State) (g : Gang) (m t : Nat) : Option Nat :=
  if kqOf g.projected.1 (m / 4) != 0 then none
  else (s.tileBad g (m / 4) t fun row col => row / 32 == m % 4 / 2 && col / 32 == m % 2).map fun e => 4 * (64 * e.1 + e.2)

/-- What an MSTORE writes into a member's carrel (R195). -/
def Gang.stored (g : Gang) (t mem : Nat) (r : ShapeRec) (fmt : Nat) : List (Nat × Byte) :=
  let tl := (g.tiles.getD (mem / 4) []).getD t Tile.released
  let c := mem % 4
  (pairs 32 32).flatMap fun p =>
    let row := 32 * (c / 2) + p.2
    let col := 32 * (c % 2) + p.1
    let raw := ((assocGet (64 * row + col) tl.elems).getD 0).toNat
    let v := match tl.ty with
      | .int32 => Num.ofInt (bitsInt true 32 raw)
      | .fp32 => fp32.read raw
      | .none => Num.ofInt 0
    place (r.melem false p.1 p.2).toNat (if fmt = 0 then leBytes 4 raw else leBytes (fmtSize fmt) (fmtWrite fmt v))

/-- A gang's command by number. -/
def Gang.cmd (g : Gang) (idx : Nat) : Option MCmd := g.cmds.find? fun m => m.idx == idx

/-- Replaces a command. -/
def Gang.setCmd (g : Gang) (m : MCmd) : Gang := { g with cmds := g.cmds.map fun d => if d.idx = m.idx then m else d }

/-- A tile element is good again once a command has written it anew (R362): an MSTREAM that overwrites, an MLDACC, an
MREL or an MFUSE. -/
def State.tilesMended (s : State) (g : Gang) (m : MCmd) : State :=
  let n := quadsOf g.shape
  let tiles (q : Nat) : List Nat := match m.kind with
    | .mstream _ true _ | .mldacc .. => m.quads.getD q []
    | .mrel _ | .mfuse _ => m.tiles
    | _ => []
  let rows (q t row : Nat) : Bool := match m.kind with
    | .mstream _ _ t0 => decide (((t + 8 - t0 % 8) % 8) * 64 + row < (m.data.getD (4 * (q - nqOf g.mode q)) ⟨0, [], 0⟩).rows)
    | _ => true
  (upFrom 0 n).foldl (fun (t : State) q => (upFrom (4 * q) 4).foldl (fun (t : State) j =>
    t.modAct ⟨g.fn, g.members.getD j 0⟩ fun y => { y with bad := y.bad.filter fun b => match b with
      | .tile _ n row _ => !((tiles q).contains n && rows q n row)
      | _ => true }) t) s

/-- A member whose part of a command meets a detected error only after the commit: no slot reads it any more, so the
member's context counts as bad (R362), and nothing is delivered. -/
def State.lateErrors (s : State) (g : Gang) (m : MCmd) : List Aid :=
  ((upFrom 0 m.shapes.length).zip m.shapes).filterMap fun p =>
    let a : Aid := ⟨g.fn, g.members.getD p.1 0⟩
    let tile := match m.kind with
      | .mstore t => (s.badQuarter { g with cmds := [] } p.1 t).isSome
      | _ => false
    match s.act a with
    | some x =>
      if tile || (!m.early && (x.badPart m.kind p.1 g.mode p.2 ((m.data.getD p.1 ⟨0, [], 0⟩).fmt)).isSome) then some a else none
    | none => none

/-- What a captured bank element becomes in a tile (R195). -/
def accIn (i32 : Bool) (fmt v : Nat) : Nat :=
  if fmt = 0 then v
  else if i32 then intBits 32 ((fmtRead fmt v).toIntClamp .rne 0 true 32)
  else fp32.round .rne false 0 (fmtRead fmt v)

/-- The rows of an MSTREAM up to row `hi` on every tile quadrant. -/
def Gang.streamTo (g : Gang) (m : MCmd) (hi : Nat) : Gang :=
  match m.kind with
  | .mstream _ ow t =>
    ((upFrom 0 (quadsOf g.shape)).filter fun q => kqOf g.mode q == 0).foldl (fun h q => h.streamQuad m ow t hi q) g
  | _ => g

/-- A gang after a command has acted (R187, R188, R191 to R196), the carrels aside. -/
def Gang.apply (g : Gang) (m : MCmd) : Gang :=
  let n := (quadsOf g.shape)
  match m.kind with
  | .mfuse f =>
    { g with mode := f, active := freshPlanes n, shadow := freshPlanes n,
             tiles := (upFrom 0 n).map fun q => (upFrom 0 8).map fun t =>
               { Tile.released with live := g.takenLater m.idx q t } }
  | .mwload sp => { g with shadow := g.loaded m sp }
  | .mwswap =>
    { g with active := g.shadow, shadow := g.active,
             cmds := g.cmds.map fun c => if c.hits.isEmpty then c else { c with swapped := !c.swapped } }
  | .mstream .. => g.streamTo m 512
  | .mstore _ => g
  | .mrel mask =>
    (upFrom 0 n).foldl (fun h q => ((upFrom 0 8).filter mask.testBit).foldl (fun h t =>
      h.modTile q t fun _ => { Tile.released with live := g.takenLater m.idx q t }) h) g
  | .mldacc i32 t =>
    ((upFrom 0 n).filter fun q => kqOf g.mode q == 0).foldl (fun h q =>
      h.modTile q t fun tl =>
        let ty := if i32 then TileTy.int32 else TileTy.fp32
        ({ tl with ty := ty, elems := if tl.ty == ty then tl.elems else [] }).put
          ((upFrom 0 4).flatMap fun c =>
            let d : MData := m.data.getD (4 * q + c) ⟨0, [], 0⟩
            d.elems.map fun (e : Nat × Nat × PCell) =>
              (64 * (32 * (c / 2) + e.2.1) + 32 * (c % 2) + e.1, accIn i32 d.fmt e.2.2.val))) g

/-- A pre-emption stops a started MSTREAM at the boundary of an 8-row group, which the spec leaves to the device: the
rows before it are done, and the next group is recorded (R190, R355). -/
def State.stopStream (s : State) (g : Gang) (m : MCmd) : State :=
  let groups := ceilDiv ((m.data.map (·.rows)).foldl Nat.max 0) 8
  let late := !(s.lateErrors g m).isEmpty
  let n := if late then m.group else m.group + (Config.freeWord s.fresh).toNat % (groups - m.group + 1)
  let m1 := if m.early then m else s.captureAll g m
  s.tick.2.setGang ((g.streamTo m1 (8 * n)).setCmd { m with group := n })

/-- Stops the MSTREAMs of a function's gangs. -/
def State.stopStreams (s : State) (v : Nat) : State :=
  (s.gangs.filter fun (g : Gang) => g.fn == v).foldl (fun (t : State) g =>
    match g.cmds.find? fun m => m.started && m.pending && (match m.kind with | .mstream .. => true | _ => false) with
    | some m => t.stopStream g m
    | none => t) s

/-- Makes live the tiles that a command names at its commit (R191): physical tiles of quadrants with kq = 0. -/
def Gang.markLive (g : Gang) (m : MCmd) : Gang :=
  (upFrom 0 (quadsOf g.shape)).foldl (fun h q =>
    (m.quads.getD q []).foldl (fun h t => h.modTile q t fun tl => { tl with live := true }) h) g

/-- The tiles of each quadrant that a command makes live (R188, R191): physical tiles of quadrants with kq = 0, for an
MSTREAM as many as the R of the quadrant's array takes, or for a failed one the R of member 0. -/
def MCmd.takes (m : MCmd) (mode : Fuse) (n : Nat) (failed : Bool) : List (List Nat) :=
  (upFrom 0 n).map fun q =>
    if kqOf mode q != 0 then []
    else match m.kind with
      | .mstream _ _ t => streamTiles t (m.data.getD (if failed then 0 else 4 * (q - nqOf mode q)) ⟨0, [], 0⟩).rows
      | .mldacc _ t => [t]
      | _ => []

/-- The gang as a command will leave it, as far as the checks of R184 ask: mode, plane formats, tile types. -/
def Gang.planned (g : Gang) (m : MCmd) : Gang :=
  let n := quadsOf g.shape
  match m.kind with
  | .mstream .. =>
    (upFrom 0 n).foldl (fun h q =>
      (m.quads.getD q []).foldl (fun h t => h.modTile q t fun tl =>
        { tl with ty := tileTyOf (((h.active.getD q ⟨none, false, []⟩).fmt).getD 0) }) h) g
  | _ => g.apply { m with data := m.data.map fun d => { d with elems := [] } }

/-- Whether a command being issued will pass the checks made at its start (R184): the commands before it act first
(R192), so their outcome is known now, and the next dependent instruction can report a failure (R367). -/
def Gang.willStart (g : Gang) (m : MCmd) : Bool :=
  ((g.cmds.filter MCmd.pending).foldl Gang.planned g).startOk m

/-! ### Slots -/

/-- A command about to be issued. The tiles of an MSTREAM follow from its record, which is read at the commit. -/
def Ctx.newCmd (c : Ctx) (k : MKind) : MCmd :=
  ⟨0, k, c.fl.addr, c.k, [], [], [], false, [], false, false, 0, false, false, [], false⟩

/-- The plane that a new command finds the plane loaded by an MWLOAD in, once the swaps before it have acted: resource 0
shadow, 1 active. -/
def Gang.planeOf (g : Gang) (m : MCmd) : Nat :=
  let swaps := (g.cmds.filter fun d => decide (m.idx < d.idx) && d.pending && d.kind == .mwswap).length
  ((if m.swapped then 1 else 0) + swaps) % 2

/-- The report that a dependent matrix command must make first (R165, R184, R367). -/
def Ctx.dependent (c : Ctx) (m : MCmd) : Except Flt Unit :=
  match c.s.gangOf c.x with
  | none => .ok ()
  | some g =>
    match g.cmds.find? fun d => d.failed && !d.reported && d.shares m with
    | some d => .error (d.report (memberOf c.x))
    | none =>
      match (g.cmds.filter fun d => m.resources.contains (g.planeOf d)).findSome? fun d =>
        d.hits.find? fun h => h.tag == memberOf c.x with
      | some h => .error ⟨.strictCode, BitVec.ofNat 64 h.off, h.val⟩
      | none => .ok ()

/-- A command that depends on the plane of a Q4N MWLOAD of a strict region waits for it: it has to report the reserved
codes that the MWLOAD meets (R165, R367). -/
def codesKnown (k : MKind) (c : Ctx) : Bool :=
  match c.s.gangOf c.x with
  | none => true
  | some g => !(c.s.fn c.x.id.fn).strict c.x.region || g.cmds.all fun m =>
      !m.pending || !(m.data.any fun d => d.fmt == 9) || !((c.newCmd k).resources.contains (g.planeOf m)) ||
        (match m.kind with | .mwload _ => false | _ => true)

/-- Fires a matrix command: sends 0 and records the command. -/
def Ctx.matrix (c : Ctx) (k : MKind) (off : Option Nat) : Except Flt FOut := do
  c.dependent (c.newCmd k)
  return c.sendEff (.scalar 0) (.matrix k off)

/-- MFUSE (R196, R323). -/
def execMfuse (pm : Pm) (mode : Fuse) (t1 : Tgt) (s : State) : Res :=
  fireSlot s (.mfuse pm mode t1) (codesKnown (.mfuse mode)) fun c => c.matrix (.mfuse mode) none
/-- MWLOAD (R185, R186, R323). -/
def execMwload (pm : Pm) (sparse : Bool) (t1 : Tgt) (s : State) : Res :=
  fireSlot s (.mwload pm sparse t1) (codesKnown (.mwload sparse)) fun c => c.matrix (.mwload sparse) (some (c.word 0).toNat)
/-- MWSWAP (R187, R323). -/
def execMwswap (pm : Pm) (t1 : Tgt) (s : State) : Res :=
  fireSlot s (.mwswap pm t1) (codesKnown .mwswap) fun c => c.matrix .mwswap none
/-- MSTREAM (R188, R189, R323). -/
def execMstream (pm : Pm) (zb ow : Bool) (tile : BitVec 3) (t1 : Tgt) (s : State) : Res :=
  fireSlot s (.mstream pm zb ow tile t1) (codesKnown (.mstream zb ow tile.toNat)) fun c =>
    c.matrix (.mstream zb ow tile.toNat) (some (c.word 0).toNat)
/-- MSTORE (R195, R323). -/
def execMstore (pm : Pm) (tile : BitVec 3) (t1 : Tgt) (s : State) : Res :=
  fireSlot s (.mstore pm tile t1) always fun c => c.matrix (.mstore tile.toNat) (some (c.word 0).toNat)
/-- MREL (R194, R323). -/
def execMrel (pm : Pm) (mask : BitVec 8) (t1 : Tgt) (s : State) : Res :=
  fireSlot s (.mrel pm mask t1) always fun c => c.matrix (.mrel mask.toNat) none
/-- MLDACC (R195, R323). -/
def execMldacc (pm : Pm) (i32 : Bool) (tile : BitVec 3) (t1 : Tgt) (s : State) : Res :=
  fireSlot s (.mldacc pm i32 tile t1) always fun c => c.matrix (.mldacc i32 tile.toNat) (some (c.word 0).toNat)

/-- Every command naming a masked tile has completed (R193). -/
def tilesQuiet (c : Ctx) : Bool :=
  match c.s.gangOf c.x with
  | none => true
  | some g => g.cmds.all fun m => !m.pending || !(m.tiles.any fun t => t < 8 && (c.word 0).getLsbD t)

/-- MWAIT (R193, R325): reports a failed command that would have written a masked tile (R184). -/
def execMwait (pm : Pm) (t1 t2 : Tgt) (s : State) : Res :=
  fireSlot s (.mwait pm t1 t2) tilesQuiet fun c =>
    match (c.s.gangOf c.x).bind fun g => g.failedOn fun t => (c.word 0).getLsbD t with
    | some m => .error (m.report (memberOf c.x))
    | none => c.scalar 0

end Sys2Proof.Machine
end

