-- ==== Sys2Proof/Machine/Life.lean ====
section
/-!
DEFINITION. How activities end, wait, fault and are killed: black-box entries, region completion, releases, waits and
landings, leaving a meeting, and TAKING A FAULT as one shared operation with its resolution (R17, R30, R31, R54, R55,
R85, R109, R110, R217, R256, R360 to R371, R405, R436).
-/
namespace Sys2Proof.Machine

/-! ### The black-box record (R369 to R371) -/

/-- The bytes of a black-box entry, check code included (R369). -/
def BbEntry.words (e : BbEntry) : List Word :=
  let body : List Word :=
    [BitVec.ofNat 64 e.time,
     BitVec.ofNat 64 (e.type * 2 ^ 56 + e.die * 2 ^ 53 + e.core * 2 ^ 40 + e.vf * 2 ^ 35 + e.serial),
     BitVec.ofNat 64 (e.sub * 2 ^ 56), e.data.getD 0 0, e.data.getD 1 0, e.data.getD 2 0, e.data.getD 3 0]
  body ++ [BitVec.ofNat 64 (e.seq * 2 ^ 32 + crc16 (wordsBytes body))]

/-- Writes an entry to a ring: the oldest is replaced when it is full; a frozen ring accepts none (R369, R371). -/
def Ring.add (r : Ring) (e : BbEntry) : Ring :=
  if r.frozen then r
  else { r with entries := assocSet (r.next % 4096) { e with seq := r.next % 2 ^ 32 } r.entries, next := r.next + 1 }

/-- Writes an entry to the ring of a die. -/
def State.log (s : State) (die type core vf serial sub : Nat) (data : List Word) : State :=
  let e : BbEntry := ⟨s.time, type, die, core, vf, serial, sub, data, 0⟩
  { s with rings := s.rings.set die ((s.rings.getD die Ring.reset).add e) }

/-- The core and die at which an activity's events happen. -/
def Act.logPlace (x : Act) : Nat × Nat :=
  match x.place with
  | some p => (p.core, dieOf p.core)
  | none => (0x1FFF, 4)

/-- Writes an entry about an activity. -/
def State.logAct (s : State) (x : Act) (type sub : Nat) (data : List Word) : State :=
  s.log x.logPlace.2 type x.logPlace.1 x.id.fn x.id.serial sub data

/-- Records that an entry of the region table failed its check code (R23, R370 type 0Dh), with its address. -/
def State.logEntry (s : State) (v g : Nat) : State :=
  s.log 4 0x0D 0x1FFF v 0 0 [BitVec.ofNat 64 ((s.fn v).rcbAt g)]

/-! ### Regions (R22, R31, R410) -/

/-- Whether a region table entry is in use (R22): until completion, or until its kill has finished. -/
def State.regionInUse (s : State) (v : Nat) (r : Region) : Bool :=
  match r.rstate with
  | .complete => false
  | .killed => s.kills.any fun k => k.regions.contains r.idx && (match k.target with
    | .queue w _ => w == v
    | .tree w _ => w == v)
  | _ => true

/-- A free region table entry, one that no shelf or desk still names as payer first (R22, R296). -/
def State.freeRegion (s : State) (v : Nat) : Option Nat :=
  let f := s.fn v
  let used := (f.regions.filter fun r => s.regionInUse v r).map (·.idx)
  let payers := ((s.funcs.flatMap (·.shelves)).filter fun q => q.payer.1 = v).map (·.payer.2) ++ (s.desks.filter fun d => d.payer.1 = v).map (·.payer.2)
  let cand := upFrom 0 (Nat.min f.cfg.rtcount (used.length + payers.length + 1))
  match cand.find? fun g => !used.contains g && !payers.contains g with
  | some g => some g
  | none => cand.find? fun g => !used.contains g

/-- Puts a region into the table. -/
def State.putRegion (s : State) (v : Nat) (r : Region) : State :=
  s.modFn v fun f => { f with regions := r :: f.regions.filter fun q => q.idx != r.idx }

/-- Whether every byte of a range lies in one host-held loan (R407, R410). -/
def Func.inHostLoan (f : Func) (va n : Nat) : Bool :=
  f.hostLoans.any fun l => decide (l.1 * 65536 ≤ va) && decide (va + n ≤ (l.1 + l.2.1) * 65536)

/-- The notice write of a region (R31, R410). -/
def State.writeNotice (s : State) (v : Nat) (r : Region) (killed : Bool) : State :=
  let a := r.notice.toNat
  let val : Word := if killed then r.nval ^^^ BitVec.ofNat 64 (2 ^ 63) else r.nval
  if a / 8 = 0 then s
  else if bit a 63 then
    if (s.fn v).cfg.hosts.contains (bits a 56 48) then
      ({ s with out := s.out ++ [.fabricWrite (bits a 56 48) (bits a 47 3 * 8) val] } : State).keepMsg (bits a 56 48) 6 v
        (leBytes 8 (bits a 47 3 * 8) ++ leBytes 8 val.toNat)
    else s
  else
    let va := a / 8 * 8
    if (s.fn v).inHostLoan va 8 then State.vaWrite v s va (leBytes 8 val.toNat) else s

/-- Frees the idle gathering desks that a finished region pays for (R38, R39). -/
def State.freeDesks (s : State) (v g : Nat) : State :=
  let idle (d : Desk) : Bool :=
    d.payer == (v, g) && (match d.st with | .gathering _ none => true | _ => false)
  let n := (s.desks.filter idle).length
  let t : State := s.modChain v g fun r => { r with keyu := r.keyu - n }
  let t : State := (s.desks.filter idle).foldl (fun (t : State) d => t.giveDevice v g d.pages) t
  { t with desks := t.desks.filter fun d => !idle d }

/-- An address of a field of a schedule table entry (R348). -/
def State.schedAddr (s : State) (e off : Nat) : Nat := (s.fn 0).cfg.lstab + 64 * e + off

/-- A field of a schedule table entry. -/
def State.schedGet (s : State) (e off : Nat) : Nat := s.hv64 (s.schedAddr e off)
/-- Writes a field of a schedule table entry. -/
def State.schedSet (s : State) (e off val : Nat) : State := s.physWrite 0 (s.schedAddr e off) (leBytes 8 val)

/-- Launch() of R349: copies the template into the next ring entry, or counts a missed launch when the ring is full or
the function has no such queue. -/
def State.schedLaunch (s : State) (e : Nat) : State :=
  let w := s.schedGet e 0x18
  let v := bits w 60 56
  let q := bits w 55 50
  let f := s.fn v
  let p := f.prod.getD q 0
  let c := f.cons.getD q 0
  let cnt := s.schedGet e 0x28
  if 64 ≤ (p + 2 ^ 32 - c) % 2 ^ 32 ∨ f.cfg.lqcount ≤ q then
    s.schedSet e 0x28 (bits cnt 63 32 * 2 ^ 32 + (bits cnt 31 0 + 1) % 2 ^ 32)
  else
    let src := bits (s.schedGet e 0x10) 63 8 * 256
    let data := s.hvRead src 256
    let t : State := State.ipaWrite v s (f.cfg.lqbase + q * 16384 + p % 64 * 256) data
    let t : State := t.modFn v fun f => { f with prod := f.prod.set q ((p + 1) % 2 ^ 32) }
    let t : State := t.schedSet e 0x28 ((bits cnt 63 32 + 1) % 2 ^ 32 * 2 ^ 32 + bits cnt 31 0)
    { t with sched := t.sched.map fun x => if x.entry = e then { x with copies := x.copies ++ [(v, q, p)] } else x }

/-- The schedule entries whose latest instance's root has ended: live becomes 0 and a set pend launches (R349). -/
def State.schedEnded (s : State) (v g : Nat) : State :=
  s.sched.foldl (fun t x =>
    let w := t.schedGet x.entry 0x20
    if bit w 0 && bits w 63 40 == g && bits (t.schedGet x.entry 0x18) 60 56 == v then
      let t1 : State := t.schedSet x.entry 0x20 (bits w 63 40 * 2 ^ 40)
      if bit w 1 then t1.schedLaunch x.entry else t1
    else t) s

/-- Adds to a region's returned weight; a region whose returned equals issued completes: it writes its notice, gives
back its pages, and its held weight goes to its parent in the same way (R31). -/
def State.addReturned (v : Nat) : Nat → State → Nat → Nat → State
  | 0, s, _, _ => s
  | k + 1, s, g, n =>
    let s1 : State := s.modRegion v g fun r => { r with returned := (r.returned + n) % 2 ^ 64 }
    match (s1.fn v).region g with
    | none => s1
    | some r =>
      if r.rstate == .open && r.returned == r.issued then
        let s2 : State := s1.writeNotice v r false
        let s3 : State := s2.giveDevice v g r.devp
        let s4 : State := (s3.modRegion v g fun r => { r with rstate := .complete, devp := [] }).freeDesks v g
        let s5 : State := if r.parent.isNone then s4.schedEnded v g else s4
        match r.parent with
        | none => s5
        | some p => State.addReturned v k s5 p r.held
      else s1

/-- Adds to returned (R31). -/
def State.giveWeight (s : State) (v g n : Nat) : State := State.addReturned v 9 s g n

/-- Takes weight from an activity for a child (R28): a grant when it holds exactly 1. -/
def State.takeWeight (s : State) (a : Aid) (share : Option Word) : Except Flt (Nat × State) :=
  match s.act a with
  | none => .ok (0, s)
  | some x =>
    let w := if x.weight = 1 then x.weight + Config.grant else x.weight
    let s1 : State := if x.weight = 1 then
        s.modRegion a.fn x.region fun r => { r with issued := (r.issued + Config.grant) % 2 ^ 64 }
      else s
    let child := match share with | some n => n.toNat | none => w / 2
    if share.isSome ∧ (child = 0 ∨ w ≤ child) then .error (fltAB .weight child w)
    else .ok (child, s1.modAct a fun y => { y with weight := w - child })

/-! ### Waiting and landing (R16, R17) -/

/-- Sets a register. -/
def setReg {α : Type} {n : Nat} (v : Vector α n) (i : Nat) (a : α) : Vector α n := v.setIfInBounds i a

/-- Makes an activity ready: the time and order of becoming ready (R26). -/
def Act.makeReady (x : Act) (s : State) : Act :=
  { x with run := .ready, wkind := .none, wop := 0, wmask := 0, readyAt := s.time, readySeq := s.fresh }

/-- Puts a ready activity without a slot into its region's ready queue (R22): a full queue takes an overflow page, and
where no budget holds the page the record joins the overflow chain. DESIGN CHOICE (assumption log 85): each member of a
gang that becomes ready is an activity of its own here, takes an entry of its own and counts in acts. One whose chain
of region entries fails a check code enters no queue: the end of the event faults it (R23, assumption log 80). -/
def State.enqueue (s : State) (a : Aid) : State :=
  match s.act a with
  | none => s
  | some x =>
    if x.run != .ready || x.place.isSome || x.queued != .no then s
    else if (s.badEntry x).isSome then s.stamp a
    else
      match (s.fn a.fn).region x.region with
      | none => s.stamp a
      | some r =>
        let put (t : State) : State :=
          ((t.modRegion a.fn x.region fun r => { r with rqtail := (r.rqtail + 1) % 2 ^ 32 }).modAct a fun y =>
            { y with queued := .queue }).stamp a
        let held := (s.acts.filter fun y => y.id.fn == a.fn && y.region == x.region && y.queued == .queue).length
        if held < r.queueRoom then put s
        else
          match s.takeDevice a.fn x.region 1 with
          | some (ps, t) => put (t.modRegion a.fn x.region fun r => { r with devp := r.devp ++ ps })
          | none =>
            let t : State := s.modRegion a.fn x.region fun r => { r with rchain := r.rchain ++ [a.serial] }
            let t : State := match r.rchain.getLast? with
              | some b => (t.modAct ⟨a.fn, b⟩ fun y => { y with link := x.recAt }).stamp ⟨a.fn, b⟩
              | none => t
            (t.modAct a fun y => { y with queued := .chain, link := 0 }).stamp a

/-- Takes an activity out of its region's ready queue or overflow chain (R22). -/
def State.dequeue (s : State) (a : Aid) : State :=
  match s.act a with
  | none => s
  | some x =>
    let off (t : State) : State := t.modAct a fun y => { y with queued := .no, link := 0 }
    match x.queued with
    | .no => s
    | .queue => off (s.modRegion a.fn x.region fun r => { r with rqhead := (r.rqhead + 1) % 2 ^ 32 })
    | .chain =>
      let before := match (s.fn a.fn).region x.region with
        | some r => (r.rchain.takeWhile (· != a.serial)).getLast?
        | none => none
      let t : State := match before with
        | some b => (s.modAct ⟨a.fn, b⟩ fun y => { y with link := x.link }).stamp ⟨a.fn, b⟩
        | none => s
      off (t.modRegion a.fn x.region fun r => { r with rchain := r.rchain.filter (· != a.serial) })

/-- Ends a wait (R10): a resident activity runs on, another becomes ready. An activity whose block fired TRAP stays
waiting with no wait kind until the trap is raised (R256). DESIGN CHOICE (assumption log 110): the current environment of
a resident one, spilled while it waited, is reloaded now; where no records can be had, it is read in the frame. -/
def State.wakeOne (s : State) (a : Aid) : State :=
  match s.act a with
  | none => s
  | some x =>
    if x.run != .waiting then s
    else if x.trap.isSome then s.setAct { x with wkind := .none, wop := 0, wmask := 0 }
    else
      let y := if x.place.isSome then { x with run := .running, wkind := .none, wop := 0, wmask := 0 }
        else x.makeReady s
      let t : State := (s.tick.2.setAct y).enqueue a
      if y.place.isSome && y.env.kind == .spilled then (t.reload a y.env.index.toNat).getD t else t

/-- Ends the wait of an activity, or of a gang as a whole (R33). -/
def State.wake (s : State) (a : Aid) : State :=
  match s.act a with
  | none => s
  | some x => (s.crew x).foldl (fun t y => t.wakeOne y.id) s

/-- Writes the landing registers (R59) and ends the wait. -/
def State.land (s : State) (a : Aid) (status : Nat) (s15 : Word) (v15 : Option Vec) : State :=
  (s.modAct a fun x =>
    let y := (x.mended .s 14).mended .s 15
    { (match v15 with | some _ => y.mended .v 15 | none => y) with
      s := setReg (setReg x.s 14 (BitVec.ofNat 64 status)) 15 s15
      v := match v15 with | some w => setReg x.v 15 w | none => x.v }).wake a

/-! ### Shelves that are being unsealed (R109, R110) -/

/-- The open count of a shelf: open and reserved slots of the tenant's activities (R107). -/
def State.openCount (s : State) (v id : Nat) : Nat :=
  ((s.acts.filter fun x => x.id.fn = v).map fun x =>
    (x.sh.toList.filter (· == some id)).length +
      (x.effects.filter fun e => match e with | .shopen _ i => i == id | _ => false).length).sum

/-- The register of an activity that holds the unseal right of a shelf of a function. -/
def Act.rightOf (x : Act) (id v : Nat) : Option Nat :=
  (upFrom 0 8).find? fun k => match x.reg k with | .sealed _ _ _ i w => i == id && w == v | _ => false

/-- Finishes every unsealing whose open count is zero: the keeper's register becomes a loan and it continues, or the
pages are freed (R109, R110). A keeper of another function (R68) takes the pages as a gift does, and waits on while its
function has too few. -/
def State.finishUnseals (s : State) (v : Nat) : State :=
  (s.fn v).shelves.foldl (fun t sf =>
    if sf.unsealing && t.openCount v sf.id == 0 then
      let t1 : State := t.modFn v fun f => { f with shelves := f.shelves.filter fun q => q.id != sf.id }
      if sf.freeing then (t1.freeRange v sf.base sf.pages).returnPages sf.payer.1 sf.payer.2 sf.pages
      else
        match sf.keeper with
        | none => t1
        | some a =>
          let loan (u : State) (base : Nat) : State :=
            (u.modAct a fun x => match x.rightOf sf.id v with
              | some k => { x with l := setReg x.l k (.loan base sf.pages sf.cxl) }
              | none => x).wake a
          if a.fn = v then loan t1 sf.base
          else match t1.moveRange v a.fn sf.base sf.pages sf.cxl with
            | some (base, u) => loan u base
            | none => t
    else t) s

/-! ### Leaving the chip and meetings -/

/-- Moves the store environments that an activity references to its frame, so that it can leave its core. -/
def State.unplaceEnvs (s : State) (a : Aid) : State :=
  match s.act a with
  | none => s
  | some x =>
    match x.place with
    | none => s
    | some p =>
      let mine := (s.core p.core).envs.filter fun e => 0 < x.refs e.1
      let y := mine.foldl (fun (y : Act) e =>
        let pos := y.frameEnv.length
        let f (h : Handle) : Handle :=
          if h.kind == .store && h.index.toNat == e.1 then ⟨.spilled, 0, BitVec.ofNat 8 pos, h.entry⟩ else h
        { y.mapHandles f with frameEnv := y.frameEnv ++ [e.2] }) x
      (s.setAct { y with place := none }).modCore p.core fun c => mine.foldl (fun c e => c.drop e.1) c

/-- The environments of a core that two parties both reference (R85). -/
def State.sharedEnvs (s : State) (x y : Act) : List (Nat × Env) :=
  match x.place with
  | none => []
  | some p => (s.core p.core).envs.filter fun e => 0 < x.refs e.1 && 0 < y.refs e.1

/-- Splits one shared environment: the party that does not keep the original receives a copy (R85), used last now. DESIGN
CHOICE (assumption log 106): a copy for which no records can be had lies in that party's frame, for which no page is
charged then. -/
def State.splitEnv (s : State) (x y : Act) (i : Nat) (e : Env) : State :=
  let xKeeps := if e.owner = x.id.serial then true else if e.owner = y.id.serial then false
    else match x.meet with | some m => m.first | none => true
  let z := if xKeeps then y.id else x.id
  match x.place with
  | none => s
  | some p =>
    match s.putEnv p.core { e with reserver := none, lastUse := s.fresh } with
    | some (j, u) =>
      let t := u.tick.2
      let g := (t.core p.core).gen j
      t.modAct z fun w => w.mapHandles fun h =>
        if h.kind == .store && h.index.toNat == i then ⟨.store, BitVec.ofNat 12 g, BitVec.ofNat 8 j, h.entry⟩ else h
    | none =>
      s.modAct z fun w =>
        let pos := w.frameEnv.length
        { w.mapHandles fun h =>
            if h.kind == .store && h.index.toNat == i then ⟨.spilled, 0, BitVec.ofNat 8 pos, h.entry⟩ else h with
          frameEnv := w.frameEnv ++ [e] }

/-- A party leaves a meeting (R54, R55, R85): shared environments separate when it is the first to leave, the partner
sees how it left, its banks are as its stores left them. -/
def State.leaveMeeting (s : State) (a : Aid) (how : Left) : State :=
  match s.act a with
  | none => s
  | some x =>
    match x.meet with
    | none => s
    | some m =>
      let s1 : State := match s.act m.partner with
        | none => s
        | some y =>
          if m.left == Left.present then (s.sharedEnvs x y).foldl (fun t e => t.splitEnv x y e.1 e.2) s else s
      let s2 : State := s1.modAct m.partner fun y => { y with
        meet := y.meet.map fun n => if n.partner = a then { n with left := how } else n }
      let s3 : State := s2.modAct a fun x => { x with meet := none, hint := match x.behind with
        | some (c, _) => c
        | none => x.hint }
      let s4 : State := { s3 with meetings := s3.meetings.filter fun q =>
        !((q.first = a ∧ (s3.act q.second).all fun y => y.meet.isNone) ∨
          (q.second = a ∧ (s3.act q.first).all fun y => y.meet.isNone)) }
      match x.place with | some p => s4.recount p.core | none => s4

/-! ### Retirement and kills (R30, R436) -/

/-- Weight that an activity's uncompleted completion closures took (R436). -/
def Act.childWeight (x : Act) : Nat := (x.copies.map fun c => match c.child with | some h => h.weight | none => 0).sum
/-- Records reserved for those children (R284). -/
def Act.childRecords (x : Act) : Nat := (x.copies.filter fun c => c.child.isSome).length

/-- Frees what one register held (R30, R105, R110). -/
def State.freeReg (s : State) (a : Aid) (g : Nat) : LReg → State
  | .empty => s
  | .loan b p _ => (s.freeRange a.fn b p).returnPages a.fn g p
  | .sealed _ _ _ id v =>
    let t : State := s.modFn v fun f => { f with shelves := f.shelves.map fun q =>
      if q.id = id then { q with unsealing := true, freeing := true, keeper := none, payer := (a.fn, g) } else q }
    if v = a.fn then t else t.finishUnseals v

/-- The message that tells a desk of a waiting party's death (R40, R67, R385). -/
def State.deskNews (s : State) (x : Act) : State :=
  let at_ (d : Desk) : Bool := match d.st with
    | .meeting fst prs => (match fst with | some p => p.id == x.id | none => false) ||
        prs.any fun q => q.1.id == x.id || q.2.id == x.id
    | .gathering _ (some r) => r.parties.any fun p => p.id == x.id
    | .gathering _ none => false
  (s.desks.filter at_).foldl (fun (t : State) d =>
    { t with msgs := t.msgs ++ [⟨t.fresh, .kill d.fn d.key x.id⟩], fresh := t.fresh + 1 }) s

/-- A party of a placed pair dies before the meeting begins: the other lands ABORTED with its serial (R57). DESIGN CHOICE
(assumption log 103): one that had travelled leaves the meeting core and becomes ready, as after a PART. -/
def State.abortPair (s : State) (x : Act) : State :=
  match x.meet with
  | none => s
  | some m =>
    if m.begun || m.partner.serial == 0 then s
    else
      let s1 : State := s.modAct m.partner fun y => { y with meet := none, hint := match y.behind with
        | some (c, _) => c
        | none => y.hint }
      let s2 : State := { s1 with meetings := s1.meetings.filter fun q => q.first != x.id && q.second != x.id }
      let s3 : State := match (s2.act m.partner).bind fun y => y.behind with
        | some _ => (s2.unplaceEnvs m.partner).writeRecord m.partner
        | none => s2
      s3.land m.partner 2 (BitVec.ofNat 64 x.id.serial) none

/-- One activity or member is gone: loans, unseal rights, open slots, handles, frame, slot, banks and record are freed,
the record written a last time with state 3 (R14); `kill` stops its copies and tells its partner and its desk (R30, R55,
R436). A block in flight dies with it, the environments that it had reserved released (R80, R277). -/
def State.free (s : State) (a : Aid) (kill : Bool) : State :=
  match s.act a with
  | none => s
  | some x =>
    let s : State := (s.modAct a fun y => { y with flight := none }).sweepReserved { x with flight := none }
    let s1 : State := if kill then ((s.deskNews x).abortPair x).leaveMeeting a .killed else s
    let s1 : State := s1.dequeue a
    let x := (s1.act a).getD x
    let s2 : State := x.l.toList.foldl (fun t r => t.freeReg a x.region r) s1
    let s3 : State := s2.giveDevice a.fn x.region x.frame
    let s4 : State := (s3.giveRecord a.fn x.region (1 + x.childRecords)).modFn a.fn fun f =>
      { f with spent := assocSet x.recAt (x.recordAs 3 (s.shapeOf x)) f.spent }
    let s5 : State := { s4 with acts := s4.acts.filter fun y => y.id != a }
    let s6 : State := match x.place with | some p => s5.recount p.core | none => s5
    (s6.finishUnseals a.fn).refreshEnvu a.fn

/-- An activity retires, a gang as a whole (R30, R436): its weight, and under a kill that of its pending children, is
added to its region's returned unless its record failed (R366). -/
def State.retire (s : State) (a : Aid) (kill returns : Bool) : State :=
  match s.act a with
  | none => s
  | some x =>
    let members := s.crew x
    let lead := members.headD x
    let w := lead.weight + (members.map Act.childWeight).sum
    let s1 : State := members.foldl (fun t y => t.free y.id kill) s
    let s2 : State := { s1 with gangs := s1.gangs.filter fun (g : Gang) => !(g.fn == a.fn && members.any fun y => g.lead == y.id.serial) }
    if returns then s2.giveWeight a.fn lead.region w else s2

/-- Whether an activity that a handler, a policy or a kill retires gives its weight back: not after a record-integrity
fault of its record (R366, R436). -/
def Act.returnsWeight (x : Act) : Bool :=
  match x.fault with
  | some r => r.cause != .recordIntegrity || r.origin != 4
  | none => true

/-- Kills the activities of a set of regions and marks the regions killed (R330, R365). An entry of them that fails its
check code when it is read for the kill is recorded (R23); its fault domain dies with it. -/
def State.killRegions (s : State) (target : KillTarget) (v : Nat) (ids : List Nat) (entry : Option Nat) : State :=
  let s1 : State := s.modFn v fun f =>
    { f with regions := f.regions.map fun r => if ids.contains r.idx && s.regionInUse v r then { r with rstate := .killed } else r }
  let victims := s1.acts.filter fun x => x.id.fn == v && ids.contains x.region
  let s2 : State := { s1 with kills := s1.kills ++ [⟨target, ids, victims.map (·.id), entry⟩] }
  let s3 : State := ((s.fn v).regions.filter fun r => ids.contains r.idx && s.regionInUse v r && r.bad).foldl
    (fun (t : State) r => t.logEntry v r.idx) s2
  victims.foldl (fun t x => t.retire x.id true ((t.crew x).all Act.returnsWeight)) s3

/-- The launch queue of a region, data 1 of a type 04h entry (R370). -/
def State.queueOf (s : State) (v g : Nat) : Nat := (((s.fn v).region g).map (·.lq)).getD 0

/-- KillTree (R365). -/
def State.killTree (s : State) (v d : Nat) (entry : Option Nat) : State :=
  let f := s.fn v
  let ids := ((f.regions.filter fun r => s.regionInUse v r && f.within r.idx d).map (·.idx))
  (s.killRegions (.tree v d) v ids entry).log 4 4 0x1FFF v 0 1 [BitVec.ofNat 64 d, BitVec.ofNat 64 (s.queueOf v d)]

/-! ### Taking a fault (R10, R55, R217, R360, R361, R363, R364) -/

/-- The number of a cause (R361). -/
def Cause.code (c : Cause) : Nat :=
  match c with
  | .illegalEncoding => 1 | .illegalEntry => 2 | .collision => 3 | .multipleExit => 4 | .missingExit => 5
  | .incomplete => 6 | .repeatCount => 7 | .translation1 => 8 | .translation2 => 9 | .loanRights => 10
  | .carrelRights => 11 | .misalignment => 12 | .bankFormat => 13 | .shape => 14 | .tagBusy => 15 | .luggage => 16
  | .meetingState => 17 | .danglingFrame => 18 | .environmentWord => 19 | .refcount => 20 | .applyStack => 21
  | .environmentBudget => 22 | .weight => 23 | .gangDivergence => 24 | .tilesLive => 25 | .strictCode => 26
  | .recordIntegrity => 27 | .regionState => 28 | .privilege => 29 | .dataError => 30 | .trap => 31 | .hcall => 32

/-- The four words of a fault record (R360). -/
def FaultRec.words (r : FaultRec) : List Word :=
  [BitVec.ofNat 64 (r.block / 16 * 16),
   BitVec.ofNat 64 (r.cause.code * 2 ^ 56 + r.slot % 256 * 2 ^ 48 + r.member % 16 * 2 ^ 44 + r.origin * 2 ^ 40 +
     r.serial % 2 ^ 32),
   r.a, r.b]

/-- Owner(g) of R363: the nearest region from g upwards that owns a fault domain. -/
def Func.owner (f : Func) (g : Nat) : Option Region := (f.chain g).find? fun r => r.owns 7

/-- SpawnHandler (R364): none when the root has no free record. -/
def State.spawnHandler (s : State) (v d : Nat) (serial : Nat) (words : List Word) (s2 : Option Word) : Option State :=
  match (s.fn v).region d with
  | none => none
  | some r =>
    if !(s.recordFree v d) then none
    else
      let n := s.newSerial v
      let p := n.2.takeRecord v d
      let x0 := Act.fresh ⟨v, n.1⟩ d ((s.fn v).baseprio d) 1 Config.noHint
      let x := { x0 with
        recAt := p.1
        weight := Config.grant, resume := r.handler, entry := .handler, flt := words, handler := some d
        readyAt := s.time, readySeq := s.fresh
        s := (let q := setReg (setReg x0.s 0 r.harg) 1 (BitVec.ofNat 64 serial)
          match s2 with | some w => setReg q 2 w | none => q) }
      let t : State := p.2.modRegion v d fun q => { q with issued := (q.issued + Config.grant) % 2 ^ 64 }
      some (({ t.tick.2 with acts := t.acts ++ [x.stamp] } : State).enqueue x.id)

/-- The resolution of R363: handler, escalation, kill of a tree, or retirement of the activity. `up` marks that the walk
starts at the escalation of `d`. -/
def resolveAux (a : Aid) (words : List Word) : Nat → State → Bool → Nat → State
  | 0, s, _, _ => s
  | k + 1, s, up, g =>
    let f := s.fn a.fn
    match f.owner g with
    | none => s
    | some d =>
      let escalate : State :=
        match d.parent with
        | none => s.killTree a.fn d.idx none
        | some p => resolveAux a words k s false p
      if up then escalate
      else if d.rstate == .killed then s
      else
        match d.policy with
        | 0 =>
          if d.handler ≠ 0 then
            match s.spawnHandler a.fn d.idx a.serial words none with
            | some t => t
            | none => escalate
          else escalate
        | 1 => escalate
        | 2 => s.killTree a.fn d.idx none
        | _ => (match s.act a with
          | some x =>
            (s.logAct x 4 2 [BitVec.ofNat 64 x.region, BitVec.ofNat 64 (s.queueOf a.fn x.region)]).retire a true x.returnsWeight
          | none => s)

/-- A record-integrity fault with the address of what failed (R366). -/
def integrityFault (serial member : Nat) (addr : Word) : FaultRec :=
  ⟨0, .recordIntegrity, 255, member, 4, serial, addr, 0⟩

/-- An entry of the region table fails its check code where it is read for no activity (R23): the event is recorded, and
unless its region has been killed its fault domain receives a record-integrity fault, which names serial 0 (DESIGN
CHOICE, assumption log 80). -/
def State.entryFault (s : State) (v g : Nat) : State :=
  let t : State := s.logEntry v g
  if ((s.fn v).region g).all fun r => r.rstate == .killed then t
  else
    let w := (integrityFault 0 0 (BitVec.ofNat 64 ((s.fn v).rcbAt g))).words
    resolveAux ⟨v, 0⟩ w 20 (t.log 4 1 0x1FFF v 0 Cause.recordIntegrity.code w) false g

/-- The walk of R363 for a fault of an activity: from its region, or for a fault of a handler's activity from the
escalation of the region that it handles. -/
def State.resolveFrom (s : State) (x : Act) (words : List Word) : State :=
  match x.handler with
  | some d => resolveAux x.id words 20 s true d
  | none => resolveAux x.id words 20 s false x.region

/-- Resolves the fault of an activity (R363, R405) and writes the black-box entry (R370 type 01h). A region table entry
that fails its check code when the walk reads it is recorded, and the fault domain receives a record-integrity fault
after the fault itself (R23; the order is a DESIGN CHOICE, assumption log 80); an integrity fault walks over entries
known to be bad. -/
def State.resolve (s : State) (x : Act) (r : FaultRec) : State :=
  if r.cause == .hcall then
    let d := (s.fn 0).cfg.hcrgn
    let s : State := ((((s.fn 0).chain d).find? (·.bad)).map fun q => s.entryFault 0 q.idx).getD s
    let ok : Bool := match (s.fn 0).region d with | some q => q.rstate == .open | none => false
    match (if ok then s.spawnHandler 0 d x.id.serial r.words (some (BitVec.ofNat 64 x.id.fn)) else none) with
    | some t => t
    | none => s.logAct x 1 r.cause.code r.words
  else
    let t : State := (s.logAct x 1 r.cause.code r.words).resolveFrom x r.words
    match (if r.cause == .recordIntegrity && r.origin == 4 then none else s.badEntry x) with
    | none => t
    | some e =>
      let q := integrityFault r.serial r.member (BitVec.ofNat 64 e)
      ((t.logAct x 0x0D 0 [q.a]).logAct x 1 q.cause.code q.words).resolveFrom x q.words

/-- Whether a function is in step 2 of a pre-emption (R355, R368). -/
def State.preempting (s : State) (v : Nat) : Bool := (s.fn v).preempt.isSome

/-- TAKING A FAULT: the activity, or its gang as a whole, leaves its meeting (R55), becomes faulted with its record and
leaves its slot, its record written (the black-box entry names the core it was on, R369); its execution has no effect;
the trap of a block that also called the hypervisor is kept (R332); the fault is resolved at once, or at the restore
when the function is being pre-empted (R368). -/
def State.takeFault (s : State) (a : Aid) (r0 : FaultRec) : State :=
  match s.act a with
  | none => s
  | some x =>
    let members := s.crew x
    let lead := (members.headD x).id
    let r := { r0 with serial := lead.serial }
    let s1 : State := members.foldl (fun (t : State) (y : Act) =>
      let t1 : State := ((t.dequeue y.id).leaveMeeting y.id .parted).modAct y.id fun z => { z with
        run := .faulted, flight := none, wkind := .none, wop := 0, wmask := 0,
        trap := if r.cause == .hcall then z.trap else none }
      let t2 : State := (match t1.act y.id with | some z => t1.sweepReserved z | none => t1).unplaceEnvs y.id
      if y.place.isSome then t2.writeRecord y.id else t2.stamp y.id) s
    let shape := (s.gangOf x).map (·.shape)
    let s2 : State := s1.modAct lead fun z => { z with fault := some r, reshape := shape, unsolved := s.preempting a.fn }
    let s3 : State := { s2 with gangs := s2.gangs.map fun (g : Gang) =>
      if g.fn = a.fn ∧ g.lead = lead.serial then { g with site := none } else g }
    let s4 : State := s3.finishUnseals a.fn
    match s4.act lead with
    | none => s4
    | some y => if y.unsolved then s4 else s4.resolve { y with place := (members.headD x).place } r

/-! ### Records and region entries that fail their check code (R12, R23, R366) -/

/-- What fails its check code when the device reads an activity's record and the entries of its regions to place it (R12,
R23): the address, the record first. -/
def State.badRead (s : State) (x : Act) : Option Nat := if recordOk x.record then s.badEntry x else some x.recAt

/-- A record or an entry of the region table fails its check code (R12, R23, R366): the activity that it was read for
faults with origin 4, and the event is recorded with the address of what failed. -/
def State.recordFault (s : State) (x : Act) (at_ : Nat) : State :=
  let addr : Word := BitVec.ofNat 64 at_
  (s.logAct x 0x0D 0 [addr]).takeFault x.id (integrityFault x.id.serial (memberOf x) addr)

/-- The check of the entries of an activity's regions where an operation for it has read them (R23). -/
def State.entriesRead (s : State) (x : Act) : State :=
  match s.badEntry x with
  | none => s
  | some e => s.recordFault x e

/-! ### Traps at the end of a wait (R256) -/

/-- Raises the trap of an activity whose wait has ended, or whose block has committed. -/
def State.raiseTrap (s : State) (x : Act) : State :=
  match x.trap with
  | none => s
  | some (num, block, slot) =>
    s.takeFault x.id ⟨block, .trap, slot, memberOf x, 1, x.id.serial, BitVec.ofNat 64 num, BitVec.ofNat 64 x.resume⟩

/-- Whether an activity became ready and entered no queue, because the region entries read for it failed (R23). -/
def State.unqueued (s : State) (x : Act) : Bool :=
  x.run == .ready && x.place.isNone && x.queued == .no && !x.saved && (s.badEntry x).isSome

/-- Raises every trap whose wait has ended, then the fault of every activity that could not be queued. -/
def State.settleAux : Nat → State → State
  | 0, s => s
  | k + 1, s =>
    match s.acts.find? fun x => x.run == .waiting && x.wkind == .none && x.trap.isSome with
    | some x => State.settleAux k (s.raiseTrap x)
    | none =>
      match s.acts.find? s.unqueued with
      | some x => State.settleAux k (s.entriesRead x)
      | none => s

/-- The end of every event: traps whose waits have ended are raised, and the record-integrity faults of activities that
became ready in regions whose entries fail their check codes; a handler spawned for one may be faulted in turn. -/
def State.settle (s : State) : State := State.settleAux (s.acts.length + 16) s

/-- The search of a function's region table for a free entry reads the entries in use below the one it takes (R22, R23,
R345; DESIGN CHOICE, assumption log 80). -/
def State.searchEntries (s : State) (v g : Nat) : State :=
  match (s.fn v).regions.filter fun r => decide (r.idx < g) && r.bad && s.regionInUse v r with
  | [] => s
  | bad => (bad.foldl (fun (t : State) r => t.entryFault v r.idx) s).settle

end Sys2Proof.Machine
end

