-- ==== Sys2Proof/Machine/Regions.lean ====
section
/-!
DEFINITION. Bringing regions into use and creating activities (R22, R23, R27 to R29, R93, R295 to R297, R345): the
RCB image, TakeRegion, and the child of a SPAWN or of a completion closure.
-/
namespace Sys2Proof.Machine

/-! ### The RCB image (R22) -/

/-- A little-endian word of a list of bytes. -/
def wordOf (bs : List Byte) (off : Nat) : Nat := leNat ((bs.drop off).take 8)

/-- Bit ranges of the D fields, by word offset. -/
def rcbDevice : List (Nat × Nat × Nat) :=
  [(0x00, 7, 2), (0x10, 31, 0), (0x18, 31, 0), (0x20, 31, 0), (0x28, 47, 16), (0x40, 63, 0), (0x48, 63, 0),
   (0x60, 63, 6), (0x68, 63, 0), (0x70, 63, 6), (0x78, 31, 0), (0x80, 63, 0), (0x88, 31, 0), (0x90, 63, 58)]

/-- A word with the given bit range zero. -/
def zeroBits (w hi lo : Nat) : Nat := w - bits w hi lo * 2 ^ lo

/-- The image with every D field zero, 00h to F7h. -/
def rcbBody (img : List Byte) : List Byte :=
  (upFrom 0 31).flatMap fun i =>
    leBytes 8 ((rcbDevice.filter fun d => d.1 = 8 * i).foldl (fun w d => zeroBits w d.2.1 d.2.2) (wordOf img (8 * i)))

/-- Whether the image's check code is right (R22, R23). -/
def rcbCheckOk (img : List Byte) : Bool := crc16 (rcbBody img) == wordOf img 0xF8 % 65536

/-- The other checks of R296: rstate, policy, override bits, capacity of the ready queue. -/
def rcbOk (img : List Byte) : Bool :=
  bits (wordOf img 0) 4 2 == 0 && decide (bits (wordOf img 8) 34 32 < 4) && bits (wordOf img 8) 31 25 == 0 &&
    decide (4 ≤ bits (wordOf img 0x60) 5 0) && decide (bits (wordOf img 0x60) 5 0 ≤ 20)

/-- The region that an image describes, with the D fields as they are at the creation (R27, R296, R345). -/
def rcbRegion (img : List Byte) (idx : Nat) (parent : Option Nat) (level lq : Nat) : Region :=
  let w := wordOf img
  { idx := idx, parent := parent, level := level, rstate := .open, strict := bit (w 0) 1,
    slotb := bits (w 8) 63 48, acreb := bits (w 8) 47 39, bprio := bits (w 8) 38 35, policy := bits (w 8) 34 32,
    ovr := BitVec.ofNat 16 (bits (w 8) 31 16), pageb := bits (w 0x10) 63 32, pageu := 0,
    envb := bits (w 0x18) 63 32, envu := 0, keyb := bits (w 0x20) 63 32, keyu := 0, power := bits (w 0x28) 63 48,
    handler := bits (w 0x30) 63 4 * 16, harg := BitVec.ofNat 64 (w 0x38), issued := Config.rootWeight, returned := 0,
    notice := BitVec.ofNat 64 (bits (w 0x50) 63 3 * 8), nval := BitVec.ofNat 64 (w 0x58),
    rqlog := bits (w 0x60) 5 0, rqhead := 0, rqtail := 0, rchain := [], rcount := bits (w 0x78) 63 32, rfree := 0, share := bits (w 0x88) 63 32, deficit := 0,
    lq := lq, held := 0, devp := [], bad := false }

/-- TakeRegion (R296): the new region's index and the state with it in the table; `held` is the weight taken for it in
the spawner's region, `recs` the environment records that its root will hold: a budget of the image's own that cannot
take them comes first, as R297 orders the faults (DEDUCED, assumption log 90: also where the image is misaligned,
outside a loan or wrong by its check code). -/
def State.takeRegion (s : State) (x : Act) (addr held recs : Nat) : Except Flt (Nat × State) := do
  let v := x.id.fn
  let img := s.vaRead v addr 256
  if bit (wordOf img 8) 19 && decide (bits (wordOf img 0x18) 63 32 < recs) then
    throw (fltA .environmentBudget ((s.freeRegion v).getD x.region))
  if addr % 256 ≠ 0 then throw (fltA .misalignment addr)
  if !((upFrom addr 256).all fun a => x.inLoan (a : Int)) then throw (fltA .loanRights addr)
  if !rcbCheckOk img then throw (fltA .recordIntegrity addr)
  let bad := fltA .regionState addr
  let f := s.fn v
  let level := match f.region x.region with | some r => r.level | none => 0
  if !rcbOk img ∨ 6 < level then throw bad
  match s.freeRegion v with
  | none => throw bad
  | some g =>
    if !s.recordFree v x.region then throw bad
    let lq := match f.region x.region with | some r => r.lq | none => 0
    let s1 : State := s.putRegion v { rcbRegion img g (some x.region) (level + 1) lq with held := held }
    match s1.takeDevice v g (queuePages (bits (wordOf img 0x60) 5 0)) with
    | none => throw bad
    | some (ps, s2) => return (g, s2.modRegion v g fun r => { r with devp := ps, envu := recs })

/-! ### Children (R93, R295) -/

/-- The address that a handle enters. -/
def Handle.addr (h : Handle) : Nat := h.entry.toNat * 64

/-- The first by-reference word of an environment. -/
def Env.firstRef (e : Env) : Word :=
  match (upFrom 0 e.words).find? fun w => e.kinds.getD w 0 = 1 with
  | some w => e.vals.getD w 0
  | none => 0

/-- The checks of a closure about to become an activity (R89, R93, R96): its environment, if it has one. `way` is the
way number of R361. A detected error in a record that the copy would read is a data error of the slot (R362, R426;
DEDUCED, assumption log 91: beside the stale handle, before what the words say). -/
def State.checkChild (s : State) (x : Act) (h : Handle) : Except Flt (Option Env) := do
  if h.kind == .empty then throw (fltAB .illegalEntry h.addr 3)
  if s.stale x h then throw (fltA .recordIntegrity x.recAt)
  match (s.envOf x h).bind Env.firstBad with
  | some w => throw (fltA .dataError (8 * w))
  | none => pure ()
  let _ ← s.enter x.id.fn x.acre h.addr (.closure (s.envWords x h)) false 3
  match s.envOf x h with
  | none => return none
  | some e =>
    if e.hasRef then throw ⟨.danglingFrame, e.firstRef, BitVec.ofNat 64 x.stack.length⟩
    return some e

/-- The use of a closure's environment by a SPAWN or a completion closure (R86, R87). -/
def State.useClosure (s : State) (a : Aid) (h : Handle) : Except Flt State :=
  match s.act a with
  | none => .ok s
  | some x =>
    match s.useEnv x h with
    | some t => .ok t
    | none => .error ⟨.environmentBudget, BitVec.allOnes 64, 0⟩

/-- The region of a chain whose environment budget cannot take `n` more records (R79). -/
def Func.envFull (f : Func) (g n : Nat) : Option Nat :=
  ((f.chain g).find? fun r => r.owns 3 && decide (r.envb < r.envu + n)).map (·.idx)

/-- Charges environment records to a region chain. -/
def State.chargeEnv (s : State) (v g n : Nat) : State := s.modChain v g fun r => { r with envu := r.envu + n }

/-- The charge of a child's environment copy (R79). -/
def State.envCharge (s : State) (v g : Nat) (e : Option Env) : Except Flt State :=
  let n := match e with | some e => envRecs e.words | none => 0
  if n = 0 then .ok s
  else
    match (s.fn v).envFull g n with
    | some r => .error (fltA .environmentBudget r)
    | none => .ok (s.chargeEnv v g n)

/-- A created activity at a closure's entry (R93). DESIGN CHOICE (assumption log 107): until its first dispatch the copy
of the environment stands in its frame's list, and no page is charged for it. -/
def Act.closureChild (x : Act) (entry : BitVec 42) (e : Option Env) : Act :=
  { x with
    resume := entry.toNat * 64
    entry := .closure (match e with | some e => e.words | none => 0)
    env := match e with | some _ => ⟨.spilled, 0, 0, entry⟩ | none => Handle.none
    frameEnv := match e with | some e => [e.childCopy x.id.serial] | none => [] }

/-- Adds a created activity, ready now, its record written and queued (R10, R11, R22). -/
def State.addAct (s : State) (x : Act) : State :=
  ({ s with
    acts := s.acts ++ [{ x with run := .ready, readyAt := s.time, readySeq := s.fresh }.stamp]
    fresh := s.fresh + 1 } : State).enqueue x.id

/-- SPAWN at the commit (R295, R297), its faults in the order of R297. `x0` is the spawner as committed before its block,
`lead` the activity whose weight is drawn. -/
def State.commitSpawn (s : State) (x0 : Act) (lead : Aid) (c banks child : Nat) (share image : Option Word) :
    Except Flt State := do
  let v := x0.id.fn
  let x := (s.act x0.id).getD x0
  x.regOk .c c
  let h := x.c.toList.getD c Handle.none
  let e ← s.checkChild x h
  let (w, s1) ← s.takeWeight lead share
  let s2 ← (← s1.envCharge v x0.region e).useClosure x0.id h
  let (g, s3) ← (match image with
    | none => pure (x0.region, s2)
    | some a =>
      s2.takeRegion ((s2.act x0.id).getD x0) a.toNat w (match e with | some e => envRecs e.words | none => 0))
  if !s3.recordFree v x0.region then throw ⟨.regionState, image.getD 0, 0⟩
  let hint := match x0.place with | some p => p.core | none => Config.noHint
  let p := s3.takeRecord v g
  let y := (Act.fresh ⟨v, child⟩ g ((s3.fn v).baseprio g) banks hint).closureChild h.entry e
  let y := { y with
    recAt := p.1
    weight := if image.isSome then Config.rootWeight else w
    s := setReg y.s 15 (BitVec.ofNat 64 x0.id.serial) }
  return p.2.addAct y

/-- A copy command at the commit (R114, R284): `x0` is the issuer as committed before its block. -/
def State.commitCopy (s : State) (x0 : Act) (lead : Aid) (kind : CopyKind) (tag : Nat) (clo : Option Nat) (off : Nat) :
    Except Flt State := do
  let x := (s.act x0.id).getD x0
  let c ← s.buildCopy x kind tag s.fresh off
  let (child, s1) ← (match clo with
    | none => pure (none, s)
    | some k => do
      x.regOk .c k
      let h := x.c.toList.getD k Handle.none
      let e ← s.checkChild x h
      let t ← (← s.envCharge x0.id.fn x0.region e).useClosure x0.id h
      if !t.recordFree x0.id.fn x0.region then throw (fltA .regionState 0)
      let p := t.takeRecord x0.id.fn x0.region
      let (w, t) ← p.2.takeWeight lead none
      pure (some ⟨h.entry, e, w, p.1⟩, t))
  let b : Word := BitVec.ofNat 64 (2 ^ tag)
  return s1.tick.2.modAct x0.id fun y => { y with
    copies := y.copies ++ [{ c with child := child }]
    tags := y.tags &&& ~~~b
    tagerr := y.tagerr &&& ~~~b }

end Sys2Proof.Machine
end

