-- ==== Sys2Proof/Machine/Sched.lean ====
section
/-!
DEFINITION. Placing activities: eligibility, the dispatch choice, restoring a context, writing one back, the cores of
meetings and the places of gangs (R12, R18 to R21, R24, R26, R36, R44, R45, R299, R350 to R354).
-/
namespace Sys2Proof.Machine

/-! ### Slot and acre budgets (R24, R350) -/

/-- Whether `n` more slots fit the slot budgets of a region chain (R24). -/
def State.slotBudgetFits (s : State) (v g n : Nat) : Bool :=
  ((s.fn v).chain g).all fun r => !r.owns 0 || decide (s.slotu v r.idx + n ≤ r.slotb)

/-- Whether `n` more slots, in the given acres, fit the slot and acre budgets of a region chain. -/
def State.slotsFit (s : State) (v g n : Nat) (acres : List Nat) : Bool :=
  s.slotBudgetFits v g n && ((s.fn v).chain g).all fun r =>
    (!r.owns 1 ||
      let used := s.acresOf v r.idx
      let new := (acres.eraseDups.filter fun a => !used.contains a).length
      decide (used.length + new ≤ r.acreb))

/-- The free carrel banks that an activity needs on a core (R49, R350): the banks that it left there itself are its own,
and one that is still in a meeting that it travelled to brings its luggage alone. -/
def Act.banksNeeded (x : Act) (inMeeting : Bool) (c : Nat) : Nat :=
  if inMeeting then x.banksHere
  else x.banks - (match x.behind with | some (d, n) => if d = c then n else 0 | none => 0)

/-- Records that the restore of an activity needs: its current environment's (R87). -/
def State.restoreRecs (s : State) (x : Act) : Nat :=
  match s.envOf x x.env with
  | some e => envRecs e.words
  | none => 0

/-- Whether a function's activities may run: enabled, running, not being pre-empted (R350, R355). -/
def State.fnRuns (s : State) (v : Nat) : Bool :=
  let f := s.fn v
  f.state == .running && f.preempt.isNone && !s.stopped

/-- Whether a function is on the part: running, or being committed or saved. -/
def State.fnOn (s : State) (v : Nat) : Bool := (s.fn v).state == .running || (s.fn v).state == .changing

/-- Whether a block in flight may still commit or fault: outside a pre-emption, or within 4 µs of its request (R355 step
2). -/
def State.mayEnd (s : State) (v : Nat) : Bool :=
  match (s.fn v).preempt with
  | none => true
  | some p => !p.closed && decide (s.time ≤ p.since + 4000)

/-- A ready single activity that waits for a slot. -/
def Act.waitsSlot (x : Act) : Bool := x.run == .ready && x.place.isNone && x.reshape.isNone && x.gang.isNone && !x.saved

/-- A party of a meeting must run on its partner's core (R73). -/
def State.partnerCore (s : State) (x : Act) : Option Nat :=
  match x.meet with
  | some m => if m.begun then ((s.act m.partner).bind fun y => y.place).map (·.core) else none
  | none => none

/-- Whether a ready activity may be dispatched to a core, a free slot aside (R350). -/
def State.mayRunOn (s : State) (x : Act) (c : Nat) : Bool :=
  x.waitsSlot && s.fnRuns x.id.fn && ((s.fnCores x.id.fn).contains c || s.partnerCore x == some c) &&
    s.slotsFit x.id.fn x.region 1 [acreOf c] && (s.makeBanks c (x.banksNeeded x.inMeeting c)).isSome &&
    (s.makeRoom c (s.restoreRecs x)).isSome &&
    (match s.partnerCore x with | some d => d == c | none => true)

/-- Eligibility for a free slot (R350). -/
def State.eligible (s : State) (x : Act) (c : Nat) : Bool := (s.freeSlot c).isSome && s.mayRunOn x c

/-! ### Restoring and writing back -/

/-- The meeting of a placed party is on its core (R44, R73). -/
def State.meetingAt (s : State) (a : Aid) (c : Nat) : State :=
  { s with meetings := s.meetings.map fun m => if m.first = a ∨ m.second = a then { m with core := c } else m }

/-- Places an activity in the lowest free slot of a core and restores its context (R352): the current environment is
reloaded, frame pages that are no longer needed return, its banks come together unless it is still in a meeting that it
travelled to (R49). -/
def State.placeAct (s : State) (a : Aid) (c : Nat) : State :=
  let s := s.dequeue a
  match s.act a, s.freeSlot c with
  | some x, some k =>
    let s := (s.makeBanks c (x.banksNeeded x.inMeeting c)).getD s
    let x := (s.act a).getD x
    let t : State := (s.setAct { x with
      place := some ⟨c, k⟩, attempts := 0
      behind := if x.inMeeting then x.behind else none
      framed := if x.inMeeting then x.framed else 0 }).modCore c fun q =>
      { q with gated := false }
    let t : State := if x.env.kind == .spilled then (t.reload a x.env.index.toNat).getD t else t
    ((t.meetingAt a c).shrinkFrame a).refreshEnvu a.fn
  | _, _ => s

/-- The end of an activity's stay in a slot as its record has it: environments to the frame, the hint the core it
leaves (R20, R352), a fresh check code (R14). -/
def State.unplace (s : State) (a : Aid) : State :=
  ((s.modAct a fun x => { x with hint := match x.place with | some p => p.core | none => x.hint }).unplaceEnvs a).writeRecord a

/-- Registers that the live masks do not name read as zero after the resume, C registers as empty (R20). -/
def Act.dropDead (x : Act) : Act :=
  let keep {α : Type} (n : Nat) (live : Nat → Bool) (v : Vector α n) (z : α) : Vector α n :=
    (upFrom 0 n).foldl (fun w i => if live i then w else setReg w i z) v
  { x with
    s := keep 32 (fun i => x.lives.getLsbD i) x.s 0
    v := keep 32 (fun i => x.livev.getLsbD i) x.v 0
    m := keep 8 (fun i => x.livem.getLsbD i) x.m 0
    c := keep 8 (fun i => x.livec.getLsbD i) x.c Handle.none
    bad := x.bad.filter fun b => match b with
      | .register _ .s n => x.lives.getLsbD n
      | .register _ .v n => x.livev.getLsbD n
      | .register _ .m n => x.livem.getLsbD n
      | .register _ .c n => x.livec.getLsbD n
      | _ => true }

/-- Environment records that an activity references in its core's store. -/
def State.storeRecs (s : State) (x : Act) : Nat :=
  match x.place with
  | none => 0
  | some p => (((s.core p.core).envs.filter fun e => 0 < x.refs e.1).map fun e => envRecs e.2.words).sum

/-- Live tiles of the gang in member order's share: all of them count for member 0 (R20). -/
def State.liveTileCount (s : State) (x : Act) : Nat :=
  match s.gangOf x with
  | some g => if memberOf x = 0 then (g.tiles.map fun ts => (ts.filter (·.live)).length).sum else 0
  | none => 0

/-- Writes back one resident waiting activity; none when the page budget cannot hold its frame (R21). -/
def State.writeBackOne (s : State) (a : Aid) : Option State :=
  match s.act a with
  | none => none
  | some x =>
    let y := x.dropDead.sweepFrame.maskSaved
    let s1 : State := s.setAct y
    let s1 : State := match x.place with | some p => s1.recount p.core | none => s1
    let recs := s1.storeRecs y + (y.frameEnv.map fun e => envRecs e.words).sum
    match s1.growFrame a (y.saveBytes recs (s1.liveTileCount y)) with
    | none => none
    | some t => some ((t.unplace a).refreshEnvu a.fn)

/-- Writes back an activity, a gang as a whole (R19, R21). -/
def State.writeBackAll (s : State) (a : Aid) : Option State :=
  match s.act a with
  | none => none
  | some x =>
    let members := s.crew x
    let shape := (s.gangOf x).map (·.shape)
    let r : Option State := members.foldl (fun (o : Option State) (y : Act) => match o with
      | none => none
      | some t => t.writeBackOne y.id) (some s)
    r.map fun u =>
      let t : State := { u with gangs := u.gangs.map fun (g : Gang) =>
        if shape.isSome && g.fn == a.fn && members.any (fun y => g.lead == y.id.serial) then { g with site := none }
        else g }
      let t : State := match members with
        | [] => t
        | lead :: _ => t.modAct lead.id fun y => { y with reshape := shape }
      members.foldl (fun (v : State) y => v.writeRecord y.id) t

/-- Whether a party has been paired and placed (R336): it waits resident until the meeting begins. -/
def Act.paired (x : Act) : Bool := match x.meet with | some m => m.partner.serial != 0 | none => false

/-- Whether a resident waiting activity may be written back (R19, R55, R336): a party of a placed pair or of a meeting
never; a gang only when every member waits. -/
def State.mayWriteBack (s : State) (x : Act) : Bool :=
  x.place.isSome && !x.inMeeting && !x.paired && x.wkind != .none && !x.saved &&
    (s.crew x).all fun y => y.run == .waiting && y.wkind != .none

/-- Insertion into a rising list. -/
def insertNat (a : Nat) : List Nat → List Nat
  | [] => [a]
  | b :: l => if a ≤ b then a :: b :: l else b :: insertNat a l

/-- A list in rising order. -/
def sortNat (l : List Nat) : List Nat := l.foldr insertNat []

/-- Luggage banks of a party. -/
def Act.lugBanks (x : Act) : Nat := match x.meet with | some m => m.lugCount | none => 0

/-- Whether a party's copies leave its luggage alone (R48, R138). -/
def Act.lugQuiet (x : Act) : Bool := match x.meet with | some m => x.banksQuiet m.lugFirst m.lugCount | none => true

/-- The parties that a core would take in: those that are not there yet. -/
def newTo (c : Nat) (ps : List Act) : List Act :=
  ps.filter fun x => !(match x.place with | some p => p.core == c | none => false)

/-- Whether the parties that come to a core fit the slot budgets of their regions and of every ancestor together (R24,
R44): one that travels gives up its slot. -/
def State.pairSlotsFit (s : State) (c : Nat) (ps : List Act) : Bool :=
  let new := newTo c ps
  new.all fun x => ((s.fn x.id.fn).chain x.region).all fun r => !r.owns 0 ||
    decide (s.slotu x.id.fn r.idx + (new.filter fun y =>
      y.place.isNone && y.id.fn == x.id.fn && (s.fn x.id.fn).within y.region r.idx).length ≤ r.slotb)

/-- Whether a core qualifies for the parties that must be placed there (R44); all of them travel. -/
def State.qualifies (s : State) (c : Nat) (cores : List Nat) (ps : List Act) : Bool :=
  let new := newTo c ps
  cores.contains c &&
    decide (new.length ≤ 4 - (s.onCore c).length) &&
    s.pairSlotsFit c ps &&
    (s.makeBanks c (new.map Act.lugBanks).sum).isSome &&
    decide ((new.map fun x => if x.place.isSome then s.storeRecs x else s.restoreRecs x).sum ≤ (s.core c).freeRecords)

/-- The meeting core by the table of R44. -/
def State.meetingCore (s : State) (x y : Act) (home : Nat) : Option Nat :=
  let cores := s.fnCores x.id.fn ++ s.fnCores y.id.fn
  let at_ (z : Act) : Option Nat := z.place.map (·.core)
  let one : Option Nat := (at_ x).filter fun c => s.qualifies c cores [y]
  let two : Option Nat := (at_ y).filter fun c => s.qualifies c cores [x]
  let three : Option Nat := if s.qualifies home cores [x, y] then some home else none
  let ref := match at_ x with | some c => c | none => if x.hint = Config.noHint then home else x.hint
  let all := (sortNat cores).filter fun c => s.qualifies c cores [x, y]
  let near := [all.find? fun c => acreOf c == acreOf ref, all.find? fun c => dieOf c == dieOf ref, all.head?]
  (one.or two).or (three.or (near.findSome? id))

/-! ### Places for gangs (R354) -/

/-- The cores of a candidate site: a quadrant (acre × 4 + quadrant) or an acre. -/
def siteCores (shape : Shape) (site : Nat) : List Nat :=
  match shape with
  | .quad => upFrom (4 * site) 4
  | .acre => upFrom (16 * site) 16

/-- The candidate sites of a function's quadrant set: an acre only when its four quadrants lie in the set. -/
def State.sites (s : State) (v : Nat) (shape : Shape) : List Nat :=
  let cs := s.fnCores v
  let all := match shape with
    | .quad => (cs.map (· / 4)).eraseDups
    | .acre => ((cs.map acreOf).eraseDups).filter fun a => (siteCores .acre a).all cs.contains
  all

/-- Whether a site's cores all grant a slot for a gang whose member 0 is `x` (R354): its own slot counts as free. -/
def State.siteFits (s : State) (x : Act) (shape : Shape) (site : Nat) (banks : Nat → Nat) : Bool :=
  let cs := siteCores shape site
  let own (c : Nat) : Bool := match x.place with | some p => p.core == c | none => false
  let extra := cs.length - (if x.place.isSome then 1 else 0)
  ((upFrom 0 cs.length).zip cs).all (fun p =>
    ((s.freeSlot p.2).isSome || own p.2) &&
      (s.makeBanks p.2 (banks p.1 - (if own p.2 then x.banks else 0))).isSome) &&
    s.slotsFit x.id.fn x.region extra (match shape with
      | .acre => cs.map acreOf
      | .quad => cs.map acreOf)

/-- The first fitting site in the order of R354: member 0's present or hint core, then its acre, its die, then any. -/
def State.chooseSite (s : State) (x : Act) (shape : Shape) (banks : Nat → Nat) : Option Nat :=
  let ref := match x.place with | some p => p.core | none => x.hint
  let fit := (sortNat (s.sites x.id.fn shape)).filter fun q => s.siteFits x shape q banks
  let near (k : Nat) (q : Nat) : Bool :=
    let c := (siteCores shape q).headD 0
    match k with
    | 0 => (siteCores shape q).contains ref
    | 1 => acreOf c == acreOf ref
    | 2 => dieOf c == dieOf ref
    | _ => true
  (upFrom 0 4).findSome? fun k => fit.find? (near k)

/-! ### Claims to a core (R19, R36, R45, R299) -/

/-- A claim to a core: what waits for a place that the core can give, by its priority, and whether it has a place to go
to as things stand. -/
structure Claim where
  prio : Nat
  has  : Bool

/-- The state once activities on some cores have left them, with their slots, banks and records (R19, R36). -/
def State.without (s : State) (cs : List Nat) (gone : Act → Bool) : State :=
  let t : State := { s with acts := s.acts.map fun x =>
    if (match x.place with | some p => cs.contains p.core | none => false) && gone x then { x with place := none } else x }
  cs.foldl (fun (u : State) c => u.recount c) t

/-- Whether a ready activity has a free slot to go to (R19, R36). -/
def State.hasSlot (s : State) (x : Act) : Bool := (s.fnCores x.id.fn).any fun c => s.eligible x c

/-- Whether a gang waits in SPLIT for commands that only its place lets act (R301). -/
def State.splitPending (s : State) (x : Act) : Bool :=
  (s.gangOf x).any fun g => g.cmds.any MCmd.pending && (s.crew x).all fun y => y.run == .waiting && y.wkind == .split

/-- The lead of a ready gang that has no place (R354), or of one that waits in SPLIT and has none: its matrix commands
complete on a place alone, so it takes one while it waits (DESIGN CHOICE, assumption log 101). -/
def State.gangReady (s : State) (x : Act) : Bool :=
  (s.gangOf x).isSome && memberOf x == 0 && x.reshape.isSome && x.place.isNone && !x.saved && s.fnRuns x.id.fn &&
    (((s.crew x).all fun y => y.run == .ready) || s.splitPending x)

/-- The banks that the members of a gang need, by member. -/
def State.crewBanks (s : State) (x : Act) (m : Nat) : Nat := ((s.crew x).getD m x).banks

/-- The claim of a ready gang to a core: a site of the set that has it, once some activities have left the site's cores.
-/
def State.gangClaim (s b : State) (c : Nat) (gone : Act → Bool) (x : Act) : Option Claim :=
  match s.gangOf x with
  | none => none
  | some g =>
    let site := match g.shape with | .quad => c / 4 | .acre => acreOf c
    let cs := siteCores g.shape site
    if (s.sites x.id.fn g.shape).contains site && b.slotsFit x.id.fn x.region cs.length (cs.map acreOf) &&
        (s.without cs gone).siteFits x g.shape site (s.crewBanks x) then
      some ⟨x.prio, (s.chooseSite x g.shape (s.crewBanks x)).isSome⟩
    else none

/-- The parties of a matched pair that may be placed when a core qualifies (R45, R138). -/
def State.pairOf (s : State) (fn : Nat) (q : Party × Party) : Option (Act × Act) :=
  match s.act q.1.id, s.act q.2.id with
  | some x, some y =>
    if s.fnRuns x.id.fn && s.fnRuns y.id.fn && s.fnRuns fn && x.lugQuiet && y.lugQuiet then some (x, y) else none
  | _, _ => none

/-- The claim of a matched pair to a core (R45): it falls under the dispatch promise of R36, at the higher priority of
its parties, which stay where they are until then. -/
def State.pairClaim (s b : State) (c : Nat) (gone : Act → Bool) (home : Nat) (x y : Act) : Option Claim :=
  let cores := s.fnCores x.id.fn ++ s.fnCores y.id.fn
  let stay (z : Act) : Bool := z.id == x.id || z.id == y.id
  if b.pairSlotsFit c [x, y] && (s.without [c] fun z => gone z && !stay z).qualifies c cores [x, y] then
    some ⟨Nat.max x.prio y.prio, (s.meetingCore x y home).isSome⟩
  else none

/-- The claims of others than the activities `but` to a core, once the activities `gone` have left it (R19, R36, R45,
R299): ready activities, ready gangs and matched pairs that may then be placed; slot and acre budgets count in the state
`b` (R24). -/
def State.claims (s b : State) (c : Nat) (gone : Act → Bool) (but : List Aid) : List Claim :=
  let t : State := s.without [c] gone
  let acts := s.acts.filter fun x => !but.contains x.id
  let singles := (acts.filter fun x => x.waitsSlot && b.slotsFit x.id.fn x.region 1 [acreOf c] && t.mayRunOn x c).map
    fun x => ⟨x.prio, s.hasSlot x⟩
  let gangs := (acts.filter s.gangReady).filterMap (s.gangClaim b c gone)
  let pairs := s.desks.flatMap fun d => match d.st with
    | .meeting _ prs => (prs.filterMap (s.pairOf d.fn)).filterMap fun q =>
        if but.contains q.1.id || but.contains q.2.id then none else s.pairClaim b c gone d.home q.1 q.2
    | .gathering _ _ => []
  singles ++ gangs ++ pairs

/-- The claims that writing back a waiting activity can serve (R19, R36): those that its core could take if every
activity that waits there left it. Slot and acre budgets stay as they stand: one that is exhausted delays a dispatch and
calls for no write-back (DEDUCED from R24 and R36, assumption log 82). -/
def State.waiterClaims (s : State) (x : Act) (c : Nat) : List Claim :=
  s.claims s c s.mayWriteBack ((s.crew x).map (·.id))

/-- Whether a YIELD of a crew gives way to another (R299): something may be placed on one of its cores once the crew has
left its slots, its banks, its records and its part of the slot and acre budgets. -/
def State.yieldsTo (s : State) (crew : List Aid) (cores : List Nat) : Bool :=
  let gone (x : Act) : Bool := crew.contains x.id
  cores.any fun c => !(s.claims (s.without cores gone) c gone crew).isEmpty

/-! ### The write-backs of R19 -/

/-- The victim of the first row of R19 on a core: the lowest priority, among equals the one waiting longest; one whose
frame the page budget cannot hold is passed over (R21). -/
def State.prioVictim (s : State) (c : Nat) : Option Act :=
  let ws := (s.onCore c).filter fun x => s.mayWriteBack x && (s.writeBackAll x.id).isSome
  ws.foldl (fun (b : Option Act) x => match b with
    | none => some x
    | some y => if x.prio < y.prio || (x.prio == y.prio && x.waitFrom < y.waitFrom) then some x else b) none

/-- Whether the rules call for the write-back of an activity (R19). -/
def State.wantsWriteBack (s : State) (x : Act) : Bool :=
  match x.place with
  | none => false
  | some p =>
    s.mayWriteBack x &&
      (((s.freeSlot p.core).isNone && match s.prioVictim p.core with
        | some y => y.id == x.id && (s.waiterClaims x p.core).any fun z => decide (x.prio < z.prio)
        | none => false) ||
       (decide (x.waitFrom + 2000 < s.time) && (s.waiterClaims x p.core).any fun z => !z.has))

/-! ### The dispatch choice (R351, R352) -/

/-- Cores of a die on which an activity may be placed by that die's unit, in the order of R352. -/
def State.placesOnDie (s : State) (x : Act) (die : Nat) : List Nat :=
  let own := s.fnCores x.id.fn
  let cs := (own ++ (s.partnerCore x).toList.filter fun c => !own.contains c).filter fun c =>
    dieOf c == die && s.eligible x c
  let free (c : Nat) : Nat := 4 - (s.onCore c).length
  let best (l : List Nat) : List Nat :=
    (l.foldl (fun (b : Option Nat) c => match b with
      | none => some c
      | some d => if free d < free c then some c else b) none).toList
  let hinted := x.hint != Config.noHint
  let own := cs.filter fun c => hinted && c == x.hint
  let acre := cs.filter fun c => hinted && acreOf c == acreOf x.hint
  own ++ best acre ++ best cs

/-- Whether an activity's hint lets this die take it (R352): another die only while the hint's die has no place. -/
def State.dieMay (s : State) (x : Act) (die : Nat) : Bool :=
  x.hint == Config.noHint || dieOf x.hint == die || (s.placesOnDie x (dieOf x.hint)).isEmpty

/-- The activities eligible for a free slot of a core that its die's unit may take (R350, R352). -/
def State.candidates (s : State) (c : Nat) : List Act :=
  s.acts.filter fun x => s.eligible x c && s.dieMay x (dieOf c)

/-- The deficit round of R351 over regions in ring order: the region served and the regions' new deficits. -/
def deficitRound (share : Nat → Nat) : List Nat → (Nat → Nat) → Option Nat × (Nat → Nat)
  | [], d => (none, d)
  | g :: gs, d =>
    if 65536 ≤ d g then (some g, fun h => if h = g then d g - 65536 else d h)
    else deficitRound share gs fun h => if h = g then Nat.min (d g + Nat.max (share g) 1) (2 ^ 32 - 1) else d h

/-- Rounds until a region is served: at most 65,537. -/
def deficitLoop (share : Nat → Nat) (ring : List Nat) : Nat → (Nat → Nat) → Option Nat × (Nat → Nat)
  | 0, d => (none, d)
  | k + 1, d =>
    match deficitRound share ring d with
    | (some g, e) => (some g, e)
    | (none, e) => deficitLoop share ring k e

/-- Becoming ready first: by time, then by order. -/
def firstReady (l : List Act) : Option Act :=
  l.foldl (fun (b : Option Act) x => match b with
    | none => some x
    | some y => if x.readyAt < y.readyAt || (x.readyAt == y.readyAt && x.readySeq < y.readySeq) then some x else b) none

/-- The cores of functions on a die, ascending, those after the one that the die's unit served last first. -/
def State.servingOrder (s : State) (die : Nat) : List Nat :=
  let cs := sortNat (((upFrom 0 17).flatMap s.fnCores).eraseDups.filter fun c => dieOf c == die)
  match assocGet die s.units with
  | some l => (cs.filter fun c => decide (l < c)) ++ cs.filter fun c => decide (c ≤ l)
  | none => cs

/-- The selection for a free slot of a core (R351): the activity, and the state with the regions' deficits and the region
last served. All candidates belong to the function that runs there; a party that returns to a meeting of another
function counts with its own. -/
def State.selectAt (s : State) (c : Nat) : Option (Act × State) :=
  let cs := s.candidates c
  match cs with
  | [] => none
  | x0 :: _ =>
    let die := dieOf c
    let v := if cs.any fun x => (s.fnCores x.id.fn).contains c && x.id.fn == x0.id.fn then x0.id.fn
      else ((cs.find? fun x => (s.fnCores x.id.fn).contains c).getD x0).id.fn
    let mine := cs.filter fun x => x.id.fn == v
    let p := (mine.map (·.prio)).foldl Nat.max 0
    let top := mine.filter fun x => x.prio == p
    let f := s.fn v
    let gs := sortNat ((f.regions.map (·.idx)).filter fun g => top.any fun x => x.region == g)
    let last := (f.served.find? fun e => e.1 == die && e.2.1 == p).map (·.2.2)
    let ring := match last with
      | some l => (gs.filter fun g => decide (l < g)) ++ gs.filter fun g => decide (g ≤ l)
      | none => gs
    let d0 (g : Nat) : Nat := if gs.contains g then ((f.region g).map (·.deficit)).getD 0 else 0
    let share (g : Nat) : Nat := ((f.region g).map (·.share)).getD 0
    match deficitLoop share ring 65538 d0 with
    | (some g, d) =>
      (firstReady (top.filter fun x => x.region == g)).map fun x =>
        (x, s.modFn v fun f => { f with
          regions := f.regions.map fun r =>
            if r.deficit = d r.idx then r else r.write fun r => { r with deficit := d r.idx }
          served := (die, p, g) :: f.served.filter fun e => !(e.1 == die && e.2.1 == p) })
    | (none, _) => none

/-- The selection of a die's unit (R351): for the first of its free slots, in turn, that an activity is eligible for. -/
def State.select (s : State) (die : Nat) : Option (Act × State) :=
  (s.servingOrder die).findSome? fun c =>
    (s.selectAt c).map fun r => (r.1, { r.2 with units := assocSet die c r.2.units })

end Sys2Proof.Machine
end

