-- ==== Sys2Proof/Machine/SystemOps.lean ====
section
/-!
DEFINITION. Special registers and system instructions (R231, R326 to R331, R388): SRD, SWR, TLBINV, SCRUB, KILLQ and
RESUME as they fire.
-/
namespace Sys2Proof.Machine

/-! ### Special registers (R231) -/

/-- The state field of a function (R387). -/
def FState.code : FState → Nat
  | .off => 0
  | .running => 1
  | .parked => 2
  | .changing => 3

/-- What %vfcommit, %vfsave and %vfrestore read (R388). -/
def State.vfWord (s : State) : Word := BitVec.ofNat 64 (s.vfLast * 256 + s.vfStatus)

/-- %vfstate (R388). -/
def State.vfStates (s : State) : Word :=
  BitVec.ofNat 64 (((upFrom 0 17).map fun v => (s.fn v).state.code * 4 ^ v).sum)

/-- %part (R54). -/
def Act.part (x : Act) : Nat := match x.meet with | some m => if m.begun then m.partner.serial else 0 | none => 0

/-- %core: the physical core the activity runs on. -/
def Act.coreNum (x : Act) : Nat := match x.place with | some p => p.core | none => 0

/-- Cycles that a core has counted (R231): the state keeps them in 160ths. -/
def State.cyclesOf (s : State) (core : Nat) : Nat := (s.core core).cycles / 160

/-- The value of a special register as an activity reads it. -/
def State.sreg (s : State) (x : Act) (n : Nat) : Word :=
  let nat (k : Nat) : Word := BitVec.ofNat 64 k
  match n with
  | 0x000 => nat x.id.serial
  | 0x001 => nat x.region
  | 0x002 => nat x.coreNum
  | 0x003 => nat (memberOf x)
  | 0x004 => nat x.prio
  | 0x005 => nat x.weight
  | 0x006 => nat x.part
  | 0x007 => nat x.stack.length
  | 0x008 => nat (match x.rep with | some (_, i) => i | none => 0)
  | 0x010 => x.tags
  | 0x011 => x.tagerr
  | 0x012 => x.tagWhy
  | 0x013 => nat x.outw
  | 0x014 => nat x.outr
  | 0x020 => nat s.time
  | 0x021 => nat (s.cyclesOf x.coreNum)
  | 0x022 => x.seed
  | 0x030 => x.lives.setWidth 64
  | 0x031 => x.livev.setWidth 64
  | 0x032 => x.livem.setWidth 64
  | 0x033 => x.livec.setWidth 64
  | 0x040 => x.flt.getD 0 0
  | 0x041 => x.flt.getD 1 0
  | 0x042 => x.flt.getD 2 0
  | 0x043 => x.flt.getD 3 0
  | 0x100 => nat s.vfbase
  | 0x101 | 0x102 | 0x103 => s.vfWord
  | 0x104 => s.vfStates
  | _ => 0

/-- The %vf group (R231, R388). -/
def vfGroup (n : Nat) : Bool := decide (0x100 ≤ n) && decide (n ≤ 0x104)

/-- SRD (R327): an access to the %vf group without hypervisor privilege raises a privilege fault (R326). -/
def execSrd (pm : Pm) (num : BitVec 13) (t1 : Tgt) (s : State) : Res :=
  fireSlot s (.srd pm num t1) always fun c => do
    if vfGroup num.toNat && !c.x.hyper then throw (flt .privilege)
    if c.x.bad.contains (.context c.x.id) then throw (fltA .dataError 0)
    c.scalar (c.s.sreg c.x num.toNat)

/-- The registers whose writing starts a commit, save or restore. -/
def vfStart (n : Nat) : Bool := decide (0x101 ≤ n) && decide (n ≤ 0x103)

/-- Enabled quadrants that a function record in memory assigns (R387). -/
def State.recordQuads (s : State) (v : Nat) : List Nat :=
  (upFrom 0 1088).filter fun q =>
    (s.hvByte (s.vfbase + 512 * v + q / 8)).getLsbD (q % 8)

/-- No commit, save or restore is in progress or about to start in another block, and no clearing covers a quadrant of
the record to be committed (R329, R388). -/
def vfQuiet (num : BitVec 13) (c : Ctx) : Bool :=
  !vfStart num.toNat ||
    (c.s.vfPending.isEmpty && c.s.vfBusy.isNone &&
      (c.s.acts.all fun y => (c.s.crew c.x).any (fun z => z.id == y.id) || y.effects.all fun e => match e with
        | .swr n _ => !vfStart n
        | _ => true) &&
      (num.toNat != 0x101 ||
        match c.s.scrub with
        | none => true
        | some (set, _, _) =>
          (c.s.recordQuads (bits (c.word 0).toNat 4 0)).all fun q => !set.contains q))

/-- SWR (R327, R388): sends l and writes at the commit. -/
def execSwr (pm : Pm) (num : BitVec 13) (t1 : Tgt) (s : State) : Res :=
  fireSlot s (.swr pm num t1) (vfQuiet num) fun c => do
    if vfGroup num.toNat && !c.x.hyper then throw (flt .privilege)
    return c.sendEff (.scalar (c.word 0)) (.swr num.toNat (c.word 0))

/-! ### TLBINV, SCRUB, KILLQ, RESUME -/

/-- Removes the translation cache entries that a predicate names. -/
def State.dropTlb (s : State) (p : TlbEntry → Bool) : State :=
  { s with acres := s.acres.map fun a => { a with tlb := a.tlb.filter fun e => !p e } }

/-- Whether a cached translation used a stage-2 entry that maps an intermediate page (R328), for its target or for a
stage-1 table. -/
def TlbEntry.usedPage (e : TlbEntry) (ip : Nat) : Bool := e.used.any fun u => u.1 == ip || (u.2 && u.1 / 32 == ip / 32)

/-- TLBINV (R122, R328): walks are one step each, so none is under way when it fires. -/
def execTlbinv (pm : Pm) (kind : TlbKind) (t1 t2 : Tgt) (s : State) : Res :=
  fireSlot s (.tlbinv pm kind t1 t2) always fun c =>
    let l := (c.word 0).toNat
    let v := match kind with | .addr => bits l 52 48 | .vf => bits l 4 0 | .all => 0
    let hit (e : TlbEntry) : Bool :=
      match kind with
      | .all => true
      | .vf => e.fn == v
      | .addr => e.fn == v && e.usedPage (bits l 47 16)
    if 16 < v then c.scalar 1
    else .ok { c.send (.scalar 0) with s := c.s.dropTlb hit }

/-- The quadrants that no enabled function holds (R329). -/
def State.freeQuads (s : State) : List Nat :=
  let held := (s.funcs.filter fun f => f.cfg.en).flatMap fun f => f.cfg.quad
  (upFrom 0 (4 * s.enabledAcres.length)).filter fun q => !held.contains q

/-- No clearing runs (R329). -/
def scrubQuiet (c : Ctx) : Bool := c.s.scrub.isNone

/-- SCRUB (R329): fixes its set when it fires; its token is sent when the clearing ends (SCRUB_CLEAR_DONE). -/
def execScrub (pm : Pm) (t1 : Tgt) (s : State) : Res :=
  fireSlot s (.scrub pm t1) scrubQuiet fun c =>
    .ok { c.send (.scalar 0) with s := { c.s with scrub := some (c.s.freeQuads, c.x.id, c.k) }, late := true }

/-- The kill of an earlier KILLQ of the same queue has finished (R330). -/
def killqQuiet (c : Ctx) : Bool :=
  let l := (c.word 0).toNat
  c.s.kills.all fun k => k.target != .queue (bits l 4 0) (bits l 13 8)

/-- KILLQ (R330): results 0, 1 and 2. -/
def execKillq (pm : Pm) (t1 t2 : Tgt) (s : State) : Res :=
  fireSlot s (.killq pm t1 t2) killqQuiet fun c =>
    let v := bits (c.word 0).toNat 4 0
    let q := bits (c.word 0).toNat 13 8
    let f := c.s.fn v
    if v = 0 ∨ 16 < v ∨ !f.cfg.en then c.scalar 1
    else if f.cfg.lqcount ≤ q then c.scalar 2
    else .ok (c.sendEff (.scalar 0) (.killq v q))

/-- Whether an uncommitted RESUME has reserved an activity (R331). -/
def State.resumeTaken (s : State) (a : Aid) : Bool :=
  s.acts.any fun y => y.effects.any fun e => match e with
    | .resume t _ _ => t == a
    | _ => false

/-- RESUME (R331): 3 before the permission of another tenant's activity, then 1, then the permission by region. -/
def execResume (pm : Pm) (mode : ResumeMode) (t1 t2 : Tgt) (s : State) : Res :=
  fireSlot s (.resume pm mode t1 t2) always fun c =>
    let l := (c.word 0).toNat
    let v := bits l 36 32
    if bits l 47 43 ≠ 0 ∨ 16 < v then c.scalar 3
    else if !c.x.hyper && v != 0 then c.scalar 2
    else
      let target : Aid := ⟨if v = 0 then c.x.id.fn else v, bits l 31 0⟩
      match c.s.act target with
      | none => c.scalar 1
      | some y =>
        if y.run != .faulted || (match y.gang with | some (_, m) => m != 0 | none => false) ||
            c.s.resumeTaken target then c.scalar 1
        else if !c.x.hyper && !((c.s.fn target.fn).within y.region c.x.region) then c.scalar 2
        else
          let patch := if bit l 37 && mode != .kill then some (bits l 42 38, BitVec.ofNat 64 (bits l 63 48)) else none
          .ok (c.sendEff (.scalar 0) (.resume target mode patch))

end Sys2Proof.Machine
end

