-- ==== Sys2Proof/Machine/Commit.lean ====
section
/-!
DEFINITION. What a block's commit does (R30, R33, R35, R52, R53, R82 to R84, R88 to R91, R103 to R109, R114, R115, R131,
R159, R183, R191, R196, R207, R215, R216, R223, R256, R283 to R332): stores, ownership, engine commands, registers,
special registers and the exit. A commit gathers the faults that its checks raise; with one, nothing of it stands.
-/
namespace Sys2Proof.Machine

/-- A commit under way: the state so far and the faults raised, by member and slot. -/
structure Late where
  s   : State
  bad : List (Nat × Nat × Flt)

/-- Notes a fault. -/
def Late.fail (c : Late) (m k : Nat) (f : Flt) : Late := { c with bad := c.bad ++ [(m, k, f)] }

/-- Takes the state of a step that may fault. -/
def Late.take (c : Late) (m k : Nat) (r : Except Flt State) : Late :=
  match r with
  | .ok t => { c with s := t }
  | .error f => c.fail m k f

/-- A member of the committing crew: its number, the activity as committed before the block, its execution. -/
structure Mem where
  m  : Nat
  x  : Act
  fl : Flight

/-- The effect of a slot that fired. -/
def Flight.effAt (f : Flight) (k : Nat) : Effect := if (f.slot k).status == .done then (f.slot k).eff else .none

/-- The fired exits of an execution, by slot. -/
def Flight.exits (f : Flight) : List (Nat × Exit) :=
  (upFrom 0 f.words.length).filterMap fun k => match f.effAt k with | .exit e => some (k, e) | _ => none

/-! ### Stores (R53, R216) -/

/-- A store of one slot: own carrel or partner space; rewritten bytes hold good data again (R362). A partner that has
left makes a PST fault at the commit as it would when firing (R55). -/
def Late.store (c : Late) (q : Mem) (k : Nat) : Late :=
  match q.fl.effAt k with
  | .store false data =>
    { c with s := c.s.modAct q.x.id fun y => { y with
        carrel := Memory.writeList y.carrel data
        bad := y.bad.filter fun b => match b with | .carrel _ o => !(data.any fun d => d.1 == o) | _ => true } }
  | .store true data =>
    match c.s.partner q.x with
    | none => c.fail q.m k (flt .meetingState)
    | some (y, n) =>
      let moved := data.map fun d => (n.lugFirst * Config.bankSize + d.1, d.2)
      { c with s := c.s.modAct y.id fun z => { z with
          carrel := Memory.writeList z.carrel moved
          bad := z.bad.filter fun b => match b with | .carrel _ o => !(moved.any fun d => d.1 == o) | _ => true } }
  | _ => c

/-- The slots of a block in load/store ID order. -/
def Flight.byLsid (f : Flight) : List Nat :=
  (upFrom 0 32).filterMap fun id =>
    (upFrom 0 f.words.length).find? fun k => match f.instr k with | some i => lsidOf i == some id | none => false

/-! ### Ownership, tags and formats (R52, R102 to R108, R115, R289) -/

/-- The partner's register that a gift enters (R52, R292). -/
def Act.giftReg (y : Act) : Option Nat := (upFrom 0 8).find? fun k => y.reg k == .empty && !y.takenRegs.contains k

/-- LGIVE at the commit: the register, its page charge and the keeper of a shelf move (R52, R105, R110); a loan given to
a party of another function enters that function's address space (R68). -/
def State.commitGive (s : State) (x : Act) (k : Nat) : Except Flt State :=
  match s.partner x with
  | none => .error (flt .meetingState)
  | some (y, _) =>
    match y.giftReg with
    | none => .error (noLoan k)
    | some j =>
      let r := ((s.act x.id).getD x).reg k
      let n := match r.info with | some (_, p, _) => p | none => 0
      let moved : Except Flt (LReg × State) := match r with
        | .sealed _ _ _ id v => .ok (r, s.modFn v fun f => { f with shelves := f.shelves.map fun q =>
            if q.id = id then { q with keeper := some y.id, payer := (y.id.fn, y.region) } else q })
        | .loan b p cxl =>
          if x.id.fn = y.id.fn then .ok (r, s)
          else match s.moveRange x.id.fn y.id.fn b p cxl with
            | some (base, t) => .ok (.loan base p cxl, t)
            | none => .error (noLoan k)
        | .empty => .ok (r, s)
      match moved with
      | .error f => .error f
      | .ok (r', s1) =>
        let s2 : State := (s1.returnPages x.id.fn x.region n).chargePages y.id.fn y.region n
        let s3 : State := s2.modAct x.id fun z => { z with l := setReg z.l k .empty }
        .ok (s3.modAct y.id fun z => { z with l := setReg z.l j r' })

/-- Writes one loan register. -/
def State.setL (s : State) (a : Aid) (k : Nat) (r : LReg) : State := s.modAct a fun z => { z with l := setReg z.l k r }

/-- Ownership, tag and format effects of one slot. -/
def Late.own (c : Late) (q : Mem) (k : Nat) : Late :=
  let s := c.s
  let a := q.x.id
  let reg (j : Nat) : LReg := ((s.act a).getD q.x).reg j
  match q.fl.effAt k with
  | .bfmt b f => { c with s := s.modAct a fun y => { y with fmts := setReg y.fmts b (BitVec.ofNat 4 f) } }
  | .tagClear mask => { c with s := s.modAct a fun y => y.clearTags mask }
  | .palloc j base n cxl ipas =>
    { c with s := ((s.chargePages a.fn q.x.region n).mapRange a.fn base cxl ipas).setL a j (.loan base n cxl) }
  | .pfree j =>
    (match reg j with
      | .loan b n _ => { c with s := ((s.freeRange a.fn b n).returnPages a.fn q.x.region n).setL a j .empty }
      | _ => c)
  | .lsplit j head tail =>
    (match reg j with
      | .loan b n t => { c with s := (s.setL a j (.loan b head t)).setL a tail (.loan (b + head) (n - head) t) }
      | _ => c)
  | .seal j id =>
    (match reg j with
      | .loan b n t =>
        let s1 : State := s.modFn a.fn fun f => { f with shelves := f.shelves ++ [⟨id, b, n, t, some a, (a.fn, q.x.region), false, false⟩] }
        { c with s := s1.setL a j (.sealed b n t id a.fn) }
      | _ => c)
  | .lgive j => c.take q.m k (s.commitGive q.x j)
  | .shopen n id => { c with s := s.modAct a fun y => { y with sh := setReg y.sh n (some id) } }
  | .shclose n => { c with s := s.modAct a fun y => { y with sh := setReg y.sh n none } }
  | _ => c

/-! ### Environments (R81, R82) -/

/-- Writes the words of a CPUT into a reserved environment. -/
def Env.put (e : Env) (cells : List (Nat × Nat × Word)) : Env :=
  cells.foldl (fun e d => { e with kinds := e.kinds.set d.1 d.2.1, vals := e.vals.set d.1 d.2.2 }) e

/-- Changes the environment that a handle names in a core's store. -/
def State.modEnv (s : State) (core : Nat) (h : Handle) (g : Env → Env) : State :=
  s.modCore core fun c => { c with envs := c.envs.map fun p => if p.1 = h.index.toNat then (p.1, g p.2) else p }

/-- Whether a member's activity itself holds what a handle names: a reference, or a CENV of its own block. -/
def Mem.holds (q : Mem) (x : Act) (h : Handle) : Bool :=
  h.kind != .store || 0 < x.refs h.index.toNat || (q.fl.ownEnv h).isSome

/-- The check of a WR of class C whose handle an XRD has read (R83, R85). DESIGN CHOICE (assumption log 66): once the
partner has left, no reference to its environments can be gained any more, and the WR is a meeting-state fault as the XRD
would be; where the partner has dropped the environment meanwhile, the WR fails as a stale handle. -/
def Late.gained (c : Late) (q : Mem) (k : Nat) (h : Handle) : Late :=
  if q.holds ((c.s.act q.x.id).getD q.x) h then c
  else if (c.s.partner q.x).isNone then c.fail q.m k (flt .meetingState)
  else if c.s.stale q.x h then c.fail q.m k (fltA .recordIntegrity q.x.recAt)
  else c

/-- The environment effects of one slot. -/
def Late.env (c : Late) (q : Mem) (k : Nat) : Late :=
  let core := q.x.coreNum
  match q.fl.effAt k with
  | .write .c _ (.handle h) => c.gained q k h
  | .cput h cells => { c with s := c.s.modEnv core h fun e => e.put cells }
  | .cenv h _ => { c with s := c.s.modEnv core h fun e => { e with reserver := none } }
  | _ => c

/-! ### Matrix commands (R181, R183, R196, R323) -/

/-- The live tiles for a check at this commit: an MREL of the committing block does not count (R191). -/
def Gang.liveNow (g : Gang) (first : Nat) : List Nat :=
  { g with cmds := g.cmds.filter fun m => decide (m.idx < first) || match m.kind with | .mrel _ => false | _ => true }.liveTiles

/-- The matrix command of slot `k` of a gang's block; `first` is the gang's next command number before the commit. DESIGN
CHOICE (assumption log 112): an MFUSE with a mode that its gang's shape does not have is a shape fault first, also while
a tile is live. -/
def Late.matrix (c : Late) (crew : List Mem) (first k : Nat) : Late :=
  match crew with
  | [] => c
  | lead :: _ =>
    let kinds := crew.filterMap fun q => match q.fl.effAt k with | .matrix kd off => some (q, kd, off) | _ => none
    match kinds with
    | [] => c
    | (_, kd, _) :: _ =>
      let fired (q : Mem) : Bool := match q.fl.effAt k with | .matrix .. => true | _ => false
      match crew.find? fun q => fired q != fired lead with
      | some q =>
        let b := match q.fl.exits with | (j, _) :: _ => j | [] => 255
        c.fail 0 k (fltAB .gangDivergence q.m b)
      | none =>
        match c.s.gangOf lead.x with
        | none => c
        | some g =>
          let p := g.projected
          let checks := kinds.map fun e =>
            let x := (c.s.act e.1.x.id).getD e.1.x
            match e.2.2 with
            | none => (e.1.m, Except.ok (0, none))
            | some off => (e.1.m, do
                let r ← x.checkMatrix kd e.1.m p.1 p.2.1 off
                match x.badPart kd e.1.m p.1 r.1 r.2 with
                | some o => throw (fltA .dataError o)
                | none => pure ()
                match kd with
                | .mstore t =>
                  (match c.s.badQuarter g e.1.m t with
                    | some o => throw (fltA .dataError o)
                    | none => pure ())
                | _ => pure ()
                return (off, some r))
          let faults := checks.filterMap fun r => match r.2 with | .error f => some (r.1, k, f) | .ok _ => none
          let oks := checks.filterMap fun r => match r.2 with | .ok v => some v | .error _ => none
          let recs := oks.filterMap (·.2)
          let m : MCmd :=
            ⟨g.nextIdx, kd, lead.fl.addr, k, oks.map (·.1), recs.map (·.1), [], false,
              recs.map (fun r => ⟨r.2, [], r.1.dim 1⟩), false, false, 0, false, false, [], false⟩
          let m := { m with quads := m.takes p.1 (quadsOf g.shape) false }
          match kd with
          | .mfuse f =>
            if g.shape == .quad && f != .sep then c.fail 0 k (fltA .shape 0)
            else if !(g.liveNow first).isEmpty then c.fail 0 k (fltA .tilesLive (bitsOf (g.liveNow first)))
            else { c with s := c.s.setGang { g with cmds := g.cmds ++ [m], nextIdx := g.nextIdx + 1 } }
          | _ =>
            match (if faults.isEmpty then g.cmds.find? fun d => d.failed && !d.reported && decide (d.idx < first) && d.shares m else none) with
            | some d => c.fail 0 k (d.report 0)
            | none =>
            if faults.isEmpty then
              let m := if g.willStart m then m else { m with failed := true, quads := m.takes p.1 (quadsOf g.shape) true }
              let h := g.markLive m
              { c with s := c.s.setGang { h with cmds := h.cmds ++ [m], nextIdx := h.nextIdx + 1 } }
            else { c with bad := c.bad ++ faults }

/-! ### Creations and engine commands, in slot order (R131) -/

/-- SPAWN and copy commands of one slot of one member. -/
def Late.issue (c : Late) (lead : Aid) (q : Mem) (k : Nat) : Late :=
  match q.fl.effAt k with
  | .spawn n banks child share image => c.take q.m k (c.s.commitSpawn q.x lead n banks child share image)
  | .copy kind tag clo off => c.take q.m k (c.s.commitCopy q.x lead kind tag clo off)
  | _ => c

/-! ### Registers (R213, R249) -/

/-- A vector register after a WR: bytes with a null mark keep what they held (R199). -/
def mergeVec (old new : Vec) (nulls : BitVec 64) : Vec :=
  BitVec.ofNat 512 (leNat ((upFrom 0 64).map fun j =>
    BitVec.ofNat 8 ((if nulls.getLsbD j then old else new).toNat / 2 ^ (8 * j))))

/-- The register of a WR after the commit. A detected error in it is gone with what it held; a vector register keeps it
where null bytes keep what it held (R362). DESIGN CHOICE (assumption log 105): a scalar that a MOV brings to a WR of
class C empties the register. -/
def Act.writeReg (x : Act) (cls : Cls) (n : Nat) (t : Token) : Act :=
  let y : Act := match cls with
    | .s => { x with s := setReg x.s n t.word }
    | .v => { x with v := setReg x.v n (mergeVec (x.v.toList.getD n 0) t.vec t.nulls) }
    | .m => { x with m := setReg x.m n t.word }
    | .c => { x with c := setReg x.c n (match t with | .handle h => h | _ => Handle.none) }
  if cls == .v && t.nulls != 0 then y else y.mended cls n

/-- The special register of an SWR after the commit (R231): bits above the width are ignored. -/
def State.writeSreg (s : State) (a : Aid) (n : Nat) (w : Word) : State :=
  let v := bits w.toNat 4 0
  match n with
  | 0x022 => s.modAct a fun x => { x with seed := w }
  | 0x030 => s.modAct a fun x => { x with lives := w.setWidth 32 }
  | 0x031 => s.modAct a fun x => { x with livev := w.setWidth 32 }
  | 0x032 => s.modAct a fun x => { x with livem := w.setWidth 8 }
  | 0x033 => s.modAct a fun x => { x with livec := w.setWidth 8 }
  | 0x100 => { s with vfbase := w.toNat / 512 * 512 }
  | 0x101 => { s with vfPending := s.vfPending ++ [(.commit, v)] }
  | 0x102 => { s with vfPending := s.vfPending ++ [(.save, v)] }
  | 0x103 => { s with vfPending := s.vfPending ++ [(.restore, v)] }
  | _ => s

/-- Register effects of one slot: WR, CDROP, SWR. -/
def State.commitReg (s : State) (q : Mem) (k : Nat) : State :=
  match q.fl.effAt k with
  | .write cls n t => s.modAct q.x.id fun x => x.writeReg cls n t
  | .cdrop n => s.modAct q.x.id fun x => { x.mended .c n with c := setReg x.c n Handle.none }
  | .swr n w => s.writeSreg q.x.id n w
  | _ => s

/-- %seed after the commit (R159); an SWR of it comes later and overrides. -/
def State.commitSeed (s : State) (q : Mem) : State :=
  s.modAct q.x.id fun x => { x with seed := seedAdvance (q.fl.rsBelow q.fl.words.length) q.x.seed }

/-! ### Exits (R33, R207, R221) -/

/-- Continues at a checked block. -/
def Act.goTo (target : Nat) (x : Act) : Act := { x with resume := target, entry := .checked, rep := none }

/-- Changes every member of a crew. -/
def State.modCrew (s : State) (crew : List Mem) (f : Mem → Act → Act) : State :=
  crew.foldl (fun t q => t.modAct q.x.id (f q)) s

/-- The entry check of an exit's target, on the state before the commit (R207). -/
def State.exitCheck (s0 : State) (x : Act) (target : Nat) (w : Way) (gang : Bool) : Except Flt Unit :=
  (s0.enter x.id.fn x.acre target w gang 0).map fun _ => ()

/-- Opens a new frame (R78). -/
def Act.newFrame (x : Act) : Act :=
  let n := (x.frameCtr + 1) % 65536
  { x with frameCtr := n, gen := n }

/-- Pushes an apply-stack entry, growing the spill frame when it does not fit on chip (R88). -/
def State.push (s : State) (a : Aid) (fr : Frame) : Except Flt State :=
  match s.act a with
  | none => .ok s
  | some x =>
    if x.stack.length = 64 then .error (fltA .applyStack 64)
    else
      let y := { x with stack := fr :: x.stack }
      match (s.setAct y).growFrame a y.frameBytes with
      | none => .error ⟨.environmentBudget, BitVec.allOnes 64, 0⟩
      | some t => .ok t

/-- Reloads an activity's current environment when it is spilled (R87). DESIGN CHOICE (assumption log 67): a RET to a
frame whose environment is spilled reloads it too, and raises environment-budget when it cannot. -/
def State.reloadEnv (s : State) (a : Aid) : Except Flt State :=
  match s.act a with
  | none => .ok s
  | some x =>
    if x.env.kind == .spilled then
      match s.reload a x.env.index.toNat with
      | none => .error ⟨.environmentBudget, BitVec.allOnes 64, 0⟩
      | some t => .ok t
    else .ok (s.touchEnv x x.env)

/-- The environment handle that a closure makes current. -/
def Handle.asEnv (h : Handle) : Handle := match h.kind with | .bare => Handle.none | _ => h

/-- StartTurn (R91) of the top entry of an activity's apply stack. -/
def State.startTurn (s0 s : State) (a : Aid) : Except Flt State := do
  match s.act a with
  | none => return s
  | some x =>
    match x.stack with
    | [] => return s
    | fr :: rest =>
      match fr.turns with
      | none => return s
      | some t =>
        match t.remaining with
        | [] => return s
        | (j, h) :: more =>
          if s.stale x h then throw (fltA .recordIntegrity x.recAt)
          if s.badHeader x h then throw (fltA .dataError 0)
          s0.exitCheck x h.addr (.closure (s.envWords x h)) false
          let m7 : Word := BitVec.ofNat 64 (maskOf (t.choices.map fun c => c == some j))
          let y := { ((x.mended .m 7).newFrame.goTo h.addr) with
            m := setReg x.m 7 m7
            env := h.asEnv
            stack := { fr with turns := some { t with remaining := more } } :: rest }
          (s.setAct y).reloadEnv a

/-- RET (R90). The M7 that a VAPPLY saved comes back with the detected error that it held (R362). DESIGN CHOICE
(assumption log 65): where the same block writes M7, the M7 of the turn that starts or of the VAPPLY that ends stands.
-/
def State.exitRet (s0 s : State) (a : Aid) : Except Flt State := do
  match s.act a with
  | none => return s
  | some x =>
    match x.stack with
    | [] => throw (fltA .applyStack 0)
    | fr :: rest =>
      match fr.turns with
      | some t =>
        if t.remaining.isEmpty then
          s0.exitCheck x t.target .exit false
          let y := { ((x.mended .m 7).goTo t.target) with
            m := setReg x.m 7 t.savedM7, env := fr.env, stack := rest, gen := fr.prevgen }
          let y := if t.badM7 then { y with bad := .register x.id .m 7 :: y.bad } else y
          (s.setAct y).reloadEnv a
        else s0.startTurn s a
      | none =>
        s0.exitCheck x fr.ret .exit false
        let y := { (x.goTo fr.ret) with
          env := (if fr.call then x.env else fr.env), stack := rest, gen := fr.prevgen }
        (s.setAct y).reloadEnv a

/-- APPLY (R90, R309). `p` is the state after the block's creations and before its register writes, `x` the activity in
it: the handles as committed before the block, with the names that a spill or reload of the same commit gave them (R75,
R86, R87). -/
def State.exitApply (s0 p s : State) (x : Act) (fl : Flight) (c : Nat) : Except Flt State := do
  x.regOk .c c
  let h := x.c.toList.getD c Handle.none
  if h.kind == .empty then throw (fltAB .illegalEntry h.addr 0)
  if p.stale x h then throw (fltA .recordIntegrity x.recAt)
  if p.badHeader x h then throw (fltA .dataError 0)
  s0.exitCheck x h.addr (.closure (p.envWords x h)) false
  let t ← s.push x.id ⟨false, fallThrough fl, x.env, x.gen, none⟩
  let t : State := t.modAct x.id fun y => { (y.newFrame.goTo h.addr) with env := h.asEnv }
  t.reloadEnv x.id

/-- The lanes that take part in a VAPPLY and their choices (R91). -/
def Act.choices (x0 : Act) (m : Nat) (choice : Token) : List (Option Nat) :=
  (upFrom 0 16).map fun k =>
    let on := m == 0 || (x0.m.toList.getD m 0).getLsbD k
    if on && !nullLane .i32 choice.nulls k then some (choice.vec.toNat / 2 ^ (32 * k) % 8) else none

/-- Reloads every spilled environment that the closures of the VAPPLY entry on top of an activity's apply stack name
(R87). -/
def State.reloadTurns (s : State) (a : Aid) : Except Flt State :=
  let named (x : Act) : List Handle := match x.stack with
    | [] => []
    | fr :: _ => (match fr.turns with | some t => t.remaining.map (·.2) | none => [])
  match State.reloadAll a 8 s named with
  | some t => .ok t
  | none => .error ⟨.environmentBudget, BitVec.allOnes 64, 0⟩

/-- VAPPLY (R91, R310): the handles, the mask and M7 as committed before the block; `p` and `x0` as for APPLY. Every
selected closure's environment is in the store before the first turn starts (R87). -/
def State.exitVapply (s0 p s : State) (x0 : Act) (m : Nat) (choice : Token) (target : Nat) : Except Flt State := do
  if m ≠ 0 then x0.regOk .m m
  let cs := x0.choices m choice
  let sel := (upFrom 0 8).filter fun j => cs.contains (some j)
  if sel.isEmpty then
    s0.exitCheck x0 target .exit false
    return s.modAct x0.id (Act.goTo target)
  for j in sel do
    x0.regOk .c j
    let h := x0.c.toList.getD j Handle.none
    if h.kind == .empty then throw (fltAB .illegalEntry h.addr 0)
    if p.stale x0 h then throw (fltA .recordIntegrity x0.recAt)
    if p.badHeader x0 h then throw (fltA .dataError 0)
    s0.exitCheck x0 h.addr (.closure (p.envWords x0 h)) false
  let turns : VTurns := ⟨target, sel.map fun j => (j, x0.c.toList.getD j Handle.none), cs, x0.m.toList.getD 7 0,
    x0.bad.contains (.register x0.id .m 7)⟩
  let t ← s.push x0.id ⟨false, 0, x0.env, x0.gen, some turns⟩
  let t ← t.reloadTurns x0.id
  s0.startTurn t x0.id

/-- Whether a wait on tags or on %outw is over (R118, R286). -/
def Act.tagWaitOver (x : Act) : Bool :=
  let busy := (upFrom 0 64).any fun j => x.wmask.getLsbD j && x.busy j
  match x.wkind with
  | .wtany => (x.wmask &&& (x.tags ||| x.tagerr)) != 0 || !busy
  | .wtall => !busy
  | .wcnt => decide (x.outw ≤ x.wmask.toNat)
  | _ => false

/-- Ends a tag wait whose condition holds, for a gang when it holds for every member. -/
def State.checkTagWait (s : State) (a : Aid) : State :=
  match s.act a with
  | none => s
  | some x => if (s.crew x).all fun y => y.run == .waiting && y.tagWaitOver then s.wake a else s

/-- Whether a SLEEP is over for every member (R299). -/
def State.checkSleep (s : State) (a : Aid) : State :=
  match s.act a with
  | none => s
  | some x =>
    if (s.crew x).all fun y => y.run == .waiting && y.wkind == .sleep && decide (y.wop ≤ s.time) then s.wake a else s

/-- The end of a SPLIT's wait (R28, R35, R160, R301): once no command of the gang is pending, member 0 goes on with what
it has and every other member becomes a single activity with its weight and its own %seed. -/
def State.checkSplit (s : State) (a : Aid) : State :=
  match s.act a with
  | none => s
  | some x =>
    match s.gangOf x with
    | none => s
    | some g =>
      let crew := s.crew x
      if !(crew.all fun y => y.run == .waiting && y.wkind == .split) || g.cmds.any MCmd.pending then s
      else
        let lead : Aid := ⟨g.fn, g.lead⟩
        let s1 : State := (crew.drop 1).foldl (fun (t : State) y =>
          match t.takeWeight lead none with
          | .ok (w, u) => u.modAct y.id fun z => { z with weight := w, seed := seedOf z.id.serial }
          | .error _ => t) s
        let s2 : State := crew.foldl (fun (t : State) y => t.modAct y.id fun z => { z with gang := none, reshape := none }) s1
        let s3 : State := { s2 with gangs := s2.gangs.filter fun (h : Gang) => !(h.fn == g.fn && h.lead == g.lead) }
        crew.foldl (fun (t : State) y => t.wakeOne y.id) s3

/-- A member that begins to wait at its target. -/
def Act.waitAt (x : Act) (s : State) (target : Nat) (k : WKind) (wop : Nat) (mask : Word) : Act :=
  { (x.goTo target) with run := .waiting, wkind := k, wop := wop, wmask := mask, waitFrom := s.time }

/-- The digest of a tenant-scoped key (R16, R37), which the spec does not give: a free value. -/
def keyDigest (v : Nat) (key : Word) : Nat := (Config.freeWord (v * 2 ^ 64 + key.toNat)).toNat % 2 ^ 60

/-- A timeout in 64 ns units as a deadline (R40, R41). -/
def deadlineOf (now t : Nat) : Option Nat := if t = 0xFFFFFFFF then none else some (now + 64 * t)

/-- The snapshot that XRD reads (R51). -/
def Act.snapshot (x : Act) : Snap :=
  ⟨x.s, x.v, x.m, x.c, x.bad.filterMap fun b => match b with | .register _ cls n => some (cls, n) | _ => none⟩

/-- Sends a message to a desk. -/
def State.sendMsg (s : State) (k : MsgKind) : State := { s with msgs := s.msgs ++ [⟨s.fresh, k⟩], fresh := s.fresh + 1 }

/-- The exit of a block (R221 to R223, R286, R293, R298 to R303, R309, R310, R332). `s0` is the state before the commit,
`p` the state before the block's register writes, `s` the state with the block's other effects; the crew's members
waited for each have their own operands. -/
def State.exit (s0 p s : State) (crew : List Mem) (lead : Mem) (k : Nat) (e : Exit) : Except Flt State := do
  let x0 := lead.x
  let gang := x0.gang.isSome
  let own (q : Mem) : Exit := match q.fl.exits with | (_, e) :: _ => e | [] => e
  let go (target : Nat) : Except Flt State := do
    s0.exitCheck x0 target .exit gang
    return s.modCrew crew fun _ => Act.goTo target
  let waitAll (target : Nat) (kind : WKind) (wop : Exit → Nat) (mask : Exit → Word) : Except Flt State := do
    s0.exitCheck x0 target .exit gang
    return s.modCrew crew fun q y => y.waitAt s target kind (wop (own q)) (mask (own q))
  let maskOfExit (e : Exit) : Word := match e with | .wtany m _ => m | .wtall m _ => m | .wcnt m _ => m | _ => 0
  match e with
  | .branch t =>
    match (if t = lead.fl.addr && kindRepeats (hdrKind lead.fl.hdr) then x0.rep else none) with
    | some (n, i) =>
      if i + 1 < n then
        let _ ← s0.enter x0.id.fn x0.acre t .continue_ gang 0
        return s.modCrew crew fun _ y => { y with resume := t, entry := .checked, rep := some (n, i + 1) }
      else go (fallThrough lead.fl)
    | none => go t
  | .indirect t => go t
  | .call t =>
    s0.exitCheck x0 t .exit gang
    let s1 ← crew.foldlM (fun (u : State) q =>
      match u.act q.x.id with
      | some y => u.push q.x.id ⟨true, fallThrough lead.fl, y.env, y.gen, none⟩
      | none => .ok u) s
    return s1.modCrew crew fun _ y => y.newFrame.goTo t
  | .ret =>
    if gang then
      match x0.stack with
      | [] => throw (fltA .applyStack 0)
      | fr :: _ =>
        s0.exitCheck x0 fr.ret .exit true
        return s.modCrew crew fun _ y => match y.stack with
          | g :: rest => { (y.goTo g.ret) with stack := rest, gen := g.prevgen }
          | [] => y.goTo fr.ret
    else s0.exitRet s x0.id
  | .retire => return s.modCrew crew fun _ y => { y with retiring := true, rep := none }
  | .apply c => s0.exitApply p s ((p.act x0.id).getD x0) lead.fl c
  | .vapply m ch t => s0.exitVapply p s ((p.act x0.id).getD x0) m ch t
  | .wtany _ t => return (← waitAll t .wtany (fun _ => 0) maskOfExit).checkTagWait x0.id
  | .wtall _ t => return (← waitAll t .wtall (fun _ => 0) maskOfExit).checkTagWait x0.id
  | .wcnt _ t => return (← waitAll t .wcnt (fun e => (maskOfExit e).toNat % 2 ^ 32) maskOfExit).checkTagWait x0.id
  | .unseal r t =>
    match ((s.act x0.id).getD x0).reg r with
    | .sealed _ _ _ id v =>
      let u ← waitAll t .unseal (fun _ => id) (fun _ => 0)
      let w : State := u.modFn v fun f => { f with shelves := f.shelves.map fun q =>
        if q.id = id then { q with unsealing := true } else q }
      return if v = x0.id.fn then w else w.finishUnseals v
    | _ => throw (noLoan r)
  | .yield t =>
    let u ← go t
    let trapped := crew.any fun q => ((u.act q.x.id).getD q.x).trap.isSome
    let calls := u.yieldsTo (crew.map fun q => q.x.id) (crew.map fun q => q.x.coreNum)
    if calls && !trapped && !x0.inMeeting then
      match u.writeBackAll x0.id with
      | none => return u
      | some w =>
        let r : State := w.tick.2.modCrew crew fun _ y => y.makeReady w
        return crew.foldl (fun (t : State) q => t.enqueue q.x.id) r
    else return u
  | .sleep _ t =>
    let deadline (e : Exit) : Nat := match e with
      | .sleep d _ => Nat.min (s.time + d.toNat) (2 ^ 60 - 1)
      | _ => 0
    return (← waitAll t .sleep deadline (fun _ => 0)).checkSleep x0.id
  | .gang shape t =>
    s0.exitCheck x0 t .exit true
    let code := match shape with | .quad => 1 | .acre => 2
    return s.modAct x0.id fun y => { y.waitAt s t .gang code 0 with reshape := some shape, attempts := 0, retryAt := 0 }
  | .split t =>
    s0.exitCheck x0 t .exit false
    match s.gangOf x0, s0.gangOf x0 with
    | some g, some g0 =>
      let live := g.liveNow g0.nextIdx
      if !live.isEmpty then throw (fltA .tilesLive (bitsOf live))
      return (s.modCrew crew fun _ y => y.waitAt s t .split 0 0).checkSplit x0.id
    | _, _ => throw (flt .tilesLive)
  | .meet key lug tmo t =>
    let l := lugFields lug
    let u ← waitAll t .meet (fun _ => keyDigest x0.id.fn key) (fun _ => 0)
    let u : State := u.modAct x0.id fun y => { y with
      meet := some ⟨⟨0, 0⟩, false, l.1, l.2.1, l.2.2, false, .present, none, y.snapshot⟩ }
    return u.sendMsg (.meetArrival ⟨x0.id, x0.recAt, deadlineOf s.time (bits tmo.toNat 31 0), lug, 0⟩ key)
  | .gather op key arity contrib tmo t =>
    let u ← waitAll t .gather (fun _ => keyDigest x0.id.fn key) (fun _ => 0)
    return u.sendMsg (.gatherArrival ⟨x0.id, x0.recAt, deadlineOf s.time tmo, 0, contrib.vec⟩ key arity op)
  | .part t =>
    let u ← waitAll t .part (fun _ => 0) (fun _ => 0)
    return u.modAct x0.id fun y => { y with meet := y.meet.map fun m =>
      { m with parting := ((s.act m.partner).bind fun z => z.flight).map (·.seq) } }
  | .hcall arg t =>
    let u ← go t
    return u.takeFault x0.id ⟨lead.fl.addr, .hcall, k, 0, 2, x0.id.serial, arg, BitVec.ofNat 64 t⟩

/-! ### Effects on other activities (R330, R331) -/

/-- Discards the records that wait in a launch queue: each gets status 6 (R330, R346). -/
def State.discardRecords (s : State) (v q : Nat) : State :=
  let f := s.fn v
  let p := f.prod.getD q 0
  let c := f.cons.getD q 0
  let n := (p + 2 ^ 32 - c) % 2 ^ 32
  let t : State := (upFrom 0 (Nat.min n 64)).foldl (fun (t : State) i =>
    State.ipaWrite v t (f.cfg.lqbase + q * 16384 + (c + i) % 64 * 256 + 0x38) [6]) s
  t.modFn v fun f => { f with cons := f.cons.set q p }

/-- KILLQ at the commit (R330): pending records get status 6, the trees of the queue are killed; one black-box entry for
each root among them (R370). -/
def State.killQueue (s : State) (v q : Nat) : State :=
  let f := s.fn v
  let dying := f.regions.filter fun r => r.lq == q && s.regionInUse v r
  let roots := (dying.filter fun r => r.parent.isNone).map (·.idx)
  let s1 : State := (s.discardRecords v q).killRegions (.queue v q) v (dying.map (·.idx)) none
  (if roots.isEmpty then [0] else roots).foldl (fun (t : State) g =>
    t.log 4 4 0x1FFF v 0 0 [BitVec.ofNat 64 g, BitVec.ofNat 64 q]) s1

/-- The fall-through address of a block as its header gives it, or the block itself where no header can be read. -/
def State.nextOf (s : State) (v acre block : Nat) : Nat :=
  match s.fetchWords v acre block 1 with
  | .ok hdr => block + 16 + 16 * ceilDiv (hdrSlots hdr) 4
  | .error _ => block

/-- Changes every activity of a list. -/
def State.modCrewOf (s : State) (crew : List Act) (f : Act → Act) : State :=
  crew.foldl (fun (t : State) z => t.modAct z.id f) s

/-- RESUME at the commit (R331, R366); an activity that is gone or no longer faulted is left alone. With `next` the
transfer to the fall-through block is checked here (R207), and its failure is a fault of the block entered. -/
def State.resumeAct (s : State) (a : Aid) (mode : ResumeMode) (patch : Option (Nat × Word)) : State :=
  match s.act a with
  | none => s
  | some y =>
    match y.fault with
    | none => s
    | some r =>
      if y.run != .faulted then s
      else
        match mode with
        | .kill =>
          (s.logAct y 4 2 [BitVec.ofNat 64 y.region, BitVec.ofNat 64 (s.queueOf a.fn y.region)]).retire a true y.returnsWeight
        | _ =>
          let s1 : State := match patch with
            | some (n, w) => s.modAct a fun x => { x.mended .s n with s := setReg x.s n w }
            | none => s
          let crew := s1.crew y
          let onward := mode == .next && (r.origin == 0 || r.origin == 3)
          let next := s1.nextOf a.fn y.acre r.block
          let s2 : State := if onward then s1.modCrewOf crew fun x => { x with resume := next, entry := .checked, rep := none }
            else s1
          match (if onward then s2.enter a.fn y.acre next .exit y.gang.isSome 2 else .ok []) with
          | .error f => s2.takeFault a ⟨next, f.cause, 255, 0, 0, r.serial, f.a, f.b⟩
          | .ok _ =>
            crew.foldl (fun (t : State) (z : Act) => (t.tick.2.modAct z.id fun x =>
              { x.makeReady t with fault := none, unsolved := false }).enqueue z.id) s2

/-- KILLQ and RESUME of one slot, and what the search of a SPAWN for a free region table entry has read. -/
def State.commitOthers (s : State) (q : Mem) (k : Nat) : State :=
  match q.fl.effAt k with
  | .killq v n => s.killQueue v n
  | .resume a mode patch => s.resumeAct a mode patch
  | .spawn _ _ child _ (some _) => match s.act ⟨q.x.id.fn, child⟩ with
    | some y => s.searchEntries y.id.fn y.region
    | none => s
  | _ => s

/-! ### The whole commit -/

/-- The lowest TRAP that fired in an execution (R256). -/
def Flight.trapSlot (f : Flight) : Option (Nat × Nat) :=
  (upFrom 0 f.words.length).findSome? fun k => match f.effAt k with | .trap n => some (n, k) | _ => none

/-- Marks the trap of the lowest slot of a crew's execution, at one slot that of the lowest member, as still to be
raised. -/
def State.noteTrap (s : State) (crew : List Mem) : State :=
  let traps := crew.filterMap fun q => q.fl.trapSlot.map fun t => (q, t)
  match traps.foldl (fun (b : Option (Mem × Nat × Nat)) e => match b with
      | none => some e
      | some d => if e.2.2 < d.2.2 then some e else b) none with
  | none => s
  | some (q, n, k) => s.modAct q.x.id fun y => { y with trap := some (n, q.fl.addr, k) }

/-- The slot that a count or budget fault of the whole block names: the lowest WR of class C, else the exit. -/
def Flight.refSlot (f : Flight) (exit : Nat) : Nat :=
  ((upFrom 0 f.words.length).find? fun k => match f.effAt k with | .write .c .. => true | _ => false).getD exit

/-- Whether a count of a core's store is above 65,535 (R84). -/
def Core.countOver (c : Core) : Bool := c.envs.any fun e => decide (65535 < e.2.count)

/-- The executions of a party's partner see the stores just committed: loads of it that read other bytes now fire
again (R53). -/
def State.replayPartner (s : State) (x : Act) : State :=
  match s.partner x with
  | none => s
  | some (y, _) =>
    match y.flight with
    | none => s
    | some f => s.setFlight y.id (f.replay (s.baseByte y) 128)

/-- Raises the traps of a crew that does not wait. -/
def State.trapNow (s : State) (crew : List Mem) : State :=
  match crew.findSome? fun q => (s.act q.x.id).bind fun y =>
      if y.trap.isSome && y.run == .running && !y.retiring then some y else none with
  | some y => s.raiseTrap y
  | none => s

/-- The use that a block's ENVRD and ENVWR made of the environment that was current (R86). -/
def State.useOfBlock (s : State) (q : Mem) : State :=
  let used := (upFrom 0 q.fl.words.length).any fun k => (q.fl.slot k).status == .done &&
    (match q.fl.instr k with | some (.envrd ..) | some (.envwr ..) => true | _ => false)
  if used then s.touchEnv q.x q.x.env else s

/-- The crew with its executions as a state holds them, whose handle tokens a spill or reload of the commit has renamed
(R75). -/
def State.crewNow (s : State) (crew : List Mem) : List Mem :=
  crew.map fun q => { q with fl := ((s.act q.x.id).bind fun y => y.flight).getD q.fl }

/-- The commit of a crew's complete execution: the state after it, or the faults its checks raise. DESIGN CHOICE
(assumption log 64): the SPAWNs and completion closures of a gang's block draw weight slot by slot, and within a slot
member by member. -/
def State.tryCommit (s0 : State) (crew : List Mem) : Except (List (Nat × Nat × Flt)) State :=
  match crew with
  | [] => .ok s0
  | lead :: _ =>
    match lead.fl.exits with
    | [] => .ok s0
    | (k, e) :: _ =>
      let n := lead.fl.words.length
      let first := match s0.gangOf lead.x with | some g => g.nextIdx | none => 0
      let slots := upFrom 0 n
      let c0 : Late := ⟨s0, []⟩
      let c1 : Late := crew.foldl (fun c q => q.fl.byLsid.foldl (fun c k => c.store q k) c) c0
      let c2 : Late := crew.foldl (fun c q => slots.foldl (fun c k => c.own q k) c) c1
      let c3 : Late := slots.foldl (fun c k =>
        (crew.foldl (fun c q => c.issue lead.x.id q k) c).matrix crew first k) c2
      let c4 : Late := crew.foldl (fun c q => slots.foldl (fun c k => c.env q k) c) c3
      let s1 : State := (c4.s.crewNow crew).foldl (fun s q => slots.foldl (fun s k => s.commitReg q k) (s.commitSeed q)) c4.s
      let s2 : State := crew.foldl (fun (s : State) q => s.modAct q.x.id fun y => { y with flight := none }) s1
      let s3 : State := s2.noteTrap crew
      match State.exit s0 c4.s s3 crew lead k e with
      | .error f => .error (c4.bad ++ [(0, k, f)])
      | .ok s4 =>
        if !c4.bad.isEmpty then .error c4.bad
        else
          let v := lead.x.id.fn
          let cores := (crew.map fun q => q.x.coreNum).eraseDups
          let s5 : State := cores.foldl (fun s c => s.recount c) (crew.foldl (fun (s : State) q => s.useOfBlock q) s4)
          let s5 : State := crew.foldl (fun (s : State) q => s.sweep q.x.id) s5
          let s6 : State := s5.refreshEnvu v
          if cores.any fun c => (s6.core c).countOver then .error [(0, lead.fl.refSlot k, flt .refcount)]
          else
            match envOver (s0.fn v) (s6.fn v) with
            | some g => .error [(0, lead.fl.refSlot k, fltA .environmentBudget g)]
            | none =>
              let s7 : State := crew.foldl (fun s q => slots.foldl (fun s k => s.commitOthers q k) s) s6
              let s8 : State := s7.replayPartner lead.x
              .ok ((s8.trapNow crew).finishUnseals v)

end Sys2Proof.Machine
end

