-- ==== Sys2Proof/Machine/Block.lean ====
section
/-!
DEFINITION. The block engine (R33, R34, R205 to R223, R256, R362, R367, R368, R438): BLOCK_START, BLOCK_COMMIT and
BLOCK_FAULT. An event whose condition does not hold leaves the state as it is.
-/
namespace Sys2Proof.Machine

/-! ### Starting (R206, R207, R222, R228) -/

/-- What the check of a pending entry compares, and its way number (R207, R361). -/
def Entry.way : Entry → Way × Nat
  | .checked => (.continue_, 1)
  | .launch => (.exit, 1)
  | .closure n => (.closure n, 3)
  | .handler => (.handler, 3)

/-- Whether a member can begin a block: running in a slot, with no execution, not retiring. -/
def Act.idle (x : Act) : Bool := x.run == .running && x.place.isSome && x.flight.isNone && !x.retiring

/-- Causes whose detail B is their own (R361). -/
def Cause.hasB : Cause → Bool
  | .illegalEntry | .translation2 | .danglingFrame | .weight | .gangDivergence | .strictCode | .trap | .hcall => true
  | _ => false

/-- Detail B of a fault in an execution (R360): the cause's own, else the iteration of a repeating block. -/
def Flt.detailB (f : Flt) (x : Act) : Word :=
  if f.cause.hasB then f.b else BitVec.ofNat 64 (match x.rep with | some (_, i) => i | none => 0)

/-- Faults a crew on the block at which its lead stands (origin 0); a kill that the fault brings may end the waits of
others, whose traps are raised then (R256). -/
def State.faultHere (s : State) (x y : Act) (f : Flt) (slot : Nat) : State :=
  (s.takeFault x.id ⟨x.resume, f.cause, slot, memberOf y, 0, x.id.serial, f.a, f.detailB x⟩).settle

/-- The transfer to the block at which a crew stands has been checked (R207): what comes after makes only the tag check.
-/
def State.entryDone (s : State) (crew : List Act) : State :=
  s.modCrewOf crew fun z => { z with entry := .checked }

/-- The block cache after a block is decoded (R438). -/
def Core.fetched (c : Core) (addr : Nat) : Core :=
  { c with cache := (addr :: c.cache.filter fun a => a != addr).take 512 }

/-- The predictor after a block's exit (R220, R438). -/
def Core.predicted (c : Core) (addr ex target : Nat) : Core :=
  { c with pred := ((addr, ex, target) :: c.pred.filter fun p => p.1 != addr).take 1024 }

/-- Starts an execution of a decoded block on every member. -/
def State.launchFlight (s : State) (crew : List Act) (fl : Flight) (rep : Option (Nat × Nat)) : State :=
  s.modCrewOf crew fun z => { z with flight := some fl, rep := rep }

/-- The execution of a crew's block after it has passed its entry check and decoding (R222). -/
def State.enterBlock (s : State) (x : Act) (crew : List Act) (fl : Flight) : State :=
  if !kindRepeats (hdrKind fl.hdr) then s.launchFlight crew fl none
  else
    match x.rep with
    | some r => s.launchFlight crew fl (some r)
    | none =>
      let trip (y : Act) : Word := y.s.toList.getD (hdrTrip fl.hdr) 0
      match crew.find? fun y => (y.regOk .s (hdrTrip fl.hdr)).isOk == false with
      | some y => s.faultHere x y (fltA .dataError (regOffset .s (hdrTrip fl.hdr))) 255
      | none =>
      match crew.find? fun y => bits (trip y).toNat 63 24 != 0 with
      | some y => s.faultHere x y ⟨.repeatCount, trip y, 0⟩ 255
      | none =>
        if trip x == 0 then
          match s.exitCheck x (fallThrough fl) .exit x.gang.isSome with
          | .error f => s.faultHere x x f 255
          | .ok _ => s.modCrewOf crew (Act.goTo (fallThrough fl))
        else s.launchFlight crew fl (some ((trip x).toNat, 0))

/-- BLOCK_START (R207): entry check, decoding, the trip count; a failure faults before any slot fires.
DESIGN CHOICE (assumption log 69): a shelf that is unsealed between a transfer's check and the fetch makes a fault of the
block entered, with slot 255. -/
def execBlockStart (a : Aid) (s : State) : Res :=
  .next <|
    match s.act a with
    | none => s
    | some x =>
      let crew := s.crew x
      if !(crew.all Act.idle) || memberOf x != 0 || !s.fnRuns a.fn || (crew.any fun y => s.halted y.id) then s
      else
        match crew.find? fun y => y.trap.isSome with
        | some y => (s.raiseTrap y).settle
        | none =>
          match crew.find? fun y => y.bad.contains (.context y.id) with
          | some y => s.faultHere x y (fltA .dataError 0) 255
          | none =>
            let w := x.entry.way
            match s.enter a.fn x.acre x.resume w.1 x.gang.isSome w.2 with
            | .error f => (if f.cause == .illegalEntry then s.entryDone crew else s).faultHere x x f 255
            | .ok hdr =>
              let s1 : State := s.entryDone crew
              match s1.fetchWords a.fn x.acre (x.resume + 16) (hdrSlots hdr) with
              | .error f => s1.faultHere x x f 255
              | .ok words =>
                let fl := newFlight s1.fresh x.resume hdr words s1.time
                match decodeFault fl x.hyper with
                | some (f, k) => s1.faultHere x x f k
                | none =>
                  let s2 : State := crew.foldl (fun (t : State) y => t.modCore y.coreNum fun c => c.fetched fl.addr) s1.tick.2
                  s2.enterBlock x crew fl

/-! ### Quiescence and completion (R215) -/

/-- No slot that can still fire waits to fire, and no token is in transit. -/
def Flight.quiet (f : Flight) : Bool :=
  (upFrom 0 f.words.length).all fun k => (f.slot k).status != .pending && !f.live k

/-- A slot that has fired or fired null. -/
def SlotSt.over (sl : SlotSt) : Bool := sl.status == .done || sl.status == .nulled

/-- Every WR and every store is done or nulled (R215). -/
def Flight.written (f : Flight) : Bool :=
  (upFrom 0 f.words.length).all fun k =>
    match f.instr k with
    | some i => !(isStore i || (match i with | .wr .. => true | _ => false)) || (f.slot k).over
    | none => true

/-- The members of an activity's crew that execute, or none when one does not. -/
def State.flying (s : State) (x : Act) : Option (List Mem) :=
  let ms := (s.crew x).filterMap fun y => y.flight.map fun f => ⟨memberOf y, y, f⟩
  if ms.length = (s.crew x).length ∧ !ms.isEmpty then some ms else none

/-! ### Faults of an execution (R33, R214, R217, R361, R368) -/

/-- The code of an operand (R208). -/
def Opnd.code : Opnd → Nat
  | .l => 0
  | .r => 1
  | .p => 2
  | .x => 3

/-- The fault that one member's execution names: its case of R217 (0 collision, 1 slot, 2 multiple exit, 4 missing exit,
5 incomplete), slot and words. -/
def Flight.faultCase (f : Flight) : Option (Nat × Nat × Flt) :=
  let slots := upFrom 0 f.words.length
  match slots.findSome? fun k => ((f.slot k).second).map fun o => (k, o) with
  | some (k, o) => some (0, k, fltA .collision (4 * k + o.code))
  | none =>
    match slots.findSome? fun k => match (f.slot k).status with | .faulted e => some (k, e) | _ => none with
    | some (k, e) => some (1, k, e)
    | none =>
      match f.exits with
      | (k, _) :: (j, _) :: _ => some (2, k, fltA .multipleExit j)
      | [] => some (4, 255, flt .missingExit)
      | [_] => if f.written then none else some (5, 255, flt .incomplete)

/-- The exit slot of a member whose execution fired exactly one exit. -/
def Flight.exitSlot (f : Flight) : Option Nat := match f.exits with | [(k, _)] => some k | _ => none

/-- The first member whose exit differs from member 0's (R33), case 3. DESIGN CHOICE (assumption log 63): the record's
member field is 0, as its slot is member 0's exit. -/
def divergence (crew : List Mem) : Option (Nat × Nat × Nat × Flt) :=
  match crew with
  | [] => none
  | lead :: rest =>
    match lead.fl.exitSlot with
    | none => none
    | some k =>
      match rest.find? fun q => q.fl.exitSlot != some k with
      | none => none
      | some q => some (3, 0, k, fltAB .gangDivergence q.m ((q.fl.exitSlot).getD 255))

/-- The least of a list of faults by case, member, slot. -/
def leastFault (l : List (Nat × Nat × Nat × Flt)) : Option (Nat × Nat × Nat × Flt) :=
  l.foldl (fun (b : Option (Nat × Nat × Nat × Flt)) e => match b with
    | none => some e
    | some d =>
      if e.1 < d.1 || (e.1 == d.1 && (e.2.1 < d.2.1 || (e.2.1 == d.2.1 && e.2.2.1 < d.2.2.1))) then some e else b) none

/-- What a quiescent crew comes to: the state after its commit, or the fault it names (case, member, slot, words). -/
def State.outcome (s : State) (crew : List Mem) : Except (Nat × Nat × Nat × Flt) State :=
  let own := crew.filterMap fun q => (q.fl.faultCase).map fun e => (e.1, q.m, e.2.1, e.2.2)
  match leastFault (own ++ (divergence crew).toList) with
  | some e => .error e
  | none =>
    match s.tryCommit crew with
    | .ok t => .ok t
    | .error es => .error ((leastFault (es.map fun e => (6, e.1, e.2.1, e.2.2))).getD (6, 0, 255, flt .incomplete))

/-- Whether a block's execution or commit reads the region table for its activity (R23): the choice of a PALLOC that has
fired, whatever it answered, the strict flag that a VLD consults, a page, environment or weight charge; with `framed`,
pages of a spill frame that an exit takes or returns. -/
def Flight.readsRegions (f : Flight) (framed : Bool) : Bool :=
  (upFrom 0 f.words.length).any fun k =>
    (match f.effAt k with
      | .palloc .. | .pfree _ | .lgive _ | .spawn .. | .copy _ _ (some _) _ | .cenv .. | .exit (.split _) => true
      | .exit (.call _) | .exit .ret | .exit (.apply _) | .exit (.vapply ..) => framed
      | _ => false) ||
    ((f.slot k).status == .done && (match f.instr k with | some (.palloc ..) | some (.vld ..) => true | _ => false))

/-- Whether an exit that changes the apply stack or the current environment may take or return frame pages (R21, R88). -/
def Act.hasFrame (x : Act) : Bool := !x.frame.isEmpty || decide (16 ≤ x.stack.length)

/-- The entry of the region table that fails its check code at a crew's commit. -/
def State.badAtCommit (s : State) (crew : List Mem) : Option Nat :=
  (crew.find? fun q => q.fl.readsRegions q.x.hasFrame).bind fun q => s.badEntry q.x

/-- Whether a fired slot's fault reports work of an engine (R367), origin 3. -/
def State.engineFault (s : State) (q : Mem) (k : Nat) (f : Flt) : Bool :=
  match f.cause, q.fl.instr k with
  | .strictCode, some (.vld ..) => false
  | .strictCode, _ => true
  | .shape, _ => (match s.gangOf q.x with
    | some g => g.cmds.any fun d => d.failed && !d.reported && d.report q.m == f
    | none => false)
  | _, _ => false

/-- Changes the first element of a list that meets a condition. -/
def modFirst {α : Type} (p : α → Bool) (g : α → α) : List α → List α
  | [] => []
  | a :: l => if p a then g a :: l else a :: modFirst p g l

/-- The kind of a matrix command's instruction. -/
def matrixKind : Instr → Option MKind
  | .mfuse _ m _ => some (.mfuse m)
  | .mwload _ s _ => some (.mwload s)
  | .mwswap _ _ => some .mwswap
  | .mstream _ zb ow t _ => some (.mstream zb ow t.toNat)
  | .mstore _ t _ => some (.mstore t.toNat)
  | .mrel _ m _ => some (.mrel m.toNat)
  | .mldacc _ i t _ => some (.mldacc i t.toNat)
  | _ => none

/-- The resources of the command of a slot, none where the slot issues no command. -/
def Mem.resources (q : Mem) (k : Nat) : Option (List Nat) :=
  ((q.fl.instr k).bind matrixKind).map fun kd =>
    (⟨0, kd, q.fl.addr, k, [], [], [], false, [], false, false, 0, false, false, [], false⟩ : MCmd).resources

/-- The commands of a gang once slot `k` of a member has reported the fault `f` (R367): the first command that it depends
on and that the fault names is reported, or the first code that it depends on and that the fault names is gone. -/
def Gang.reported (g : Gang) (q : Mem) (k : Nat) (f : Flt) : List MCmd :=
  let on (p : List Nat → Bool) : Bool := (q.resources k).all p
  if f.cause == .strictCode then
    let is (h : StrictHit) : Bool := h.tag == q.m && BitVec.ofNat 64 h.off == f.a && h.val == f.b
    modFirst (fun d => d.hits.any is && on fun rs => rs.contains (g.planeOf d))
      (fun d => { d with hits := d.hits.eraseP is }) g.cmds
  else
    modFirst (fun d => d.failed && !d.reported && d.report q.m == f && on fun rs => d.resources.any rs.contains)
      (fun d => { d with reported := true }) g.cmds

/-- The slots that report the reserved codes of CBANKs (R286). -/
def reportsTags : Instr → Bool
  | .wtany .. | .wtall .. | .tagff .. => true
  | _ => false

/-- The report discharges the failed command or the one reserved code that it names (R367): a tag wait or TAGFF a code
of the CBANKs whose tags are in its mask (R286), another slot a command of the gang. -/
def State.discharge (s : State) (q : Mem) (k : Nat) (f : Flt) : State :=
  if (q.fl.instr k).any reportsTags then
    let mask := (((q.fl.slot k).arrived .l).map Token.word).getD 0
    s.modAct q.x.id fun y => { y with
      strict := y.strict.eraseP fun h => mask.getLsbD h.tag && BitVec.ofNat 64 h.off == f.a && h.val == f.b }
  else
    match s.gangOf q.x with
    | none => s
    | some g => s.setGang ({ g with cmds := g.reported q k f } : Gang).tidy

/-- A stale handle (R87) is a detected hardware error, which the black-box record takes as a record integrity failure
beside the fault; the check code of an RCB image is the spawner's own mistake (R23). -/
def State.logStale (s : State) (q : Mem) (k : Nat) (f : Flt) : State :=
  let image : Bool := match q.fl.effAt k with | .spawn _ _ _ _ (some a) => a == f.a | _ => false
  if f.cause == .recordIntegrity && !image then s.logAct q.x 0x0D 0 [f.a] else s

/-- BLOCK_COMMIT (R215, R216): the commit of a quiescent, complete execution. -/
def execBlockCommit (a : Aid) (s : State) : Res :=
  .next <|
    match s.act a with
    | none => s
    | some x =>
      match s.flying x with
      | none => s
      | some crew =>
        if memberOf x != 0 || !(crew.all fun q => q.fl.quiet && !s.halted q.x.id) || s.stopped || !s.mayEnd a.fn then s
        else
          match s.outcome crew with
          | .error _ => s
          | .ok t =>
            if (s.badAtCommit crew).isSome then s
            else
            let t : State := match crew with
              | [] => t
              | q :: _ =>
                let ex := match q.fl.exitSlot with
                  | some k => (match q.fl.instr k with | some i => exitNum i | none => 0)
                  | none => 0
                let next := match t.act a with | some y => y.resume | none => 0
                (crew.map fun m => m.x.coreNum).eraseDups.foldl (fun (u : State) n =>
                  u.modCore n fun c => c.predicted q.fl.addr ex next) t
            t.settle

/-- BLOCK_FAULT (R217): a quiescent execution that does not commit raises one fault; one that would commit and meets an
entry of the region table that fails its check code takes the fault of R23. -/
def execBlockFault (a : Aid) (s : State) : Res :=
  .next <|
    match s.act a with
    | none => s
    | some x =>
      match s.flying x with
      | none => s
      | some crew =>
        if memberOf x != 0 || !(crew.all fun q => q.fl.quiet && !s.halted q.x.id) || s.stopped || !s.mayEnd a.fn then s
        else
          match s.outcome crew with
          | .ok _ => (match s.badAtCommit crew with
            | some e => (s.recordFault x e).settle
            | none => s)
          | .error (rank, m, k, f) =>
            match crew.find? fun q => q.m == m with
            | none => s
            | some q =>
              let engine := (rank == 1 || rank == 6) && s.engineFault q k f
              let s1 : State := if engine then s.discharge q k f else s.logStale q k f
              let b := if engine then f.b else f.detailB q.x
              (s1.takeFault a ⟨q.fl.addr, f.cause, k, m, if engine then 3 else 0, a.serial, f.a, b⟩).settle

end Sys2Proof.Machine
end

