-- ==== Sys2Proof/Machine/Desks.lean ====
section
/-!
DEFINITION. Desks, meetings and gatherings (R37 to R73, R333 to R341, R385): MEET_ARRIVAL, GATHER_ARRIVAL, MEET_EXPIRY,
GATHER_EXPIRY, DESK_KILL, PAIR_PLACEMENT, TRAVEL_ARRIVAL, LANDING_NOTICE and PART_LANDING.
-/
namespace Sys2Proof.Machine

/-! ### Keys, homes, catalogues (R37, R68, R69, R72, R339) -/

/-- The mixed key of R339. -/
def homeHash (v : Nat) (key : Word) : Word :=
  let z : Word := key ^^^ (BitVec.ofNat 64 v * 0x9E3779B97F4A7C15)
  let z : Word := (z ^^^ (z >>> 30)) * 0xBF58476D1CE4E5B9
  let z : Word := (z ^^^ (z >>> 27)) * 0x94D049BB133111EB
  z ^^^ (z >>> 31)

/-- The home core of a key (R339). -/
def State.homeCore (s : State) (v : Nat) (key : Word) : Nat :=
  let l := s.fnCores v
  l.getD ((homeHash v key).toNat % l.length) 0

/-- A valid pod catalogue entry of a function: device and VF (R72). -/
def State.podEntry (s : State) (v scope : Nat) : Option (Nat × Nat) :=
  let e := leNat (s.ipaRead v ((s.fn v).cfg.podcat + 8 * scope) 8)
  let d := bits e 13 5
  let f := bits e 4 0
  if scope ≠ 0 ∧ bit e 63 ∧ bits e 62 14 = 0 ∧ d ≤ 287 ∧ 1 ≤ f ∧ f ≤ 16 then some (d, f) else none

/-- Where an arrival goes: the desk's function, a refusal with reason 5, or another device. -/
inductive Route where | here (fn : Nat) | refused | away
deriving DecidableEq, Repr

/-- The route of an arrival of function `v` under a key (R68, R69). -/
def State.route (s : State) (v : Nat) (key : Word) : Route :=
  let scope := bits key.toNat 63 55
  if scope = 0 then .here v
  else
    match s.podEntry v scope with
    | none => .refused
    | some (d, w) =>
      if d ≠ s.device then .away
      else if w = v then .here v
      else if (upFrom 1 511).any fun n => s.podEntry w n == some (s.device, v) then .here w
      else .refused

/-- The desk of a key of a function. -/
def State.desk (s : State) (fn : Nat) (key : Word) : Option Desk := s.desks.find? fun d => d.fn == fn && d.key == key

/-- Replaces a desk's content. -/
def State.setDesk (s : State) (fn : Nat) (key : Word) (st : DeskSt) : State :=
  { s with desks := s.desks.map fun d => if d.fn = fn ∧ d.key = key then { d with st := st } else d }

/-- Frees a desk and returns its unit of keyu (R38, R39). -/
def State.freeDesk (s : State) (fn : Nat) (key : Word) : State :=
  match s.desk fn key with
  | none => s
  | some d =>
    let t : State := (s.modChain d.payer.1 d.payer.2 fun r => { r with keyu := r.keyu - 1 }).giveDevice d.payer.1
      d.payer.2 d.pages
    { t with desks := t.desks.filter fun e => !(e.fn == fn && e.key == key) }

/-- Creates a desk for an arrival of an activity (R13, R38, R39): an overflow entry, which takes a page of the arriving
activity's function, when its home core's 64 entries are taken; none when a key budget, or for an overflow entry the
pages, are exhausted. -/
def State.newDesk (s : State) (fn : Nat) (key : Word) (x : Act) (st : DeskSt) : Option State :=
  let v := x.id.fn
  if !((s.fn v).fits x.region 4 1 (·.keyu) (·.keyb)) then none
  else
    let home := s.homeCore fn key
    let full := decide (Config.coreDesks ≤ (s.desks.filter fun d => d.home == home && !d.overflow && s.fnOn d.fn).length)
    match (if full then s.takeDevice v x.region 1 else some ([], s)) with
    | none => none
    | some (ps, u) =>
      let t : State := u.modChain v x.region fun r => { r with keyu := r.keyu + 1 }
      some { t with desks := t.desks ++ [⟨fn, key, home, full, ps, (v, x.region), st⟩] }

/-- Sends a landing notice to a party (R385). -/
def State.notice (s : State) (dest : Aid) (status : Nat) (s15 : Nat) (v15 : Option Vec) : State :=
  s.sendMsg (.landing dest status (BitVec.ofNat 64 s15) v15)

/-- Whether a record holds a serial in state 1, waiting in a meeting under a digest (R11, R16, R43). -/
def recordWaits (r : List Word) (serial digest : Nat) : Bool :=
  let w (k : Nat) : Nat := (r.getD k 0).toNat
  w 0 % 16 == 1 && bits (w 1) 39 8 == serial && bits (w 5) 63 60 == WKind.meet.code && bits (w 5) 59 0 == digest

/-- Whether a party still waits as a desk believes (R43): the record at its address says so, or the activity is resident
and waits under this key. -/
def State.stillWaits (s : State) (p : Party) (key : Word) : Bool :=
  let digest := keyDigest p.id.fn key
  match s.act p.id with
  | some x => if x.place.isSome then x.run == .waiting && x.wkind == .meet && x.wop == digest
      else recordWaits (s.recordAt p.id.fn p.recAt) p.id.serial digest
  | none => recordWaits (s.recordAt p.id.fn p.recAt) p.id.serial digest

/-! ### Gatherings (R61 to R66) -/

/-- The element type of an arity word. -/
def arityType (a : Word) : Nat := bits a.toNat 23 20
/-- The number of parties of an arity word. -/
def arityCount (a : Word) : Nat := bits a.toNat 19 0

/-- Arity word and combine code are valid together (R61, R62). -/
def gatherOk (op : GOp) (a : Word) : Bool :=
  let ty := arityType a
  bits a.toNat 63 24 == 0 && decide (ty ≤ 8) && decide (2 ≤ arityCount a) &&
    (match op with
      | .add | .min | .max => decide (ty ≤ 7)
      | .and | .or | .xor => ty == 0 || ty == 1 || ty == 5
      | .count => ty == 8)

/-- Lane width of an element type (R61, R63). -/
def gatherWidth : Nat → Nat
  | 0 | 1 | 4 => 64
  | 2 | 5 | 6 => 32
  | _ => 16

/-- Lanes of an element type. -/
def gatherLanes : Nat → Nat
  | 5 | 6 => 16
  | 7 => 32
  | _ => 1

/-- The float format of an element type, none for integers. -/
def gatherFmt : Nat → Option FFmt
  | 2 | 6 => some fp32
  | 3 | 7 => some bf16
  | 4 => some fp64
  | _ => none

/-- One lane of the combination (R64): the exact sum rounded once, or the exact minimum, maximum or bitwise result. -/
def gatherLane (op : GOp) (ty : Nat) (vs : List Nat) : Nat :=
  let w := gatherWidth ty
  match gatherFmt ty with
  | some f =>
    let ns := vs.map f.read
    let h := ns.headD .nan
    f.round .rne false 0 (match op with
      | .min => ns.foldl Num.min h
      | .max => ns.foldl Num.max h
      | _ => (ns.drop 1).foldl (Num.add .rne) h)
  | none =>
    let h := vs.headD 0
    let signed := ty != 1
    let le (a b : Nat) : Bool := decide (bitsInt signed w a ≤ bitsInt signed w b)
    (match op with
      | .add => vs.sum
      | .min => vs.foldl (fun a b => if le a b then a else b) h
      | .max => vs.foldl (fun a b => if le a b then b else a) h
      | .and => vs.foldl (· &&& ·) h
      | .or => vs.foldl (· ||| ·) h
      | .xor => (vs.drop 1).foldl (· ^^^ ·) h
      | .count => 0) % 2 ^ w

/-- The result of a round (R64). DESIGN CHOICE (assumption log 87): the bits of S15 above the result of a 32- or 16-bit
float type are zero. -/
def gatherResult (op : GOp) (a : Word) (ps : List Party) : Nat :=
  let ty := arityType a
  let w := gatherWidth ty
  if ty = 8 then arityCount a
  else ((upFrom 0 (gatherLanes ty)).map fun k =>
    gatherLane op ty (ps.map fun p => p.contrib.toNat / 2 ^ (w * k) % 2 ^ w) * 2 ^ (w * k)).sum

/-- Lands every party of a released round (R59, R65). -/
def State.release (s : State) (r : Round) (number : Nat) : State :=
  let ty := arityType r.arity
  let v := gatherResult r.op r.arity r.parties
  r.parties.foldl (fun (t : State) p =>
    if 5 ≤ ty ∧ ty ≤ 7 then t.notice p.id 4 number (some (BitVec.ofNat 512 v)) else t.notice p.id 4 v none) s

/-- Closes a round: the desk is idle, or freed when its payer's region has ended (R38). -/
def State.closeRound (s : State) (fn : Nat) (key : Word) (number : Nat) : State :=
  match s.desk fn key with
  | none => s
  | some d =>
    let ended : Bool := match (s.fn d.payer.1).region d.payer.2 with
      | some r => r.rstate == .complete || r.rstate == .killed
      | none => true
    if ended then s.freeDesk fn key else s.setDesk fn key (.gathering (number % 2 ^ 32) none)

/-! ### Expiries (R40, R42, R66, R385) -/

/-- Whether a deadline has come. -/
def Party.due (p : Party) (now : Nat) : Bool := match p.deadline with | some d => decide (d ≤ now) | none => false

/-- The expiry of a meeting's waiting first party. -/
def State.expireMeet (s : State) (fn : Nat) (key : Word) : State :=
  match s.desk fn key with
  | some d =>
    (match d.st with
      | .meeting (some p) prs =>
        if !p.due s.time then s
        else
          let t : State := s.notice p.id 1 0 none
          if prs.isEmpty then t.freeDesk fn key else t.setDesk fn key (.meeting none prs)
      | _ => s)
  | none => s

/-- The expiry of one party of an open round. -/
def State.expireGather (s : State) (fn : Nat) (key : Word) (a : Aid) : State :=
  match s.desk fn key with
  | some d =>
    (match d.st with
      | .gathering n (some r) =>
        match r.parties.find? fun p => p.id == a && p.due s.time with
        | none => s
        | some p =>
          let t : State := s.notice p.id 3 r.parties.length none
          let rest := r.parties.filter fun q => q.id != a
          if rest.isEmpty then t.closeRound fn key n else t.setDesk fn key (.gathering n (some { r with parties := rest }))
      | _ => s)
  | none => s

/-- The due party that R385 takes first: earliest deadline, then the desk's own function, then function and serial. -/
def firstDue (fn now : Nat) (ps : List Party) : Option Party :=
  let key (p : Party) : Nat :=
    ((p.deadline.getD 0 * 2 + (if p.id.fn = fn then 0 else 1)) * 32 + p.id.fn) * 2 ^ 32 + p.id.serial
  (ps.filter fun p => p.due now).foldl (fun (b : Option Party) p => match b with
    | none => some p
    | some q => if key p < key q then some p else b) none

/-- Takes every expiry that has come, in the order of R385. -/
def expireAux (fn : Nat) (key : Word) : Nat → State → State
  | 0, s => s
  | k + 1, s =>
    match s.desk fn key with
    | some d =>
      (match d.st with
        | .meeting _ _ => s.expireMeet fn key
        | .gathering _ (some r) =>
          match firstDue fn s.time r.parties with
          | some p => expireAux fn key k (s.expireGather fn key p.id)
          | none => s
        | _ => s)
    | none => s

/-- Every expiry that reaches a desk before an arrival or a kill taken now. -/
def State.expireDesk (s : State) (fn : Nat) (key : Word) : State :=
  let n := match s.desk fn key with
    | some d => (match d.st with | .gathering _ (some r) => r.parties.length | _ => 0)
    | none => 0
  expireAux fn key (n + 1) s

/-- A message by number. -/
def State.msg (s : State) (n : Nat) : Option MsgKind := (s.msgs.find? fun m => m.seq == n).map (·.kind)
/-- Takes a message. -/
def State.takeMsg (s : State) (n : Nat) : State := { s with msgs := s.msgs.filter fun m => m.seq != n }

/-! ### Arrivals (R40 to R45, R58, R65, R66) -/

/-- Refuses an arrival (R58). -/
def State.refuse (s : State) (p : Party) (reason : Nat) : State := s.notice p.id 5 reason none

/-- An arrival that needs a new desk: its key charge reads the entries of the arriving activity's regions (R23, R39). -/
def State.openDesk (s : State) (fn : Nat) (key : Word) (x : Act) (p : Party) (st : DeskSt) : State :=
  match s.badEntry x with
  | some e => (s.recordFault x e).settle
  | none =>
    match s.newDesk fn key x st with
    | some t => t
    | none => s.refuse p 4

/-- A meeting arrival at a desk of function `w`. DESIGN CHOICE (assumption log 100): a first party that waits no more is
discarded, and the desk's unit of keyu stays with the region that was charged for it, the new first party's budget
unasked. -/
def State.arriveMeet (s : State) (w : Nat) (key : Word) (x : Act) (p : Party) : State :=
  let late := p.due s.time
  match s.desk w key with
  | none =>
    if late then s.notice p.id 1 0 none else s.openDesk w key x p (.meeting (some p) [])
  | some d =>
    match d.st with
    | .gathering _ _ => s.refuse p 1
    | .meeting fst prs =>
      let fst := fst.filter fun q => s.stillWaits q key
      match fst with
      | some q => s.setDesk w key (.meeting none (prs ++ [(q, p)]))
      | none =>
        if late then
          let t : State := s.notice p.id 1 0 none
          if prs.isEmpty then t.freeDesk w key else t.setDesk w key (.meeting none prs)
        else s.setDesk w key (.meeting (some p) prs)

/-- MEET_ARRIVAL (R40, R41, R43): a message that reached a desk whose tenant runs. -/
def execMeetArrival (n : Nat) (s : State) : Res :=
  .next <|
    match s.msg n with
    | some (.meetArrival p key) =>
      match s.act p.id with
      | none => s.takeMsg n
      | some x =>
        match s.route p.id.fn key with
        | .away => s
        | .refused => (s.takeMsg n).refuse p 5
        | .here w => if (s.fn w).state == .off then (s.takeMsg n).refuse p 5 else if s.fnRuns w then ((s.takeMsg n).expireDesk w key).arriveMeet w key x p else s
    | _ => s

/-- A gathering arrival at a desk of function `w`. -/
def State.arriveGather (s : State) (w : Nat) (key : Word) (x : Act) (p : Party) (arity : Word) (op : GOp) : State :=
  let late := p.due s.time
  if !gatherOk op arity then s.refuse p 3
  else
    match s.desk w key with
    | none =>
      if late then s.notice p.id 3 1 none else s.openDesk w key x p (.gathering 0 (some ⟨arity, op, [p]⟩))
    | some d =>
      match d.st with
      | .meeting _ _ => s.refuse p 1
      | .gathering num none =>
        if late then s.notice p.id 3 1 none else s.setDesk w key (.gathering num (some ⟨arity, op, [p]⟩))
      | .gathering num (some r) =>
        if r.arity ≠ arity ∨ r.op ≠ op then s.refuse p 2
        else
          let r2 := { r with parties := r.parties ++ [p] }
          if r2.parties.length = arityCount arity then (s.release r2 num).closeRound w key (num + 1)
          else if late then s.notice p.id 3 r2.parties.length none
          else s.setDesk w key (.gathering num (some r2))

/-- GATHER_ARRIVAL (R60, R65). -/
def execGatherArrival (n : Nat) (s : State) : Res :=
  .next <|
    match s.msg n with
    | some (.gatherArrival p key arity op) =>
      match s.act p.id with
      | none => s.takeMsg n
      | some x =>
        match s.route p.id.fn key with
        | .away => s
        | .refused => (s.takeMsg n).refuse p 5
        | .here w => if (s.fn w).state == .off then (s.takeMsg n).refuse p 5 else if s.fnRuns w then ((s.takeMsg n).expireDesk w key).arriveGather w key x p arity op else s
    | _ => s

/-- MEET_EXPIRY (R42). -/
def execMeetExpiry (fn : Nat) (key : Word) (s : State) : Res :=
  .next (if s.fnRuns fn then s.expireMeet fn key else s)

/-- The party of an open round whose expiry the desk takes next (R385). -/
def State.nextDue (s : State) (fn : Nat) (key : Word) : Option Party :=
  match (s.desk fn key).map fun (d : Desk) => d.st with
  | some (DeskSt.gathering _ (some r)) => firstDue fn s.time r.parties
  | _ => none

/-- GATHER_EXPIRY (R66): expiries that have come are taken in the order of R385, at a restore too (R73). -/
def execGatherExpiry (fn : Nat) (key : Word) (party : Aid) (s : State) : Res :=
  .next (if s.fnRuns fn && (s.nextDue fn key).any (fun p => p.id == party) then s.expireGather fn key party else s)

/-! ### Kills of waiting parties (R40, R57, R67) -/

/-- A desk learns that a party is dead. -/
def State.deskKilled (s : State) (fn : Nat) (key : Word) (a : Aid) : State :=
  match s.desk fn key with
  | none => s
  | some d =>
    match d.st with
    | .meeting fst prs =>
      let fst2 := fst.filter fun p => p.id != a
      let hit := prs.filter fun q => q.1.id == a || q.2.id == a
      let rest := prs.filter fun q => !(q.1.id == a || q.2.id == a)
      let t : State := hit.foldl (fun (u : State) q =>
        u.notice (if q.1.id = a then q.2.id else q.1.id) 2 a.serial none) s
      if fst2.isNone && rest.isEmpty then t.freeDesk fn key else t.setDesk fn key (.meeting fst2 rest)
    | .gathering n (some r) =>
      if r.parties.any fun p => p.id == a then
        let t : State := (r.parties.filter fun p => p.id != a).foldl (fun (u : State) p => u.notice p.id 2 a.serial none) s
        t.closeRound fn key (n + 1)
      else s
    | .gathering _ none => s

/-- DESK_KILL (R40). -/
def execDeskKill (n : Nat) (s : State) : Res :=
  .next <|
    match s.msg n with
    | some (.kill fn key a) => if s.fnRuns fn then ((s.takeMsg n).expireDesk fn key).deskKilled fn key a else s
    | _ => s

/-! ### Placement and travel (R44, R45, R49, R336) -/

/-- Moves a party to the meeting core: it gives up its slot, leaves the banks outside its luggage behind and takes its
environment records along (R48, R49); what its spill frame holds stays there (R333). DESIGN CHOICE (assumption log 83):
where the records that are free there are no consecutive run for one of its environments, others there are spilled, and
where none can be, that environment alone stays in the party's frame, for which no page is charged then. One that is not
resident is placed from its record and frame as a dispatch places it (R335). A party already there stays. -/
def State.travel (s : State) (a : Aid) (c : Nat) : State :=
  match s.act a with
  | none => s
  | some x =>
    match (if (match x.place with | some p => p.core == c | none => false) then none else s.freeSlot c) with
    | none => s
    | some k =>
      let s := (s.makeBanks c x.lugBanks).getD s
      let kept : Nat × Nat := match x.place with
        | some p => (p.core, x.banks - x.lugBanks)
        | none => (x.hint, 0)
      let t : State := (s.dequeue a).unplaceEnvs a
      let t : State := t.modAct a fun y => { y with
        place := some ⟨c, k⟩, behind := some kept, framed := if x.place.isSome then 0 else x.banks - x.lugBanks }
      let t : State := t.modCore c fun q => { q with gated := false }
      let t : State := match x.place with
        | some _ =>
          let moved := ((t.act a).elim 0 fun y => y.frameEnv.length) - x.frameEnv.length
          (upFrom x.frameEnv.length moved).reverse.foldl (fun (t : State) pos => (t.reload a pos).getD t) t
        | none => (match t.act a with
          | some y => if y.env.kind == .spilled then (t.reload a y.env.index.toNat).getD t else t
          | none => t)
      (t.shrinkFrame a).refreshEnvu a.fn

/-- A party whose record, or the entry of a region of it, fails its check code when the pair is placed (R12, R23, R335):
it faults with origin 4, and the other lands as after a death (R57). -/
def State.pairFault (s : State) (fn : Nat) (key : Word) (x : Act) (at_ : Nat) : State :=
  ((s.deskKilled fn key x.id).recordFault x at_).settle

/-- PAIR_PLACEMENT (R44, R45): the first matched pair at the desk that a core qualifies for; the copies that touch the
parties' luggage have completed (R138). -/
def execPairPlacement (fn : Nat) (key : Word) (s : State) : Res :=
  .next <|
    match s.desk fn key with
    | none => s
    | some d =>
      match d.st with
      | .gathering _ _ => s
      | .meeting fst prs =>
        let can (q : Party × Party) : Option (Act × Act × Nat) :=
          (s.pairOf fn q).bind fun p => (s.meetingCore p.1 p.2 d.home).map fun c => (p.1, p.2, c)
        match prs.findSome? fun q => (can q).map fun r => (q, r) with
        | none => s
        | some (q, x, y, c) =>
          match [x, y].findSome? fun z => if z.place.isNone then (s.badRead z).map fun e => (z, e) else none with
          | some (z, e) => s.pairFault fn key z e
          | none =>
          let rest := prs.filter fun r => r != q
          let t : State := if fst.isNone && rest.isEmpty then s.freeDesk fn key else s.setDesk fn key (.meeting fst rest)
          let t : State := t.modAct x.id fun z => { z with meet := z.meet.map fun m => { m with partner := y.id, first := true } }
          let t : State := t.modAct y.id fun z => { z with meet := z.meet.map fun m => { m with partner := x.id, first := false } }
          let t : State := (t.travel x.id c).travel y.id c
          { t with meetings := t.meetings ++ [⟨t.fresh, x.id, y.id, c, false⟩], fresh := t.fresh + 1 }

/-- TRAVEL_ARRIVAL (R336): the meeting begins and both parties land MET (R59). -/
def execTravelArrival (num : Nat) (s : State) : Res :=
  .next <|
    match s.meetings.find? fun m => m.num == num && !m.begun with
    | none => s
    | some m =>
      if !s.fnOn m.first.fn || !s.fnOn m.second.fn || s.stopped then s
      else
        let t : State := { s with meetings := s.meetings.map fun q => if q.num = num then { q with begun := true } else q }
        let begin_ (u : State) (a : Aid) : State := u.modAct a fun x => { x with meet := x.meet.map fun z => { z with begun := true } }
        let t : State := begin_ (begin_ t m.first) m.second
        ((t.land m.first 0 (BitVec.ofNat 64 m.second.serial) none).land m.second 0 (BitVec.ofNat 64 m.first.serial) none).settle

/-- LANDING_NOTICE (R17, R59): a desk's notice reaches a waiting party. -/
def execLandingNotice (n : Nat) (s : State) : Res :=
  .next <|
    match s.msg n with
    | some (.landing a status s15 v15) =>
      match s.act a with
      | none => s.takeMsg n
      | some x =>
        if x.saved then s
        else
          let t : State := (s.takeMsg n).modAct a fun y => { y with meet := none }
          (t.land a status s15 v15).settle
    | _ => s

/-- PART_LANDING (R54): once the partner's block in flight at the PART's commit is over, the party lands with MET, or
ABORTED after the partner's kill; a party that travelled leaves its slot and becomes ready. DESIGN CHOICE (assumption
log 86): from then until its next dispatch its context and luggage lie in no bank or slot of the meeting core, which are
free at once, and its frame is charged for none of them; what it left behind stays where it is. DESIGN CHOICE (assumption
log 108): a block of the partner's that a pre-emption aborts is over, and its execution from the start is another. -/
def execPartLanding (a : Aid) (s : State) : Res :=
  .next <|
    match s.act a with
    | none => s
    | some x =>
      match x.meet with
      | none => s
      | some m =>
        let busy : Bool := match m.parting, (s.act m.partner).bind fun y => y.flight with
          | some n, some f => f.seq == n
          | _, _ => false
        if x.wkind != .part || x.run != .waiting || busy || !s.fnRuns a.fn then s
        else
          let status := if m.left == .killed then 2 else 0
          let t : State := s.leaveMeeting a .parted
          let t : State := if x.behind.isSome then (t.unplaceEnvs a).writeRecord a else t
          (((t.land a status (BitVec.ofNat 64 m.partner.serial) none).finishUnseals a.fn).refreshEnvu a.fn).settle

end Sys2Proof.Machine
end

