-- ==== Sys2Proof/Machine/Images.lean ====
section
/-!
DEFINITION. What a function's own memory holds beside an image of it (R404): the region table (R22), the continuation
records (R11, R12) and the spill frames (R20, R21), as bytes at their intermediate addresses, and reading them back where
another part has written them.
-/
namespace Sys2Proof.Machine

/-! ### Writing -/

/-- The bytes of a region table entry (R22); one that fails its check code goes on failing it (R23). -/
def State.entryBytes (s : State) (v : Nat) (r : Region) : List Byte :=
  let b := wordsBytes (s.rcbWords v r)
  if r.bad then b.set 0xF8 (b.getD 0xF8 0 ^^^ 1) else b

/-- The word of a handle (R74). -/
def Handle.word (h : Handle) : Nat :=
  (match h.kind with | .empty => 0 | .store => 1 | .spilled => 2 | .bare => 3) * 2 ^ 62 + h.gen.toNat * 2 ^ 50 +
    h.index.toNat * 2 ^ 42 + h.entry.toNat

/-- The records of an environment (R76). -/
def Env.recordBytes (e : Env) : List Byte :=
  let body := leBytes 8 (e.owner * 2 ^ 32 + e.count * 2 ^ 16 + e.words * 2 ^ 11) ++
    leBytes 8 (((upFrom 0 e.words).map fun w => e.kinds.getD w 0 * 4 ^ w).sum) ++
    (upFrom 0 e.words).flatMap fun w => leBytes 8 (e.vals.getD w 0).toNat
  body ++ List.replicate (64 * envRecs e.words - body.length) 0

/-- The numbers below `n` that a mask names. -/
def liveOf (n : Nat) (live : Nat → Bool) : List Nat := (upFrom 0 n).filter live

/-- The loans and open slots that a frame saves (R20, R333). -/
def Act.heldItems (x : Act) : Nat := (x.l.toList.filter (· != .empty)).length + (x.sh.toList.filter (·.isSome)).length

/-- The spill frame of a written-back activity: the items of R20 behind the header of R21. Items whose layout the spec
leaves to the device (the header, loans, apply-stack entries, tiles) are free bytes (assumption log 102). -/
def Act.frameImage (x : Act) (n tiles : Nat) : List Byte :=
  let free (at_ k : Nat) : List Byte := (upFrom at_ k).map (Config.imageByte n)
  free 0 256 ++
    (liveOf 32 x.lives.getLsbD).flatMap (fun i => leBytes 8 (x.s.toList.getD i 0).toNat) ++
    (liveOf 32 x.livev.getLsbD).flatMap (fun i => leBytes 64 (x.v.toList.getD i 0).toNat) ++
    (liveOf 8 x.livem.getLsbD).flatMap (fun i => leBytes 8 (x.m.toList.getD i 0).toNat) ++
    (liveOf 8 x.livec.getLsbD).flatMap (fun i => leBytes 8 (x.c.toList.getD i Handle.none).word) ++
    free 256 (8 * x.heldItems + 48 * x.stack.length) ++
    (upFrom 0 (ceilDiv x.banks 2)).map (fun j =>
      BitVec.ofNat 8 ((x.fmts.toList.getD (2 * j) 0).toNat + 16 * (x.fmts.toList.getD (2 * j + 1) 0).toNat)) ++
    Memory.read x.carrel 0 (Config.bankSize * x.banks) ++
    x.frameEnv.flatMap Env.recordBytes ++ free 8192 (16384 * tiles)

/-- Writes bytes over a list of intermediate pages. -/
def State.writePages (v : Nat) : State → List Nat → List Byte → State
  | s, [], _ => s
  | s, p :: ps, b => State.writePages v (State.ipaWrite v s (p * 65536) (b.take 65536)) ps (b.drop 65536)

/-- Writes a function's region table, its records and its spill frames to their places in its memory (R22, R12, R20,
R404), where a restore on another part finds them. -/
def State.writeTables (s : State) (v : Nat) : State :=
  let xs := s.acts.filter fun x => x.id.fn == v && x.place.isNone
  let s1 : State := (s.fn v).regions.foldl (fun (t : State) r =>
    State.ipaWrite v t ((s.fn v).rcbAt r.idx) (s.entryBytes v r)) s
  let s2 : State := (s.fn v).spent.foldl (fun (t : State) e => State.ipaWrite v t e.1 (wordsBytes e.2)) s1
  let s3 : State := xs.foldl (fun (t : State) x => State.ipaWrite v t x.recAt (wordsBytes x.record)) s2
  (xs.filter fun x => !x.saved && !x.frame.isEmpty).foldl (fun (t : State) x =>
    State.writePages v t.tick.2 x.frame (x.frameImage t.fresh (s.liveTileCount x))) s3

/-! ### Reading -/

/-- The region that a region table entry describes, D fields included (R22). What the entry has no field for (the weight
held for it in its parent, the pages after the first of its queue and its pool, its overflow chain) is that of `old`. -/
def regionOfEntry (f : Func) (idx : Nat) (img : List Byte) (old : Region) : Region :=
  let w := wordOf img
  let parent := bits (w 0) 63 8 * 256
  let r := rcbRegion img idx (if parent = 0 then none else some ((parent - f.cfg.rtable) / 256)) (bits (w 0) 7 5)
    (bits (w 0x90) 63 58)
  let devp := if old.devp.isEmpty then [] else bits (w 0x60) 63 16 :: old.devp.drop 1
  { r with
    rstate := (match bits (w 0) 4 2 with | 1 => .open | 2 => .complete | 3 => .killed | _ => .built)
    pageu := bits (w 0x10) 31 0, envu := bits (w 0x18) 31 0, keyu := bits (w 0x20) 31 0
    issued := w 0x40, returned := w 0x48, rqhead := bits (w 0x68) 63 32, rqtail := bits (w 0x68) 31 0
    rfree := bits (w 0x78) 31 0, deficit := bits (w 0x88) 31 0
    held := old.held, rchain := old.rchain
    devp := if parent = 0 then devp.set (queuePages r.rqlog) (bits (w 0x70) 63 16) else devp }

/-- The region that an entry of a function's region table in memory holds: none for an entry not in use; one that fails
its check code is the region that the device knows there, its entry bad (R23). -/
def State.readEntry (s : State) (v idx : Nat) (known : List Region) : Option Region :=
  let img := s.ipaRead v ((s.fn v).rcbAt idx) 256
  let old := known.find? fun r => r.idx == idx
  if crc16 (img.take 0xF8) == wordOf img 0xF8 % 65536 then
    if bits (wordOf img 0) 4 2 == 0 then none else some (regionOfEntry (s.fn v) idx img (old.getD default))
  else old.map fun r => { r with bad := true }

/-- The activity that a record describes (R11), `x` giving what stands in no record. -/
def Act.ofRecord (x : Act) (v recAt : Nat) (r : List Word) : Act :=
  let w (k : Nat) : Nat := (r.getD k 0).toNat
  { x with
    id := ⟨v, bits (w 1) 39 8⟩, region := bits (w 1) 63 40, prio := bits (w 1) 7 4
    run := (match bits (w 0) 3 0 with | 1 => .waiting | 2 => .faulted | _ => .ready)
    resume := bits (w 0) 63 4 * 16, recAt := recAt, record := r, place := none, saved := false
    reshape := (match bits (w 1) 3 2 with | 1 => some .quad | 2 => some .acre | _ => none)
    frame := if bits (w 2) 63 8 = 0 then [] else bits (w 2) 63 16 :: x.frame.drop 1
    lives := BitVec.ofNat 32 (bits (w 3) 63 32), livev := BitVec.ofNat 32 (bits (w 3) 31 0)
    weight := bits (w 4) 63 32, banks := bits (w 4) 31 28 + 1
    livem := BitVec.ofNat 8 (bits (w 4) 23 16), livec := BitVec.ofNat 8 (bits (w 4) 15 8)
    wkind := ([WKind.none, .meet, .gather, .part, .wtany, .wtall, .wcnt, .sleep, .yield, .unseal, .gang, .split].getD
      (bits (w 5) 63 60) .none)
    wop := bits (w 5) 59 0, hint := bits (w 6) 63 51, link := bits (w 6) 47 6 * 64 }

/-- The handle of a word (R74). -/
def handleOf (w : Nat) : Handle :=
  ⟨(match bits w 63 62 with | 0 => .empty | 1 => .store | 2 => .spilled | _ => .bare), BitVec.ofNat 12 (bits w 61 50),
    BitVec.ofNat 8 (bits w 49 42), BitVec.ofNat 42 (bits w 41 0)⟩

/-- Environments read one after the other from their records (R76), as many as `known` has. -/
def envsOf : List Env → List Byte → List Env
  | [], _ => []
  | d :: ds, b =>
    let w := wordOf b
    let n := bits (w 0) 15 11
    { d with
      owner := bits (w 0) 63 32, count := bits (w 0) 31 16, words := n
      kinds := (upFrom 0 n).map fun k => w 8 / 4 ^ k % 4
      vals := (upFrom 0 n).map fun k => BitVec.ofNat 64 (w (16 + 8 * k)) } :: envsOf ds (b.drop (64 * envRecs n))

/-- Takes the registers that a mask names from the front of a list of bytes. -/
def takeRegs (size : Nat) (set : Act → Nat → Nat → Act) (live : List Nat) (st : Act × List Byte) : Act × List Byte :=
  live.foldl (fun st i => (set st.1 i (leNat (st.2.take size)), st.2.drop size)) st

/-- The context that a spill frame holds (R20), for an activity of apply-stack depth `depth`; what the frame has no
layout of the spec's for is that of `x`. -/
def Act.ofFrame (x : Act) (depth : Nat) (b : List Byte) : Act :=
  let zero : Act := { x with
    s := Vector.replicate 32 0, v := Vector.replicate 32 0, m := Vector.replicate 8 0, c := Vector.replicate 8 Handle.none }
  let r := takeRegs 8 (fun y i n => { y with s := setReg y.s i (BitVec.ofNat 64 n) }) (liveOf 32 x.lives.getLsbD)
    (zero, b.drop 256)
  let r := takeRegs 64 (fun y i n => { y with v := setReg y.v i (BitVec.ofNat 512 n) }) (liveOf 32 x.livev.getLsbD) r
  let r := takeRegs 8 (fun y i n => { y with m := setReg y.m i (BitVec.ofNat 64 n) }) (liveOf 8 x.livem.getLsbD) r
  let r := takeRegs 8 (fun y i n => { y with c := setReg y.c i (handleOf n) }) (liveOf 8 x.livec.getLsbD) r
  let rest := r.2.drop (8 * x.heldItems + 48 * depth)
  let banks := rest.drop (ceilDiv x.banks 2)
  let size := Config.bankSize * x.banks
  { r.1 with
    fmts := (upFrom 0 x.banks).foldl (fun f i =>
      setReg f i (BitVec.ofNat 4 ((rest.getD (i / 2) 0).toNat / (if i % 2 = 0 then 1 else 16) % 16))) x.fmts
    carrel := Memory.write [] 0 (banks.take size)
    frameEnv := envsOf x.frameEnv (banks.drop size) }

/-- The activity whose record lies at an address of a function's memory, its context read from its frame (R404): none
where the record is no live one's; one whose check code fails is the activity that the device knows there, found out when
it is read for dispatch (R12). -/
def State.readRecord (s : State) (v at_ : Nat) (known : List Act) : Option Act :=
  let r := (upFrom 0 8).map fun k => BitVec.ofNat 64 (leNat (s.ipaRead v (at_ + 8 * k) 8))
  if recordOk r then
    if 2 < (r.getD 0 0).toNat % 16 then none
    else
      let serial := bits (r.getD 1 0).toNat 39 8
      let old := (known.find? fun x => x.id.serial == serial).getD (Act.fresh ⟨v, serial⟩ 0 0 1 Config.noHint)
      let x := old.ofRecord v at_ r
      some (if x.frame.isEmpty then x
        else x.ofFrame (bits (r.getD 2 0).toNat 7 0) (x.frame.flatMap fun p => s.ipaRead v (p * 65536) 65536))
  else (known.find? fun x => x.recAt == at_).map fun x => { x with record := r }

/-- What a function's memory holds beside an image that another part has written (R404): the regions from the region
table at its address, the activities from the record pools of the roots and their spill frames; `h` gives what the device
keeps in its own layout, and the regions beyond the table's length, for which there is no capacity (R403). -/
def State.heldFrom (s : State) (v : Nat) (h : Held) : Held :=
  let regions := (upFrom 0 (s.fn v).cfg.rtcount).filterMap fun g => s.readEntry v g h.regions
  let pool (r : Region) : List Nat := if r.pool.isEmpty then [] else (upFrom 0 r.rcount).map r.recordAddr
  { h with
    regions := regions ++ h.regions.filter fun r => decide ((s.fn v).cfg.rtcount ≤ r.idx)
    written := (regions.flatMap pool).filterMap fun a => s.readRecord v a h.written }

end Sys2Proof.Machine
end

