-- ==== Sys2Proof/Machine/Tenancy.lean ====
section
/-!
DEFINITION. Tenancy (R329, R340, R348, R349, R355 to R359, R368, R386 to R404, R437): PREEMPTION_REQUEST,
PREEMPT_ABORT_DEADLINE, PREEMPT_SAVE, SLICE_END, SCHEDULE_LAUNCH, VF_COMMIT, VF_COMMIT_DONE, VF_SAVE, VF_RESTORE and
SCRUB_CLEAR_DONE.
-/
namespace Sys2Proof.Machine

/-! ### Function records in hypervisor memory (R387) -/

/-- The address of a field of a function's record. -/
def State.recAddr (s : State) (v off : Nat) : Nat := s.vfbase + 512 * v + off

/-- Writes an 8-byte field of a record, under the hypervisor's key. -/
def State.recSet (s : State) (v off val : Nat) : State := s.physWrite 0 (s.recAddr v off) (leBytes 8 val)

/-- Writes status, held and state (R387: each commit, save and restore, each change of state). -/
def State.writeStateWord (s : State) (v : Nat) : State :=
  let f := s.fn v
  s.recSet v 0x100 (f.status * 2 ^ 56 + (if f.held then 4 else 0) + f.state.code)

/-- Writes pageu, the low half of its word. -/
def State.writePageu (s : State) (v : Nat) : State :=
  s.physWrite 0 (s.recAddr v 0xA0) (leBytes 4 (s.fn v).pageu)

/-- Writes charged and debt (R387: each slice switch). -/
def State.writeCharges (s : State) (v : Nat) : State :=
  (s.recSet v 0x110 (s.fn v).charged).recSet v 0x118 (s.fn v).debt

/-- Changes the state of a function and writes it. -/
def State.setFState (s : State) (v : Nat) (st : FState) : State :=
  (s.modFn v fun f => { f with state := st }).writeStateWord v

/-- The status of a commit, save or restore: in the record and in %vfcommit, %vfsave and %vfrestore (R390). A function
number above 16 has no record. -/
def State.setStatus (s : State) (v st : Nat) : State :=
  let t : State := { s with vfLast := v, vfStatus := st }
  if 16 < v then t else ((t.modFn v fun f => { f with status := st }).writeStateWord v).writePageu v

/-- The 512 bytes of a record. -/
def State.recBytes (s : State) (v : Nat) : List Byte := s.hvRead (s.recAddr v 0) 512

/-- The bits that are set among the first `n` from a byte offset. -/
def setBits (b : List Byte) (off n : Nat) : List Nat :=
  (upFrom 0 n).filter fun q => (b.getD (off + q / 8) 0).getLsbD (q % 8)

/-- The H fields of a record. -/
def vfRecOf (b : List Byte) : VfRec :=
  let w := wordOf b
  { quad := setBits b 0 1088, chan := setBits b 0x88 128
    lqbase := bits (w 0x98) 63 14 * 16384, lqcount := bits (w 0x98) 6 0
    pageb := bits (w 0xA0) 63 32
    power := bits (w 0xA8) 63 48, kslot := bits (w 0xA8) 41 32, group := bits (w 0xA8) 31 28, slice := bits (w 0xA8) 27 0
    s2root := bits (w 0xB0) 63 16 * 65536, podcat := bits (w 0xB8) 63 12 * 4096, rtable := bits (w 0xC0) 63 12 * 4096
    rtcount := bits (w 0xC8) 63 32, save := bits (w 0xD0) 63 16 * 65536, savep := bits (w 0xD8) 63 32
    h0v := bit (w 0xE0) 63, h0 := bits (w 0xE0) 62 54, h1v := bit (w 0xE0) 53, h1 := bits (w 0xE0) 52 44
    en := bit (w 0xE8) 63, lstab := bits (w 0xF0) 63 14 * 16384, hcrgn := bits (w 0xF8) 63 40 }

/-- The reserved bits of a record, by word offset. -/
def vfReserved : List (Nat × Nat × Nat) :=
  [(0x98, 13, 7), (0xA8, 47, 42), (0xB0, 15, 0), (0xB8, 11, 0), (0xC0, 11, 0), (0xC8, 31, 0), (0xD0, 15, 0), (0xD8, 31, 0),
   (0xE0, 43, 0), (0xE8, 62, 0), (0xF0, 13, 0), (0xF8, 39, 0), (0x100, 55, 3), (0x1F8, 63, 16)] ++
  (upFrom 0 27).map fun k => (0x120 + 8 * k, 63, 0)

/-- A record's bytes 000h to 1F7h with every D field zero. -/
def vfBody (b : List Byte) : List Byte :=
  b.take 0xA0 ++ List.replicate 4 0 ++ (b.drop 0xA4).take 0x5C ++ List.replicate 32 0 ++ (b.drop 0x120).take 0xD8

/-- Status 3 of R389: check code, reserved fields, ranges. -/
def State.vfFieldsOk (s : State) (v : Nat) (b : List Byte) : Bool :=
  let r := vfRecOf b
  crc16 (vfBody b) == wordOf b 0x1F8 % 65536 &&
    vfReserved.all (fun e => bits (wordOf b e.1) e.2.1 e.2.2 == 0) &&
    r.quad.all (fun q => decide (q < 4 * s.enabledAcres.length)) && decide (r.h0 ≤ 287) && decide (r.h1 ≤ 287) &&
    (r.group == 0 || decide (1000 ≤ r.slice)) && decide (1 ≤ r.rtcount) && decide (r.rtcount ≤ 16777216) &&
    (v == 0 || (r.lstab == 0 && r.hcrgn == 0))

/-- The bound of R404 on an image. -/
def VfRec.imageBound (r : VfRec) : Nat := 65536 + 524288 * (4 * r.quad.length)

/-- Whether a save area holds the bound. -/
def VfRec.saveRoom (r : VfRec) : Bool := decide (r.imageBound ≤ r.savep * 65536)

/-- Whether two lists share an element. -/
def meets (a b : List Nat) : Bool := a.any b.contains

/-- The other enabled functions. -/
def State.others (s : State) (v : Nat) : List (Nat × VfRec) :=
  ((upFrom 0 17).filter fun u => u != v && (s.fn u).cfg.en).map fun u => (u, (s.fn u).cfg)

/-- Both are VFs of one nonzero group (R389, R395). -/
def sameGroup (v : Nat) (r : VfRec) (u : Nat × VfRec) : Bool :=
  v != 0 && u.1 != 0 && r.group != 0 && r.group == u.2.group

/-- The status of a commit's checks, 0 when it passes (R389): the table exempts no record, one with en 0 either. -/
def State.commitStatus (s : State) (v : Nat) : Nat :=
  if 16 < v then 2
  else
    let b := s.recBytes v
    let r := vfRecOf b
    let f := s.fn v
    let old := f.cfg
    let os := s.others v
    if v = 0 ∧ !r.en then 2
    else if !s.vfFieldsOk v b then 3
    else if r.quad.isEmpty ∨ (old.en ∧ old.group ≠ r.group) ∨
        os.any (fun u => if sameGroup v r u then u.2.quad != r.quad else meets u.2.quad r.quad) then 4
    else if r.chan.isEmpty ∨ os.any (fun u => meets u.2.chan r.chan) then 5
    else if (v ≠ 0 ∧ r.kslot = 0) ∨ (v = 0 ∧ r.kslot ≠ 0) ∨ os.any (fun u => u.2.kslot == r.kslot) ∨
        (old.en ∧ old.kslot ≠ r.kslot) then 6
    else if r.lqcount = 0 ∨ 64 < r.lqcount ∨
        (((v ≠ 0 ∧ r.group ≠ 0) ∨ (old.en ∧ old.quad ≠ r.quad)) ∧ !r.saveRoom) then 7
    else if 65536 < (os.map fun u => u.2.power).sum + r.power then 8
    else if r.pageb < f.pageu then 10
    else 0

/-! ### The harrow (R398) -/

/-- Reset content of a core's stores, caches and predictor. -/
def Core.harrowed (c : Core) : Core := { c with envs := [], gens := [], cache := [], pred := [], last := none }

/-- Clears cores. -/
def State.harrow (s : State) (cores : List Nat) : State :=
  cores.foldl (fun (t : State) c => if t.cores.any fun x => x.num == c then t.modCore c Core.harrowed else t) s

/-- Gives quadrants to a function; those it did not hold last are cleared first (R391). -/
def State.assignQuads (s : State) (v : Nat) (qs : List Nat) : State :=
  let new := qs.filter fun q => assocGet q s.owners != some v
  let t : State := s.harrow (new.flatMap s.quadCores)
  { t with owners := qs.foldl (fun l q => assocSet q v l) t.owners }

/-! ### Leaving the chip and coming back (R357, R358, R368) -/

/-- The words that name an environment after a save: its place in the activity's own list of environments. -/
def Act.offCore (x : Act) (s : State) : Act :=
  match x.place with
  | none => x
  | some p =>
    let mine := (s.core p.core).envs.filter fun e => 0 < x.refs e.1
    let y := mine.foldl (fun (y : Act) e =>
      let pos := y.frameEnv.length
      { y.mapHandles (fun h =>
          if h.kind == .store && h.index.toNat == e.1 then ⟨.spilled, 0, BitVec.ofNat 8 pos, h.entry⟩ else h) with
        frameEnv := y.frameEnv ++ [{ e.2 with reserver := none }] }) x
    { y.maskSaved with place := none, hint := p.core }

/-- The banks that a party left on a core go off the part with it (R49, R357). -/
def Act.banksOff (x : Act) : Act :=
  { x with behind := x.behind.map fun b => (b.1, 0), framed := x.framed + (x.behind.map (·.2)).getD 0 }

/-- A context as a saved image holds it (R20, R357): its live registers, and nothing that names a physical core. -/
def Act.inImage (x : Act) : Act :=
  { x with saved := true, hint := Config.noHint, behind := x.behind.map fun b => (Config.noHint, b.2) }

/-- Every activity of a function leaves its slot with the registers that its live masks name (R20): a running one
becomes ready, a gang gives up its place, and the banks that travelled parties left on cores go with them; `img` marks
the contexts that a saved image holds. The record of each is written (R14). -/
def State.leaveChip (s : State) (v : Nat) (img : Bool) : State :=
  let here := s.acts.filter fun x => x.id.fn == v && x.place.isSome
  let cores := (here.filterMap fun x => x.place.map (·.core)).eraseDups
  let s1 : State := here.foldl (fun (t : State) x =>
    let y := (x.dropDead.offCore s).sweepFrame
    let y := if y.run == .running then y.makeReady t else y
    t.tick.2.setAct (if img then y.inImage else y)) s
  let s2 : State := { s1 with
    gangs := s1.gangs.map fun (g : Gang) => if g.fn = v then { g with site := none } else g
    acts := s1.acts.map fun x =>
      match s1.gangOf x with
      | some g => if g.fn = v ∧ g.lead = x.id.serial then { x with reshape := some g.shape } else x
      | none => x }
  let s2 : State := { s2 with
    acts := s2.acts.map fun x => if x.id.fn = v then x.banksOff else x
    meetings := s2.meetings.map fun m =>
      if here.any fun x => x.id == m.first || x.id == m.second then { m with core := Config.noHint } else m }
  let s3 : State := here.foldl (fun (t : State) x =>
    if img then t.writeRecord x.id else (t.writeRecord x.id).enqueue x.id) s2
  (cores.foldl (fun (t : State) c => t.recount c) s3).refreshEnvu v

/-- What a function's own memory holds beside an image of it now (R404). -/
def State.heldOf (s : State) (v : Nat) : Held :=
  let f := s.fn v
  let xs := s.acts.filter fun x => x.id.fn == v && !x.saved
  { regions := f.regions, spent := f.spent, written := xs
    gangs := s.gangs.filter fun (g : Gang) => g.fn == v && g.members.all fun n => xs.any fun x => x.id.serial == n
    desks := (s.desks.filter fun d => d.fn == v && d.overflow).map fun d => { d with home := Config.noHint }
    stage1 := f.stage1, tables := f.tables, devPages := f.devPages, shelves := f.shelves, hostLoans := f.hostLoans
    serialCtr := f.serialCtr, shelfCtr := f.shelfCtr, pageu := f.pageu, discards := f.discards }

/-- The logical state that an image of a function holds now (R357, R404): no desk of it names its home core. -/
def State.logical (s : State) (v : Nat) : Saved :=
  let xs := s.acts.filter fun x => x.id.fn == v && x.saved
  { fn := v
    acts := xs
    gangs := s.gangs.filter fun (g : Gang) => g.fn == v && g.members.any fun n => xs.any fun x => x.id.serial == n
    desks := (s.desks.filter fun d => d.fn == v && !d.overflow).map fun d => { d with home := Config.noHint }
    meetings := s.meetings.filter fun m => xs.any fun x => x.id == m.first || x.id == m.second
    prod := (s.fn v).prod
    cons := (s.fn v).cons
    held := s.heldOf v }

/-- Writes a function's image to its save area (R402, R404): its length, bytes whose layout the spec leaves to the
device, and the check code; the region table, the records and the spill frames stand in the function's memory from then
on. What those bytes hold is kept beside them. -/
def State.saveImage (s : State) (v : Nat) (area : Nat) (bound : Nat) : State :=
  let s := s.writeTables v
  let len := 64 + (Config.freeWord s.fresh).toNat % (bound - 63)
  let body := leBytes 8 len ++ (upFrom 8 (len - 10)).map (Config.imageByte s.fresh)
  let image := body ++ leBytes 2 (crc16 body)
  let t : State := s.tick.2.physWrite 0 area image
  ({ t with images := (image, s.logical v) :: t.images.filter fun e => !(e.1 == image && e.2.fn == v) } : State).modFn v fun f =>
    { f with image := len, prodAt := f.prod, consAt := f.cons }

/-- FREE VALUE: the logical state that an image holds which this part has not written (R358, R404: the layout is the
device's own), with what the function's memory holds beside it: the image's bytes and the memory of the part. -/
opaque foreignImage : List Byte → List Host.Cell → Saved

/-- An activity of one function under the number of another. -/
def renumber (old v : Nat) (a : Aid) : Aid := if a.fn = old then ⟨v, a.serial⟩ else a

/-- A desk whose own parties stand under another function number. -/
def Desk.under (d : Desk) (old v : Nat) : Desk :=
  let party (p : Party) : Party := { p with id := renumber old v p.id }
  { d with
    fn := if d.fn = old then v else d.fn
    payer := if d.payer.1 = old then (v, d.payer.2) else d.payer
    st := match d.st with
      | .meeting f ps => .meeting (f.map party) (ps.map fun p => (party p.1, party p.2))
      | .gathering n r => .gathering n (r.map fun q => { q with parties := q.parties.map party }) }

/-- An activity under another function number. -/
def Act.under (x : Act) (old v : Nat) : Act :=
  let r := renumber old v
  { x with
    id := r x.id
    meet := x.meet.map fun m => { m with partner := r m.partner }
    l := mapVec x.l fun
      | .sealed b n c k o => .sealed b n c k (if o = old then v else o)
      | y => y }

/-- What an image holds when it is restored as the image of a function of another number (R357: activities by serial). -/
def Saved.under (im : Saved) (v : Nat) : Saved :=
  let r := renumber im.fn v
  { im with
    fn := v
    acts := im.acts.map fun x => x.under im.fn v
    gangs := im.gangs.map fun g => { g with fn := if g.fn = im.fn then v else g.fn }
    desks := im.desks.map fun d => d.under im.fn v
    meetings := im.meetings.map fun m => { m with first := r m.first, second := r m.second }
    held := { im.held with
      written := im.held.written.map fun x => x.under im.fn v
      gangs := im.held.gangs.map fun g => { g with fn := if g.fn = im.fn then v else g.fn }
      desks := im.held.desks.map fun d => d.under im.fn v
      shelves := im.held.shelves.map fun q => { q with
        keeper := q.keeper.map r, payer := if q.payer.1 = im.fn then (v, q.payer.2) else q.payer } } }

/-- A ring index that has moved since the last image was written keeps its value (R359, R400); another is the image's. -/
def indicesFrom (now at_ image : List Nat) : List Nat :=
  (upFrom 0 64).map fun q => if now.getD q 0 = at_.getD q 0 then image.getD q 0 else now.getD q 0

/-- Whether a save area holds the bytes of an image, bytes that have met an uncorrectable error since included (R362). -/
def State.areaHolds (s : State) (area : Nat) (bytes : List Byte) : Bool :=
  bytes == (upFrom area bytes.length).map fun pa => s.physGet 0 ⟨pa, none⟩

/-- Whether the image in a save area is the last one that the function wrote. -/
def State.latestImage (s : State) (v area : Nat) : Bool :=
  (s.fn v).image != 0 && (match s.images.find? fun e => e.2.fn == v with
    | some e => s.areaHolds area e.1
    | none => false)

/-- The logical state that the image in a function's save area holds: the last one that it wrote is what the state keeps
of it, with what has happened to it since (R330, R359, R400); an older one leaves in place what the function's memory
holds (R404); with one of another function the function's memory is that function's, and with one of another part the
region table, records and frames are read from the function's memory. -/
def State.imageAt (s : State) (v area : Nat) : Saved :=
  let f := s.fn v
  let here (e : List Byte × Saved) : Bool := s.areaHolds area e.1
  let im : Saved :=
    if s.latestImage v area then s.logical v
    else match (s.images.filter fun e => e.2.fn == v).find? here, s.images.find? here with
      | some e, _ => { e.2 with held := s.heldOf v }
      | none, some e => e.2.under v
      | none, none =>
        let im := (foreignImage (s.hvRead area (s.hv64 area)) s.mem).under v
        { im with held := s.heldFrom v im.held }
  { im with prod := indicesFrom f.prod f.prodAt im.prod, cons := indicesFrom f.cons f.consAt im.cons }

/-- New home cores for the live desks of a function (R340). One in an overflow entry has a home core too, for the
choices of R44, and moves like the others: both kinds behave alike (R38). DESIGN CHOICE (assumption log 81): a moved
desk stays the plain or overflow entry that it was, however many entries its new home core holds. -/
def State.moveDesks (s : State) (v : Nat) : State :=
  { s with desks := s.desks.map fun d => if d.fn = v then { d with home := s.homeCore v d.key } else d }

/-- Brings back what an image of a function holds (R358, R403) and what its memory holds beside it (R404), but for the
activities of regions that were killed since (R330). Carrels come back in canonical form, desks at home cores of the
function's quadrant set (R340). -/
def State.loadImage (s : State) (v area : Nat) : State :=
  let im := s.imageAt v area
  let old := s.logical v
  let dead (x : Act) : Bool :=
    match im.held.regions.find? fun r => r.idx = x.region with | some r => r.rstate == .killed | none => true
  let acts := (im.acts.filter fun x => x.id.fn == v && !dead x).map fun x =>
    { x with saved := true, carrel := Memory.writeList [] x.carrel }
  let kept := (im.held.written.filter fun x => x.id.fn == v && !acts.any fun y => y.id == x.id).map fun x =>
    { x with saved := false, carrel := Memory.writeList [] x.carrel }
  let keepGang (g : Gang) : Bool := g.members.all fun n => acts.any fun x => x.id.serial == n
  ((({ s with
    acts := (s.acts.filter fun x => x.id.fn != v) ++ kept ++ acts
    gangs := (s.gangs.filter fun (g : Gang) => g.fn != v) ++ im.held.gangs ++ im.gangs.filter keepGang
    desks := (s.desks.filter fun d => d.fn != v) ++ (im.held.desks ++ im.desks).filter fun d => d.fn == v
    meetings := (s.meetings.filter fun m => !old.meetings.contains m) ++ im.meetings } : State).modFn v fun f =>
      { f with
        prod := im.prod, cons := im.cons, regions := im.held.regions, spent := im.held.spent, stage1 := im.held.stage1
        tables := im.held.tables, devPages := im.held.devPages, shelves := im.held.shelves
        hostLoans := im.held.hostLoans, serialCtr := im.held.serialCtr, shelfCtr := im.held.shelfCtr
        pageu := im.held.pageu, discards := im.held.discards })).moveDesks v

/-- The most bytes that an image of any quadrant set can take (R4, R404). -/
abbrev imageMost : Nat := 65536 + 524288 * 4352

/-- Whether the image in a save area passes its check code. -/
def State.imageOk (s : State) (area : Nat) : Bool :=
  let len := s.hv64 area
  decide (10 ≤ len) && decide (len ≤ imageMost) &&
    crc16 (s.hvRead area (len - 2)) == leNat (s.hvRead (area + len - 2) 2)

/-- NOCAPACITY (R403) for the image in a save area: a gang of it without a place in the quadrant set, banks or
environment records that do not fit on its cores, regions above rtcount, pages above pageb, an intermediate page that
stage 2 does not map. -/
def State.noCapacity (s : State) (v area : Nat) : Bool :=
  let f := s.fn v
  let im := s.imageAt v area
  let cores := s.fnCores v
  let pages := im.held.stage1.map (·.ipa) ++ im.acts.flatMap (·.frame) ++ im.desks.flatMap (·.pages)
  im.gangs.any (fun g => (s.sites v g.shape).isEmpty) ||
    decide (Config.coreBanks * cores.length < (im.acts.map (·.banks)).sum) ||
    decide (Config.coreRecords * cores.length < (im.acts.map fun x => (x.frameEnv.map fun e => envRecs e.words).sum).sum) ||
    im.held.regions.any (fun r => s.regionInUse v r && decide (f.cfg.rtcount < r.idx + 1)) ||
    decide (f.cfg.pageb < im.held.pageu) ||
    pages.any fun p => (s.walk2 v (p * 65536)).isNone

/-- Resolves the faults that waited for a restore (R368). -/
def State.resolveWaiting (s : State) (v : Nat) : State :=
  (s.acts.filter fun x => x.id.fn == v && x.unsolved).foldl (fun (t : State) x =>
    match t.act x.id with
    | none => t
    | some y =>
      let u : State := t.modAct x.id fun z => { z with unsolved := false }
      match y.fault with
      | some r => u.resolve y r
      | none => u) s

/-- A restore made whole (R358): the contexts are those of the image, those that are ready wait for dispatch, waiting
faults are resolved. -/
def State.makeWhole (s : State) (v : Nat) : State :=
  let back := s.acts.filter fun x => x.id.fn == v && x.saved
  let s1 : State := { s with acts := s.acts.map fun x => if x.id.fn = v then { x with saved := false } else x }
  ((back.foldl (fun (t : State) x => t.enqueue x.id) s1).resolveWaiting v).finishUnseals v

/-- A restore from a function's save area (R358, R396, R403); a function that was never saved starts with what it has. -/
def State.restoreImage (s : State) (v : Nat) : State :=
  (if (s.fn v).image = 0 then s else s.loadImage v (s.fn v).cfg.save).makeWhole v

/-! ### Slices (R395 to R399) -/

/-- The enabled members of a group. -/
def State.groupMembers (s : State) (g : Nat) : List Nat :=
  (upFrom 1 16).filter fun v => (s.fn v).cfg.en && g != 0 && (s.fn v).cfg.group == g

/-- Whether a schedule entry of a function is due (R349). -/
def State.schedDue (s : State) (v : Nat) : Bool :=
  s.sched.any fun e => e.on && bits (s.schedGet e.entry 0x18) 60 56 == v && decide (s.schedGet e.entry 0x30 ≤ s.time)

/-- Work (R395). -/
def State.hasWork (s : State) (v : Nat) : Bool :=
  let f := s.fn v
  s.acts.any (fun x => x.id.fn == v) ||
    (upFrom 0 f.cfg.lqcount).any (fun q => f.prod.getD q 0 != f.cons.getD q 0) || s.schedDue v

/-- The next member after `v` that is not held and has work. -/
def State.nextMember (s : State) (g v : Nat) : Option Nat :=
  let ms := s.groupMembers g
  ((ms.filter fun u => decide (v < u)) ++ ms.filter fun u => decide (u < v)).find? fun u =>
    (s.fn u).state == .parked && !(s.fn u).held && s.hasWork u

/-- A slice begins (R396): its length is shortened by the debt, which is 0 from then on. -/
def State.startSlice (s : State) (v : Nat) : State :=
  let t : State := s.modFn v fun f => { f with
    sliceFrom := s.time, sliceLen := f.cfg.slice * 1000 - f.debt, debt := 0, slices := f.slices + 1 }
  (t.writePageu v).recSet v 0x108 (t.fn v).slices

/-- A parked member runs: restore and slice (R396 step 4). -/
def State.runMember (s : State) (v : Nat) : State :=
  ((s.setFState v .running).startSlice v).restoreImage v

/-- Whether a function has its quadrants: it runs, or it is being committed or saved and they are still its own. A parked
member of a group under a commit has not. -/
def State.holdsQuads (s : State) (v : Nat) : Bool :=
  (s.fn v).state == .running ||
    ((s.fn v).state == .changing && (s.fn v).cfg.quad.all fun q => assocGet q s.owners == some v)

/-- The running member of a group. -/
def State.runningOf (s : State) (g : Nat) : Option Nat := (s.groupMembers g).find? s.holdsQuads

/-- A member that is off the part gives its quadrants to the next one: harrow, translation entries, then its run. A
switch from another member writes the charged and debt fields (R387). -/
def State.handOver (s : State) (x y : Nat) : State :=
  let t : State := (s.harrow (s.fnCores x)).dropTlb fun e => e.fn == x
  let t : State := { t with owners := ((t.fn y).cfg.quad).foldl (fun l q => assocSet q y l) t.owners }
  if x = y then t.runMember y else (t.runMember y).writeCharges y

/-- Whether a commit, save or restore of a member of a group is in progress or pending (R417). -/
def State.groupBusy (s : State) (g : Nat) : Bool :=
  (s.groupMembers g).any fun v => s.vfPending.any (fun p => p.2 == v) ||
    (match s.vfBusy with | some (_, u) => u == v | none => false)

/-- The end of the slice of a group's running member (R395, R396): the next member with work, or another slice. A group
with no running member starts its first member that is not held and has work. -/
def State.sliceOver (s : State) (g : Nat) : State :=
  if s.groupBusy g || s.stopped then s
  else
    match s.runningOf g with
    | none =>
      (match s.nextMember g 0 with
        | some y => s.handOver y y
        | none => s)
    | some x =>
      let f := s.fn x
      if f.preempt.isSome || s.time < f.sliceFrom + f.sliceLen then s
      else
        match s.nextMember g x with
        | some y => s.modFn x fun f => { f with preempt := some ⟨s.time, .sliceEnd, false, .slice y⟩ }
        | none => s.startSlice x

/-- SLICE_END (R395, R396). -/
def execSliceEnd (group : Nat) (s : State) : Res := .next (s.sliceOver group).settle

/-! ### Pre-emption (R355, R356, R359) -/

/-- PREEMPTION_REQUEST (R355): from a slice end, the hypervisor or a restore elsewhere. -/
def execPreemptionRequest (v : Nat) (why : PreReason) (s : State) : Res :=
  .next <|
    let f := s.fn v
    match why with
    | .sliceEnd => (s.sliceOver f.cfg.group).settle
    | _ =>
      if f.state == .running && f.preempt.isNone && s.vfBusy.isNone then
        s.modFn v fun f => { f with preempt := some ⟨s.time, why, false, .stay⟩ }
      else s

/-- Drops an execution with no effect; the block will execute again from its start. -/
def State.dropFlight (s : State) (a : Aid) : State :=
  let t : State := s.modAct a fun x => { x with flight := none }
  match t.act a with
  | some x => t.sweepReserved x
  | none => t

/-- PREEMPT_ABORT_DEADLINE (R355 step 2): 4 µs after the request every block still in flight aborts; the slots that their
SHOPENs held are given up, which may end an unsealing (R109). -/
def execPreemptAbortDeadline (v : Nat) (s : State) : Res :=
  .next <|
    match (s.fn v).preempt with
    | none => s
    | some p =>
      if p.closed || s.time < p.since + 4000 then s
      else
        let t : State := ((s.acts.filter fun x => x.id.fn == v && x.flight.isSome).map (·.id)).foldl State.dropFlight s
        (t.modFn v fun f => { f with preempt := some { p with closed := true } }).finishUnseals v

/-- Steps 1 to 6 of R355 are done on every core. -/
def State.atBoundary (s : State) (v : Nat) : Bool :=
  (s.acts.all fun x => x.id.fn != v || x.flight.isNone) &&
    (s.gangs.all fun (g : Gang) => g.fn != v || g.cmds.all fun m =>
      !(m.started && m.pending) || (match m.kind with | .mstream .. => true | _ => false)) &&
    s.meetings.all fun m => m.begun || (m.first.fn != v && m.second.fn != v)

/-- The subtype of a pre-emption in the black-box record (R370). -/
def preCode : PreReason → Nat
  | .sliceEnd => 0
  | .hypervisor => 1
  | .restoreElsewhere => 2

/-- The end of a reshape (R391): restored onto the new set, or back onto the old one. A refusal leaves no new record,
which VF_COMMIT_DONE reports as status 9. -/
def State.reshape (s : State) (v : Nat) (r : VfRec) : State :=
  let old := (s.fn v).cfg
  let t : State := s.modFn v fun f => { f with cfg := r }
  if t.noCapacity v r.save then (s.modFn v fun f => { f with next := none, cfg := old }).makeWhole v
  else (((t.dropTlb fun e => e.fn == v).assignQuads v r.quad).loadImage v r.save).makeWhole v

/-- Whether a clearing covers a quadrant of a record: the record takes effect only after it (R329). -/
def State.scrubs (s : State) (r : VfRec) : Bool :=
  match s.scrub with | some (set, _, _) => meets set r.quad | none => false

/-- The index of a command's first element not yet moved (R355). -/
def Copy.resumeAt (c : Copy) : Nat := ((upFrom 0 c.count).find? fun n => !c.moved.contains n).getD c.count

/-- A copy command stopped by a pre-emption records the index of its first element not yet moved (R355): the elements
after it are moved when it goes on, save those of a granule that an earlier element of the command has already written,
which moved with it and must not be written in part (R134, R136, R148). -/
def Copy.stop (c : Copy) : Copy :=
  let done := ((upFrom 0 c.resumeAt).map c.granule).eraseDups
  { c with moved := (upFrom 0 c.count).filter fun n => c.moved.contains n && done.contains (c.granule n) }

/-- Every copy command of an activity stopped by a pre-emption. -/
def Act.stopCopies (x : Act) : Act := { x with copies := x.copies.map Copy.stop }

/-- Whether what a pre-emption is for must wait for a clearing: a changed quadrant set takes effect only after it
(R329). -/
def State.goalWaits (s : State) (v : Nat) (g : PreGoal) : Bool :=
  match g, (s.fn v).next with
  | .reshape, some r => s.scrubs r
  | _, _ => false

/-- PREEMPT_SAVE (R355, R356, R396, R402): every core is at a boundary; what follows is what the pre-emption was for. -/
def execPreemptSave (v : Nat) (s : State) : Res :=
  .next <|
    match (s.fn v).preempt with
    | none => s
    | some p =>
      if !s.atBoundary v || s.goalWaits v p.goal || s.stopped then s
      else
        let s1 : State := s.log 4 2 0x1FFF v 0 (preCode p.why) [BitVec.ofNat 64 p.since, BitVec.ofNat 64 s.time]
        let img : Bool := match p.goal with | .stay => false | _ => true
        let s1 : State := s1.stopStreams v
        let s1 : State := { s1 with acts := s1.acts.map fun x => if x.id.fn = v then x.stopCopies else x }
        let s2 : State := (s1.leaveChip v img).modFn v fun f => { f with preempt := none }
        let cfg := (s.fn v).cfg
        (match p.goal with
          | .stay => s2.makeWhole v
          | .slice y0 =>
            let f := s2.fn v
            let g := s2.fn y0
            let next := if g.cfg.en && g.state == FState.parked && !g.held then some y0 else s2.nextMember cfg.group v
            (match next with
              | none => (s2.startSlice v).makeWhole v
              | some y =>
                let charge := s.time - (f.sliceFrom + f.sliceLen)
                let t : State := (s2.saveImage v cfg.save cfg.imageBound).setFState v .parked
                let t : State := t.modFn v fun f => { f with charged := f.charged + charge, debt := charge }
                let t : State := t.log 4 3 0x1FFF 31 0 v [BitVec.ofNat 64 y, BitVec.ofNat 64 1280]
                (t.writeCharges v).handOver v y)
          | .save =>
            let t : State := (s2.saveImage v cfg.save cfg.imageBound).modFn v fun f => { f with held := true, state := .parked }
            let t : State := { t.setStatus v 0 with vfBusy := none }
            (match t.nextMember cfg.group v with
              | some y => if cfg.group = 0 then t else t.handOver v y
              | none => t)
          | .reshape =>
            match (s2.fn v).next with
            | none => s2.makeWhole v
            | some r => (s2.saveImage v r.save r.imageBound).reshape v r).settle

/-! ### Commits (R389 to R391, R401, R437) -/

/-- Takes the operation at the head of the queue, once every earlier one has finished (R388). -/
def State.vfHead (s : State) (op : VfOp) (v : Nat) : Option State :=
  match s.vfPending with
  | p :: rest => if p = (op, v) && s.vfBusy.isNone then some { s with vfPending := rest } else none
  | [] => none

/-- Kills the queues of a function from a number upwards (R391, R401). -/
def State.killQueuesFrom (s : State) (v n : Nat) : State :=
  (upFrom n ((s.fn v).cfg.lqcount - n)).foldl (fun (t : State) q => t.killQueue v q) s

/-- The key that an enabling loads (R127, R391, R431): an imported one in place of a fresh one. -/
def State.loadKey (s : State) (v kslot : Nat) : State :=
  match s.sec.imports.find? fun i => i.1 == kslot && decide (s.time < i.2.2 + 10000000000) with
  | some i =>
    let t : State := s.modFn v fun f => { f with key := i.2.1 }
    { t with sec := { t.sec with imports := t.sec.imports.filter fun j => j.1 != kslot } }
  | none =>
    let t : State := s.modFn v fun f => { f with key := s.nextKey }
    { t with nextKey := s.nextKey + 1 }

/-- A function as an enabling finds it: no region, no loan, every index 0 (R391), the serial and shelf counters 1 (R9,
R106). Its D fields go on. -/
def Func.enabled (f : Func) (r : VfRec) : Func :=
  { Func.off with
    cfg := r, state := .changing, status := f.status, slices := f.slices, charged := f.charged, debt := f.debt
    serialCtr := 1, shelfCtr := 1, key := f.key }

/-- A changed quadrant set of a parked function (R391, R403). One that is not held must fit the new set, and its image
goes to the save area that the record names; none when it does not fit. A held one takes the record, and waits for its
VF_RESTORE. -/
def State.reshapeParked (s : State) (v : Nat) (r : VfRec) : Option State :=
  let f := s.fn v
  let saved := !f.held && f.image != 0
  let t : State := s.modFn v fun f => { f with cfg := r }
  if saved && t.noCapacity v f.cfg.save then none
  else
    let t : State := if saved && s.latestImage v f.cfg.save then t.saveImage v r.save r.imageBound else t
    some (((t.assignQuads v r.quad).moveDesks v).dropTlb fun e => e.fn == v)

/-- VF_COMMIT (R388 to R391): the commit at the head of the queue is checked; one that passes acts, its function in
state 3 until VF_COMMIT_DONE. -/
def execVfCommit (v : Nat) (s : State) : Res :=
  .next <|
    match s.vfHead .commit v with
    | none => s
    | some t =>
      let st := t.commitStatus v
      if st ≠ 0 then t.setStatus v st
      else
        let r := vfRecOf (t.recBytes v)
        if r.en && s.scrubs r then s
        else
        let old := (t.fn v).cfg
        if !r.en && !old.en then t.setStatus v 0
        else
          let was := (t.fn v).state
          let start (u : State) (n : Option VfRec) : State :=
            (({ u with vfBusy := some (.commit, v) } : State).modFn v fun f => { f with next := n }).setStatus v 1
          if !r.en then (start ((t.killQueuesFrom v 0).setFState v .changing) (some r)).settle
          else if !old.en then
            let grouped := (t.others v).any fun o => sameGroup v r o
            let u : State := (t.setFn v ((t.fn v).enabled r)).loadKey v r.kslot
            (start (if grouped then u else u.assignQuads v r.quad) (some r)).settle
          else
            let parked := was == FState.parked
            let u : State := t.killQueuesFrom v r.lqcount
            let u : State := u.modFn v fun f => { f with
              state := .changing
              sliceFrom := if parked then 0 else f.sliceFrom
              sliceLen := if parked then 0 else f.sliceLen }
            if old.quad = r.quad then
              (start ((u.modFn v fun f => { f with cfg := r }).dropTlb fun e => e.fn == v) (some r)).settle
            else if parked then
              (match u.reshapeParked v r with
                | some w => start w (some r)
                | none => start u none).settle
            else
              (start (u.modFn v fun f => { f with preempt := some ⟨s.time, .restoreElsewhere, false, .reshape⟩ })
                (some r)).settle

/-- Whether a kill acts on a function. -/
def State.killing (s : State) (v : Nat) : Bool :=
  s.kills.any fun k => match k.target with | .queue w _ => w == v | .tree w _ => w == v

/-- Frees every host-held loan of a function (R401 step 3). -/
def State.freeHostLoans (s : State) (v : Nat) : State :=
  (s.fn v).hostLoans.foldl (fun (t : State) l =>
    (t.freeRange v l.1 l.2.1).modFn v fun f => { f with
      pageu := f.pageu - l.2.1, hostLoans := f.hostLoans.filter fun m => m.1 != l.1 }) s

/-- Discards the desks of a function (R401 step 2): kills that are on their way to them land first; a party of another
function that none of them touches is refused, since the desk's function is off. -/
def State.discardDesks (s : State) (v : Nat) : State :=
  let hits := s.msgs.filterMap fun m => match m.kind with | .kill fn key a => if fn = v then some (key, a) else none | _ => none
  let s1 : State := { s with msgs := s.msgs.filter fun m => match m.kind with | .kill fn _ _ => fn != v | _ => true }
  let s2 : State := hits.foldl (fun (t : State) h => t.deskKilled v h.1 h.2) s1
  let left := (s2.desks.filter fun d => d.fn == v).flatMap fun d => match d.st with
    | .meeting fst prs => fst.toList ++ prs.flatMap fun p => [p.1, p.2]
    | .gathering _ (some r) => r.parties
    | .gathering _ none => []
  let s3 : State := left.foldl (fun (t : State) p => t.refuse p 5) s2
  let s4 : State := ((s3.desks.filter fun d => d.fn == v).map (·.key)).foldl (fun (t : State) k => t.freeDesk v k) s3
  s4

/-- Steps 2 to 5 of a teardown (R401). -/
def State.tearDown (s : State) (v : Nat) : State :=
  let s1 : State := ((s.acts.filter fun x => x.id.fn == v).map (·.id)).foldl (fun (t : State) a => t.retire a true false) s
  let s2 : State := (s1.discardDesks v).freeHostLoans v
  let f := s2.fn v
  let off : Func := { f with
    cfg := VfRec.off, next := none, state := .off, held := false, pageu := 0, regions := [], shelves := [], stage1 := []
    tables := [], devPages := [], hostLoans := [], preempt := none, key := 0, image := 0, discards := [], served := [] }
  (s2.setFn v off).dropTlb fun e => e.fn == v

/-- The state in which a commit leaves a function that it does not turn off (R391): parked while it is held or another
member of its group runs, else running; a group's member that was parked gets the quadrants. -/
def State.afterCommit (s : State) (v : Nat) : State :=
  let f := s.fn v
  let taken := f.cfg.group != 0 &&
    (s.groupMembers f.cfg.group).any fun w => w != v && (s.fn w).state == FState.running
  if f.state != FState.changing then s
  else if f.held || taken then s.setFState v .parked
  else if f.cfg.group != 0 && f.sliceFrom == 0 && f.sliceLen == 0 then s.handOver v v
  else s.setFState v .running

/-- VF_COMMIT_DONE (R437): the effects of the commit in progress are done; one that a restore refused ends with status 9
(R391). -/
def execVfCommitDone (v : Nat) (s : State) : Res :=
  .next <|
    match s.vfBusy with
    | some (.commit, u) =>
      let f := s.fn v
      if u ≠ v ∨ f.preempt.isSome ∨ s.killing v then s
      else
        let fin (t : State) (st : Nat) : State :=
          { ((t.modFn v fun f => { f with next := none }).setStatus v st) with vfBusy := none }
        (match f.next with
          | none => fin (s.afterCommit v) 9
          | some r =>
            if !r.en then fin ((s.tearDown v).writeStateWord v) 0
            else fin ((s.modFn v fun f => { f with cfg := r }).afterCommit v) 0).settle
    | _ => s

/-! ### Saves and restores (R402, R403) -/

/-- VF_SAVE (R402). DESIGN CHOICE (assumption log 98): a function number above 16 ends with status 11, as function 0. -/
def execVfSave (v : Nat) (s : State) : Res :=
  .next <|
    match s.vfHead .save v with
    | none => s
    | some t =>
      let f := t.fn v
      if v = 0 ∨ 16 < v ∨ !f.cfg.en ∨ f.held then t.setStatus v 11
      else if !f.cfg.saveRoom then t.setStatus v 7
      else if f.state == .running then
        let u : State := { t with vfBusy := some (.save, v) }
        (u.modFn v fun f => { f with
          state := .changing, preempt := some (match f.preempt with
            | some p => { p with goal := .save }
            | none => ⟨s.time, .hypervisor, false, .save⟩) }).setStatus v 1
      else
        (((t.leaveChip v true).saveImage v f.cfg.save f.cfg.imageBound).modFn v fun f => { f with held := true }).setStatus v 0

/-- VF_RESTORE (R403). -/
def execVfRestore (v : Nat) (s : State) : Res :=
  .next <|
    match s.vfHead .restore v with
    | none => s
    | some t =>
      let f := t.fn v
      if 16 < v ∨ !f.cfg.en ∨ !f.held then t.setStatus v 11
      else if !t.imageOk f.cfg.save then t.setStatus v 3
      else if t.noCapacity v f.cfg.save then t.setStatus v 9
      else
        let u : State := t.modFn v fun f => { f with held := false }
        let other := f.cfg.group != 0 &&
          (t.groupMembers f.cfg.group).any fun w => w != v && ((t.fn w).state == .running || (t.fn w).state == .changing)
        if other then u.setStatus v 0
        else if f.cfg.group = 0 then (((u.setFState v .running).restoreImage v).setStatus v 0).settle
        else ((u.handOver v v).setStatus v 0).settle

/-! ### The launch schedule (R348, R349) -/

/-- The first launch time of an entry that becomes active. -/
def firstLaunch (start period now : Nat) : Nat :=
  if period = 0 ∨ now ≤ start then start else start + ceilDiv (now - start) period * period

/-- SCHEDULE_LAUNCH (R348, R349): the device looks at one entry of the table. DESIGN CHOICE (assumption log 94): an
entry whose vf is 0 or above 16 is ignored, as one with a reserved overrun rule is. -/
def execScheduleLaunch (e : Nat) (s : State) : Res :=
  .next <|
    let w := s.schedGet e 0x18
    let v := bits w 60 56
    let overrun := bits w 62 61
    let period := s.schedGet e 0x08
    let known := s.sched.find? fun x => x.entry == e
    let on := match known with | some x => x.on | none => false
    let setOn (t : State) (b : Bool) : State :=
      { t with sched := ⟨e, b, match known with | some x => x.copies | none => []⟩ :: t.sched.filter fun x => x.entry != e }
    if 255 < e ∨ !s.locked ∨ s.stopped then s
    else if !bit w 63 then (if on then setOn s false else s)
    else if overrun = 3 ∨ (1 ≤ period ∧ period ≤ 9999) ∨ v = 0 ∨ 16 < v then s
    else if !on then setOn (s.schedSet e 0x30 (firstLaunch (s.schedGet e 0) period s.time)) true
    else
      let next := s.schedGet e 0x30
      if s.time < next then s
      else
        let inst := s.schedGet e 0x20
        let cnt := s.schedGet e 0x28
        let region := bits inst 63 40
        let missed (t : State) : State := t.schedSet e 0x28 (bits cnt 63 32 * 2 ^ 32 + (bits cnt 31 0 + 1) % 2 ^ 32)
        let t : State :=
          if !bit inst 0 then s.schedLaunch e
          else
            match overrun with
            | 0 => missed s
            | 1 => if bit inst 1 then missed s else s.schedSet e 0x20 (region * 2 ^ 40 + 3)
            | _ => if s.kills.any fun k => k.target == .tree v region then missed s else s.killTree v region (some e)
        (if period = 0 then setOn (t.schedSet e 0x18 (w - 2 ^ 63)) false
          else t.schedSet e 0x30 (next + period)).settle

/-! ### Scrubbing quadrants (R329) -/

/-- SCRUB_CLEAR_DONE: the harrow has cleared the set; the SCRUB, if its execution still runs, sends 0. -/
def execScrubClearDone (s : State) : Res :=
  .next <|
    match s.scrub with
    | none => s
    | some (qs, a, k) =>
      let t : State := s.harrow (qs.flatMap s.quadCores)
      let t : State := t.dropTlb fun e => !(t.fn e.fn).cfg.en
      let t : State := { t with scrub := none }
      match (t.act a).bind fun x => x.flight with
      | none => t
      | some f =>
        if (f.slot k).status != .pending then t
        else
          match f.instr k with
          | none => t
          | some i => t.setFlight a ((f.modSlot k fun sl => { sl with status := .done }).sendAll k i (.scalar 0) .null)

end Sys2Proof.Machine
end

