-- ==== Sys2Proof/Machine/Power.lean ====
section
/-!
DEFINITION. Power, temperature, reliability and the passing of time (R2, R123, R347, R362, R371, R373, R406, R418 to
R428): POWER_MEASURE, CORE_GATE, DROOP, DROOP_RECOVERY, THERMAL_EVENT, THERMAL_THROTTLE_STEP, FATAL_ERROR,
CORRECTED_ERROR, UNCORRECTED_ERROR, REGULATOR_PHASE_FAIL, PATROL_SCRUB, PATROL_SCRUB_ENABLE, PATROL_SCRUB_DISABLE and
PAGE_RETIREMENT_DONE.
-/
namespace Sys2Proof.Machine

/-! ### Time (R231, R347, R373, R420, R424) -/

/-- The 160ths of a cycle that a core counts in `ns` nanoseconds: 1.05 cycles a nanosecond times its ratio, none while
gated; in a droop the stretched clock counts a free part of them. -/
def State.cyclesIn (s : State) (c : Core) (ns : Nat) : Nat :=
  let full := ns * 21 * c.divider
  if c.gated then 0
  else if (s.acre (acreOf c.num)).drooping then (Config.freeWord (s.fresh + c.num)).toNat % (full + 1)
  else full

/-- The local clock goes on by `ns` nanoseconds: device time by as much at the rate that the last correction set, and it
never decreases (R347). Every core counts. -/
def State.advance (s : State) (ns : Nat) : State :=
  let cores := s.cores.map fun c => { c with cycles := c.cycles + s.cyclesIn c ns }
  let q := s.timeFrac + ns * ((1000000 : Int) + s.ratePpm).toNat
  { s with
    time := s.time + q / 1000000, timeFrac := q % 1000000, cores := cores, fresh := s.fresh + 1
    base := { s.base with cycles := s.base.cycles + if s.base.gated then 0 else ns * 21 * s.base.divider } }

/-- Cores whose last activity has left since an earlier state: idle from now on (R420). -/
def State.noteIdle (s t : State) : State :=
  let now := t.acts.filterMap fun x => x.place.map (·.core)
  let gone := ((s.acts.filterMap fun x => x.place.map (·.core)).filter fun c => !now.contains c).eraseDups
  gone.foldl (fun (u : State) c => u.modCore c fun k => { k with idleFrom := t.time }) t

/-! ### Power shares (R406, R421, R422) -/

/-- The entitlement of a function's power share. -/
def State.entitled (s : State) (v : Nat) : Nat := (s.fn v).cfg.power * s.pool / 65536

/-- A part of a pool (R406): an owner's demand up to what its share entitles it to, then, in proportion to the shares of
those that demand more, the power that other owners do not draw. With no share among those, equal parts. -/
def grantShare (pool : Nat) (owners : List (Nat × Nat)) (share want : Nat) : Nat :=
  let entitled (sh : Nat) : Nat := sh * pool / 65536
  let lent := (owners.map fun o => entitled o.1 - o.2).sum
  let needy := owners.filter fun o => decide (entitled o.1 < o.2)
  let sum := (needy.map (·.1)).sum
  let more := if sum = 0 then lent / Nat.max needy.length 1 else lent * share / sum
  Nat.min want (entitled share + more)

/-- What a function demands; a parked function demands nothing and lends all it is entitled to. -/
def State.demandOf (s : State) (demand : List (Nat × Nat)) (v : Nat) : Nat :=
  if s.holdsQuads v then (assocGet v demand).getD 0 else 0

/-- A function's grant (R406). -/
def State.grantOf (s : State) (demand : List (Nat × Nat)) (v : Nat) : Nat :=
  let owners := (upFrom 0 17).filter fun u => (s.fn u).cfg.en
  grantShare s.pool (owners.map fun u => ((s.fn u).cfg.power, s.demandOf demand u)) (s.fn v).cfg.power (s.demandOf demand v)

/-- What a region demands: its running activities' part of what its function demands. -/
def State.regionDemand (s : State) (demand : List (Nat × Nat)) (v g : Nat) : Nat :=
  let run := s.acts.filter fun x => x.id.fn == v && x.run == .running
  s.demandOf demand v * (run.filter fun x => x.region == g).length / Nat.max run.length 1

/-- The effective power share of a region (R24, bit 5). -/
def Func.powerShare (f : Func) (g : Nat) : Nat := f.effective g 5 (·.power) 0

/-- A region's grant (R406): the function's grant is divided among its regions as the pool is among functions. -/
def State.regionGrant (s : State) (demand : List (Nat × Nat)) (v g : Nat) : Nat :=
  let f := s.fn v
  grantShare (s.grantOf demand v) (f.regions.map fun r => (f.powerShare r.idx, s.regionDemand demand v r.idx))
    (f.powerShare g) (s.regionDemand demand v g)

/-- The divider ratios in eighths, highest first (R419). -/
def ratios : List Nat := [8, 7, 6, 4, 2, 0]

/-- The ratio `k` steps below 1. -/
def ratioAt (k : Nat) : Nat := ratios.getD k 0

/-- The highest ratio that keeps a demand within a grant. -/
def ratioFor (demand grant : Nat) : Nat := ((ratios.find? fun r => decide (demand * r ≤ grant * 8))).getD 0

/-- The ratio that a core's regions allow it: a region over its grant slows the cores of its activities, and does not
stop them. -/
def State.regionRatio (s : State) (demand : List (Nat × Nat)) (v core : Nat) : Nat :=
  (((s.onCore core).filter fun x => x.run == .running).map fun x =>
    Nat.max 2 (ratioFor (s.regionDemand demand v x.region) (s.regionGrant demand v x.region))).foldl Nat.min 8

/-- The next divider on the way up to a target, one step at a time (R422). -/
def stepUp (cur target : Nat) : Nat :=
  if target ≤ cur then cur else ((ratios.reverse.find? fun r => decide (cur < r)).getD target)

/-- The cores of the functions that run, each with its function and the ratio that the grants of function and region
allow it (R406, R421). -/
def State.coreTargets (s : State) (demand : List (Nat × Nat)) : List (Nat × Nat × Nat) :=
  (upFrom 0 17).flatMap fun v =>
    if (s.fn v).cfg.en && s.holdsQuads v then
      let r := ratioFor (s.demandOf demand v) (s.grantOf demand v)
      (s.fnCores v).map fun c => (c, v, Nat.min r (s.regionRatio demand v c))
    else []

/-- Sets what the power manager allows a core; the divider is the lower of that and the acre's throttle (R421). -/
def State.setCap (s : State) (c cap : Nat) : State :=
  let k := s.core c
  let d := Nat.min cap (ratioAt (s.acre (acreOf c)).steps)
  if k.cap == cap && k.divider == d then s else s.modCore c fun k => { k with cap := cap, divider := d }

/-- The arithmetic load of an acre (R422): of what each function demands, the part of its cores that lie in the acre,
each at its divider. -/
def State.loadOf (s : State) (demand : List (Nat × Nat)) (acre : Nat) : Nat :=
  ((upFrom 0 17).map fun v =>
    let cores := s.fnCores v
    let eighths := ((cores.filter fun c => acreOf c == acre).map fun c => (s.core c).divider).sum
    if (s.fn v).cfg.en then s.demandOf demand v * eighths / Nat.max (8 * cores.length) 1 else 0).sum

/-- The acres that the measurement looks at. -/
def State.loadAcres (s : State) : List Nat :=
  ((s.acres.map (·.num)) ++ (upFrom 0 17).flatMap fun v => (s.fnCores v).map acreOf).eraseDups

/-- The load of the package. -/
def State.packageLoad (s : State) (demand : List (Nat × Nat)) : Nat := (s.loadAcres.map (s.loadOf demand)).sum

/-- Starts divider increases in steps (R422): each core goes up by at most one step, as long as what the steps add to the
package's draw stays within `room` watts; the others wait for a later measurement. -/
def raiseFrom (demand : List (Nat × Nat)) : State → Nat → List (Nat × Nat × Nat) → State
  | s, _, [] => s
  | s, room, (c, v, target) :: rest =>
    let k := s.core c
    let next := stepUp k.cap target
    let gain := ceilDiv (s.demandOf demand v * (next - k.cap)) (Nat.max (8 * (s.fnCores v).length) 1)
    if gain ≤ room then raiseFrom demand (s.setCap c next) (room - gain) rest else raiseFrom demand s room rest

/-- Holds a rise of the demand back (R422): as long as the package would draw more than `limit`, the next core in turn
goes down to the next of a list of ratios. -/
def holdBack (demand : List (Nat × Nat)) (limit : Nat) (s : State) (steps : List (Nat × Nat)) : State :=
  steps.foldl (fun (t : State) p =>
    if t.packageLoad demand ≤ limit then t else t.setCap p.1 (Nat.min (t.core p.1).cap p.2)) s

/-- The dividers of the cores of the functions that run (R421): down at once where the grants or the throttle call for
it, or where the load would rise by more than 250 W since the last measurement, the filler that gangs stopped counted
with the load; then up within what is left of that slope (R422). DESIGN CHOICE (assumption log 95): how the decreases and
increases are spread. -/
def State.dividers (s : State) (demand : List (Nat × Nat)) : State :=
  let targets := s.coreTargets demand
  let t : State := targets.foldl (fun (t : State) p => t.setCap p.1 (Nat.min (t.core p.1).cap p.2.2)) s
  let limit := (s.loadAcres.map fun a => (s.acre a).load + (s.acre a).dropped).sum + 250
  let u := holdBack demand limit t ((ratios.drop 1).flatMap fun r => targets.map fun p => (p.1, r))
  raiseFrom demand u (limit - u.packageLoad demand) targets

/-- The first acre of a function's quadrant set. -/
def State.firstAcre (s : State) (v : Nat) : Nat := acreOf ((s.fnCores v).headD 0)

/-- Takes watts off a list of filler, quadrant after quadrant. -/
def taperFrom : Nat → List (Nat × Nat) → Nat × List (Nat × Nat)
  | n, [] => (n, [])
  | n, (q, w) :: rest =>
    let r := taperFrom (n - w) rest
    (r.1, if w ≤ n then r.2 else (q, w - n) :: r.2)

/-- A taper of the package's filler by some watts (R422). -/
def taperAcres : Nat → List Acre → List Acre
  | _, [] => []
  | n, a :: rest => { a with filler := (taperFrom n a.filler).2 } :: taperAcres (taperFrom n a.filler).1 rest

/-- The quadrants of an acre on which no matrix command works: where filler may run (R422). -/
def State.idleQuads (s : State) (acre : Nat) : List Nat :=
  (upFrom 0 4).filter fun q => !(s.gangs.any fun g => g.cmds.any (fun m => m.started && m.pending) &&
    g.site.any fun site => (siteCores g.shape site).contains (16 * acre + 4 * q))

/-- Adds filler to quadrants of an acre, spread over them. -/
def Acre.fill (a : Acre) (qs : List Nat) (w : Nat) : Acre :=
  { a with filler := qs.foldl (fun l q =>
      let part := w / Nat.max qs.length 1 + (if q = qs.headD 0 then w % Nat.max qs.length 1 else 0)
      if part = 0 then l else assocSet q ((assocGet q l).getD 0 + part) l) a.filler }

/-- The filler that makes up for an acre's part of a fall of the package's draw (R422): all of it beyond 250 W, the acre
in proportion to what it has lost of `lost` altogether. -/
def fillPart (fall lost own : Nat) : Nat := ceilDiv ((fall - 250) * own) (Nat.max lost 1)

/-- Ramp-down filler (R422): what the draw of the package falls by since the last measurement, beyond the slope of 250 W
per µs, is made up by filler in the acres that lost load or filler, on quadrants where no matrix command works; the
filler that already runs tapers by what such a fall leaves of the slope. The draw falls by what loads fall and what gangs
stopped of the filler, less what other loads rise, the gangs' own among them. -/
def State.rampDown (s : State) (demand : List (Nat × Nat)) : State :=
  let loads := s.loadAcres.map fun a => (a, (s.acre a).load + (s.acre a).dropped, s.loadOf demand a)
  let lost := (loads.map fun l => l.2.1 - l.2.2).sum
  let fall := lost - (loads.map fun l => l.2.2 - l.2.1).sum
  let s1 : State := { s with acres := taperAcres (250 - fall) s.acres }
  let part (l : Nat × Nat × Nat) : Nat := fillPart fall lost (l.2.1 - l.2.2)
  loads.foldl (fun (t : State) l =>
    let u : State := if (s.acre l.1).load = l.2.2 && (s.acre l.1).dropped == 0 && part l == 0 then t
      else t.modAcre l.1 fun a => { a.fill (s.idleQuads l.1) (part l) with load := l.2.2, dropped := 0 }
    if part l = 0 then u
    else u.log 4 8 0x1FFF 31 0 2 [BitVec.ofNat 64 l.1, BitVec.ofNat 64 (part l)]) s1

/-- The power manager sets the voltage of each rail that carries a load (R419); the spec gives no value: a free one. -/
def State.setRails (s : State) : State :=
  { s.tick.2 with acres := s.acres.map fun a => { a with rail := Config.freeWord (s.fresh + a.num) } }

/-- POWER_MEASURE (R406, R419, R421, R422): the pool, the grants of functions and regions, reclaims of lent power, the
rails, the dividers and the ramp-down filler. A reclaim lowers a borrower's grant when the grant of an owner rises within
what its share entitles it to. -/
def execPowerMeasure (otherDraw : Nat) (demand : List (Nat × Nat)) (s : State) : Res :=
  .next <|
    let s1 : State := { s with pool := 2600 - otherDraw - 60 }
    let on := (upFrom 0 17).filter fun v => (s.fn v).cfg.en
    let grants := on.map fun v => (v, s1.grantOf demand v)
    let shares := on.flatMap fun v => (s1.fn v).regions.map fun r => (v, r.idx, s1.regionGrant demand v r.idx)
    let old (v : Nat) : Nat := (assocGet v s.grants).getD 0
    let new (v : Nat) : Nat := (assocGet v grants).getD 0
    let rises := on.any fun v => decide (Nat.min (old v) (s1.entitled v) < Nat.min (new v) (s1.entitled v))
    let s2 : State := on.foldl (fun (t : State) v =>
      if rises && decide (new v < old v) && decide (s1.entitled v < old v) then
        t.log 4 8 0x1FFF v 0 1 [BitVec.ofNat 64 (s.firstAcre v), BitVec.ofNat 64 (old v - new v)]
      else t) s1
    ((({ s2 with grants := grants, shares := shares } : State).setRails).dividers demand).rampDown demand

/-! ### Gating and droop (R420, R424) -/

/-- Whether a core has had no slot in use for 50 µs. -/
def State.mayGate (s : State) (core : Nat) : Bool :=
  let c := s.core core
  (s.onCore core).isEmpty && !c.gated && decide (c.idleFrom + 50000 ≤ s.time) && s.enabledAcres.contains (acreOf core)

/-- A gated core (R420): its store, caches and predictor are lost. -/
def Core.gate (c : Core) : Core := { c.harrowed with gated := true }

/-- CORE_GATE (R420): a core with no slot in use for 50 µs. -/
def execCoreGate (core : Nat) (s : State) : Res :=
  .next (if s.mayGate core then s.modCore core Core.gate else s)

/-- Whether a core is due to gate, those that are not listed taken as one. -/
def State.gateDue (s : State) : Bool :=
  (s.cores.any fun c => s.mayGate c.num) || (!s.base.gated && decide (s.base.idleFrom + 50000 ≤ s.time))

/-- Every core that is due to gate does. A core in use is listed first, and those that are not listed gate as one. -/
def State.gateIdle (s : State) : State :=
  let used := (s.acts.filterMap fun x => x.place.map (·.core)).eraseDups
  let t : State := used.foldl (fun (u : State) c => u.modCore c id) s
  { t with
    cores := t.cores.map fun c => if t.mayGate c.num then c.gate else c
    base := if !t.base.gated && decide (t.base.idleFrom + 50000 ≤ t.time) then t.base.gate else t.base }

/-- DROOP (R424): the clocks of the acre's cores are stretched, each counted for itself from now on; at most one entry
per acre and millisecond, with the stretched cycles since the acre's last one. -/
def execDroop (acre : Nat) (s : State) : Res :=
  .next <|
    if 288 ≤ acre then s
    else
      let a := s.acre acre
      let s0 : State := (upFrom (16 * acre) 16).foldl (fun (t : State) c => t.modCore c id) s
      let s1 : State := s0.modAcre acre fun x => { x with drooping := true }
      if (match a.lastDroop with | some t => decide (t + 1000000 ≤ s.time) | none => true) then
        (s1.modAcre acre fun x => { x with lastDroop := some s.time, stretched := 0 }).log (acre / 72) 8 0x1FFF 31 0 0
          [BitVec.ofNat 64 acre, BitVec.ofNat 64 a.stretched]
      else s1

/-- DROOP_RECOVERY (R424): the rail has recovered after a number of stretched cycles. -/
def execDroopRecovery (acre stretched : Nat) (s : State) : Res :=
  .next <|
    if 288 ≤ acre || !(s.acre acre).drooping then s
    else s.modAcre acre fun x => { x with drooping := false, stretched := x.stretched + stretched }

/-! ### Fatal errors (R371) -/

/-- A fatal error: an entry in every ring, all rings frozen, no block issued any more. -/
def State.fatal (s : State) (unit loc : Nat) : State :=
  let t : State := (upFrom 0 6).foldl (fun (t : State) d => t.log d 0xE 0x1FFF 31 0 unit [BitVec.ofNat 64 loc]) s
  { t with rings := t.rings.map fun r => { r with frozen := true }, stopped := true }

/-- FATAL_ERROR (R371). -/
def execFatalError (unit loc : Nat) (s : State) : Res := .next (s.fatal unit loc)

/-! ### Temperature (R423) -/

/-- The die of a sensor: one per acre, then two on each I/O die. -/
def sensorDie (n : Nat) : Nat := if n < 288 then n / 72 else 4 + (n - 288) / 2

/-- THERMAL_EVENT (R423): a reading at or above 95, 100 or 110 °C, or below 98 °C. -/
def execThermalEvent (sensor milliC : Nat) (s : State) : Res :=
  .next <|
    if 292 ≤ sensor then s
    else
      let note (t : State) (sub : Nat) : State :=
        t.log (sensorDie sensor) 9 0x1FFF 31 0 sub [BitVec.ofNat 64 sensor, BitVec.ofNat 64 milliC]
      if 110000 ≤ milliC then (note s 2).fatal 2 sensor
      else if 100000 ≤ milliC then
        let t : State := note s 1
        if 288 ≤ sensor then t
        else t.modAcre sensor fun a => if a.throttled then a else { a with throttled := true, nextStep := Nat.max a.nextStep s.time }
      else
        let t : State := if 95000 ≤ milliC then note s 0 else s
        if milliC < 98000 && decide (sensor < 288) && (s.acre sensor).throttled then
          t.modAcre sensor fun a => { a with throttled := false }
        else t

/-- THERMAL_THROTTLE_STEP (R423): one step of the acre's dividers every 100 µs, down while it is throttled and up again
after that; a lower ratio that the power manager calls for holds (R421). -/
def execThermalThrottleStep (acre : Nat) (s : State) : Res :=
  .next <|
    let a := s.acre acre
    if 288 ≤ acre || decide (s.time < a.nextStep) || (!a.throttled && a.steps == 0) then s
    else
      let k := if a.throttled then Nat.min 5 (a.steps + 1) else a.steps - 1
      let t : State := s.modAcre acre fun x => { x with steps := k, nextStep := s.time + 100000 }
      (upFrom (16 * acre) 16).foldl (fun (u : State) c => u.modCore c fun q => { q with
        divider := Nat.min q.cap (ratioAt k) }) t

/-! ### Page retirement (R123, R386, R427, R428) -/

/-- The function and intermediate page that map a physical HBM page. -/
def State.mapper (s : State) (page : Nat) : Option (Nat × Nat) :=
  (upFrom 0 17).findSome? fun v =>
    if (s.fn v).cfg.en then
      ((s.mappedPages v).find? fun p => !p.2 && (match s.walk2 v (p.1 * 65536) with
        | some (pa, false) => pa / 65536 == page
        | _ => false)).map fun p => (v, p.1)
    else none

/-- The next spare page of a channel: it lies above the channel's ordinary range (R386). -/
def State.spare (s : State) (chan : Nat) : Option (Nat × State) :=
  let used := (assocGet chan s.spares).getD 0
  if 256 ≤ used then none
  else some (chan * 65536 + 49152 + used, { s with spares := assocSet chan (used + 1) s.spares })

/-- A page that qualifies for retirement (R428): copied to a spare page of its channel while copies to it are held back,
and recorded as type 0Ch; with no spare left, the event is recorded as type 0Bh. A spare page in use qualifies as any
other; a page that is already being retired, or is a spare page not in use, is left. -/
def State.retirePage (s : State) (unit page : Nat) : State :=
  if s.retiring.any (fun r => r.1 == page) ||
      decide (49152 + (assocGet (page / 65536) s.spares).getD 0 ≤ page % 65536) then s
  else
    match s.spare (page / 65536) with
    | none => s.log (page / 65536 / 32) 0xB 0x1FFF 31 0 unit [BitVec.ofNat 64 (page * 65536), 0]
    | some (new, t) =>
      let ipa := match s.mapper page with | some (_, p) => p * 65536 | none => 0
      ({ t with retiring := t.retiring ++ [(page, new, ipa)] } : State).log (page / 65536 / 32) 0xC 0x1FFF 31 0 0
        [BitVec.ofNat 64 ipa]

/-- Copies the bytes, keys and detected errors of a page to another. -/
def State.copyPage (s : State) (old new : Nat) : State :=
  let move (a : Nat) : Nat := a - old * 65536 + new * 65536
  let cells := s.mem.filter fun c => c.1 / 65536 == old
  let mem := Memory.writeList (Memory.clear (new * 65536) (new * 65536 + 65536) s.mem) (cells.map fun c => (move c.1, c.2))
  let keys := (s.keyOver.filter fun p => p.1 / 1024 == old).map fun p => (p.1 - old * 1024 + new * 1024, p.2)
  let tags := s.keyTags.filter fun p => p.1 != new
  { s with
    mem := mem
    keyTags := match assocGet old s.keyTags with | some t => assocSet new t tags | none => tags
    keyOver := keys ++ s.keyOver.filter fun p => p.1 / 1024 != new
    poison := (s.poison.filter fun k => k / 65536 == old).map move ++ s.poison.filter fun k => k / 65536 != new }

/-- The value of a stage-2 leaf at level 3 (R120) for an HBM page. -/
def leafWord (page : Nat) : Nat := 3 * 2 ^ 62 + page * 65536

/-- Changes the stage-2 leaf of an intermediate page (R123): a 64 KiB leaf in place; a 2 MiB leaf becomes a table of 64
KiB leaves, which takes a spare page of a channel of the physical function. -/
def State.remap (s : State) (v ipage page : Nat) : State :=
  let ipa := ipage * 65536
  let e1 := s.hv64 ((s.fn v).cfg.s2root + 8 * bits ipa 47 34)
  let a2 := bits e1 47 16 * 65536 + 8 * bits ipa 33 21
  let e2 := s.hv64 a2
  if !bit e2 62 then s.physWrite 0 (bits e2 47 16 * 65536 + 8 * bits ipa 20 16) (leBytes 8 (leafWord page))
  else
    match s.spare ((s.fn 0).cfg.chan.headD 0) with
    | none => s
    | some (tab, t) =>
      let leaves := (upFrom 0 32).flatMap fun i =>
        leBytes 8 (if i = bits ipa 20 16 then leafWord page else leafWord (bits e2 47 16 + i))
      let t : State := t.zeroPage 0 tab (tab * 65536)
      (t.physWrite 0 (tab * 65536) leaves).physWrite 0 a2 (leBytes 8 (2 ^ 63 + tab * 65536))

/-- PAGE_RETIREMENT_DONE (R123): the page is copied, its stage-2 entry changed and invalidated; copies proceed. -/
def execPageRetirementDone (page : Nat) (s : State) : Res :=
  .next <|
    match s.retiring.find? fun r => r.1 == page with
    | none => s
    | some (old, new, _) =>
      let t : State := s.copyPage old new
      let t : State := match s.mapper page with
        | some (v, ip) => (t.remap v ip new).dropTlb fun e => e.fn == v && e.usedPage ip
        | none => t
      { t with retiring := t.retiring.filter fun r => r.1 != page }

/-! ### Detected errors (R362, R425 to R428) -/

/-- The location word of an entry: a memory address; for a place on the chip, which the spec does not number, a free
value of the place. -/
def State.locWord (s : State) : ErrLoc → Word
  | .memory k => BitVec.ofNat 64 k
  | .other n => BitVec.ofNat 64 n
  | _ => Config.freeWord s.fresh

/-- The activity that an error affects. -/
def errOwner : ErrLoc → Option Aid
  | .carrel a _ => some a
  | .register a _ _ => some a
  | .tile a _ _ _ => some a
  | .context a => some a
  | _ => none

/-- The core and die of an error. -/
def State.locPlace (s : State) (l : ErrLoc) : Nat × Nat :=
  match l with
  | .envRecord c _ => (c, dieOf c)
  | .memory k => (0x1FFF, if k < 2 ^ 48 then k / 2 ^ 32 / 32 % 4 else 4)
  | _ => match (errOwner l).bind s.act with | some x => Act.logPlace x | none => (0x1FFF, 4)

/-- Whether a page has had corrected errors in 3 distinct granules within 24 hours. -/
def manyErrors (l : List (Nat × Nat × Nat)) (page : Nat) : Bool :=
  decide (3 ≤ (((l.filter fun e => e.1 == page).map fun e => e.2.1).eraseDups).length)

/-- CORRECTED_ERROR (R425, R428). -/
def execCorrectedError (unit : Nat) (l : ErrLoc) (wholeDevice : Bool) (s : State) : Res :=
  .next <|
    let p := s.locPlace l
    let t : State := s.tick.2.log p.2 0xA p.1 31 0 unit [s.locWord l]
    match l with
    | .memory k =>
      if 2 ^ 48 ≤ k then t
      else
        let page := k / 65536
        let recent := t.corrected.filter fun e => decide (s.time < e.2.2 + 86400000000000)
        let t : State := { t with corrected := recent ++ [(page, k / 64, s.time)] }
        if wholeDevice || manyErrors t.corrected page then t.retirePage unit page else t
    | _ => t

/-- Whether a physical granule holds bytes of an activity's spill frame (R13, R21), given where its function's
intermediate addresses lie. -/
def State.frameHit (s : State) (hits : Nat → Bool) (x : Act) : Bool :=
  let bytes := if x.place.isSome then x.frameBytes
    else x.saveBytes ((x.frameEnv.map fun e => envRecs e.words).sum) (s.liveTileCount x)
  ((upFrom 0 x.frame.length).zip x.frame).any fun p =>
    (upFrom 0 1024).any fun j => decide (65536 * p.1 + 64 * j < bytes) && hits (65536 * p.2 + 64 * j)

/-- Whether a physical address lies in the image that a function's save area holds (R404). -/
def Func.imageHit (f : Func) (k : Nat) : Bool :=
  f.image != 0 && decide (f.cfg.save / 64 ≤ k / 64) && decide (k / 64 ≤ (f.cfg.save + f.image - 1) / 64)

/-- An uncorrectable error in a granule of device-held structures that the model keeps by their contents (R12, R13, R21,
R23, R404): the entry of a region table is bad until it is written again, the record of an activity that is not resident
fails its check code, and a context whose spill frame or saved image is hit is bad (R362). DESIGN CHOICE (assumption log
104): the layout of an image is the device's own, so every context that it holds counts as hit. -/
def State.tablesHit (s : State) (k : Nat) : State :=
  let hits (v ipa : Nat) : Bool := match s.walk2 v (ipa / 65536 * 65536) with
    | some (pa, cxl) => memKey cxl (pa + ipa % 65536) / 64 == k / 64
    | none => false
  let entry (v : Nat) (r : Region) : Bool := (upFrom 0 4).any fun j => hits v ((s.fn v).rcbAt r.idx + 64 * j)
  let s1 : State := (upFrom 0 17).foldl (fun (t : State) v =>
    if !(s.fn v).cfg.en || !((s.fn v).regions.any (entry v)) then t
    else t.modFn v fun f => { f with regions := f.regions.map fun r => if entry v r then { r with bad := true } else r }) s
  { s1 with acts := s1.acts.map fun x =>
      let x := if x.place.isNone && !x.record.isEmpty && hits x.id.fn x.recAt then { x with record := [] } else x
      if (x.saved && (s.fn x.id.fn).imageHit k) || (!x.saved && s.frameHit (hits x.id.fn) x) then
        { x with bad := .context x.id :: x.bad }
      else x }

/-- UNCORRECTED_ERROR (R362, R426, R428): the data is never delivered; an error that nothing contains is fatal. It is
recorded once, as type 0Bh, also where its channel has no spare page left. -/
def execUncorrectedError (unit : Nat) (l : ErrLoc) (s : State) : Res :=
  .next <|
    let p := s.locPlace l
    let who := errOwner l
    let t : State := s.tick.2.log p.2 0xB p.1 (match who with | some a => a.fn | none => 31)
      (match who with | some a => a.serial | none => 0) unit
      [s.locWord l, BitVec.ofNat 64 (match who with | some a => a.serial | none => 0)]
    match l with
    | .memory k =>
      let t : State := { t with poison := upFrom (k / 64 * 64) 64 ++ t.poison.filter fun g => g / 64 != k / 64 }
      let t : State := t.tablesHit k
      if k < 2 ^ 48 && (t.spare (k / 65536 / 65536)).isSome then t.retirePage unit (k / 65536) else t
    | .envRecord c i =>
      t.modCore c fun k => { k with envs := k.envs.map fun p =>
        if p.1 ≤ i ∧ i < p.1 + envRecs p.2.words then
          (p.1, { p.2 with bad := (i - p.1) :: p.2.bad.filter fun r => r != i - p.1 })
        else p }
    | .other n => t.fatal unit n
    | _ =>
      match who with
      | some a => t.modAct a fun x => { x with bad := l :: x.bad.filter fun b => b != l }
      | none => t

/-- REGULATOR_PHASE_FAIL (R419, R425): the remaining phases carry the load; a second failed phase leaves the acre without
its load's supply, which no single unit contains. -/
def execRegulatorPhaseFail (acre phase : Nat) (s : State) : Res :=
  .next <|
    if 288 ≤ acre || decide (6 ≤ phase) then s
    else
      let known := (s.acre acre).phases
      let t : State := s.modAcre acre fun a => { a with phases := phase :: a.phases.filter fun p => p != phase }
      let t : State := t.log (acre / 72) 8 0x1FFF 31 0 3 [BitVec.ofNat 64 acre, BitVec.ofNat 64 phase]
      if known.any fun p => p != phase then t.fatal 3 acre else t

/-- PATROL_SCRUB (R427): one pass reads and corrects; what it finds are the events CORRECTED_ERROR and UNCORRECTED_ERROR,
so the pass itself changes nothing. -/
def execPatrolScrub (s : State) : Res := .next s

/-- PATROL_SCRUB_ENABLE (R427): by the management controller. -/
def execPatrolScrubEnable (s : State) : Res := .next (if s.sec.recovery then s else { s with patrol := true })

/-- PATROL_SCRUB_DISABLE (R427): recorded as type 0Ah with unit FFh. -/
def execPatrolScrubDisable (s : State) : Res :=
  .next (if s.sec.recovery then s else ({ s with patrol := false } : State).log 4 0xA 0x1FFF 31 0 0xFF [0])

end Sys2Proof.Machine
end

