-- ==== Sys2Proof/Machine/Boot.lean ====
section
/-!
DEFINITION. Reset, boot, identity and the black-box record as the management controller sees it (R369 to R372, R429 to
R433): COLD_RESET, WARM_RESET, FIRMWARE_IMAGE, ATTESTATION_REQUEST, KEY_EXPORT, KEY_IMPORT, KEY_IMPORT_EXPIRY,
BLACKBOX_READ and BLACKBOX_UNFREEZE.
-/
namespace Sys2Proof.Machine

/-! ### Firmware (R429) -/

/-- Whether a stage verifies under a hash that is not revoked. -/
def Sec.stageOk (c : Sec) (f : FwStage) : Bool :=
  decide (f.fuse < 4) && !c.revoked.contains f.fuse && Config.slhVerify (c.fuses.getD f.fuse []) f.bytes f.sig

/-- Verifies the stages in order up to the first that fails: whether none failed, and the measurement register extended
with each stage that verified. -/
def Sec.stages (c : Sec) : List FwStage → List Byte → Bool × List Byte
  | [], m => (true, m)
  | f :: fs, m => if c.stageOk f then c.stages fs (Config.sha256 (m ++ Config.sha256 f.bytes)) else (false, m)

/-- Verifies a firmware image: one without a first stage to verify fails. -/
def Sec.verify (c : Sec) (fs : List FwStage) (m : List Byte) : Bool × List Byte :=
  if fs.isEmpty then (false, m) else c.stages fs m

/-- The measurement register at reset. -/
def measure0 : List Byte := List.replicate 32 0

/-- FIRMWARE_IMAGE (R429): the image that the next cold reset boots; in recovery it is verified at once, and a good one
ends the recovery. -/
def execFirmwareImage (stages : List FwStage) (s : State) : Res :=
  .next <|
    let c := { s.sec with firmware := stages }
    if !c.recovery then { s with sec := c }
    else
      let r := c.verify stages measure0
      { s with sec := { c with recovery := !r.1, measure := r.2 } }

/-! ### Bring-up (R432, R433) -/

/-- Steps 6 and 7: the first lock sets the time once; the firmware commits record 0. A step that fails, and a record that
the commit refuses, are fatal errors at which bring-up ends. -/
def State.bringUp (s : State) (cfg : BootCfg) : State :=
  if cfg.failed = some 6 then ({ s with locked := false } : State).fatal 4 6
  else
    let base := cfg.vfbase / 512 * 512
    let s1 : State := { s with time := cfg.time, locked := true, vfbase := base }
    if cfg.failed = some 7 then s1.fatal 4 7
    else
      let s2 : State := s1.physWrite 0 base (cfg.record.take 512)
      if s2.commitStatus 0 ≠ 0 then s2.fatal 1 0
      else
        let r := vfRecOf (s2.recBytes 0)
        let s3 : State := s2.modFn 0 fun f => { f with cfg := r, state := .running }
        (s3.assignQuads 0 r.quad).setStatus 0 0

/-- COLD_RESET (R429, R432): everything is cleared; a failed step is a fatal error at which bring-up ends, and a failed
verification leaves the part in recovery with no function enabled. The fuses, the identity, the disabled acres and the
device number are the part's own; what the part has sent, its free values and its key numbers are not used again. DESIGN
CHOICE (assumption log 96): everything is cleared at the start, whichever step fails. -/
def execColdReset (cfg : BootCfg) (s : State) : Res :=
  .next <|
    let s1 : State := { State.reset with
      device := s.device, disabled := s.disabled, fresh := s.fresh, out := s.out, nextKey := s.nextKey
      funcs := List.replicate 17 Func.off
      sec := { s.sec with imports := [], measure := measure0, recovery := false } }
    if cfg.failed = some 1 then s1.fatal 4 1
    else
      let r := s1.sec.verify s1.sec.firmware measure0
      let s2 : State := { s1 with sec := { s1.sec with measure := r.2, recovery := !r.1 } }
      if !r.1 then s2.fatal 0 0
      else
        match cfg.failed with
        | some k => if k < 6 then ({ s2 with locked := false } : State).fatal 4 k else s2.bringUp cfg
        | none => s2.bringUp cfg

/-- WARM_RESET (R371, R433): every key slot is destroyed, every function off, every image discarded, every core gated;
the rings, the fuses, the identity and what is stored in memory stay, unreadable since its keys are gone; steps 6 and 7
of the bring-up run again. In recovery only an image is accepted (R429). -/
def execWarmReset (cfg : BootCfg) (s : State) : Res :=
  .next <|
    if s.sec.recovery then s
    else
      let s1 : State := { State.reset with
        device := s.device, disabled := s.disabled, mem := s.mem, poison := s.poison, keyTags := s.keyTags
        keyOver := s.keyOver, ports := s.ports, links := s.links, kept := s.kept, accepted := s.accepted
        e2eNext := s.e2eNext, out := s.out, rings := s.rings, patrol := s.patrol, corrected := s.corrected
        spares := s.spares, fresh := s.fresh, nextKey := s.nextKey + 1, base := (Core.reset 0).gate
        acres := s.acres.map fun a => { Acre.reset a.num with phases := a.phases }
        sec := { s.sec with imports := [] }
        funcs := { Func.off with key := s.nextKey } :: List.replicate 16 Func.off }
      s1.bringUp cfg

/-! ### Identity and keys (R430, R431) -/

/-- The 512 bytes of a committed record with its D fields zero (R387). -/
def VfRec.bytes (r : VfRec) : List Byte :=
  let mask (l : List Nat) (n : Nat) : List Byte := leBytes n ((l.map fun q => 2 ^ q).sum)
  let host (valid : Bool) (h : Nat) : Nat := (if valid then 2 ^ 9 else 0) + h
  let body := mask r.quad 136 ++ mask r.chan 16 ++ leBytes 8 (r.lqbase + r.lqcount) ++ leBytes 8 (r.pageb * 2 ^ 32) ++
    leBytes 8 (r.power * 2 ^ 48 + r.kslot * 2 ^ 32 + r.group * 2 ^ 28 + r.slice) ++ leBytes 8 r.s2root ++
    leBytes 8 r.podcat ++ leBytes 8 r.rtable ++ leBytes 8 (r.rtcount * 2 ^ 32) ++ leBytes 8 r.save ++
    leBytes 8 (r.savep * 2 ^ 32) ++ leBytes 8 (host r.h0v r.h0 * 2 ^ 54 + host r.h1v r.h1 * 2 ^ 44) ++
    leBytes 8 (if r.en then 2 ^ 63 else 0) ++ leBytes 8 r.lstab ++ leBytes 8 (r.hcrgn * 2 ^ 40) ++
    List.replicate 248 0
  body ++ leBytes 8 (crc16 body)

/-- ATTESTATION_REQUEST (R430): a report for a 32-byte nonce. -/
def execAttestationRequest (nonce : List Byte) (s : State) : Res :=
  .next <|
    if nonce.length ≠ 32 ∨ s.sec.recovery then s
    else
      let recs := (s.funcs.filter fun f => f.cfg.en).flatMap fun f => f.cfg.bytes
      let r : Report := ⟨nonce, [s.sec.measure], Config.sha256 recs, Config.kemPublic, []⟩
      let msg := nonce ++ s.sec.measure ++ Config.sha256 recs ++ Config.kemPublic
      { s with out := s.out ++ [.report { r with sig := Config.slhSign msg }] }

/-- KEY_EXPORT (R431): the key of an enabled VF, encapsulated to the target's key, when the target's report has a valid
signature and measurements on the list of accepted firmware. -/
def execKeyExport (v : Nat) (r : Report) (s : State) : Res :=
  .next <|
    let msg := r.nonce ++ r.measure.flatten ++ r.records ++ r.kemKey
    let shape := decide (r.nonce.length = 32) && decide (r.measure.length = 1) && r.measure.all (fun m => m.length == 32) &&
      decide (r.records.length = 32)
    let ok := Config.slhVerify s.sec.identity msg r.sig && shape && r.measure.all s.sec.accepted.contains
    if !s.sec.recovery && decide (1 ≤ v) && (s.fn v).cfg.en && ok then
      { s with out := s.out ++ [.wrappedKey (Config.kemWrap (s.fn v).key r.kemKey)] }
    else s

/-- KEY_IMPORT (R431): into a named key slot, which the next commit that enables it loads. -/
def execKeyImport (slot : Nat) (blob : List Byte) (s : State) : Res :=
  .next <|
    if s.sec.recovery || slot == 0 || decide (1023 < slot) || s.funcs.any fun f => f.cfg.en && f.cfg.kslot == slot then s
    else
      let rest := s.sec.imports.filter fun i => i.1 != slot
      { s with sec := { s.sec with imports := rest ++ [(slot, Config.kemUnwrap blob, s.time)] } }

/-- KEY_IMPORT_EXPIRY (R431): an import not used within 10 s is destroyed. -/
def execKeyImportExpiry (slot : Nat) (s : State) : Res :=
  .next { s with sec := { s.sec with
    imports := s.sec.imports.filter fun i => !(i.1 == slot && decide (i.2.2 + 10000000000 ≤ s.time)) } }

/-! ### Reading the rings (R369, R372) -/

/-- An entry that nothing has written (R369). -/
def BbEntry.reset : BbEntry := ⟨0, 0, 0, 0x1FFF, 31, 0, 0, [], 0⟩

/-- BLACKBOX_READ (R372): by ring and entry index. -/
def execBlackboxRead (ring index : Nat) (s : State) : Res :=
  .next <|
    match s.rings[ring]? with
    | none => s
    | some r =>
      if 4096 ≤ index ∨ s.sec.recovery then s
      else { s with out := s.out ++ [.bbEntry ((assocGet index r.entries).getD BbEntry.reset).words] }

/-- BLACKBOX_UNFREEZE (R372). -/
def execBlackboxUnfreeze (s : State) : Res :=
  .next (if s.sec.recovery then s else { s with rings := s.rings.map fun r => { r with frozen := false } })

end Sys2Proof.Machine
end

