-- ==== Sys2Proof/Machine/Engines.lean ====
section
/-!
DEFINITION. The engines (R93, R116 to R123, R132 to R136, R181, R184, R189 to R196, R301): COPY_COMPLETE, early elements
of copy commands, TRANSLATION_WALK, MATRIX_COMMAND_START and MATRIX_COMMAND_COMPLETE.
-/
namespace Sys2Proof.Machine

/-! ### Copy commands -/

/-- A command of an activity by tag. -/
def Act.copyOf (x : Act) (tag : Nat) : Option Copy := x.copies.find? fun c => c.tag == tag

/-- Whether a command touches a page that is being retired (R123). -/
def State.heldBack (s : State) (x : Act) (c : Copy) : Bool :=
  c.ranges.any fun r =>
    match s.devByte x.id.fn x.acre r.1.toNat with
    | .ok l => s.retiring.any fun p => p.1 == l.key / 65536
    | .error _ => false

/-- Whether the copy units may work on a command: its activity is on the part, earlier overlapping commands have
completed, no page of it is being retired (R123, R133, R355 step 5). -/
def State.copyRuns (s : State) (x : Act) (c : Copy) : Bool :=
  !x.saved && s.fnOn x.id.fn && !s.stopped && !x.mustWait c && !s.heldBack x c

/-- The child of a completion closure (R93): in the issuer's region, one bank, S14 the tag, S15 the status. -/
def State.copyChild (s : State) (x : Act) (tag : Nat) (failed : Bool) (ch : Child) : State :=
  let n := s.newSerial x.id.fn
  let y0 := Act.fresh ⟨x.id.fn, n.1⟩ x.region ((s.fn x.id.fn).baseprio x.region) 1
    (match x.place with | some p => p.core | none => x.hint)
  let y := (y0.closureChild ch.entry ch.env)
  n.2.addAct { y with
    weight := ch.weight
    recAt := ch.recAt
    s := setReg (setReg y.s 14 (BitVec.ofNat 64 tag)) 15 (if failed then 1 else 0) }

/-- COPY_COMPLETE (R116): the elements not yet moved move in order, the tag is set, the completion closure's child
becomes ready (R93), and tag waits are looked at again (R118). A CBANK reads the strict flag in the region's entries
(R23, R165). -/
def execCopyComplete (a : Aid) (tag : Nat) (s : State) : Res :=
  .next <|
    match s.act a with
    | none => s
    | some x =>
      match x.copyOf tag with
      | none => s
      | some c =>
        if !s.copyRuns x c then s
        else
          let rest := (upFrom 0 c.count).filter fun n => !c.moved.contains n
          let r := if c.failed.isSome then (s, c.failed) else s.moveAll a c rest
          let t : State := r.1.modAct a fun y => y.tagDone c r.2
          let t : State := match c.child with
            | some ch => t.copyChild x tag r.2.isSome ch
            | none => t
          let u : State := (t.checkTagWait a).refreshEnvu a.fn
          (match (if c.kind == CopyKind.cbank then s.badEntry x else none) with
            | some e => u.recordFault x e
            | none => u).settle

/-- An early element of a command (R134 to R136): engines move elements at any time between the commit and the
completion, with every other element of the same 64-byte granule, so that no reader sees the granule half new. A failing
element is noted; the command completes with failure. -/
def State.earlyElement (s : State) (a : Aid) (tag n : Nat) : State :=
  match s.act a with
  | none => s
  | some x =>
    match x.copyOf tag with
    | none => s
    | some c =>
      if !s.copyRuns x c || c.kind == .cbank || c.failed.isSome || c.moved.contains n || !decide (n < c.count) then s
      else
        let group := (upFrom 0 c.count).filter fun j => !c.moved.contains j && c.granule j == c.granule n
        match s.moveGranule a c group with
        | .ok t => t.modAct a fun y => group.foldl (fun (y : Act) j => y.markMoved tag j) y
        | .error f => s.modAct a fun y => { y with
            copies := y.copies.map fun d => if d.tag = tag then { d with failed := some f } else d }

/-- The stage-2 entry of an intermediate page, as a walk caches it (R121). -/
def State.stage2Entry (s : State) (v ip : Nat) : Option TlbEntry :=
  (s.walk2 v (ip * 65536)).map fun w =>
    let e2 := s.hv64 (bits (s.hv64 ((s.fn v).cfg.s2root + 8 * bits (ip * 65536) 47 34)) 47 16 * 65536 +
      8 * bits (ip * 65536) 33 21)
    ⟨v, 2, ip, w.1 / 65536, w.2, bit e2 62, [(ip, bit e2 62)]⟩

/-- Puts entries into a translation cache. -/
def Acre.cache (a : Acre) (es : List TlbEntry) : Acre :=
  { a with tlb := es ++ a.tlb.filter fun d => !es.any fun e => e.fn == d.fn && e.stage == d.stage && e.page == d.page }

/-- TRANSLATION_WALK (R119 to R121): a whole walk leaves in the acre's translation cache the stage-2 entries of the
stage-1 tables it visited, the stage-1 entry of the page and the stage-2 entry of its target; a failing one leaves none.
-/
def execTranslationWalk (v acre va : Nat) (s : State) : Res :=
  .next <|
    let page := va / 65536
    match s.s1Walk v acre page with
    | .error _ => s
    | .ok w =>
      match s.stage2Entry v w.ip with
      | none => s
      | some e =>
        let tabs := w.tables.filterMap fun p => s.stage2Entry v p
        s.modAcre acre fun q =>
          q.cache (⟨v, 1, page, w.ip, e.cxl, w.big, tabs.flatMap (·.used)⟩ :: e :: tabs.filter fun d => d.page != w.ip)

/-! ### Matrix commands -/

/-- Whether the arrays may work on a command: the gang holds its place, and every earlier command on a common resource
has acted (R192), and none of its cores is stopped (R419). -/
def State.matrixRuns (s : State) (g : Gang) (m : MCmd) : Bool :=
  g.site.isSome && s.fnOn g.fn && !s.stopped && m.pending && !(g.members.any fun n => s.halted ⟨g.fn, n⟩) &&
    g.cmds.all fun d => !(decide (d.idx < m.idx) && d.pending && d.shares m)

/-- A matrix command stops the ramp-down filler on the gang's quadrants at once; the next measurement counts what it
stopped and the gang's load in the taper of the others (R422). -/
def State.stopFiller (s : State) (g : Gang) : State :=
  match g.site with
  | none => s
  | some site =>
    { s with acres := s.acres.map fun a =>
        let there (q : Nat × Nat) : Bool := (siteCores g.shape site).contains (16 * a.num + 4 * q.1)
        { a with
          filler := a.filler.filter fun q => !there q
          dropped := a.dropped + ((a.filler.filter there).map (·.2)).sum } }

/-- Commands start in the order of their slots (R131, R181): every earlier one has started. -/
def Gang.turnOf (g : Gang) (idx : Nat) : Bool := g.cmds.all fun d => !(decide (d.idx < idx) && d.pending && !d.started)

/-- MATRIX_COMMAND_START (R181, R184): the gang-wide checks; a command that fails one does nothing and completes. The
members' operands may be read now (`early`) or at the completion (R135). -/
def execMatrixCommandStart (a : Aid) (idx : Nat) (early : Bool) (s : State) : Res :=
  .next <|
    match (s.act a).bind fun x => s.gangOf x with
    | none => s
    | some g =>
      match g.cmd idx with
      | none => s
      | some m =>
        if !s.matrixRuns g m || m.started || !(s.fn a.fn).preempt.isNone || !g.turnOf idx then s
        else if !g.startOk m then
          ((s.setGang (g.setCmd { m with failed := true })).checkSplit a).settle
        else
          let s : State := s.stopFiller g
          let m1 := if early then { s.captureAll g m with early := true } else m
          s.setGang (g.setCmd { m1 with started := true })

/-- What an MSTORE writes to its members' carrels (R195). -/
def State.storeTiles (s : State) (g : Gang) (m : MCmd) (t : Nat) : State :=
  ((upFrom 0 m.shapes.length).zip m.shapes).foldl (fun (u : State) p =>
    if m.kind.hasPart g.mode p.1 then
      let data := g.stored t p.1 p.2 ((m.data.getD p.1 ⟨0, [], 0⟩).fmt)
      u.modAct ⟨g.fn, g.members.getD p.1 0⟩ fun y => { (y.rewritten fun o => data.any fun d => d.1 == o) with
        carrel := Memory.writeList y.carrel data }
    else u) s

/-- MATRIX_COMMAND_COMPLETE (R192): the command acts; reserved codes that a Q4N MWLOAD met in a strict region stay with
it until they are reported (R165, R367); a SPLIT that waits for the last command ends (R301). DESIGN CHOICE (assumption
log 73): an MSTORE writes all of every member's part at the completion. -/
def execMatrixCommandComplete (a : Aid) (idx : Nat) (s : State) : Res :=
  .next <|
    match (s.act a).bind fun x => (s.gangOf x).map fun g => (x, g) with
    | none => s
    | some (x, g) =>
      match g.cmd idx with
      | none => s
      | some m0 =>
        if !s.matrixRuns g m0 || !m0.started then s
        else
          let m := if m0.early then { m0 with early := false } else s.captureAll g m0
          let late := s.lateErrors g m0
          let hits := match m.kind with
            | .mwload _ => if (s.fn a.fn).strict x.region then m.reservedHits else []
            | _ => []
          let s1 : State := if !late.isEmpty then
              late.foldl (fun (t : State) b => t.modAct b fun y => { y with bad := .context b :: y.bad }) s
            else match m.kind with
              | .mstore t => s.storeTiles g m t
              | _ => s.tilesMended g m
          let h := if late.isEmpty then (g.setCmd m).apply m else g.setCmd m
          let h := h.setCmd { m with done := true, data := [], hits := hits }
          let u : State := (s1.setGang h.tidy).checkSplit a
          (match m.kind, s.badEntry x with
            | .mwload _, some e => u.recordFault x e
            | _, _ => u).settle

end Sys2Proof.Machine
end

