-- ==== Sys2Proof/Machine/Fabric.lean ====
section
/-!
DEFINITION. The Slaide link layer, device time and the CXL ports (R124, R347, R411 to R416): FLIT_RECEIVE, LINK_REPLAY,
LANE_RETRAIN_COMMAND, LINK_RETRAIN_DONE, END_TO_END_ACK, MESSAGE_RETRY, PTP_MESSAGE, CXL_PORT_DOWN and CXL_PORT_UP.
-/
namespace Sys2Proof.Machine

/-! ### Links (R413 to R415) -/

/-- Resends part of a replay buffer in order. -/
def State.resend (s : State) (n : Nat) (fs : List (Nat × List Byte)) : State :=
  { s with out := s.out ++ fs.map fun f => .flit n f.1 f.2 }

/-- Takes a link down (R415): a black-box entry of type 06h; its buffer is not resent. -/
def State.linkDown (s : State) (n : Nat) (l : Link) : State :=
  (s.setLink n { l with up := false, training := false, buffer := [], queue := [] }).log (linkDie n) 6 0x1FFF 31 0 0
    [BitVec.ofNat 64 n, BitVec.ofNat 64 l.retrains.length]

/-- The next narrower width of a link (R414); 0 when none is left. -/
def narrower : Nat → Nat
  | 4 => 2
  | 2 => 1
  | _ => 0

/-- Starts a retrain, or with a lower limit a shed (R413, R414): 16 retrains within 1 ms, among which a shed does not
count (R415), or a shed of the last lane, take the link down. -/
def State.retrain (s : State) (n : Nat) (l : Link) (limit : Nat) : State :=
  let times := (l.retrains.filter fun t => decide (s.time < t + 1000000)) ++ if limit < l.lanes then [] else [s.time]
  let m := { l with
    training := true, since := s.time, limit := limit, retrains := times, replays := 0, wrong := [] }
  if limit = 0 ∨ 16 ≤ times.length then s.linkDown n m else s.setLink n m

/-- A link that comes back with `good` lanes able to run. -/
def widthOf (limit good : Nat) : Nat :=
  let k := Nat.min limit good
  if 4 ≤ k then 4 else if 2 ≤ k then 2 else k

/-- A receiver counts a flit in error on the lane that showed the error, which the flit does not tell: a free value. More
than 16 within 1 ms shed that lane (R414). -/
def State.wrongFlit (s : State) (n : Nat) (l : Link) : State :=
  let lane := (Config.freeWord s.fresh).toNat % Nat.max l.lanes 1
  let recent := (l.wrong.filter fun e => decide (s.time < e.2 + 1000000)) ++ [(lane, s.time)]
  let m := { l with wrong := recent }
  let t := s.tick.2
  if 16 < (recent.filter fun e => e.1 == lane).length then t.retrain n m (narrower l.lanes) else t.setLink n m

/-- Drops a message at a header or routing check (R416): the error counter and a black-box entry of type 07h. -/
def State.dropHeader (s : State) (n : Nat) (l : Link) (key : Nat × Nat) (last : Bool) : State :=
  let others := l.drops.filter fun d => d != key
  (s.setLink n { l with
    errors := l.errors + 1
    drops := if last then others else key :: others
    opened := l.opened.filter fun d => d != key }).log (linkDie n) 7 0x1FFF 31 0 0 [BitVec.ofNat 64 n]

/-- Whether a header passes the checks of a receiving device (R416) beside its check
code. -/
def State.headerChecks (s : State) (flit : List Byte) : Bool :=
  let type := headerBits flit 127 124
  let vf := headerBits flit 105 101
  decide (type < 10) && headerBits flit 114 106 == s.device && (s.fn vf).cfg.en &&
    (type != 4 || (s.fn vf).cfg.hosts.contains (headerBits flit 123 115))

/-- Releases a kept message (R415). -/
def State.acked (s : State) (dst seq : Nat) : State :=
  { s with kept := s.kept.filter fun k => !(k.dst == dst && k.seq == seq) }

/-- Drops a flit whose header fails its check code, with the rest of its message (R416). Nothing of such a header tells
which message that is: every message of which flits have come on the link and the last has not is dropped, and the next
message of each type, which may be the rest of one that begins with this flit, so that none is accepted with a flit
missing; the sender's retry brings the others again (R415; DESIGN CHOICE, assumption log 92). -/
def State.dropBlind (s : State) (n : Nat) (l : Link) : State :=
  (s.setLink n { l with
    errors := l.errors + 1
    drops := l.opened ++ l.drops
    opened := []
    blind := [1, 2, 3, 4, 5, 6, 7, 9] }).log (linkDie n) 7 0x1FFF 31 0 0 [BitVec.ofNat 64 n]

/-- A flit that the link layer has accepted (R412, R415, R416): an acknowledgement releases its message; the last flit
of a message of another type makes it accepted, once, and is acknowledged. -/
def State.takeFlit (s : State) (n : Nat) (l : Link) (flit : List Byte) : State :=
  let type := headerBits flit 127 124
  let src := headerBits flit 123 115
  let seq := headerBits flit 100 77
  let last := bit (headerBits flit 71 71) 0
  let rest := l.opened.filter fun d => d != (src, seq)
  let s1 : State := s.setLink n { l with opened := if last then rest else (src, seq) :: rest }
  if !flitHeaderOk flit then s.dropBlind n l
  else if type = 0 then s.setLink n l
  else if l.drops.contains (src, seq) then
    s.setLink n (if last then { l with drops := l.drops.filter fun d => d != (src, seq) } else l)
  else if l.blind.contains type && !l.opened.contains (src, seq) then
    s.setLink n { l with
      blind := l.blind.filter (· != type), drops := if last then l.drops else (src, seq) :: l.drops }
  else if !s.headerChecks flit then s.dropHeader n l (src, seq) last
  else if type = 8 then s1.acked src seq
  else if !last then s1
  else
    let t : State := if s1.accepted.contains (src, seq) then s1 else { s1 with accepted := s1.accepted ++ [(src, seq)] }
    t.sendFlit n 8 (flitHeader 8 s.device src (headerBits flit 105 101) seq 0 true) []

/-- FLIT_RECEIVE (R411, R413 to R416). -/
def execFlitReceive (n : Nat) (flit : List Byte) (s : State) : Res :=
  .next <|
    match s.link n with
    | none => s
    | some l =>
      if !l.up || l.training then s
      else
        let tr := leNat (flit.drop 248)
        let lseq := bits tr 63 52
        let lack := bits tr 51 40
        let good := flit.length == 256 && crc32 (flit.take 248) == bits tr 31 0
        if !good then
          let t : State := s.wrongFlit n l
          { t with out := t.out ++ [.replayReq n l.rxNext] }
        else if lseq ≠ l.rxNext then { s with out := s.out ++ [.replayReq n l.rxNext] }
        else
          let inFlight := (l.txNext + 4095 - lack) % 4096
          let kept := if inFlight ≤ 128 then l.buffer.drop (l.buffer.length - inFlight) else l.buffer
          let m := { l with
            rxNext := (l.rxNext + 1) % 4096
            buffer := kept
            replays := if kept.any fun f => f.1 == l.replayOf then l.replays else 0 }
          (s.takeFlit n m flit).flush n

/-- LINK_REPLAY (R413): the other end asks for everything from a flit; 8 requests in succession for one flit make the
link retrain. -/
def execLinkReplay (n seq : Nat) (s : State) : Res :=
  .next <|
    match s.link n with
    | none => s
    | some l =>
      if !l.up || l.training then s
      else
        match l.buffer.findIdx? fun f => f.1 == seq with
        | none => s
        | some i =>
          let k := if l.replayOf = seq then l.replays + 1 else 1
          let m := { l with replays := k, replayOf := seq }
          if 8 ≤ k then s.retrain n m l.lanes else (s.setLink n m).resend n (l.buffer.drop i)

/-- LANE_RETRAIN_COMMAND (R414): the management controller commands a retrain that may add lanes. -/
def execLaneRetrainCommand (n : Nat) (s : State) : Res :=
  .next <|
    match s.link n with
    | none => s
    | some l => if !l.up || l.training || s.sec.recovery then s else s.retrain n l 4

/-- LINK_RETRAIN_DONE (R414): the pause of at most 4 µs is over; each change of width is recorded, and the replay buffer
is resent from its oldest flit. -/
def execLinkRetrainDone (n lanesGood : Nat) (s : State) : Res :=
  .next <|
    match s.link n with
    | none => s
    | some l =>
      if !l.up || !l.training then s
      else
        let w := widthOf l.limit lanesGood
        if w = 0 then s.linkDown n l
        else
          let t : State := s.setLink n { l with training := false, lanes := w, limit := 4 }
          let t : State := if w = l.lanes then t
            else t.log (linkDie n) 5 0x1FFF 31 0 w [BitVec.ofNat 64 n, BitVec.ofNat 64 (s.time - l.since)]
          (t.resend n l.buffer).flush n

/-! ### End to end (R415) -/

/-- END_TO_END_ACK (R415): the destination has acknowledged a message. -/
def execEndToEndAck (dst seq : Nat) (s : State) : Res := .next (s.acked dst seq)

/-- MESSAGE_RETRY (R415): a message unacknowledged for 20 µs is sent again over another link that is up; without any
other, over the one there is. One that no link has carried yet is sent as soon as one is up. -/
def execMessageRetry (dst seq link : Nat) (s : State) : Res :=
  .next <|
    match s.kept.find? fun k => k.dst == dst && k.seq == seq, s.link link with
    | some k, some l =>
      let others := (upFrom 0 s.links.length).any fun n => n != link && (match s.link n with | some m => m.up | none => false)
      if (k.link.isSome ∧ s.time < k.sentAt + 20000) ∨ !l.up ∨ (k.link = some link ∧ others) then s
      else
        let t : State := s.sendKept link k
        { t with kept := t.kept.map fun e => if e.dst = dst ∧ e.seq = seq then { e with sentAt := s.time, link := some link } else e }
    | _, _ => s

/-! ### Device time and CXL ports -/

/-- PTP_MESSAGE (R347): the first lock after reset sets the time once; later ones only change the rate, by at most 200
parts in a million, towards the grandmaster's time. -/
def execPtpMessage (time : Nat) (s : State) : Res :=
  .next <|
    if !s.locked then { s with time := time, locked := true }
    else { s with ratePpm := max (-200) (min 200 ((time : Int) - (s.time : Int))) }

/-- CXL_PORT_DOWN (R124): every access that the port would serve fails with cause 4. -/
def execCxlPortDown (port : Nat) (s : State) : Res := .next { s with ports := s.ports.set port false }

/-- CXL_PORT_UP (R124). -/
def execCxlPortUp (port : Nat) (s : State) : Res := .next { s with ports := s.ports.set port true }

end Sys2Proof.Machine
end

