-- ==== Sys2Proof/Machine/HostWindow.lean ====
section
/-!
DEFINITION. The host window (R72, R342, R359, R400, R407 to R409, R417): DOORBELL, LOAN_ALLOCATE, LOAN_FREE,
POD_CATALOGUE_WRITE, HOST_WINDOW_WRITE and HOST_WINDOW_READ. Every request gets a completion, an error one when it is
refused.
-/
namespace Sys2Proof.Machine

/-- The completion of a request, kept until it is acknowledged end to end (R407, R412 type 5, R415). -/
def State.complete (s : State) (h : HostReq) (ok : Bool) (data : List Byte) : State :=
  ({ s with out := s.out ++ [.hostDone h ok data] } : State).keepMsg h.host 5 h.fn data

/-- Whether a request is let through: a function that is not off, from a valid host node (R407). -/
def State.hostOk (s : State) (h : HostReq) : Bool :=
  decide (h.fn ≤ 16) && (s.fn h.fn).state != .off && (s.fn h.fn).cfg.hosts.contains h.host

/-- A write to the doorbell of a queue: none when it is refused. -/
def State.ringBell (s : State) (v q value : Nat) : Option State :=
  let f := s.fn v
  let p := value % 2 ^ 32
  if f.cfg.lqcount ≤ q ∨ 64 < (p + 2 ^ 32 - f.cons.getD q 0) % 2 ^ 32 then none
  else some (s.modFn v fun f => { f with prod := f.prod.set q p })

/-- Sets the loan result word (R408). -/
def State.loanResult (s : State) (v status base : Nat) : State :=
  s.modFn v fun f => { f with loanRes := BitVec.ofNat 64 (status * 2 ^ 60 + base * 65536) }

/-- An allocate command (R408): the first of results 4, 5, 2 and 3 that applies, else a zeroed host-held loan charged to
the function. -/
def State.loanAlloc (s : State) (v w : Nat) : State :=
  let f := s.fn v
  let n := bits w 23 0
  let cxl := bit w 56
  if n = 0 ∨ bits w 47 24 ≠ 0 then s.loanResult v 4 0
  else if 256 ≤ f.hostLoans.length then s.loanResult v 5 0
  else
    let r := s.reserved v
    if (r.fn v).cfg.pageb < (r.fn v).pageu + n then s.loanResult v 2 0
    else
      let base := r.chooseBase v n
      let vas := (r.fn v).stage1.map (·.va)
      let more := tablePages (vas ++ upFrom base n) - tablePages vas
      let free := r.freePages v cxl
      let room := if cxl then decide (n ≤ free.length) && decide (more ≤ (r.freePages v false).length)
        else decide (n + more ≤ free.length)
      if !room then s.loanResult v 3 0
      else
        let start := Config.loanPage s.fresh % free.length
        let order := if cxl then free else free.reverse
        let pick := ((order.drop start) ++ (order.take start)).take n
        let t : State := s.tick.2.mapRange v base cxl pick
        (t.modFn v fun f => { f with pageu := f.pageu + n, hostLoans := f.hostLoans ++ [(base, n, cxl)] }).loanResult v 0 base

/-- A free command (R408): the loan is scrubbed (R105). -/
def State.loanDrop (s : State) (v w : Nat) : State :=
  let base := bits w 47 16
  match (s.fn v).hostLoans.find? fun l => l.1 == base with
  | none => s.loanResult v 4 0
  | some l =>
    if bit w 56 || bits w 15 0 != 0 then s.loanResult v 4 0
    else
      ((s.freeRange v l.1 l.2.1).modFn v fun f => { f with
        pageu := f.pageu - l.2.1, hostLoans := f.hostLoans.filter fun m => m.1 != l.1 }).loanResult v 0 0

/-- A write to the loan command word (R408). -/
def State.loanCommand (s : State) (v w : Nat) : State :=
  if bits w 59 57 ≠ 0 ∨ bits w 55 48 ≠ 0 then s.loanResult v 4 0
  else
    match bits w 63 60 with
    | 1 => s.loanAlloc v w
    | 2 => s.loanDrop v w
    | _ => s.loanResult v 4 0

/-- A pod catalogue entry written: none when the number is not 1 to 511 (R72, R407). -/
def State.podWrite (s : State) (v e val : Nat) : Option State :=
  if e = 0 ∨ 511 < e then none else some (State.ipaWrite v s ((s.fn v).cfg.podcat + 8 * e) (leBytes 8 val))

/-- What an offset of the window names (R407). -/
inductive WinPart where
  | bell (q : Nat)
  | command
  | result
  | pageu
  | pageb
  | loans
  | pod (e : Nat)
  | ring (q o : Nat)
  | data (va : Nat)
  | bad
deriving DecidableEq, Repr

/-- The part of the window at an offset, for an access of `n` bytes. -/
def Func.winPart (f : Func) (off n : Nat) : WinPart :=
  let word := n == 8 && off % 8 == 0
  if 2 ^ 48 ≤ off then
    let va := off - 2 ^ 48
    if va < 2 ^ 48 ∧ n % 8 = 0 ∧ 8 ≤ n ∧ n ≤ 256 ∧ va / 256 = (va + n - 1) / 256 ∧ f.inHostLoan va n then .data va else .bad
  else if 0x200000 ≤ off then if word && decide (8 ≤ off - 0x200000) && decide (off - 0x200000 < 4096) then .pod ((off - 0x200000) / 8) else .bad
  else if 0x100000 ≤ off then
    let q := (off - 0x100000) / 16384
    let o := (off - 0x100000) % 16384
    if q < f.cfg.lqcount ∧ 0 < n ∧ o + n ≤ 16384 then .ring q o else .bad
  else if !word then .bad
  else if off < 0x200 then if off / 8 < f.cfg.lqcount then .bell (off / 8) else .bad
  else if off = 0x200 then .command
  else if off = 0x208 then .result
  else if off = 0x210 then .pageu
  else if off = 0x218 then .pageb
  else if off = 0x220 then .loans
  else .bad

/-- The places of the bytes of a data aperture access, as the I/O die's translation finds them: none when a byte has
none, or lies behind a port that is down. -/
def State.apertureKeys (s : State) (v va n : Nat) : Option (List Loc) :=
  (upFrom va n).mapM fun a => match s.devByte v noAcre a with | .ok k => some k | .error _ => none

/-- A window write performed, or none when it is refused (R407, R409). -/
def State.winWrite (s : State) (v off : Nat) (data : List Byte) : Option State :=
  match (s.fn v).winPart off data.length with
  | .bell q => s.ringBell v q (leNat data)
  | .command => some (s.loanCommand v (leNat data))
  | .pod e => s.podWrite v e (leNat data)
  | .ring q o => some (State.ipaWrite v s ((s.fn v).cfg.lqbase + q * 16384 + o) data)
  | .data va => (s.apertureKeys v va data.length).map fun ks => State.physWriteAt v s (ks.zip data)
  | .result | .pageu | .pageb | .loans | .bad => none

/-- What a window read returns, or none when it is refused. A granule with an uncorrectable error is never delivered
(R426). -/
def State.winRead (s : State) (v off n : Nat) : Option (List Byte) :=
  let f := s.fn v
  match f.winPart off n with
  | .bell q => some (leBytes 8 (f.cons.getD q 0))
  | .result => some (leBytes 8 f.loanRes.toNat)
  | .pageu => some (leBytes 8 f.pageu)
  | .pageb => some (leBytes 8 f.cfg.pageb)
  | .loans => some (leBytes 8 f.hostLoans.length)
  | .pod e => some (s.ipaRead v (f.cfg.podcat + 8 * e) 8)
  | .ring q o => some (s.ipaRead v (f.cfg.lqbase + q * 16384 + o) n)
  | .data va =>
    match s.apertureKeys v va n with
    | none => none
    | some ks => if ks.any fun k => s.poison.contains k.key then none else some (ks.map (s.physGet v))
  | .command | .bad => none

/-- The end of a write request. -/
def State.wrote (s : State) (h : HostReq) (r : Option State) : State :=
  match (if s.hostOk h then r else none) with
  | some t => t.complete h true []
  | none => s.complete h false []

/-- DOORBELL (R342, R407): sets the producer index of a queue. -/
def execDoorbell (h : HostReq) (q value : Nat) (s : State) : Res := .next (s.wrote h (s.ringBell h.fn q value))

/-- LOAN_ALLOCATE (R408): a write to 200h whose op is not free. -/
def execLoanAllocate (h : HostReq) (word : Word) (s : State) : Res :=
  .next (if bits word.toNat 63 60 = 2 then s else s.wrote h (some (s.loanCommand h.fn word.toNat)))

/-- LOAN_FREE (R408): a write to 200h whose op is free. -/
def execLoanFree (h : HostReq) (word : Word) (s : State) : Res :=
  .next (if bits word.toNat 63 60 = 2 then s.wrote h (some (s.loanCommand h.fn word.toNat)) else s)

/-- POD_CATALOGUE_WRITE (R72, R407). -/
def execPodCatalogueWrite (h : HostReq) (e : Nat) (value : Word) (s : State) : Res :=
  .next (s.wrote h (s.podWrite h.fn e value.toNat))

/-- HOST_WINDOW_WRITE (R407, R409): a write to any offset of the window. -/
def execHostWindowWrite (h : HostReq) (off : Nat) (data : List Byte) (s : State) : Res :=
  .next (s.wrote h (s.winWrite h.fn off data)).settle

/-- HOST_WINDOW_READ (R407, R409). -/
def execHostWindowRead (h : HostReq) (off len : Nat) (s : State) : Res :=
  .next <|
    match (if s.hostOk h then s.winRead h.fn off len else none) with
    | some bs => s.complete h true bs
    | none => s.complete h false []

end Sys2Proof.Machine
end

