-- ==== Sys2Proof/Machine/Launch.lean ====
section
/-!
DEFINITION. The life of activities between blocks (R12, R19 to R22, R26, R30 to R32, R330, R342 to R354, R365): LAUNCH,
DISPATCH, WRITE_BACK, PRIORITY_AGING, GANG_RESERVATION, RETIRE_EFFECT, KILL_FINISH and SLEEP_DEADLINE.
-/
namespace Sys2Proof.Machine

/-! ### Launch records (R343 to R346) -/

/-- An item of a launch record: kind, tier, base page, shelf id, pages. -/
structure Item where
  kind  : Nat
  tier  : Nat
  base  : Nat
  shelf : Nat
  pages : Nat
deriving DecidableEq, Repr

/-- Item `i`. -/
def itemOf (rc : List Byte) (i : Nat) : Item :=
  let a := wordOf rc (0x40 + 16 * i)
  let b := wordOf rc (0x48 + 16 * i)
  ⟨bits a 63 62, bits a 61 60, bits a 47 16, bits b 63 32, bits b 23 0⟩

/-- The items of a record. -/
def itemsOf (rc : List Byte) : List Item := (upFrom 0 8).map (itemOf rc)

/-- Items of kinds 01b and 10b. -/
def Item.isRange (i : Item) : Bool := i.kind == 1 || i.kind == 2

/-- Check code, reserved fields and reserved values of a record (status 1). -/
def recordFieldsOk (rc : List Byte) : Bool :=
  let body := (rc.take 0x38) ++ 0 :: rc.drop 0x39
  crc16 (body.take 0xF8) == wordOf rc 0xF8 % 65536 && wordOf rc 0xF8 / 65536 == 0 && wordOf rc 0 % 256 == 0 &&
    wordOf rc 0x30 == 0 && wordOf rc 0x38 / 256 == 0 &&
    (upFrom 24 7).all (fun k => wordOf rc (8 * k) == 0) &&
    (upFrom 0 8).all fun i =>
      let a := wordOf rc (0x40 + 16 * i)
      let b := wordOf rc (0x48 + 16 * i)
      let it := itemOf rc i
      decide (it.tier < 2) && bits a 59 48 == 0 && bits a 15 0 == 0 && bits b 31 24 == 0 &&
        (it.kind == 3 || it.shelf == 0) && (if it.isRange then it.pages != 0 else it.pages == 0)

/-- The image checks of status 2. -/
def launchImageOk (f : Func) (va : Nat) (img : List Byte) : Bool :=
  let rcount := bits (wordOf img 0x78) 63 32
  f.inHostLoan va 256 && rcbCheckOk img && rcbOk img && wordOf img 0 / 256 == 0 && decide (1 ≤ rcount) &&
    decide (rcount ≤ 16777216)

/-- The item checks of status 3. -/
def itemsOk (f : Func) (its : List Item) : Bool :=
  let rs := its.filter Item.isRange
  rs.all (fun i => f.hostLoans.any fun l => l.1 == i.base && l.2.1 == i.pages && l.2.2 == (i.tier == 1)) &&
    (rs.map (·.base)).Nodup &&
    its.all fun i => i.kind != 3 || match f.shelf i.shelf with
      | some sf => !sf.unsealing
      | none => false

/-- The status that a record's checks give (R346), the lowest first; a copy made by the schedule table may hand over no
host-held loan (R349). Pages that uncommitted PALLOCs have reserved (R291) are taken. -/
def State.launchStatus (s : State) (v : Nat) (rc : List Byte) (scheduled : Bool) : Nat :=
  let f := s.fn v
  let va := wordOf rc 0 / 256 * 256
  let img := s.vaRead v va 256
  let its := itemsOf rc
  if !recordFieldsOk rc then 1
  else if !launchImageOk f va img then 2
  else if !itemsOk f its || (scheduled && its.any Item.isRange) then 3
  else
    let dev := queuePages (bits (wordOf img 0x60) 5 0) + poolPages (bits (wordOf img 0x78) 63 32)
    let own := ((its.filter Item.isRange).map (·.pages)).sum
    if bits (wordOf img 0x10) 63 32 < own + dev ∨ f.cfg.pageb < ((s.reserved v).fn v).pageu + dev ∨
        ((s.reserved v).freePages v false).length < dev then 4
    else if (s.freeRegion v).isNone then 5
    else 0

/-- Applies item `i` to the root (R344). -/
def State.applyItem (s : State) (a : Aid) (g i : Nat) (it : Item) : State :=
  let v := a.fn
  let take (t : State) : State :=
    (t.modFn v fun f => { f with hostLoans := f.hostLoans.filter fun l => l.1 != it.base }).modChain v g fun r =>
      { r with pageu := r.pageu + it.pages }
  match it.kind with
  | 1 => (take s).setL a i (.loan it.base it.pages (it.tier == 1))
  | 2 =>
    let n := (take s).newShelf v
    let t : State := n.2.modFn v fun f => { f with
      shelves := f.shelves ++ [⟨n.1, it.base, it.pages, it.tier == 1, some a, (v, g), false, false⟩] }
    (t.setL a i (.sealed it.base it.pages (it.tier == 1) n.1 v)).modAct a fun x => { x with sh := setReg x.sh i (some n.1) }
  | 3 => s.modAct a fun x => { x with sh := setReg x.sh i (some it.shelf) }
  | _ => s

/-- The effects of an accepted record: region, root activity, items (R345). -/
def State.launchRecord (s : State) (v q : Nat) (rc : List Byte) : Nat × State :=
  let img := s.vaRead v (wordOf rc 0 / 256 * 256) 256
  let g := (s.freeRegion v).getD 0
  let r := rcbRegion img g none 0 q
  let s1 : State := s.putRegion v { r with rfree := r.rcount }
  let dev := queuePages r.rqlog + poolPages r.rcount
  let s2 : State := match s1.takeDevice v g dev with
    | some (ps, t) => t.modRegion v g fun r => { r with devp := ps }
    | none => s1
  let n := s2.newSerial v
  let p := n.2.takeRecord v g
  let banks := bits (wordOf rc 8) 3 0 + 1
  let x := Act.fresh ⟨v, n.1⟩ g ((n.2.fn v).baseprio g) banks Config.noHint
  let arg (i : Nat) : Word := BitVec.ofNat 64 (wordOf rc (0x10 + 8 * i))
  let x := { x with
    recAt := p.1
    weight := Config.rootWeight
    resume := bits (wordOf rc 8) 63 4 * 16
    entry := .launch
    s := setReg (setReg (setReg (setReg x.s 0 (arg 0)) 1 (arg 1)) 2 (arg 2)) 3 (arg 3) }
  let s3 : State := p.2.addAct x
  let s4 : State := ((upFrom 0 8).zip (itemsOf rc)).foldl (fun (t : State) p => t.applyItem x.id g p.1 p.2) s3
  (g, s4.writeRecord x.id)

/-- The schedule entry whose copy a ring entry is, told of the outcome (R348, R349). -/
def State.schedTaken (s : State) (v q idx : Nat) (launched : Option Nat) : State :=
  s.sched.foldl (fun (t : State) e =>
    if e.copies.contains (v, q, idx) then
      let t1 : State := { t with sched := t.sched.map fun f =>
        if f.entry = e.entry then { f with copies := f.copies.filter fun c => c != (v, q, idx) } else f }
      match launched with
      | some g => t1.schedSet e.entry 0x20 (g * 2 ^ 40 + bits (t1.schedGet e.entry 0x20) 1 1 * 2 + 1)
      | none => t1
    else t) s

/-- LAUNCH (R345): takes the next record of a queue; under a KILLQ of the queue it is discarded with status 6. -/
def execLaunch (v q : Nat) (s : State) : Res :=
  .next <|
    let f := s.fn v
    let c := f.cons.getD q 0
    if !f.cfg.en || !s.fnRuns v || !s.locked || f.cfg.lqcount ≤ q || c == f.prod.getD q 0 then s
    else
      let at_ := f.cfg.lqbase + q * 16384 + c % 64 * 256
      let rc := s.ipaRead v at_ 256
      let killed := s.kills.any fun k => k.target == .queue v q
      let scheduled := s.sched.any fun e => e.copies.contains (v, q, c)
      let st := if killed then 6 else s.launchStatus v rc scheduled
      let r : Option Nat × State := if st = 0 then
          (match s.launchRecord v q rc with | (g, t) => (some g, t))
        else (none, s)
      let t : State := State.ipaWrite v r.2 (at_ + 0x38) [BitVec.ofNat 8 st]
      let t : State := t.modFn v fun f => { f with cons := f.cons.set q ((c + 1) % 2 ^ 32) }
      let t : State := t.schedTaken v q c r.1
      match r.1 with
      | some g => t.searchEntries v g
      | none => t

/-! ### Dispatch and write-back -/

/-- DISPATCH (R351, R352): the unit of a die selects an eligible activity for a free slot, verifies the entry of its
region and its record, restores it. -/
def execDispatch (die : Nat) (s : State) : Res :=
  .next <|
    match s.select die with
    | none => s
    | some (x, t) =>
      match s.badRead x with
      | some a => (t.recordFault x a).settle
      | none =>
        match (t.placesOnDie x die).head? with
        | none => s
        | some c =>
          (t.modAct x.id fun y => { y with run := .running, prio := (t.fn x.id.fn).baseprio x.region }).placeAct x.id c

/-- WRITE_BACK (R19 to R21): the page budgets of the region's chain are read (R23). -/
def execWriteBack (a : Aid) (s : State) : Res :=
  .next <|
    match s.act a with
    | none => s
    | some x =>
      if !s.wantsWriteBack x then s
      else
        match s.badEntry x with
        | some e => (s.recordFault x e).settle
        | none => (s.writeBackAll a).getD s

/-- PRIORITY_AGING (R26, R354): the current priority of a ready activity by the time it has been ready, of one that waits
for a gang's place by the time it has waited. The base priority is read from the region's entries (R23). -/
def execPriorityAging (a : Aid) (s : State) : Res :=
  .next <|
    match s.act a with
    | none => s
    | some x =>
      let since := if x.run == .ready then some x.readyAt
        else if x.run == .waiting && (x.wkind == .gang || (x.wkind == .split && x.place.isNone)) then some x.waitFrom
        else none
      match since, s.badEntry x with
      | none, _ => s
      | some _, some e => (s.recordFault x e).settle
      | some n, none =>
        (s.modAct a fun y => { y with
          prio := Nat.min 15 ((s.fn a.fn).baseprio x.region + (s.time - n) / 50000) }).stamp a

/-! ### Gangs (R32, R300, R354) -/

/-- Whether an activity waits for a gang's place: a GANG wait, or the lead of a gang that is ready and has none. -/
def State.wantsSite (s : State) (x : Act) : Bool :=
  x.reshape.isSome && !x.saved && s.fnRuns x.id.fn && decide (x.retryAt ≤ s.time) &&
    (match s.gangOf x with
      | none => x.run == .waiting && x.wkind == .gang
      | some _ => s.gangReady x)

/-- The detected errors of an activity's S, V and M registers, in those of another that takes their contents (R362). -/
def Act.regErrors (x : Act) (dst : Aid) : List ErrLoc :=
  x.bad.filterMap fun b => match b with
    | .register _ .c _ => none
    | .register _ cls n => some (.register dst cls n)
    | _ => none

/-- A member that a GANG creates (R32, R160, R300), at the base priority (R26), with its record's address. -/
def Act.memberFrom (x : Act) (serial m prio recAt : Nat) : Act :=
  let y := Act.fresh ⟨x.id.fn, serial⟩ x.region prio x.banks x.hint
  { y with
    recAt := recAt
    run := .running, resume := x.resume, s := x.s, v := x.v, m := x.m, fmts := x.fmts, bad := x.regErrors y.id,
    gang := some (x.id.serial, m) }

/-- Moves an activity to a core: it gives up its slot first. -/
def State.moveTo (s : State) (a : Aid) (c : Nat) : State :=
  match s.act a with
  | none => s
  | some x =>
    if (match x.place with | some p => p.core == c | none => false) then s
    else (s.unplace a).placeAct a c

/-- Forms a new gang on a site (R32). -/
def State.formGang (s : State) (x : Act) (shape : Shape) (site : Nat) : State :=
  let cs := siteCores shape site
  let v := x.id.fn
  let s1 : State := s.moveTo x.id (cs.headD 0)
  let r : State × List Nat := ((upFrom 0 cs.length).zip cs).foldl (fun (t : State × List Nat) p =>
    if p.1 = 0 then (t.1, [x.id.serial])
    else
      let n := t.1.newSerial v
      let u := n.2.takeRecord v x.region
      let y := x.memberFrom n.1 p.1 ((s.fn v).baseprio x.region) u.1
      let u : State := u.2
      (({ u with acts := u.acts ++ [y.stamp] } : State).placeAct y.id p.2, t.2 ++ [n.1])) (s1, [])
  let nq := quadsOf shape
  let g : Gang := ⟨v, x.id.serial, shape, r.2, some site, .sep, freshPlanes nq, freshPlanes nq, freshTiles nq, [], 0⟩
  let s2 : State := { r.1 with gangs := r.1.gangs ++ [g] }
  s2.modAct x.id fun y => { y with
    gang := some (x.id.serial, 0), run := .running, wkind := .none, wop := 0, wmask := 0, reshape := none, attempts := 0,
    prio := (s.fn v).baseprio x.region }

/-- Places a gang that was written back, pre-empted or faulted (R354). One that waits in SPLIT waits on, resident from
now (R19). -/
def State.placeGang (s : State) (x : Act) (g : Gang) (site : Nat) : State :=
  let cs := siteCores g.shape site
  let prio := (s.fn x.id.fn).baseprio x.region
  let s1 : State := ((s.crew x).zip cs).foldl (fun (t : State) p =>
    (t.modAct p.1.id fun y => { y with
      run := if y.run == .waiting then .waiting else .running, waitFrom := if y.run == .waiting then s.time else y.waitFrom
      reshape := none, prio := prio, attempts := 0 }).placeAct p.1.id p.2) s
  s1.setGang { g with site := some site }

/-- A failed attempt waits (R354 step 3). -/
def Act.backOff (x : Act) (now : Nat) : Act :=
  let k := Nat.min (x.attempts + 1) 6
  { x with attempts := x.attempts + 1, retryAt := now + 2 ^ k * 1000 + x.id.serial % 64 * 16 }

/-- GANG_RESERVATION (R32, R354). A trap of the GANG's block is raised when its wait ends, with the gang in place (R10,
R256). -/
def execGangReservation (a : Aid) (s : State) : Res :=
  .next <|
    match s.act a with
    | none => s
    | some x =>
      match x.reshape with
      | none => s
      | some shape =>
        if !s.wantsSite x then s
        else
          let crew := s.crew x
          match crew.findSome? fun y => if y.place.isNone then (s.badRead y).map fun e => (y, e) else none with
          | some (y, e) => (s.recordFault y e).settle
          | none =>
            let banks (m : Nat) : Nat := match s.gangOf x with
              | some _ => s.crewBanks x m
              | none => x.banks
            let room : Bool := match s.gangOf x with
              | some _ => true
              | none => (match (s.fn a.fn).root x.region with
                | some r => decide (sizeOfShape shape - 1 ≤ r.rfree)
                | none => false)
            match (if room then s.chooseSite x shape banks else none) with
            | none => s.modAct a fun y => y.backOff s.time
            | some site =>
              match s.gangOf x with
              | some g => (s.placeGang x g site).refreshEnvu a.fn
              | none =>
                let t : State := (s.formGang x shape site).refreshEnvu a.fn
                if x.trap.isSome then (t.raiseTrap ((t.act a).getD x)).settle else t

/-! ### Ends -/

/-- RETIRE_EFFECT (R30, R256, R298): after every copy of every member; a trap of the block is delivered with resume
address zero. -/
def execRetireEffect (a : Aid) (s : State) : Res :=
  .next <|
    match s.act a with
    | none => s
    | some x =>
      let crew := s.crew x
      if !x.retiring || !(crew.all fun y => y.copies.isEmpty) || x.saved || !s.fnOn a.fn then s
      else
        match s.badEntry x with
        | some e => (s.recordFault x e).settle
        | none =>
        let s1 : State := match crew.findSome? fun y => y.trap.map fun t => (y, t) with
          | some (y, num, block, slot) =>
            s.resolve (crew.headD x) ⟨block, .trap, slot, memberOf y, 1, (crew.headD x).id.serial, BitVec.ofNat 64 num, 0⟩
          | none => s
        (s1.retire a false true).settle

/-- Whether the news of a kill has reached the desks that run and the parties that it lands there (R330). -/
def State.killLanded (s : State) (k : Kill) : Bool :=
  s.msgs.all fun m => match m.kind with
    | .kill fn _ a => !(k.victims.contains a && s.fnRuns fn)
    | .landing a 2 s15 _ => !((k.victims.any fun y => y.serial == s15.toNat) &&
        match s.act a with | some x => !x.saved | none => false)
    | _ => true

/-- KILL_FINISH (R31, R330, R349, R365): the killed regions' pages return, the weight of a killed subtree goes to its
parent, a root killed by KillTree writes its notice with bit 63 inverted; records written to a killed queue meanwhile
are discarded; one killed by a PREEMPT launch writes none, as under R330. -/
def execKillFinish (k : KillTarget) (s : State) : Res :=
  .next <|
    match s.kills.find? fun x => x.target == k with
    | none => s
    | some x =>
      if !s.killLanded x then s
      else
      let v := match k with | .queue v _ => v | .tree v _ => v
      let s0 : State := { s with kills := s.kills.filter fun y => y.target != k }
      let s0 : State := match k with | .queue v q => s0.discardRecords v q | .tree _ _ => s0
      let s1 : State := x.regions.foldl (fun (t : State) g =>
        match (t.fn v).region g with
        | none => t
        | some r => ((t.giveDevice v g r.devp).modRegion v g fun q => { q with devp := [] }).freeDesks v g) s0
      let s2 : State := match k with
        | .queue _ _ => s1
        | .tree _ d =>
          match (s1.fn v).region d with
          | none => s1
          | some r =>
            match r.parent with
            | some p => s1.giveWeight v p r.held
            | none => if x.entry.isSome then s1 else s1.writeNotice v r true
      let roots := x.regions.filter fun g => match (s2.fn v).region g with | some r => r.parent.isNone | none => false
      let s3 : State := roots.foldl (fun (t : State) g => t.schedEnded v g) s2
      match x.entry with
      | some e => s3.schedLaunch e
      | none => s3

/-- SLEEP_DEADLINE (R17, R299). -/
def execSleepDeadline (a : Aid) (s : State) : Res :=
  .next <|
    match s.act a with
    | none => s
    | some x => if x.saved then s else (s.checkSleep a).settle

end Sys2Proof.Machine
end

