-- ==== Sys2Proof/Machine/Dispatch.lean ====
section
/-!
DEFINITION. The dispatch of every instruction and device event to its meaning.
-/
namespace Sys2Proof.Machine
open Sys2Proof

/-- The meaning of one instruction or event. -/
def exec (i : Instr) (s : State) : Host.Outcome State Fault Refusal :=
  match i with
  | .rd cls reg t1 t2 => Sys2Proof.Machine.execRd cls reg t1 t2 s
  | .wr cls reg => Sys2Proof.Machine.execWr cls reg s
  | .mov pm t1 t2 => Sys2Proof.Machine.execMov pm t1 t2 s
  | .null pm t1 t2 => Sys2Proof.Machine.execNull pm t1 t2 s
  | .geni pm imm t1 => Sys2Proof.Machine.execGeni pm imm t1 s
  | .genu pm imm t1 => Sys2Proof.Machine.execGenu pm imm t1 s
  | .genc pm imm t1 => Sys2Proof.Machine.execGenc pm imm t1 s
  | .br pm ex off => Sys2Proof.Machine.execBr pm ex off s
  | .bri pm ex => Sys2Proof.Machine.execBri pm ex s
  | .call pm ex off => Sys2Proof.Machine.execCall pm ex off s
  | .ret pm ex => Sys2Proof.Machine.execRet pm ex s
  | .trap pm num => Sys2Proof.Machine.execTrap pm num s
  | .add pm w32 t1 t2 => Sys2Proof.Machine.execAdd pm w32 t1 t2 s
  | .sub pm w32 t1 t2 => Sys2Proof.Machine.execSub pm w32 t1 t2 s
  | .addi pm imm t1 => Sys2Proof.Machine.execAddi pm imm t1 s
  | .mul pm w32 t1 t2 => Sys2Proof.Machine.execMul pm w32 t1 t2 s
  | .mulh pm kind t1 t2 => Sys2Proof.Machine.execMulh pm kind t1 t2 s
  | .div pm kind t1 t2 => Sys2Proof.Machine.execDiv pm kind t1 t2 s
  | .rem pm kind t1 t2 => Sys2Proof.Machine.execRem pm kind t1 t2 s
  | .and pm w32 t1 t2 => Sys2Proof.Machine.execAnd pm w32 t1 t2 s
  | .or pm w32 t1 t2 => Sys2Proof.Machine.execOr pm w32 t1 t2 s
  | .xor pm w32 t1 t2 => Sys2Proof.Machine.execXor pm w32 t1 t2 s
  | .andi pm imm t1 => Sys2Proof.Machine.execAndi pm imm t1 s
  | .ori pm imm t1 => Sys2Proof.Machine.execOri pm imm t1 s
  | .shl pm w32 t1 t2 => Sys2Proof.Machine.execShl pm w32 t1 t2 s
  | .shr pm w32 t1 t2 => Sys2Proof.Machine.execShr pm w32 t1 t2 s
  | .sha pm w32 t1 t2 => Sys2Proof.Machine.execSha pm w32 t1 t2 s
  | .shi pm kind w32 amount t1 => Sys2Proof.Machine.execShi pm kind w32 amount t1 s
  | .min pm w32 uns t1 t2 => Sys2Proof.Machine.execMin pm w32 uns t1 t2 s
  | .max pm w32 uns t1 t2 => Sys2Proof.Machine.execMax pm w32 uns t1 t2 s
  | .ext pm kind t1 t2 => Sys2Proof.Machine.execExt pm kind t1 t2 s
  | .bfx pm w32 sign t1 t2 => Sys2Proof.Machine.execBfx pm w32 sign t1 t2 s
  | .bfi pm w32 t1 t2 => Sys2Proof.Machine.execBfi pm w32 t1 t2 s
  | .cnt pm w32 kind t1 t2 => Sys2Proof.Machine.execCnt pm w32 kind t1 t2 s
  | .sel pm t1 t2 => Sys2Proof.Machine.execSel pm t1 t2 s
  | .test ct cond t1 t2 => Sys2Proof.Machine.execTest ct cond t1 t2 s
  | .testi ct cond imm t1 => Sys2Proof.Machine.execTesti ct cond imm t1 s
  | .ftest ct f64 cond t1 t2 => Sys2Proof.Machine.execFtest ct f64 cond t1 t2 s
  | .fadd pm f64 rnd t1 t2 => Sys2Proof.Machine.execFadd pm f64 rnd t1 t2 s
  | .fsub pm f64 rnd t1 t2 => Sys2Proof.Machine.execFsub pm f64 rnd t1 t2 s
  | .fmul pm f64 rnd t1 t2 => Sys2Proof.Machine.execFmul pm f64 rnd t1 t2 s
  | .fma pm f64 rnd t1 t2 => Sys2Proof.Machine.execFma pm f64 rnd t1 t2 s
  | .fdiv pm f64 rnd t1 t2 => Sys2Proof.Machine.execFdiv pm f64 rnd t1 t2 s
  | .fsqrt pm f64 rnd t1 t2 => Sys2Proof.Machine.execFsqrt pm f64 rnd t1 t2 s
  | .fmm pm f64 max t1 t2 => Sys2Proof.Machine.execFmm pm f64 max t1 t2 s
  | .fcvt pm kind t1 t2 => Sys2Proof.Machine.execFcvt pm kind t1 t2 s
  | .ld pm lsid ty imm t1 => Sys2Proof.Machine.execLd pm lsid ty imm t1 s
  | .st pm lsid ty imm => Sys2Proof.Machine.execSt pm lsid ty imm s
  | .pld pm lsid ty imm t1 => Sys2Proof.Machine.execPld pm lsid ty imm t1 s
  | .pst pm lsid ty imm => Sys2Proof.Machine.execPst pm lsid ty imm s
  | .amo pm lsid op imm t1 => Sys2Proof.Machine.execAmo pm lsid op imm t1 s
  | .cas pm lsid ty imm t1 => Sys2Proof.Machine.execCas pm lsid ty imm t1 s
  | .cin pm tag clo t1 => Sys2Proof.Machine.execCin pm tag clo t1 s
  | .cout pm tag clo t1 => Sys2Proof.Machine.execCout pm tag clo t1 s
  | .cgath pm tag clo t1 => Sys2Proof.Machine.execCgath pm tag clo t1 s
  | .cscat pm tag clo t1 => Sys2Proof.Machine.execCscat pm tag clo t1 s
  | .cbank pm tag clo t1 => Sys2Proof.Machine.execCbank pm tag clo t1 s
  | .cfill pm tag clo t1 => Sys2Proof.Machine.execCfill pm tag clo t1 s
  | .wtany pm ex off => Sys2Proof.Machine.execWtany pm ex off s
  | .wtall pm ex off => Sys2Proof.Machine.execWtall pm ex off s
  | .tagff pm clr t1 t2 => Sys2Proof.Machine.execTagff pm clr t1 t2 s
  | .tagclr pm t1 t2 => Sys2Proof.Machine.execTagclr pm t1 t2 s
  | .wcnt pm ex off => Sys2Proof.Machine.execWcnt pm ex off s
  | .bfmt pm bank fmt t1 => Sys2Proof.Machine.execBfmt pm bank fmt t1 s
  | .palloc pm cxl k t1 => Sys2Proof.Machine.execPalloc pm cxl k t1 s
  | .pfree pm k t1 => Sys2Proof.Machine.execPfree pm k t1 s
  | .lsplit pm k t1 => Sys2Proof.Machine.execLsplit pm k t1 s
  | .lgive pm k t1 => Sys2Proof.Machine.execLgive pm k t1 s
  | .seal pm k t1 => Sys2Proof.Machine.execSeal pm k t1 s
  | .unseal pm ex k off => Sys2Proof.Machine.execUnseal pm ex k off s
  | .shopen pm t1 t2 => Sys2Proof.Machine.execShopen pm t1 t2 s
  | .shclose pm t1 t2 => Sys2Proof.Machine.execShclose pm t1 t2 s
  | .lbase pm field shelf k t1 => Sys2Proof.Machine.execLbase pm field shelf k t1 s
  | .spawn pm share region banks c t1 => Sys2Proof.Machine.execSpawn pm share region banks c t1 s
  | .retire pm ex => Sys2Proof.Machine.execRetire pm ex s
  | .yield pm ex off => Sys2Proof.Machine.execYield pm ex off s
  | .sleep pm ex off => Sys2Proof.Machine.execSleep pm ex off s
  | .gang pm ex shape off => Sys2Proof.Machine.execGang pm ex shape off s
  | .split pm ex off => Sys2Proof.Machine.execSplit pm ex off s
  | .meet pm ex off => Sys2Proof.Machine.execMeet pm ex off s
  | .gather pm ex op off => Sys2Proof.Machine.execGather pm ex op off s
  | .part pm ex off => Sys2Proof.Machine.execPart pm ex off s
  | .xrd pm cls t1 t2 => Sys2Proof.Machine.execXrd pm cls t1 t2 s
  | .cenv pm t1 => Sys2Proof.Machine.execCenv pm t1 s
  | .cput pm mode w t1 => Sys2Proof.Machine.execCput pm mode w t1 s
  | .cdrop c => Sys2Proof.Machine.execCdrop c s
  | .envrd pm lsid ty w t1 => Sys2Proof.Machine.execEnvrd pm lsid ty w t1 s
  | .envwr pm lsid ty w => Sys2Proof.Machine.execEnvwr pm lsid ty w s
  | .apply pm ex c => Sys2Proof.Machine.execApply pm ex c s
  | .vapply pm ex m off => Sys2Proof.Machine.execVapply pm ex m off s
  | .mfuse pm mode t1 => Sys2Proof.Machine.execMfuse pm mode t1 s
  | .mwload pm sparse t1 => Sys2Proof.Machine.execMwload pm sparse t1 s
  | .mwswap pm t1 => Sys2Proof.Machine.execMwswap pm t1 s
  | .mstream pm zb ow tile t1 => Sys2Proof.Machine.execMstream pm zb ow tile t1 s
  | .mstore pm tile t1 => Sys2Proof.Machine.execMstore pm tile t1 s
  | .mrel pm mask t1 => Sys2Proof.Machine.execMrel pm mask t1 s
  | .mwait pm t1 t2 => Sys2Proof.Machine.execMwait pm t1 t2 s
  | .mldacc pm i32 tile t1 => Sys2Proof.Machine.execMldacc pm i32 tile t1 s
  | .srd pm num t1 => Sys2Proof.Machine.execSrd pm num t1 s
  | .swr pm num t1 => Sys2Proof.Machine.execSwr pm num t1 s
  | .tlbinv pm kind t1 t2 => Sys2Proof.Machine.execTlbinv pm kind t1 t2 s
  | .scrub pm t1 => Sys2Proof.Machine.execScrub pm t1 s
  | .killq pm t1 t2 => Sys2Proof.Machine.execKillq pm t1 t2 s
  | .resume pm mode t1 t2 => Sys2Proof.Machine.execResume pm mode t1 t2 s
  | .hcall pm ex off => Sys2Proof.Machine.execHcall pm ex off s
  | .vadd pm ty t1 t2 => Sys2Proof.Machine.execVadd pm ty t1 t2 s
  | .vsub pm ty t1 t2 => Sys2Proof.Machine.execVsub pm ty t1 t2 s
  | .vmul pm ty t1 t2 => Sys2Proof.Machine.execVmul pm ty t1 t2 s
  | .vfma pm ty t1 t2 => Sys2Proof.Machine.execVfma pm ty t1 t2 s
  | .vmin pm ty t1 t2 => Sys2Proof.Machine.execVmin pm ty t1 t2 s
  | .vmax pm ty t1 t2 => Sys2Proof.Machine.execVmax pm ty t1 t2 s
  | .vcmp pm ty cond t1 => Sys2Proof.Machine.execVcmp pm ty cond t1 s
  | .vlogic pm ty fn t1 => Sys2Proof.Machine.execVlogic pm ty fn t1 s
  | .vshift pm ty kind var amount t1 => Sys2Proof.Machine.execVshift pm ty kind var amount t1 s
  | .vcvt pm src dst part t1 => Sys2Proof.Machine.execVcvt pm src dst part t1 s
  | .vld pm lsid ty mode t1 => Sys2Proof.Machine.execVld pm lsid ty mode t1 s
  | .vst pm lsid ty mode => Sys2Proof.Machine.execVst pm lsid ty mode s
  | .vred pm ty fn t1 => Sys2Proof.Machine.execVred pm ty fn t1 s
  | .vperm pm ty fn sh t1 => Sys2Proof.Machine.execVperm pm ty fn sh t1 s
  | .vspec pm ty fn t1 => Sys2Proof.Machine.execVspec pm ty fn t1 s
  | .blockStart a => Sys2Proof.Machine.execBlockStart a s
  | .blockCommit a => Sys2Proof.Machine.execBlockCommit a s
  | .blockFault a => Sys2Proof.Machine.execBlockFault a s
  | .copyComplete a tag => Sys2Proof.Machine.execCopyComplete a tag s
  | .translationWalk fn acre va => Sys2Proof.Machine.execTranslationWalk fn acre va s
  | .matrixCommandStart a idx early => Sys2Proof.Machine.execMatrixCommandStart a idx early s
  | .matrixCommandComplete a idx => Sys2Proof.Machine.execMatrixCommandComplete a idx s
  | .launch fn q => Sys2Proof.Machine.execLaunch fn q s
  | .dispatch die => Sys2Proof.Machine.execDispatch die s
  | .writeBack a => Sys2Proof.Machine.execWriteBack a s
  | .priorityAging a => Sys2Proof.Machine.execPriorityAging a s
  | .gangReservation a => Sys2Proof.Machine.execGangReservation a s
  | .retireEffect a => Sys2Proof.Machine.execRetireEffect a s
  | .killFinish k => Sys2Proof.Machine.execKillFinish k s
  | .sleepDeadline a => Sys2Proof.Machine.execSleepDeadline a s
  | .meetArrival msg => Sys2Proof.Machine.execMeetArrival msg s
  | .gatherArrival msg => Sys2Proof.Machine.execGatherArrival msg s
  | .meetExpiry fn key => Sys2Proof.Machine.execMeetExpiry fn key s
  | .gatherExpiry fn key party => Sys2Proof.Machine.execGatherExpiry fn key party s
  | .deskKill msg => Sys2Proof.Machine.execDeskKill msg s
  | .pairPlacement fn key => Sys2Proof.Machine.execPairPlacement fn key s
  | .travelArrival meeting => Sys2Proof.Machine.execTravelArrival meeting s
  | .landingNotice msg => Sys2Proof.Machine.execLandingNotice msg s
  | .partLanding a => Sys2Proof.Machine.execPartLanding a s
  | .preemptionRequest fn why => Sys2Proof.Machine.execPreemptionRequest fn why s
  | .preemptAbortDeadline fn => Sys2Proof.Machine.execPreemptAbortDeadline fn s
  | .preemptSave fn => Sys2Proof.Machine.execPreemptSave fn s
  | .sliceEnd group => Sys2Proof.Machine.execSliceEnd group s
  | .scheduleLaunch entry => Sys2Proof.Machine.execScheduleLaunch entry s
  | .vfCommit v => Sys2Proof.Machine.execVfCommit v s
  | .vfCommitDone v => Sys2Proof.Machine.execVfCommitDone v s
  | .vfSave v => Sys2Proof.Machine.execVfSave v s
  | .vfRestore v => Sys2Proof.Machine.execVfRestore v s
  | .scrubClearDone => Sys2Proof.Machine.execScrubClearDone s
  | .doorbell h q value => Sys2Proof.Machine.execDoorbell h q value s
  | .loanAllocate h word => Sys2Proof.Machine.execLoanAllocate h word s
  | .loanFree h word => Sys2Proof.Machine.execLoanFree h word s
  | .podCatalogueWrite h entry value => Sys2Proof.Machine.execPodCatalogueWrite h entry value s
  | .hostWindowWrite h off data => Sys2Proof.Machine.execHostWindowWrite h off data s
  | .hostWindowRead h off len => Sys2Proof.Machine.execHostWindowRead h off len s
  | .flitReceive link flit => Sys2Proof.Machine.execFlitReceive link flit s
  | .linkReplay link seq => Sys2Proof.Machine.execLinkReplay link seq s
  | .laneRetrainCommand link => Sys2Proof.Machine.execLaneRetrainCommand link s
  | .endToEndAck dst seq => Sys2Proof.Machine.execEndToEndAck dst seq s
  | .messageRetry dst seq link => Sys2Proof.Machine.execMessageRetry dst seq link s
  | .ptpMessage time => Sys2Proof.Machine.execPtpMessage time s
  | .cxlPortDown port => Sys2Proof.Machine.execCxlPortDown port s
  | .powerMeasure otherDraw demand => Sys2Proof.Machine.execPowerMeasure otherDraw demand s
  | .coreGate core => Sys2Proof.Machine.execCoreGate core s
  | .droop acre => Sys2Proof.Machine.execDroop acre s
  | .thermalEvent sensor milliC => Sys2Proof.Machine.execThermalEvent sensor milliC s
  | .thermalThrottleStep acre => Sys2Proof.Machine.execThermalThrottleStep acre s
  | .fatalError unit loc => Sys2Proof.Machine.execFatalError unit loc s
  | .correctedError unit loc wholeDevice => Sys2Proof.Machine.execCorrectedError unit loc wholeDevice s
  | .uncorrectedError unit loc => Sys2Proof.Machine.execUncorrectedError unit loc s
  | .regulatorPhaseFail acre phase => Sys2Proof.Machine.execRegulatorPhaseFail acre phase s
  | .patrolScrub => Sys2Proof.Machine.execPatrolScrub s
  | .patrolScrubEnable => Sys2Proof.Machine.execPatrolScrubEnable s
  | .patrolScrubDisable => Sys2Proof.Machine.execPatrolScrubDisable s
  | .coldReset cfg => Sys2Proof.Machine.execColdReset cfg s
  | .warmReset cfg => Sys2Proof.Machine.execWarmReset cfg s
  | .firmwareImage stages => Sys2Proof.Machine.execFirmwareImage stages s
  | .attestationRequest nonce => Sys2Proof.Machine.execAttestationRequest nonce s
  | .keyExport v report => Sys2Proof.Machine.execKeyExport v report s
  | .keyImport slot blob => Sys2Proof.Machine.execKeyImport slot blob s
  | .keyImportExpiry slot => Sys2Proof.Machine.execKeyImportExpiry slot s
  | .blackboxRead ring index => Sys2Proof.Machine.execBlackboxRead ring index s
  | .blackboxUnfreeze => Sys2Proof.Machine.execBlackboxUnfreeze s
  | .linkRetrainDone link lanesGood => Sys2Proof.Machine.execLinkRetrainDone link lanesGood s
  | .droopRecovery acre stretched => Sys2Proof.Machine.execDroopRecovery acre stretched s
  | .cxlPortUp port => Sys2Proof.Machine.execCxlPortUp port s
  | .pageRetirementDone page => Sys2Proof.Machine.execPageRetirementDone page s

end Sys2Proof.Machine
end

