-- ==== Sys2Proof/Machine/Drive.lean ====
section
/-!
DEFINITION. What moves next: the moves of the agenda, the operations of the %vf group that an SWR has started, and, where
the agenda is empty, the model's own order, which takes every activity and every event of the device in turn. The spec
leaves the order open wherever the agenda may choose it (R219, R238, R342, R351); `Step.lean` calls what stands here.
-/
namespace Sys2Proof.Machine

/-! ### Single moves -/

/-- The instruction of a slot of an activity's block in flight. -/
def State.slotInstr (s : State) (a : Aid) (k : Nat) : Option Instr :=
  match s.act a with
  | none => none
  | some x =>
    match x.flight with
    | none => none
    | some f => f.instr k

/-- The state in which a slot fires: it is selected, and its activity is the one that issued last on its core (R353). -/
def State.issuing (s : State) (a : Aid) (k : Nat) : State :=
  let t : State := match s.act a with
    | some x => (match x.place with | some p => s.modCore p.core fun c => { c with last := some a } | none => s)
    | none => s
  { t with cur := some (a, k) }

/-- The activities of a core in the order of issue (R353): by slot, starting after the one that issued last. -/
def State.issueOrder (s : State) (core : Nat) : List Aid :=
  let here := (upFrom 0 Config.coreSlots).flatMap fun k =>
    (s.acts.filter fun x => x.place == some ⟨core, k⟩).map (·.id)
  match (s.core core).last with
  | none => here
  | some a => let i := here.idxOf a + 1; here.drop i ++ here.take i

/-- The slots whose tokens a slot has waited for, its predicate and its fourth operand included. -/
def Flight.senders (f : Flight) (k : Nat) : List Nat :=
  let from_ (j : Nat) (o : Opnd) : List Nat := (((f.slot j).ins.find? fun a => a.1 == o).map (·.2.1)).toList
  match f.instr k with
  | none => []
  | some i =>
    (f.needs k i ++ if (predReq i).isSome then [Opnd.p] else []).flatMap (from_ k) ++
      (if f.fourth k then from_ (k - 1) .l else [])

/-- A slot that waits for no token has been able to fire since the start of the execution (R374). -/
def Flight.fromStart (f : Flight) (k : Nat) : Bool :=
  match f.instr k with
  | none => false
  | some i => (predReq i).isNone && (f.needs k i).isEmpty && !f.fourth k

/-- Whether a slot of an activity's block in flight fires now. -/
def State.canFire (s : State) (a : Aid) (k : Nat) : Bool :=
  match s.slotInstr a k with
  | none => false
  | some i => (match exec i (s.issuing a k) with | .next _ => true | _ => false)

/-- Whether a slot must let a lower one of its block go first (R374, R375): one that can fire and that has waited for
no other slots than it has, so that it was ready no later. -/
def State.lowerFirst (s : State) (a : Aid) (f : Flight) (k : Nat) : Bool :=
  (upFrom 0 k).any fun j => (f.slot j).status == .notYet && (f.senders j).all (f.senders k).contains && s.canFire a j

/-- Whether an activity must let another go first (R353, R375): one before it in the order of issue of its core that has
a slot which has been able to fire since the start of its block. -/
def State.othersFirst (s : State) (a : Aid) : Bool :=
  match (s.act a).bind fun x => x.place with
  | none => false
  | some p => ((s.issueOrder p.core).takeWhile (· != a)).any fun b =>
      match (s.act b).bind fun y => y.flight with
      | none => false
      | some g => (upFrom 0 g.words.length).any fun j =>
          (g.slot j).status == .notYet && g.fromStart j && s.canFire b j

/-- Whether a slot must wait for its turn (R353, R374, R375). -/
def State.outOfTurn (s : State) (a : Aid) (k : Nat) : Bool :=
  match (s.act a).bind fun x => x.flight with
  | none => false
  | some f => s.lowerFirst a f k || s.othersFirst a

/-- Fires one slot (R211): the decoded instruction of the slot runs. On a stopped core nothing fires (R419), and no slot
out of its turn (R353, R375). -/
def State.fire (s : State) (a : Aid) (k : Nat) : Res :=
  match s.slotInstr a k with
  | none => .fault .notFiring
  | some i => if s.halted a || s.outOfTurn a k then .next s else exec i (s.issuing a k)

/-- The operation of the %vf group at the head of the queue (R388). -/
def vfEvent : VfOp × Nat → Instr
  | (.commit, v) => .vfCommit v
  | (.save, v) => .vfSave v
  | (.restore, v) => .vfRestore v

/-- The operation of the %vf group that acts next: the head of the queue, once every earlier one has finished (R388) and
no clearing covers a quadrant of the record that a commit reads (R329). Until then everything else goes on. -/
def State.vfNext (s : State) : Option Instr :=
  match s.vfPending with
  | [] => none
  | p :: _ =>
    let waits := s.vfBusy.isSome || (match p with
      | (.commit, v) => let r := vfRecOf (s.recBytes v); decide (v ≤ 16) && r.en && s.scrubs r
      | _ => false)
    if waits then none else some (vfEvent p)

/-- The first slot of a list that fires. -/
def State.firstFiring (s : State) (a : Aid) (ks : List Nat) : Option State :=
  ks.findSome? fun k => match s.fire a k with | .next t => some t | _ => none

/-- The state that a meaning answers, or the state itself. -/
def nextOr (s : State) : Res → State
  | .next t => t
  | _ => s

/-- The number of an activity's execution. -/
def State.flightSeq (s : State) (a : Aid) : Option Nat := ((s.act a).bind fun x => x.flight).map (·.seq)

/-- One step of an activity's execution: it starts its block, fires its lowest ready slot (R375), or ends its execution.
-/
def State.runOne (s : State) (a : Aid) : State :=
  match s.act a with
  | none => s
  | some x =>
    let lead : Aid := match x.gang with | some (n, _) => ⟨a.fn, n⟩ | none => a
    match x.flight with
    | none => nextOr s (exec (.blockStart lead) s)
    | some f =>
      let ks := (upFrom 0 f.words.length).filter fun k => match f.instr k with
        | some i => (match f.ready k i true with | .fire | .fireNull => true | _ => false)
        | none => false
      match (if s.halted a then none else s.firstFiring a ks) with
      | some t => t
      | none =>
        let t : State := nextOr s (exec (.blockCommit lead) s)
        if t.flightSeq lead == s.flightSeq lead then nextOr s (exec (.blockFault lead) s) else t

/-- The next step of a core's block engine: the first activity in the order of issue that can go on does. -/
def State.issueOne (s : State) (core : Nat) : State :=
  ((s.issueOrder core).findSome? fun a => let t := s.runOne a; if t = s then none else some t).getD s

/-- One move. A `clock` lets device time pass; an `element` is one early element of a copy command. -/
def State.move (s : State) : Move → Res
  | .event i => exec i s
  | .issue c => .next (s.issueOne c)
  | .run a => .next (s.runOne a)
  | .slot a k => s.fire a k
  | .element a tag k => .next (s.earlyElement a tag k)
  | .clock ns => .next (s.advance ns)

/-! ### The model's own order -/

/-- The moves of one activity. -/
def State.actMoves (s : State) (x : Act) : List Move :=
  let ev (l : List Instr) : List Move := l.map .event
  ev (x.copies.map fun c => .copyComplete x.id c.tag) ++
  (match s.gangOf x with
    | some g => if memberOf x = 0 then
        ev (g.cmds.flatMap fun m => [.matrixCommandComplete x.id m.idx, .matrixCommandStart x.id m.idx false]) else []
    | none => []) ++
  ev (if x.retiring then [.retireEffect x.id] else []) ++
  ev (if x.reshape.isSome then [.gangReservation x.id] else []) ++
  ev (match x.wkind with
    | .sleep => [.sleepDeadline x.id]
    | .part => [.partLanding x.id]
    | _ => []) ++
  ev (if x.place.isSome && x.wkind != .none then [.writeBack x.id] else []) ++
  ev (if x.run == .ready then [.priorityAging x.id] else [])

/-- The moves of a message. -/
def Msg.moves (m : Msg) : List Move :=
  match m.kind with
  | .meetArrival .. => [.event (.meetArrival m.seq)]
  | .gatherArrival .. => [.event (.gatherArrival m.seq)]
  | .kill .. => [.event (.deskKill m.seq)]
  | .landing .. => [.event (.landingNotice m.seq)]

/-- The moves of a desk. -/
def Desk.moves (d : Desk) : List Move :=
  match d.st with
  | .meeting _ _ => [.event (.meetExpiry d.fn d.key), .event (.pairPlacement d.fn d.key)]
  | .gathering _ (some r) => r.parties.map fun p => .event (.gatherExpiry d.fn d.key p.id)
  | .gathering _ none => []

/-- The moves of a function: pre-emption, launches. -/
def State.fnMoves (s : State) (v : Nat) : List Move :=
  let f := s.fn v
  if !f.cfg.en then []
  else
    (if f.preempt.isSome then [.event (.preemptAbortDeadline v), .event (.preemptSave v)] else []) ++
    ((upFrom 0 f.cfg.lqcount).filter fun q => f.prod.getD q 0 != f.cons.getD q 0).map fun q => .event (.launch v q)

/-- Every move that the device itself makes. -/
def State.ownMoves (s : State) : List Move :=
  let ev (l : List Instr) : List Move := l.map .event
  ((s.acts.filterMap fun x => x.place.map (·.core)).eraseDups.map fun c => .issue c) ++ s.acts.flatMap s.actMoves ++ s.msgs.flatMap Msg.moves ++ s.desks.flatMap Desk.moves ++
  ev (s.meetings.map fun m => .travelArrival m.num) ++
  (upFrom 0 17).flatMap s.fnMoves ++
  ev ((upFrom 0 4).map fun d => .dispatch d) ++
  ev (s.kills.map fun k => .killFinish k.target) ++
  ev (if s.scrub.isSome then [.scrubClearDone] else []) ++
  ev (match s.vfBusy with | some (_, v) => [.vfCommitDone v] | none => []) ++
  ev ((upFrom 1 15).map fun g => .sliceEnd g) ++
  ev (if (s.fn 0).cfg.lstab = 0 then [] else (upFrom 0 256).map fun e => .scheduleLaunch e) ++
  ev (s.retiring.map fun r => .pageRetirementDone r.1) ++
  ev (s.sec.imports.map fun i => .keyImportExpiry i.1) ++
  ev (s.acres.map fun a => .thermalThrottleStep a.num) ++
  ev (s.kept.flatMap fun k => (upFrom 0 s.links.length).map fun n => .messageRetry k.dst k.seq n) ++
  ev (((upFrom 0 s.links.length).filter fun n => match s.link n with | some l => l.training | none => false).map fun n =>
    .linkRetrainDone n (match s.link n with | some l => l.limit | none => 0))

/-- The times that the device waits for. -/
def State.deadlines (s : State) : List Nat :=
  let party (p : Party) : List Nat := p.deadline.toList
  (s.acts.filter fun x => x.wkind == .sleep).map (·.wop) ++
  (s.acts.filter fun x => x.reshape.isSome).map (·.retryAt) ++
  (s.acts.filter fun x => x.place.isSome && x.wkind != .none).map (fun x => x.waitFrom + 2001) ++
  s.desks.flatMap (fun d => match d.st with
    | .meeting f _ => f.toList.flatMap party
    | .gathering _ (some r) => r.parties.flatMap party
    | .gathering _ none => []) ++
  s.funcs.flatMap (fun f => (if f.cfg.group = 0 then [] else [f.sliceFrom + f.sliceLen]) ++
    match f.preempt with | some p => [p.since + 4000] | none => []) ++
  (s.sched.filter (·.on)).map (fun e => s.schedGet e.entry 0x30) ++
  s.kept.map (fun k => k.sentAt + 20000) ++ s.sec.imports.map (fun i => i.2.2 + 10000000000) ++ s.acres.map (·.nextStep) ++
  ((s.base :: s.cores).filter fun c => !c.gated).map fun c => c.idleFrom + 50000

/-- The first of a list of moves that changes the state, with its place counted from `k`. -/
def State.firstChange (s : State) : Nat → List Move → Option (Nat × State)
  | _, [] => none
  | k, m :: ms =>
    match s.move m with
    | .next t => if t = s then s.firstChange (k + 1) ms else some (k, t)
    | _ => s.firstChange (k + 1) ms

/-- The model's own order: cores that are due gate at once; then the moves in turn from where the last one left off, a
nanosecond each; with none to make, time goes on to the next deadline; with none to wait for, nothing changes. -/
def State.auto (s : State) : State :=
  if s.gateDue then s.gateIdle
  else
    let ms := s.ownMoves
    let k := s.turn % Nat.max ms.length 1
    match s.firstChange k (ms.drop k ++ ms.take k) with
    | some (j, t) => { t.advance 1 with turn := j + 1 }
    | none =>
      match (s.deadlines.filter fun d => decide (s.time < d)).min? with
      | some d => s.advance (d - s.time)
      | none => s

/-! ### Placing one instruction as the next to fire -/

/-- The activity whose block in flight holds the word. Serial 0 names no activity of the spec's (R9). -/
def fetchAid : Aid := ⟨0, 0⟩

/-- The token that an instruction's operand has received: a predicate that lets it fire, an empty handle for a WR of
class C, else the scalar 0. -/
def tokenFor (i : Instr) (o : Opnd) : Token :=
  match o with
  | .p => (match predReq i with
    | some (some false) => .scalar 0
    | _ => .scalar 1)
  | _ => (match i with
    | .wr .c _ => .handle Handle.none
    | _ => .scalar 0)

/-- The slot that holds the word, its operands arrived from slot 0. -/
def slotFor (w : Word32) : SlotSt :=
  match decodeWord w with
  | .error _ => ⟨[], .notYet, [], .none⟩
  | .ok i =>
    let ops := dataOps i ++ (match predReq i with | some _ => [Opnd.p] | none => [])
    ⟨ops.map fun o => (o, 0, tokenFor i o), .notYet, [], .none⟩

/-- The block in flight: its slot 0 is a MOV that has fired, slot 1 holds the word. -/
def flightFor (w : Word32) : Flight :=
  ⟨0, 0, [], [0x0603FFFF, w], [⟨[], .done, [], .none⟩, slotFor w], 0⟩

/-- A running activity of the physical function with that block in flight. -/
def actFor (w : Word32) : Act :=
  { Act.fresh fetchAid 0 0 1 Config.noHint with
    run := .running, weight := 1, place := some ⟨0, 0⟩, flight := some (flightFor w) }

/-- The core on which that activity runs executes: a stopped clock (R419) is set going. -/
def State.startClock (s : State) (c : Nat) : State :=
  if (s.core c).divider = 0 then s.modCore c fun k => { k with divider := 8 } else s

/-- The issue turn of a core comes back to its first slot (R353). -/
def State.firstTurn (s : State) (c : Nat) : State :=
  if (s.core c).last.isSome then s.modCore c fun k => { k with last := none } else s

/-- The state in which the word is the next instruction to fire. -/
def State.placeWord (s : State) (w : Word32) : State :=
  { (s.startClock 0).firstTurn 0 with
    acts := actFor w :: s.acts.filter fun x => x.id != fetchAid
    vfPending := []
    agenda := [.slot fetchAid 1] }

end Sys2Proof.Machine
end

