-- ==== Sys2Proof/Machine/Step.lean ====
section
/-!
DEFINITION. One step of the part: one slot fires, one device event happens, or time passes.
-/
namespace Sys2Proof.Machine

/-- What a step adds to a meaning: cores whose last activity left are idle from now on (R420). -/
def after (s : State) : Host.Outcome State Fault Refusal → Host.Outcome State Fault Refusal
  | .next t => .next (s.noteIdle t)
  | .fault f => .fault f
  | .refused r => .refused r

/-- One step. A commit, save or restore that an SWR has started acts first, once it may (R388); then the agenda's next
move; with an empty agenda, the model's own order. -/
def step (s : State) : Host.Outcome State Fault Refusal :=
  match s.vfNext with
  | some i => after s (exec i s)
  | none =>
    match s.agenda with
    | m :: rest => after s (({ s with agenda := rest } : State).move m)
    | [] => after s (.next s.auto)

/-- The state in which the given instruction is the next to fire: it stands in slot 1 of a block in flight, its operands
have arrived, and the agenda fires it. -/
def State.withFetchWord (s : State) (_nbits w : Nat) : State := s.placeWord (BitVec.ofNat 32 w)

end Sys2Proof.Machine
end

