-- ==== Sys2Proof/Safety.lean ====
section
/-!
DEFINITION. What counts as a safe run, and the terms in which statements about the machine are made: a slot that is
selected to fire, the state after it has fired, what an execution leaves committed, and the canonical form of memory.
-/
namespace Sys2Proof.Machine

/-! ### Firing -/

/-- The slot that `c` describes is selected, holds instruction `i`, has every token it waits for, none of them null, and
its predicate holds (R211). -/
structure Selected (s : State) (i : Instr) (c : Ctx) : Prop where
  ctx   : s.ctx i = some c
  ready : c.fl.ready c.k i true = .fire

/-- The same with a null token among those that arrived: the slot fires null (R213). -/
structure SelectedNull (s : State) (i : Instr) (c : Ctx) : Prop where
  ctx   : s.ctx i = some c
  ready : ∀ b, c.fl.ready c.k i b = .fireNull

/-- A block in flight whose slot `k` has fired: token `a` is sent to its first target, `b` to its second. -/
def Flight.fire (f : Flight) (k : Nat) (i : Instr) (a b : Token) (e : Effect) (reads : List (Nat × Byte)) : Flight :=
  (f.modSlot k fun sl => { sl with status := .done, eff := e, reads := reads }).sendAll k i a b

/-- The state in which an activity's block in flight is `fl`; reserved environments that nothing holds any more are
released (R277). -/
def State.withFlight (s : State) (c : Ctx) (fl : Flight) : State :=
  let t := ({ s with cur := none } : State).setFlight c.x.id fl
  match t.act c.x.id with
  | none => t
  | some y => t.sweepReserved y

/-- After a slot has fired: token `a` goes to its first target, `b` to its second, `e` is what it will do at the
commit (R216), `reads` the memory bytes it read. Loads that it changes fire again (R132, R219). -/
def State.fired (s : State) (c : Ctx) (a b : Token) (e : Effect) (reads : List (Nat × Byte)) : State :=
  s.withFlight c ((c.fl.fire c.k c.i a b e reads).refire (s.baseByte c.x) c.k c.i e)

/-- After a slot that only sends tokens. -/
abbrev State.sends (s : State) (c : Ctx) (a b : Token) : State := s.fired c a b .none []

/-- After a slot that sends the scalar `w` to every target. -/
abbrev State.sendsWord (s : State) (c : Ctx) (w : Word) : State := s.sends c (.scalar w) (.scalar w)

/-- After a slot that sends a token and will act at the commit (R216). -/
abbrev State.records (s : State) (c : Ctx) (a : Token) (e : Effect) : State := s.fired c a a e []

/-- After a slot that chose an exit. -/
abbrev State.exits (s : State) (c : Ctx) (e : Exit) : State := s.records c .null (.exit e)

/-- After a load: what it sent and the bytes it read. -/
abbrev State.loads (s : State) (c : Ctx) (a : Token) (reads : List (Nat × Byte)) : State := s.fired c a a .none reads

/-- After a store or atomic operation: the bytes wait for the commit. -/
abbrev State.stores (s : State) (c : Ctx) (a : Token) (partner : Bool) (data reads : List (Nat × Byte)) : State :=
  s.fired c a a (.store partner data) reads

/-- After a slot that fired null (R213): it sent null to its targets; loads that read the bytes of a store so withdrawn
fire again (R219). -/
def State.nulls (s : State) (c : Ctx) : State :=
  let fl := (c.fl.modSlot c.k fun sl => { sl with status := .nulled, eff := .none }).sendAll c.k c.i .null .null
  ({ s with cur := none } : State).setFlight c.x.id (fl.afterNull (s.baseByte c.x) c.k c.i)

/-- After a slot that raised a fault: the fault waits for the end of the block (R217); a store that had fired before a
replay took it back does not perform (R219). -/
def State.slotFault (s : State) (c : Ctx) (e : Flt) : State :=
  ({ s with cur := none } : State).setFlight c.x.id (c.fl.fault (s.baseByte c.x) c.k e)

/-! ### The words of the rules -/

/-- The low half of a word (R245). -/
def lo32 (w : Word) : BitVec 32 := BitVec.extractLsb' 0 32 w

/-- A 32-bit result, sign-extended (R245). -/
def sx32 (v : BitVec 32) : Word := v.signExtend 64

/-- The signed quotient of R260. -/
def quotS {w : Nat} (a b : BitVec w) : BitVec w :=
  if b = 0 then BitVec.allOnes w else BitVec.ofInt w (a.toInt.tdiv b.toInt)

/-- The unsigned quotient of R260. -/
def quotU {w : Nat} (a b : BitVec w) : BitVec w :=
  if b = 0 then BitVec.allOnes w else BitVec.ofNat w (a.toNat / b.toNat)

/-- The physical register that a named one reaches (R224): S and V names 16 to 31 rotate in an iteration of a repeating
block by the stride in bits 26:24 of header word 2. -/
def Ctx.physical (c : Ctx) (cls : Cls) (reg : Nat) : Nat :=
  match c.x.rep with
  | none => reg
  | some (_, i) =>
    if (cls = .s ∨ cls = .v) ∧ 16 ≤ reg then 16 + ((reg - 16) + i * ((c.fl.hdr.getD 2 0).toNat / 2 ^ 24 % 8)) % 16
    else reg

/-- Whether a test of a combine type waits for its predicate, and the only value that lets it fire, if there is one
(R212). -/
def testWaits : Combine → Option (Option Bool)
  | .sole => none
  | .ift => some (some true)
  | .iff => some (some false)
  | .gate | .all | .any | .alln | .anyn => some none

/-- The two outputs of a test (R212): `p` is bit 0 of the predicate token, `v` the test's result. -/
def Ctx.testOut (c : Ctx) (ct : Combine) (v : Bool) : Bool × Bool :=
  let p := match c.pred with | some t => t.word.getLsbD 0 | none => false
  match ct with
  | .sole | .ift | .iff => (v, !v)
  | .gate => (p && v, p && !v)
  | .all => (p && v, !(p && v))
  | .any => (p || v, !(p || v))
  | .alln => (p && !v, !(p && !v))
  | .anyn => (p || !v, !(p || !v))

/-- The format that an access takes at an offset within a bank of format `f`: the part of a Q4N bank above its codes acts
as raw (R99). -/
def rawTail (f within : Nat) : Nat := if f = 9 ∧ 20480 ≤ within then 0 else f

/-- Operand `n` of a scalar float instruction: FP64, or FP32 in bits 31:0 (R272). -/
def Ctx.operand (c : Ctx) (f64 : Bool) (n : Nat) : Num :=
  if f64 then fp64.read (c.word n).toNat else fp32.read (c.word n).toNat

/-- An exact scalar result rounded once (R272); `c.rho 0` are the generator's bits for stochastic rounding (R158). -/
def Ctx.rounded (c : Ctx) (f64 : Bool) (rnd : Rnd) (x : Num) : Word :=
  BitVec.ofNat 64 (if f64 then fp64.round rnd false (c.rho 0) x else fp32.round rnd false (c.rho 0) x)

/-! ### Lanes (R199, R200, R313) -/

/-- A vector result lane by lane: `f` gives a lane from the values of the operands in it; a lane whose mask bit is clear
or in which an operand carries a lane null gives what R199 gives. -/
def Ctx.lanewise (c : Ctx) (ty : ETy) (ops : List Token) (f : Nat → (Nat → Num) → Nat) : Token :=
  ofLanes ty ((upFrom 0 ty.lanes).map fun k =>
    if c.maskBit k && ops.all (fun t => !nullLane ty t.nulls k) then
      some (f k fun n => if n < ops.length then laneNum ty (lane ty (ops.getD n .null).vec k) else .nan)
    else c.skip)

/-- The exact result of a lane, times the fourth operand, rounded to the type, or clamped or wrapped (R313). -/
def Ctx.laneResult (c : Ctx) (ty : ETy) (k : Nat) (e : Num) : Nat :=
  let e := match c.fourth ty.isInt with | some q => e.mul q | none => e
  if ty.isInt then intBits ty.width (if c.sat then
      clampInt (intRange ty.isSigned ty.width).1 (intRange ty.isSigned ty.width).2 e.int else e.int)
  else ty.ffmt.round c.rnd c.sat (c.rho k) e

/-- The bits of an exact lane value (R155). -/
def laneBits (ty : ETy) (e : Num) : Nat :=
  if ty.isInt then intBits ty.width e.int else ty.ffmt.round .rne false 0 e

/-! ### What a block has not yet committed, and what is committed -/

/-- An activity without its block in flight: everything committed. -/
def Act.committed (x : Act) : Act := { x with flight := none }

/-- The slots that change something outside their block in flight when they fire: reservations (R277, R291, R295, R305),
the read of a partner's closure (R304), the translation caches (R328), the set of a SCRUB (R329). -/
def actsAtOnce : Instr → Bool
  | .palloc .. | .spawn .. | .seal .. | .cenv .. | .xrd .. | .tlbinv .. | .scrub .. => true
  | _ => false

/-- The registers, loans, tags and carrel of an activity. -/
def Act.held (x : Act) := (x.id, x.s, x.v, x.m, x.l, x.sh, x.tags, x.tagerr, x.carrel, x.fmts, x.seed, x.resume)

/-! ### Memory -/

/-- Physical memory and every carrel keep their canonical form. -/
def State.memOk (s : State) : Bool := Memory.wf s.mem && s.acts.all fun x => Memory.wf x.carrel

/-- A run is safe while its memories are canonical and no step stops. -/
def State.Safe (s : State) : Prop := s.memOk = true ∧ ∃ t, step s = .next t

end Sys2Proof.Machine
end

