-- ==== Sys2Proof/Certificates/Slice0/Obligations.lean ====
section
/-!
DEFINITION. The statements for the provers. `Selected s i c` says that the slot described by `c` is the next to fire,
holds `i` and is ready; `c.word n` and `c.tok n` are its data tokens in the order l, r, x of the operands it uses.
-/
open Sys2Proof
open Sys2Proof.Machine

/-! ### Slots: registers, integers, tests, floats -/
/-- R224, R248, R249, R250, R251 and R268: RD sends the committed register it reaches (R362: one with a detected error
raises data error at the register's offset), WR keeps its token for the commit, MOV sends its token, NULL a null token,
GENI, GENU and GENC their constants, SEL the token x chooses. The model's choices: that RD raises the data error, where
R248 says that it raises nothing (assumption log 30), and the offset that the fault names (assumption log 13). -/
def Obligations.RegisterAndConstantSlots : Prop :=
  (∀ s c cls reg t1 t2, Selected s (.rd cls reg t1 t2) c →
    c.x.bad.contains (.register c.x.id cls (c.physical cls reg.toNat)) = false →
    exec (.rd cls reg t1 t2) s =
      let n := c.physical cls reg.toNat
      let t : Token := match cls with
        | .s => .scalar (c.x.s.toList.getD n 0)
        | .v => .vector (c.x.v.toList.getD n 0) 0
        | .m => .scalar (c.x.m.toList.getD n 0)
        | .c => .handle (c.x.c.toList.getD n Handle.none)
      .next (s.sends c t t)) ∧
  (∀ s c cls reg t1 t2, Selected s (.rd cls reg t1 t2) c →
    c.x.bad.contains (.register c.x.id cls (c.physical cls reg.toNat)) = true →
    exec (.rd cls reg t1 t2) s = .next (s.slotFault c
      ⟨.dataError, BitVec.ofNat 64 ((if cls = .v then 64 else 8) * c.physical cls reg.toNat), 0⟩)) ∧
  (∀ s c cls reg, Selected s (.wr cls reg) c →
    exec (.wr cls reg) s = .next (s.records c .null (.write cls (c.physical cls reg.toNat) (c.tok 0)))) ∧
  (∀ s c pm t1 t2, Selected s (.mov pm t1 t2) c →
    exec (.mov pm t1 t2) s = .next (s.sends c (c.tok 0) (c.tok 0))) ∧
  (∀ s c pm t1 t2, Selected s (.null pm t1 t2) c →
    exec (.null pm t1 t2) s = .next (s.sends c .null .null)) ∧
  (∀ s c pm imm t1, Selected s (.geni pm imm t1) c →
    exec (.geni pm imm t1) s = .next (s.sendsWord c (imm.signExtend 64))) ∧
  (∀ s c pm imm t1, Selected s (.genu pm imm t1) c →
    exec (.genu pm imm t1) s = .next (s.sendsWord c (imm.setWidth 64))) ∧
  (∀ s c pm imm t1, Selected s (.genc pm imm t1) c →
    exec (.genc pm imm t1) s = .next (s.sendsWord c ((c.word 0 <<< 13) ||| imm.setWidth 64))) ∧
  (∀ s c pm t1 t2, Selected s (.sel pm t1 t2) c →
    exec (.sel pm t1 t2) s =
      let t := if (c.tok 2).word.getLsbD 0 then c.tok 0 else c.tok 1
      .next (s.sends c t t))

/-- R257 and R258: the integer operations modulo 2^64; the 32-bit variants take the low halves and sign-extend; ADDI,
ANDI and ORI take the sign-extended immediate. -/
def Obligations.IntegerArithmeticSlots : Prop :=
  (∀ s c pm t1 t2, Selected s (.add pm false t1 t2) c →
    exec (.add pm false t1 t2) s = .next (s.sendsWord c (c.word 0 + c.word 1))) ∧
  (∀ s c pm t1 t2, Selected s (.add pm true t1 t2) c →
    exec (.add pm true t1 t2) s = .next (s.sendsWord c (sx32 (lo32 (c.word 0) + lo32 (c.word 1))))) ∧
  (∀ s c pm t1 t2, Selected s (.sub pm false t1 t2) c →
    exec (.sub pm false t1 t2) s = .next (s.sendsWord c (c.word 0 - c.word 1))) ∧
  (∀ s c pm t1 t2, Selected s (.sub pm true t1 t2) c →
    exec (.sub pm true t1 t2) s = .next (s.sendsWord c (sx32 (lo32 (c.word 0) - lo32 (c.word 1))))) ∧
  (∀ s c pm t1 t2, Selected s (.mul pm false t1 t2) c →
    exec (.mul pm false t1 t2) s = .next (s.sendsWord c (c.word 0 * c.word 1))) ∧
  (∀ s c pm t1 t2, Selected s (.mul pm true t1 t2) c →
    exec (.mul pm true t1 t2) s = .next (s.sendsWord c (sx32 (lo32 (c.word 0) * lo32 (c.word 1))))) ∧
  (∀ s c pm t1 t2, Selected s (.and pm false t1 t2) c →
    exec (.and pm false t1 t2) s = .next (s.sendsWord c (c.word 0 &&& c.word 1))) ∧
  (∀ s c pm t1 t2, Selected s (.and pm true t1 t2) c →
    exec (.and pm true t1 t2) s = .next (s.sendsWord c (sx32 (lo32 (c.word 0) &&& lo32 (c.word 1))))) ∧
  (∀ s c pm t1 t2, Selected s (.or pm false t1 t2) c →
    exec (.or pm false t1 t2) s = .next (s.sendsWord c (c.word 0 ||| c.word 1))) ∧
  (∀ s c pm t1 t2, Selected s (.or pm true t1 t2) c →
    exec (.or pm true t1 t2) s = .next (s.sendsWord c (sx32 (lo32 (c.word 0) ||| lo32 (c.word 1))))) ∧
  (∀ s c pm t1 t2, Selected s (.xor pm false t1 t2) c →
    exec (.xor pm false t1 t2) s = .next (s.sendsWord c (c.word 0 ^^^ c.word 1))) ∧
  (∀ s c pm t1 t2, Selected s (.xor pm true t1 t2) c →
    exec (.xor pm true t1 t2) s = .next (s.sendsWord c (sx32 (lo32 (c.word 0) ^^^ lo32 (c.word 1))))) ∧
  (∀ s c pm imm t1, Selected s (.addi pm imm t1) c →
    exec (.addi pm imm t1) s = .next (s.sendsWord c (c.word 0 + imm.signExtend 64))) ∧
  (∀ s c pm imm t1, Selected s (.andi pm imm t1) c →
    exec (.andi pm imm t1) s = .next (s.sendsWord c (c.word 0 &&& imm.signExtend 64))) ∧
  (∀ s c pm imm t1, Selected s (.ori pm imm t1) c →
    exec (.ori pm imm t1) s = .next (s.sendsWord c (c.word 0 ||| imm.signExtend 64)))

/-- R259 and R260: MULH sends the high half of the exact product under its signedness. DIV and REM at each width: a zero
divisor gives all ones and the dividend; −2^(W−1) by −1 gives the dividend and 0; otherwise the quotient rounds toward
zero and the remainder is a − q × b. No case faults. -/
def Obligations.MulhDivRemSlots : Prop :=
  (∀ s c pm t1 t2, Selected s (.mulh pm .ss t1 t2) c → exec (.mulh pm .ss t1 t2) s =
    .next (s.sendsWord c (BitVec.ofInt 64 ((c.word 0).toInt * (c.word 1).toInt / 2 ^ 64)))) ∧
  (∀ s c pm t1 t2, Selected s (.mulh pm .nn t1 t2) c → exec (.mulh pm .nn t1 t2) s =
    .next (s.sendsWord c (BitVec.ofNat 64 ((c.word 0).toNat * (c.word 1).toNat / 2 ^ 64)))) ∧
  (∀ s c pm t1 t2, Selected s (.mulh pm .sn t1 t2) c → exec (.mulh pm .sn t1 t2) s =
    .next (s.sendsWord c (BitVec.ofInt 64 ((c.word 0).toInt * (c.word 1).toNat / 2 ^ 64)))) ∧
  (∀ s c pm t1 t2, Selected s (.div pm .s64 t1 t2) c → exec (.div pm .s64 t1 t2) s =
    .next (s.sendsWord c (quotS (c.word 0) (c.word 1)))) ∧
  (∀ s c pm t1 t2, Selected s (.rem pm .s64 t1 t2) c → exec (.rem pm .s64 t1 t2) s =
    .next (s.sendsWord c (c.word 0 - quotS (c.word 0) (c.word 1) * c.word 1))) ∧
  (∀ s c pm t1 t2, Selected s (.div pm .n64 t1 t2) c → exec (.div pm .n64 t1 t2) s =
    .next (s.sendsWord c (quotU (c.word 0) (c.word 1)))) ∧
  (∀ s c pm t1 t2, Selected s (.rem pm .n64 t1 t2) c → exec (.rem pm .n64 t1 t2) s =
    .next (s.sendsWord c (c.word 0 - quotU (c.word 0) (c.word 1) * c.word 1))) ∧
  (∀ s c pm t1 t2, Selected s (.div pm .s32 t1 t2) c → exec (.div pm .s32 t1 t2) s =
    .next (s.sendsWord c (sx32 (quotS (lo32 (c.word 0)) (lo32 (c.word 1)))))) ∧
  (∀ s c pm t1 t2, Selected s (.rem pm .s32 t1 t2) c → exec (.rem pm .s32 t1 t2) s =
    .next (s.sendsWord c (sx32 (lo32 (c.word 0) - quotS (lo32 (c.word 0)) (lo32 (c.word 1)) * lo32 (c.word 1))))) ∧
  (∀ s c pm t1 t2, Selected s (.div pm .n32 t1 t2) c → exec (.div pm .n32 t1 t2) s =
    .next (s.sendsWord c (sx32 (quotU (lo32 (c.word 0)) (lo32 (c.word 1)))))) ∧
  (∀ s c pm t1 t2, Selected s (.rem pm .n32 t1 t2) c → exec (.rem pm .n32 t1 t2) s =
    .next (s.sendsWord c (sx32 (lo32 (c.word 0) - quotU (lo32 (c.word 0)) (lo32 (c.word 1)) * lo32 (c.word 1)))))

/-- R261 to R263: shifts by the low bits of r or by the immediate, MIN and MAX signed and unsigned at both widths, and
EXT. -/
def Obligations.ShiftMinMaxExtSlots : Prop :=
  (∀ s c pm t1 t2, Selected s (.shl pm false t1 t2) c → exec (.shl pm false t1 t2) s =
    .next (s.sendsWord c (c.word 0 <<< ((c.word 1).toNat % 64)))) ∧
  (∀ s c pm t1 t2, Selected s (.shl pm true t1 t2) c → exec (.shl pm true t1 t2) s =
    .next (s.sendsWord c (sx32 (lo32 (c.word 0) <<< ((c.word 1).toNat % 32))))) ∧
  (∀ s c pm t1 t2, Selected s (.shr pm false t1 t2) c → exec (.shr pm false t1 t2) s =
    .next (s.sendsWord c (c.word 0 >>> ((c.word 1).toNat % 64)))) ∧
  (∀ s c pm t1 t2, Selected s (.shr pm true t1 t2) c → exec (.shr pm true t1 t2) s =
    .next (s.sendsWord c (sx32 (lo32 (c.word 0) >>> ((c.word 1).toNat % 32))))) ∧
  (∀ s c pm t1 t2, Selected s (.sha pm false t1 t2) c → exec (.sha pm false t1 t2) s =
    .next (s.sendsWord c ((c.word 0).sshiftRight ((c.word 1).toNat % 64)))) ∧
  (∀ s c pm t1 t2, Selected s (.sha pm true t1 t2) c → exec (.sha pm true t1 t2) s =
    .next (s.sendsWord c (sx32 ((lo32 (c.word 0)).sshiftRight ((c.word 1).toNat % 32))))) ∧
  (∀ s c pm kind amount t1, Selected s (.shi pm kind false amount t1) c → exec (.shi pm kind false amount t1) s =
    .next (s.sendsWord c (match kind with
      | .shl => c.word 0 <<< amount.toNat
      | .shr => c.word 0 >>> amount.toNat
      | .sha => (c.word 0).sshiftRight amount.toNat))) ∧
  (∀ s c pm kind amount t1, Selected s (.shi pm kind true amount t1) c → exec (.shi pm kind true amount t1) s =
    .next (s.sendsWord c (sx32 (match kind with
      | .shl => lo32 (c.word 0) <<< amount.toNat
      | .shr => lo32 (c.word 0) >>> amount.toNat
      | .sha => (lo32 (c.word 0)).sshiftRight amount.toNat)))) ∧
  (∀ s c pm t1 t2, Selected s (.min pm false false t1 t2) c → exec (.min pm false false t1 t2) s =
    .next (s.sendsWord c (BitVec.ofInt 64 (Min.min (c.word 0).toInt (c.word 1).toInt)))) ∧
  (∀ s c pm t1 t2, Selected s (.max pm false false t1 t2) c → exec (.max pm false false t1 t2) s =
    .next (s.sendsWord c (BitVec.ofInt 64 (Max.max (c.word 0).toInt (c.word 1).toInt)))) ∧
  (∀ s c pm t1 t2, Selected s (.min pm false true t1 t2) c → exec (.min pm false true t1 t2) s =
    .next (s.sendsWord c (BitVec.ofNat 64 (Min.min (c.word 0).toNat (c.word 1).toNat)))) ∧
  (∀ s c pm t1 t2, Selected s (.max pm false true t1 t2) c → exec (.max pm false true t1 t2) s =
    .next (s.sendsWord c (BitVec.ofNat 64 (Max.max (c.word 0).toNat (c.word 1).toNat)))) ∧
  (∀ s c pm t1 t2, Selected s (.min pm true false t1 t2) c → exec (.min pm true false t1 t2) s =
    .next (s.sendsWord c (BitVec.ofInt 64 (Min.min (lo32 (c.word 0)).toInt (lo32 (c.word 1)).toInt)))) ∧
  (∀ s c pm t1 t2, Selected s (.max pm true false t1 t2) c → exec (.max pm true false t1 t2) s =
    .next (s.sendsWord c (BitVec.ofInt 64 (Max.max (lo32 (c.word 0)).toInt (lo32 (c.word 1)).toInt)))) ∧
  (∀ s c pm t1 t2, Selected s (.min pm true true t1 t2) c → exec (.min pm true true t1 t2) s =
    .next (s.sendsWord c (sx32 (BitVec.ofNat 32 (Min.min (lo32 (c.word 0)).toNat (lo32 (c.word 1)).toNat))))) ∧
  (∀ s c pm t1 t2, Selected s (.max pm true true t1 t2) c → exec (.max pm true true t1 t2) s =
    .next (s.sendsWord c (sx32 (BitVec.ofNat 32 (Max.max (lo32 (c.word 0)).toNat (lo32 (c.word 1)).toNat))))) ∧
  (∀ s c pm kind t1 t2, Selected s (.ext pm kind t1 t2) c → exec (.ext pm kind t1 t2) s =
    .next (s.sendsWord c (match kind with
      | .i8 => BitVec.signExtend 64 (BitVec.extractLsb' 0 8 (c.word 0))
      | .n8 => BitVec.setWidth 64 (BitVec.extractLsb' 0 8 (c.word 0))
      | .i16 => BitVec.signExtend 64 (BitVec.extractLsb' 0 16 (c.word 0))
      | .n16 => BitVec.setWidth 64 (BitVec.extractLsb' 0 16 (c.word 0))
      | .i32 => BitVec.signExtend 64 (BitVec.extractLsb' 0 32 (c.word 0))
      | .n32 => BitVec.setWidth 64 (BitVec.extractLsb' 0 32 (c.word 0)))))

/-- R264 to R267: what BFX, BFI and CNT send, bit by bit. For BFX bit j of the field is bit p + j of l below W; for BFI
bit j of the result is bit j − p of r inside the field and bit j of l outside; CNT counts. In w32 the 32-bit result is
sign-extended. -/
def Obligations.BitFieldSlots : Prop :=
  (∀ s c pm w32 sign t1 t2, Selected s (.bfx pm w32 sign t1 t2) c → ∃ v : Word,
    exec (.bfx pm w32 sign t1 t2) s = .next (s.sendsWord c v) ∧
    ∀ j, j < 64 → v.getLsbD j =
      let W := if w32 then 32 else 64
      let p := (c.word 1).toNat % W
      let w := (c.word 1).toNat / 256 % W + 1
      let field (i : Nat) : Bool := decide (p + i < W) && (c.word 0).getLsbD (p + i)
      let at_ (i : Nat) : Bool := if i < w then field i else sign && field (w - 1)
      at_ (Min.min j (W - 1))) ∧
  (∀ s c pm w32 t1 t2, Selected s (.bfi pm w32 t1 t2) c → ∃ v : Word,
    exec (.bfi pm w32 t1 t2) s = .next (s.sendsWord c v) ∧
    ∀ j, j < 64 → v.getLsbD j =
      let W := if w32 then 32 else 64
      let p := (c.word 2).toNat % W
      let w := (c.word 2).toNat / 256 % W + 1
      let i := Min.min j (W - 1)
      if p ≤ i ∧ i < p + w then (c.word 1).getLsbD (i - p) else (c.word 0).getLsbD i) ∧
  (∀ s c pm w32 kind t1 t2, Selected s (.cnt pm w32 kind t1 t2) c → ∃ n : Nat,
    exec (.cnt pm w32 kind t1 t2) s = .next (s.sendsWord c (if w32 then sx32 (BitVec.ofNat 32 n) else BitVec.ofNat 64 n)) ∧
    let W := if w32 then 32 else 64
    let a : Nat := (c.word 0).toNat % 2 ^ W
    match kind with
    | .pop => n = ((List.range W).filter fun i => a.testBit i).length
    | .lz => if a = 0 then n = W else n < W ∧ a.testBit (W - 1 - n) = true ∧ ∀ i, W - 1 - n < i → a.testBit i = false
    | .tz => if a = 0 then n = W else n < W ∧ a.testBit n = true ∧ ∀ i, i < n → a.testBit i = false
    | .brev => n < 2 ^ W ∧ ∀ i, i < W → n.testBit i = a.testBit (W - 8 - i / 8 * 8 + i % 8))

/-- R212, R269, R270 and R271: whether a test waits for its predicate and which value lets it fire, and its two outputs
by its combine type, p and the result. -/
def Obligations.TestSlots : Prop :=
  (∀ (ct : Combine), (∀ cond t1 t2, predReq (.test ct cond t1 t2) = testWaits ct) ∧
    (∀ cond imm t1, predReq (.testi ct cond imm t1) = testWaits ct) ∧
    (∀ f64 cond t1 t2, predReq (.ftest ct f64 cond t1 t2) = testWaits ct) ∧
    (∀ cond imm t1, tgts (.testi ct cond imm t1) = [t1])) ∧
  (∀ (f : Flight) k i toks t, (f.slot k).status = .notYet → f.collided k = false → f.data k i = some toks →
    Token.null ∉ toks → (f.slot k).arrived .p = some t → t ≠ .null → f.ready k i true = match predReq i with
      | none | some none => .fire
      | some (some w) => if t.truth = w then .fire else .never) ∧
  (∀ s c ct cond t1 t2, Selected s (.test ct cond t1 t2) c → exec (.test ct cond t1 t2) s =
    let l := c.word 0
    let r := c.word 1
    let o := c.testOut ct (match cond with
      | .eq => decide (l = r)
      | .ne => decide (l ≠ r)
      | .lt => decide (l.toInt < r.toInt)
      | .ge => decide (r.toInt ≤ l.toInt)
      | .ltu => decide (l.toNat < r.toNat)
      | .geu => decide (r.toNat ≤ l.toNat)
      | .le => decide (l.toInt ≤ r.toInt)
      | .gt => decide (r.toInt < l.toInt)
      | .leu => decide (l.toNat ≤ r.toNat)
      | .gtu => decide (r.toNat < l.toNat)
      | .bitset => l.getLsbD (r.toNat % 64)
      | .bitclr => !l.getLsbD (r.toNat % 64))
    .next (s.sends c (.scalar (if o.1 then 1 else 0)) (.scalar (if o.2 then 1 else 0)))) ∧
  (∀ s c ct cond imm t1, Selected s (.testi ct cond imm t1) c →
    wellFormed (.testi ct cond imm t1) = true → exec (.testi ct cond imm t1) s =
    let l := c.word 0
    let r : Word := imm.signExtend 64
    let o := c.testOut ct (match cond with
      | .eq => decide (l = r)
      | .ne => decide (l ≠ r)
      | .lt => decide (l.toInt < r.toInt)
      | .ge => decide (r.toInt ≤ l.toInt)
      | .ltu => decide (l.toNat < r.toNat)
      | .geu => decide (r.toNat ≤ l.toNat)
      | .le => decide (l.toInt ≤ r.toInt)
      | .gt => decide (r.toInt < l.toInt)
      | _ => false)
    .next (s.sends c (.scalar (if o.1 then 1 else 0)) (.scalar (if o.2 then 1 else 0)))) ∧
  (∀ s c ct f64 cond t1 t2, Selected s (.ftest ct f64 cond t1 t2) c → exec (.ftest ct f64 cond t1 t2) s =
    let f := if f64 then fp64 else fp32
    let v := (f.read (c.word 0).toNat).cmp (f.read (c.word 1).toNat)
    let o := c.testOut ct (match cond with
      | .eq => v == some .eq
      | .ne => v != some .eq
      | .lt => v == some .lt
      | .le => v == some .lt || v == some .eq
      | .unord => v == none
      | .ord => v != none
      | .gt => v == some .gt
      | .ge => v == some .gt || v == some .eq)
    .next (s.sends c (.scalar (if o.1 then 1 else 0)) (.scalar (if o.2 then 1 else 0))))

/-- R272 to R276: the scalar float slots send the exact result rounded once by their code, FMM the exact operand, FCVT
the conversion of its kind; an FP32 result has bits 63:32 zero. -/
def Obligations.ScalarFloatSlots : Prop :=
  (∀ s c pm f64 rnd t1 t2, Selected s (.fadd pm f64 rnd t1 t2) c → exec (.fadd pm f64 rnd t1 t2) s =
    .next (s.sendsWord c (c.rounded f64 rnd (Machine.Num.add rnd (c.operand f64 0) (c.operand f64 1))))) ∧
  (∀ s c pm f64 rnd t1 t2, Selected s (.fsub pm f64 rnd t1 t2) c → exec (.fsub pm f64 rnd t1 t2) s =
    .next (s.sendsWord c (c.rounded f64 rnd (Machine.Num.add rnd (c.operand f64 0) (c.operand f64 1).neg)))) ∧
  (∀ s c pm f64 rnd t1 t2, Selected s (.fmul pm f64 rnd t1 t2) c → exec (.fmul pm f64 rnd t1 t2) s =
    .next (s.sendsWord c (c.rounded f64 rnd ((c.operand f64 0).mul (c.operand f64 1))))) ∧
  (∀ s c pm f64 rnd t1 t2, Selected s (.fma pm f64 rnd t1 t2) c → exec (.fma pm f64 rnd t1 t2) s =
    .next (s.sendsWord c (c.rounded f64 rnd
      (Machine.Num.add rnd ((c.operand f64 0).mul (c.operand f64 1)) (c.operand f64 2))))) ∧
  (∀ s c pm f64 rnd t1 t2, Selected s (.fdiv pm f64 rnd t1 t2) c → exec (.fdiv pm f64 rnd t1 t2) s =
    .next (s.sendsWord c (c.rounded f64 rnd ((c.operand f64 0).div (c.operand f64 1))))) ∧
  (∀ s c pm f64 rnd t1 t2, Selected s (.fsqrt pm f64 rnd t1 t2) c → exec (.fsqrt pm f64 rnd t1 t2) s =
    .next (s.sendsWord c (c.rounded f64 rnd (c.operand f64 0).sqrt))) ∧
  (∀ s c pm f64 t1 t2, Selected s (.fmm pm f64 false t1 t2) c → exec (.fmm pm f64 false t1 t2) s =
    .next (s.sendsWord c (c.rounded f64 .rne ((c.operand f64 0).min (c.operand f64 1))))) ∧
  (∀ s c pm f64 t1 t2, Selected s (.fmm pm f64 true t1 t2) c → exec (.fmm pm f64 true t1 t2) s =
    .next (s.sendsWord c (c.rounded f64 .rne ((c.operand f64 0).max (c.operand f64 1))))) ∧
  (∀ s c pm kind t1 t2, Selected s (.fcvt pm kind t1 t2) c → exec (.fcvt pm kind t1 t2) s =
    let n := (c.word 0).toNat
    let cvt (f : FFmt) (x : Machine.Num) : Word := BitVec.ofNat 64 (f.round .rne false 0 x)
    let int (signed : Bool) (x : Machine.Num) : Word := BitVec.ofInt 64 (x.toIntClamp .rtz 0 signed 64)
    .next (s.sendsWord c (match kind with
      | .f32f64 => cvt fp64 (fp32.read n)
      | .f64f32 => cvt fp32 (fp64.read n)
      | .i64f32 => cvt fp32 (Machine.Num.ofInt (c.word 0).toInt)
      | .n64f32 => cvt fp32 (Machine.Num.ofInt n)
      | .i64f64 => cvt fp64 (Machine.Num.ofInt (c.word 0).toInt)
      | .n64f64 => cvt fp64 (Machine.Num.ofInt n)
      | .f32i64 => int true (fp32.read n)
      | .f32n64 => int false (fp32.read n)
      | .f64i64 => int true (fp64.read n)
      | .f64n64 => int false (fp64.read n)
      | .f32f16 => cvt fp16 (fp32.read n)
      | .f16f32 => cvt fp32 (fp16.read n)
      | .f32bf16 => cvt bf16 (fp32.read n)
      | .bf16f32 => cvt fp32 (bf16.read n))))

/-! ### Slots: exits and carrel memory -/

/-- R221 and R252 to R256: BR and CALL choose the block at address + 16 × offset, BRI the address in l, RET the apply
stack; BRI with an address that is no multiple of 16 raises misalignment; TRAP is recorded and raises nothing yet. The
model's choice: a target is taken modulo 2^64 (assumption log 97). -/
def Obligations.ControlSlots : Prop :=
  (∀ s c pm ex off, Selected s (.br pm ex off) c → exec (.br pm ex off) s =
    .next (s.exits c (.branch (((c.fl.addr : Int) + 16 * off.toInt) % 2 ^ 64).toNat))) ∧
  (∀ s c pm ex off, Selected s (.call pm ex off) c → exec (.call pm ex off) s =
    .next (s.exits c (.call (((c.fl.addr : Int) + 16 * off.toInt) % 2 ^ 64).toNat))) ∧
  (∀ s c pm ex, Selected s (.bri pm ex) c → exec (.bri pm ex) s =
    if (c.word 0).toNat % 16 = 0 then .next (s.exits c (.indirect (c.word 0).toNat))
    else .next (s.slotFault c ⟨.misalignment, c.word 0, 0⟩)) ∧
  (∀ s c pm ex, Selected s (.ret pm ex) c → exec (.ret pm ex) s = .next (s.exits c .ret)) ∧
  (∀ s c pm num, Selected s (.trap pm num) c → exec (.trap pm num) s =
    .next (s.records c .null (.trap num.toNat)))

/-- R99, R226, R279, R280: LD and PLD at l + imm5 × size, in a bank that may be read there and aligned, where no byte
that is read from the carrel has a detected error: the bytes are little-endian and extended by the type; an element of a
formatted bank is converted to the type. -/
def Obligations.CarrelLoadSlots : Prop :=
  (∀ s c pm lsid ty imm t1, Selected s (.ld pm lsid ty imm t1) c →
    let size := Ty.size ty
    let a := (c.word 0 + BitVec.ofInt 64 (imm.toInt * size)).toNat
    let f := rawTail (c.x.fmt (a / 24576)) (a % 24576)
    let n := if f = 0 then size else fmtSize f
    let bs := (upFrom a n).map fun o => (o, c.byte false lsid.toNat o)
    let v := leNat (bs.map (·.2))
    c.x.holds a size = true → f ≤ 8 → a % n = 0 →
    (∀ o, a ≤ o → o < a + n → c.badAt false lsid.toNat o = false) →
    exec (.ld pm lsid ty imm t1) s = .next (s.loads c (.scalar (Ty.extend ty (if f = 0 then v
      else tyFromNum (Ty.signed ty) (8 * size) (fmtRead f v)))) bs)) ∧
  (∀ s c pm lsid ty imm t1 y m, Selected s (.pld pm lsid ty imm t1) c → s.partner c.x = some (y, m) →
    let size := Ty.size ty
    let a := (c.word 0 + BitVec.ofInt 64 (imm.toInt * size)).toNat
    let f := rawTail (y.fmt (m.lugFirst + a / 24576)) (a % 24576)
    let n := if f = 0 then size else fmtSize f
    let bs := (upFrom a n).map fun o => (o, c.byte true lsid.toNat o)
    let v := leNat (bs.map (·.2))
    a < m.lugCount * 24576 → f ≤ 8 → a % n = 0 →
    (∀ o, a ≤ o → o < a + n → c.badAt true lsid.toNat o = false) →
    exec (.pld pm lsid ty imm t1) s = .next (s.loads c (.scalar (Ty.extend ty (if f = 0 then v
      else tyFromNum (Ty.signed ty) (8 * size) (fmtRead f v)))) bs))

/-- R99, R279, R280: ST and PST keep their bytes for the commit: the low bytes of r, little-endian, or one converted
element of a formatted bank, at l + imm5 × size. -/
def Obligations.CarrelStoreSlots : Prop :=
  (∀ s c pm lsid ty imm, Selected s (.st pm lsid ty imm) c →
    let size := Ty.size ty
    let a := (c.word 0 + BitVec.ofInt 64 (imm.toInt * size)).toNat
    let f := rawTail (c.x.fmt (a / 24576)) (a % 24576)
    let n := if f = 0 then size else fmtSize f
    let v := if f = 0 then (c.word 1).toNat else fmtWrite f (Machine.Num.ofInt
      (bitsInt (Ty.signed ty) (8 * size) (c.word 1).toNat))
    c.x.holds a size = true → f ≤ 8 → a % n = 0 →
    exec (.st pm lsid ty imm) s = .next (s.stores c .null false ((upFrom a n).zip (leBytes n v)) [])) ∧
  (∀ s c pm lsid ty imm y m, Selected s (.pst pm lsid ty imm) c → s.partner c.x = some (y, m) → m.lugRo = false →
    let size := Ty.size ty
    let a := (c.word 0 + BitVec.ofInt 64 (imm.toInt * size)).toNat
    let f := rawTail (y.fmt (m.lugFirst + a / 24576)) (a % 24576)
    let n := if f = 0 then size else fmtSize f
    let v := if f = 0 then (c.word 1).toNat else fmtWrite f (Machine.Num.ofInt
      (bitsInt (Ty.signed ty) (8 * size) (c.word 1).toNat))
    a < m.lugCount * 24576 → f ≤ 8 → a % n = 0 →
    exec (.pst pm lsid ty imm) s = .next (s.stores c .null true ((upFrom a n).zip (leBytes n v)) []))

/-- R49, R50, R280: what LD, ST, PLD and PST raise, in this order: meeting-state for partner space outside a meeting;
carrel rights for the own carrel past the banks held or in a bank that is away, for a partner offset at or past the
partner's luggage (any offset where it brought none), and for a PST to read-only luggage; bank format for an INT4 bank
and for the codes of a Q4N bank; misalignment. R362: LD and PLD that pass these checks and read from the carrel a byte
with a detected error raise data error at the first such byte. -/
def Obligations.CarrelAccessFaults : Prop :=
  (∀ s c pm lsid ty imm t1, Selected s (.ld pm lsid ty imm t1) c →
    let size := Ty.size ty
    let a := (c.word 0 + BitVec.ofInt 64 (imm.toInt * size)).toNat
    let f := rawTail (c.x.fmt (a / 24576)) (a % 24576)
    let n := if f = 0 then size else fmtSize f
    (c.x.holds a size = false →
      exec (.ld pm lsid ty imm t1) s = .next (s.slotFault c ⟨.carrelRights, BitVec.ofNat 64 a, 0⟩)) ∧
    (c.x.holds a size = true → f = 9 ∨ f = 10 → exec (.ld pm lsid ty imm t1) s =
      .next (s.slotFault c ⟨.bankFormat, BitVec.ofNat 64 (a / 24576 + 16 * f), 0⟩)) ∧
    (c.x.holds a size = true → f ≤ 8 → a % n ≠ 0 →
      exec (.ld pm lsid ty imm t1) s = .next (s.slotFault c ⟨.misalignment, BitVec.ofNat 64 a, 0⟩)) ∧
    (∀ b, c.x.holds a size = true → f ≤ 8 → a % n = 0 → a ≤ b → b < a + n → c.badAt false lsid.toNat b = true →
      (∀ o, a ≤ o → o < b → c.badAt false lsid.toNat o = false) →
      exec (.ld pm lsid ty imm t1) s = .next (s.slotFault c ⟨.dataError, BitVec.ofNat 64 b, 0⟩))) ∧
  (∀ s c pm lsid ty imm, Selected s (.st pm lsid ty imm) c →
    let size := Ty.size ty
    let a := (c.word 0 + BitVec.ofInt 64 (imm.toInt * size)).toNat
    let f := rawTail (c.x.fmt (a / 24576)) (a % 24576)
    let n := if f = 0 then size else fmtSize f
    (c.x.holds a size = false →
      exec (.st pm lsid ty imm) s = .next (s.slotFault c ⟨.carrelRights, BitVec.ofNat 64 a, 0⟩)) ∧
    (c.x.holds a size = true → f = 9 ∨ f = 10 → exec (.st pm lsid ty imm) s =
      .next (s.slotFault c ⟨.bankFormat, BitVec.ofNat 64 (a / 24576 + 16 * f), 0⟩)) ∧
    (c.x.holds a size = true → f ≤ 8 → a % n ≠ 0 →
      exec (.st pm lsid ty imm) s = .next (s.slotFault c ⟨.misalignment, BitVec.ofNat 64 a, 0⟩))) ∧
  (∀ s c pm lsid ty imm t1, Selected s (.pld pm lsid ty imm t1) c → s.partner c.x = none →
    exec (.pld pm lsid ty imm t1) s = .next (s.slotFault c ⟨.meetingState, 0, 0⟩)) ∧
  (∀ s c pm lsid ty imm t1 y m, Selected s (.pld pm lsid ty imm t1) c → s.partner c.x = some (y, m) →
    let size := Ty.size ty
    let a := (c.word 0 + BitVec.ofInt 64 (imm.toInt * size)).toNat
    let bank := m.lugFirst + a / 24576
    let f := rawTail (y.fmt bank) (a % 24576)
    let n := if f = 0 then size else fmtSize f
    (m.lugCount * 24576 ≤ a →
      exec (.pld pm lsid ty imm t1) s = .next (s.slotFault c ⟨.carrelRights, BitVec.ofNat 64 a, 0⟩)) ∧
    (a < m.lugCount * 24576 → f = 9 ∨ f = 10 → exec (.pld pm lsid ty imm t1) s =
      .next (s.slotFault c ⟨.bankFormat, BitVec.ofNat 64 (bank + 16 * f), 0⟩)) ∧
    (a < m.lugCount * 24576 → f ≤ 8 → a % n ≠ 0 →
      exec (.pld pm lsid ty imm t1) s = .next (s.slotFault c ⟨.misalignment, BitVec.ofNat 64 a, 0⟩)) ∧
    (∀ b, a < m.lugCount * 24576 → f ≤ 8 → a % n = 0 → a ≤ b → b < a + n → c.badAt true lsid.toNat b = true →
      (∀ o, a ≤ o → o < b → c.badAt true lsid.toNat o = false) →
      exec (.pld pm lsid ty imm t1) s = .next (s.slotFault c ⟨.dataError, BitVec.ofNat 64 b, 0⟩))) ∧
  (∀ s c pm lsid ty imm, Selected s (.pst pm lsid ty imm) c → s.partner c.x = none →
    exec (.pst pm lsid ty imm) s = .next (s.slotFault c ⟨.meetingState, 0, 0⟩)) ∧
  (∀ s c pm lsid ty imm y m, Selected s (.pst pm lsid ty imm) c → s.partner c.x = some (y, m) →
    let size := Ty.size ty
    let a := (c.word 0 + BitVec.ofInt 64 (imm.toInt * size)).toNat
    let bank := m.lugFirst + a / 24576
    let f := rawTail (y.fmt bank) (a % 24576)
    let n := if f = 0 then size else fmtSize f
    (m.lugCount * 24576 ≤ a ∨ m.lugRo = true →
      exec (.pst pm lsid ty imm) s = .next (s.slotFault c ⟨.carrelRights, BitVec.ofNat 64 a, 0⟩)) ∧
    (a < m.lugCount * 24576 → m.lugRo = false → f = 9 ∨ f = 10 → exec (.pst pm lsid ty imm) s =
      .next (s.slotFault c ⟨.bankFormat, BitVec.ofNat 64 (bank + 16 * f), 0⟩)) ∧
    (a < m.lugCount * 24576 → m.lugRo = false → f ≤ 8 → a % n ≠ 0 →
      exec (.pst pm lsid ty imm) s = .next (s.slotFault c ⟨.misalignment, BitVec.ofNat 64 a, 0⟩)))

/-- R281 and R282: AMO and CAS send the old value and keep the new bytes for the commit, CAS only when the comparison
holds. They raise carrel rights outside the banks held or in a bank that is away, bank format outside a raw bank and the
raw part of a Q4N bank, misalignment off their size, and (R362) data error at the first byte with a detected error. -/
def Obligations.AtomicSlots : Prop :=
  (∀ s c pm lsid op imm t1, Selected s (.amo pm lsid op imm t1) c →
    let a := (c.word 0 + BitVec.ofInt 64 (imm.toInt * 8)).toNat
    let bs := (upFrom a 8).map fun o => (o, c.byte false lsid.toNat o)
    let old : Word := BitVec.ofNat 64 (leNat (bs.map (·.2)))
    let r := c.word 1
    let new : Word := match op with
      | .add => old + r
      | .min => if old.toInt ≤ r.toInt then old else r
      | .max => if old.toInt ≤ r.toInt then r else old
      | .nmin => if old.toNat ≤ r.toNat then old else r
      | .nmax => if old.toNat ≤ r.toNat then r else old
      | .swap => r
      | .and => old &&& r
      | .or => old ||| r
    c.x.holds a 8 = true → rawTail (c.x.fmt (a / 24576)) (a % 24576) = 0 → a % 8 = 0 →
    (∀ o, a ≤ o → o < a + 8 → c.badAt false lsid.toNat o = false) →
    exec (.amo pm lsid op imm t1) s =
      .next (s.stores c (.scalar old) false ((upFrom a 8).zip (leBytes 8 new.toNat)) bs)) ∧
  (∀ s c pm lsid ty imm t1, Selected s (.cas pm lsid ty imm t1) c →
    let size := Ty.size ty
    let a := (c.word 0 + BitVec.ofInt 64 (imm.toInt * size)).toNat
    let bs := (upFrom a size).map fun o => (o, c.byte false lsid.toNat o)
    let old := leNat (bs.map (·.2))
    c.x.holds a size = true → rawTail (c.x.fmt (a / 24576)) (a % 24576) = 0 → a % size = 0 →
    (∀ o, a ≤ o → o < a + size → c.badAt false lsid.toNat o = false) →
    exec (.cas pm lsid ty imm t1) s =
      .next (s.stores c (.scalar (Ty.extend ty old)) false
        (if old = (c.word 1).toNat % 2 ^ (8 * size) then (upFrom a size).zip (leBytes size (c.word 2).toNat) else [])
        bs)) ∧
  (∀ s c pm lsid op imm t1, Selected s (.amo pm lsid op imm t1) c →
    let a := (c.word 0 + BitVec.ofInt 64 (imm.toInt * 8)).toNat
    (c.x.holds a 8 = false →
      exec (.amo pm lsid op imm t1) s = .next (s.slotFault c ⟨.carrelRights, BitVec.ofNat 64 a, 0⟩)) ∧
    (c.x.holds a 8 = true → rawTail (c.x.fmt (a / 24576)) (a % 24576) ≠ 0 → exec (.amo pm lsid op imm t1) s =
      .next (s.slotFault c ⟨.bankFormat, BitVec.ofNat 64 (a / 24576 + 16 * c.x.fmt (a / 24576)), 0⟩)) ∧
    (c.x.holds a 8 = true → rawTail (c.x.fmt (a / 24576)) (a % 24576) = 0 → a % 8 ≠ 0 →
      exec (.amo pm lsid op imm t1) s = .next (s.slotFault c ⟨.misalignment, BitVec.ofNat 64 a, 0⟩)) ∧
    (∀ b, c.x.holds a 8 = true → rawTail (c.x.fmt (a / 24576)) (a % 24576) = 0 → a % 8 = 0 →
      a ≤ b → b < a + 8 → c.badAt false lsid.toNat b = true →
      (∀ o, a ≤ o → o < b → c.badAt false lsid.toNat o = false) →
      exec (.amo pm lsid op imm t1) s = .next (s.slotFault c ⟨.dataError, BitVec.ofNat 64 b, 0⟩))) ∧
  (∀ s c pm lsid ty imm t1, Selected s (.cas pm lsid ty imm t1) c →
    let size := Ty.size ty
    let a := (c.word 0 + BitVec.ofInt 64 (imm.toInt * size)).toNat
    (c.x.holds a size = false →
      exec (.cas pm lsid ty imm t1) s = .next (s.slotFault c ⟨.carrelRights, BitVec.ofNat 64 a, 0⟩)) ∧
    (c.x.holds a size = true → rawTail (c.x.fmt (a / 24576)) (a % 24576) ≠ 0 → exec (.cas pm lsid ty imm t1) s =
      .next (s.slotFault c ⟨.bankFormat, BitVec.ofNat 64 (a / 24576 + 16 * c.x.fmt (a / 24576)), 0⟩)) ∧
    (c.x.holds a size = true → rawTail (c.x.fmt (a / 24576)) (a % 24576) = 0 → a % size ≠ 0 →
      exec (.cas pm lsid ty imm t1) s = .next (s.slotFault c ⟨.misalignment, BitVec.ofNat 64 a, 0⟩)) ∧
    (∀ b, c.x.holds a size = true → rawTail (c.x.fmt (a / 24576)) (a % 24576) = 0 → a % size = 0 →
      a ≤ b → b < a + size → c.badAt false lsid.toNat b = true →
      (∀ o, a ≤ o → o < b → c.badAt false lsid.toNat o = false) →
      exec (.cas pm lsid ty imm t1) s = .next (s.slotFault c ⟨.dataError, BitVec.ofNat 64 b, 0⟩)))

/-- R218, R219: the byte that a load with an ID sees is that of the fired store of the highest lower ID that writes it,
and the committed byte where no such store writes it. -/
def Obligations.LoadsSeeLowerStores : Prop :=
  ∀ (c : Ctx) (partner : Bool) (lsid off : Nat),
    ((∀ j i id data b, c.fl.instr j = some i → lsidOf i = some id → id < lsid →
        (c.fl.slot j).eff = .store partner data → (off, b) ∉ data) →
      c.byte partner lsid off = c.s.baseByte c.x partner off) ∧
    (∀ j i id data b, j < c.fl.slots.length → c.fl.instr j = some i → lsidOf i = some id → id < lsid →
      (c.fl.slot j).eff = .store partner data → data.Pairwise (fun p q => p.1 ≠ q.1) → (off, b) ∈ data →
      (∀ j' i' id' data' b', c.fl.instr j' = some i' → lsidOf i' = some id' → id' < lsid →
        (c.fl.slot j').eff = .store partner data' → (off, b') ∈ data' → id' ≤ id ∧ (id' = id → j' = j)) →
      c.byte partner lsid off = b)

/-! ### Slots: copies, tags, formats -/

/-- R283: a copy command sends 0 and records its kind, tag, completion closure and shape record offset for the commit. -/
def Obligations.CopyCommandSlots : Prop :=
  (∀ s c pm tag clo t1, Selected s (.cin pm tag clo t1) c → exec (.cin pm tag clo t1) s =
    .next (s.records c (.scalar 0) (.copy .cin tag.toNat (clo.map (·.toNat)) (c.word 0).toNat))) ∧
  (∀ s c pm tag clo t1, Selected s (.cout pm tag clo t1) c → exec (.cout pm tag clo t1) s =
    .next (s.records c (.scalar 0) (.copy .cout tag.toNat (clo.map (·.toNat)) (c.word 0).toNat))) ∧
  (∀ s c pm tag clo t1, Selected s (.cgath pm tag clo t1) c → exec (.cgath pm tag clo t1) s =
    .next (s.records c (.scalar 0) (.copy .cgath tag.toNat (clo.map (·.toNat)) (c.word 0).toNat))) ∧
  (∀ s c pm tag clo t1, Selected s (.cscat pm tag clo t1) c → exec (.cscat pm tag clo t1) s =
    .next (s.records c (.scalar 0) (.copy .cscat tag.toNat (clo.map (·.toNat)) (c.word 0).toNat))) ∧
  (∀ s c pm tag clo t1, Selected s (.cbank pm tag clo t1) c → exec (.cbank pm tag clo t1) s =
    .next (s.records c (.scalar 0) (.copy .cbank tag.toNat (clo.map (·.toNat)) (c.word 0).toNat))) ∧
  (∀ s c pm tag clo t1, Selected s (.cfill pm tag clo t1) c → exec (.cfill pm tag clo t1) s =
    .next (s.records c (.scalar 0) (.copy .cfill tag.toNat (clo.map (·.toNat)) (c.word 0).toNat)))

/-- R165, R286 to R289: WTANY, WTALL, WCNT, TAGFF, TAGCLR and BFMT. A masked CBANK that has met a reserved code makes
WTANY, WTALL and TAGFF raise strict-reserved-code, with the first such report of those still kept; they fire only once
no masked CBANK is in progress. TAGFF sends the lowest masked done tag, or 64; BFMT of a reserved code raises
bank-format, of a bank that is not held or is away carrel-rights. The model's choices: BFMT looks at the code first
(assumption log 89), a target is taken modulo 2^64 (assumption log 97). -/
def Obligations.TagAndFormatSlots : Prop :=
  (∀ s c pm ex off, Selected s (.wtany pm ex off) c →
    (∀ p ∈ c.x.copies, p.kind = .cbank → (c.word 0).getLsbD p.tag = false) →
    (∀ h ∈ c.x.strict, (c.word 0).getLsbD h.tag = false) → exec (.wtany pm ex off) s =
    .next (s.exits c (.wtany (c.word 0) (((c.fl.addr : Int) + 16 * off.toInt) % 2 ^ 64).toNat))) ∧
  (∀ s c pm ex off, Selected s (.wtall pm ex off) c →
    (∀ p ∈ c.x.copies, p.kind = .cbank → (c.word 0).getLsbD p.tag = false) →
    (∀ h ∈ c.x.strict, (c.word 0).getLsbD h.tag = false) → exec (.wtall pm ex off) s =
    .next (s.exits c (.wtall (c.word 0) (((c.fl.addr : Int) + 16 * off.toInt) % 2 ^ 64).toNat))) ∧
  (∀ s c pm ex off, Selected s (.wcnt pm ex off) c → exec (.wcnt pm ex off) s =
    .next (s.exits c (.wcnt (c.word 0) (((c.fl.addr : Int) + 16 * off.toInt) % 2 ^ 64).toNat))) ∧
  (∀ s c pm clr t1 t2, Selected s (.tagff pm clr t1 t2) c →
    (∀ p ∈ c.x.copies, p.kind = .cbank → (c.word 0).getLsbD p.tag = false) →
    (∀ h ∈ c.x.strict, (c.word 0).getLsbD h.tag = false) → ∃ j : Nat,
    let done (i : Nat) : Bool := (c.word 0).getLsbD i && (c.x.tags.getLsbD i || c.x.tagerr.getLsbD i)
    (j ≤ 64 ∧ (∀ i, i < j → done i = false) ∧ (j < 64 → done j = true)) ∧
    exec (.tagff pm clr t1 t2) s = .next (s.records c (.scalar (BitVec.ofNat 64 j))
      (if clr = true ∧ j < 64 then .tagClear (BitVec.ofNat 64 (2 ^ j)) else .none))) ∧
  (∀ s c pm ex off h before after, Selected s (.wtany pm ex off) c →
    (∀ p ∈ c.x.copies, p.kind = .cbank → (c.word 0).getLsbD p.tag = false) → c.x.strict = before ++ h :: after →
    (∀ g ∈ before, (c.word 0).getLsbD g.tag = false) → (c.word 0).getLsbD h.tag = true → exec (.wtany pm ex off) s =
    .next (s.slotFault c ⟨.strictCode, BitVec.ofNat 64 h.off, h.val⟩)) ∧
  (∀ s c pm ex off h before after, Selected s (.wtall pm ex off) c →
    (∀ p ∈ c.x.copies, p.kind = .cbank → (c.word 0).getLsbD p.tag = false) → c.x.strict = before ++ h :: after →
    (∀ g ∈ before, (c.word 0).getLsbD g.tag = false) → (c.word 0).getLsbD h.tag = true → exec (.wtall pm ex off) s =
    .next (s.slotFault c ⟨.strictCode, BitVec.ofNat 64 h.off, h.val⟩)) ∧
  (∀ s c pm clr t1 t2 h before after, Selected s (.tagff pm clr t1 t2) c →
    (∀ p ∈ c.x.copies, p.kind = .cbank → (c.word 0).getLsbD p.tag = false) → c.x.strict = before ++ h :: after →
    (∀ g ∈ before, (c.word 0).getLsbD g.tag = false) → (c.word 0).getLsbD h.tag = true → exec (.tagff pm clr t1 t2) s =
    .next (s.slotFault c ⟨.strictCode, BitVec.ofNat 64 h.off, h.val⟩)) ∧
  (∀ s c pm t1 t2, Selected s (.tagclr pm t1 t2) c → exec (.tagclr pm t1 t2) s =
    .next (s.records c (.scalar 0) (.tagClear (c.word 0)))) ∧
  (∀ s c pm bank fmt t1, Selected s (.bfmt pm bank fmt t1) c → fmt.toNat ≤ 10 → c.x.reaches bank.toNat = true →
    exec (.bfmt pm bank fmt t1) s = .next (s.records c (.scalar 0) (.bfmt bank.toNat fmt.toNat))) ∧
  (∀ s c pm bank fmt t1, Selected s (.bfmt pm bank fmt t1) c → 11 ≤ fmt.toNat →
    exec (.bfmt pm bank fmt t1) s =
      .next (s.slotFault c ⟨.bankFormat, BitVec.ofNat 64 (bank.toNat + 16 * fmt.toNat), 0⟩)) ∧
  (∀ s c pm bank fmt t1, Selected s (.bfmt pm bank fmt t1) c → fmt.toNat ≤ 10 → c.x.reaches bank.toNat = false →
    exec (.bfmt pm bank fmt t1) s =
      .next (s.slotFault c ⟨.carrelRights, BitVec.ofNat 64 (bank.toNat * 24576), 0⟩))

/-! ### Slots: ownership -/

/-- R103, R104, R291: PALLOC of a register that is not empty raises loan-rights; 0 pages or more than 2^24 − 1 send 3, a
budget that cannot hold them 1, and a tier that has too few free pages 2, each with no effect; otherwise it sends 0 and
keeps the register, base, length, tier and pages for the commit. -/
def Obligations.PallocSlot : Prop :=
  ∀ s c pm cxl k t1, Selected s (.palloc pm cxl k t1) c →
    let n := (c.word 0).toNat
    let r := ({ s with cur := none } : State).reserved c.x.id.fn
    let base := r.chooseBase c.x.id.fn n
    let vas := (r.fn c.x.id.fn).stage1.map (·.va)
    let more := tablePages (vas ++ upFrom base n) - tablePages vas
    let free := r.freePages c.x.id.fn
    let fits := if cxl then n ≤ (free true).length ∧ more ≤ (free false).length else n + more ≤ (free false).length
    (c.x.reg k.toNat ≠ .empty ∨ k.toNat ∈ c.x.takenRegs →
      exec (.palloc pm cxl k t1) s = .next (s.slotFault c ⟨.loanRights, BitVec.ofNat 64 k.toNat, 0⟩)) ∧
    (c.x.reg k.toNat = .empty → k.toNat ∉ c.x.takenRegs →
      (n = 0 ∨ 2 ^ 24 ≤ n → exec (.palloc pm cxl k t1) s = .next (s.sendsWord c 3)) ∧
      (0 < n → n < 2 ^ 24 → r.pagesFit c.x.id.fn c.x.region n = false →
        exec (.palloc pm cxl k t1) s = .next (s.sendsWord c 1)) ∧
      (0 < n → n < 2 ^ 24 → r.pagesFit c.x.id.fn c.x.region n = true → ¬ fits →
        exec (.palloc pm cxl k t1) s = .next (s.sendsWord c 2)) ∧
      (0 < n → n < 2 ^ 24 → r.pagesFit c.x.id.fn c.x.region n = true → fits →
        ∃ pages : List Nat, pages.length = n ∧ (∀ p ∈ pages, p ∈ free cxl) ∧
          exec (.palloc pm cxl k t1) s =
            .next (({ s with fresh := s.fresh + 1 } : State).records c (.scalar 0)
              (.palloc k.toNat base n cxl pages))))

/-- R103 to R110, R291 to R294: PFREE, LSPLIT, LGIVE, SEAL, UNSEAL, SHOPEN, SHCLOSE and LBASE where they succeed: what
they send and what they keep for the commit. The model's choices: SHOPEN answers -2 and -1 before -3 (assumption log
28), UNSEAL takes a register sealed by another function whatever shelves are open (assumption log 11), a target is taken
modulo 2^64 (assumption log 97). -/
def Obligations.OwnershipSlots : Prop :=
  (∀ s c pm k t1 b p x, Selected s (.pfree pm k t1) c → c.x.drained k.toNat = true → c.x.reg k.toNat = .loan b p x →
    exec (.pfree pm k t1) s = .next (s.records c (.scalar 0) (.pfree k.toNat))) ∧
  (∀ s c pm k t1 b p x t, Selected s (.lsplit pm k t1) c → lsplitTurn c = true → c.x.reg k.toNat = .loan b p x →
    0 < (c.word 0).toNat → (c.word 0).toNat < p →
    let named (r : Nat) : Prop := ∃ j pm' x' kk g, c.fl.instr j = some (.palloc pm' x' kk g) ∧ kk.toNat = r ∧
      j < c.fl.words.length
    let open_ (r : Nat) : Prop := c.x.reg r = .empty ∧ ¬ named r ∧ r ∉ c.x.takenRegs
    t < 8 → open_ t → (∀ r, r < t → ¬ open_ r) →
    exec (.lsplit pm k t1) s =
      .next (s.records c (.scalar (BitVec.ofNat 64 t)) (.lsplit k.toNat (c.word 0).toNat t))) ∧
  (∀ s c pm k t1 q, Selected s (.lgive pm k t1) c → c.x.drained k.toNat = true → s.partner c.x = some q →
    c.x.reg k.toNat ≠ .empty →
    exec (.lgive pm k t1) s = .next (s.records c (.scalar 0) (.lgive k.toNat))) ∧
  (∀ s c pm k t1 b p x, Selected s (.seal pm k t1) c → c.x.drained k.toNat = true → c.x.reg k.toNat = .loan b p x →
    exec (.seal pm k t1) s = .next ((({ s with cur := none } : State).newShelf c.x.id.fn).2.records c
      (.scalar (BitVec.ofNat 64 (s.fn c.x.id.fn).shelfCtr)) (.seal k.toNat (s.fn c.x.id.fn).shelfCtr))) ∧
  (∀ s c pm ex k off b p x id v, Selected s (.unseal pm ex k off) c → c.x.inMeeting = false →
    c.x.reg k.toNat = .sealed b p x id v → (v = c.x.id.fn → c.x.sh.toList.contains (some id) = false) →
    exec (.unseal pm ex k off) s =
      .next (s.exits c (.unseal k.toNat (((c.fl.addr : Int) + 16 * off.toInt) % 2 ^ 64).toNat))) ∧
  (∀ s c pm t1 t2, Selected s (.shopen pm t1 t2) c →
    let free (n : Nat) : Prop := c.x.sh.toList.getD n none = none ∧ n ∉ c.x.takenSlots
    ((s.fn c.x.id.fn).shelf (c.word 0).toNat = none →
      exec (.shopen pm t1 t2) s = .next (s.sendsWord c (-2))) ∧
    (∀ sf, (s.fn c.x.id.fn).shelf (c.word 0).toNat = some sf → sf.unsealing = true →
      exec (.shopen pm t1 t2) s = .next (s.sendsWord c (-1))) ∧
    (∀ sf, (s.fn c.x.id.fn).shelf (c.word 0).toNat = some sf → sf.unsealing = false → (∀ n, n < 8 → ¬ free n) →
      exec (.shopen pm t1 t2) s = .next (s.sendsWord c (-3))) ∧
    (∀ sf n, (s.fn c.x.id.fn).shelf (c.word 0).toNat = some sf → sf.unsealing = false → n < 8 → free n →
      (∀ j, j < n → ¬ free j) →
      exec (.shopen pm t1 t2) s = .next (s.records c (.scalar (BitVec.ofNat 64 n)) (.shopen n sf.id)))) ∧
  (∀ s c pm t1 t2, Selected s (.shclose pm t1 t2) c → shelfDrained c = true →
    ((∃ id, (c.word 0).toNat < 8 ∧ c.x.sh.toList.getD (c.word 0).toNat none = some id) →
      exec (.shclose pm t1 t2) s = .next (s.records c (.scalar 0) (.shclose (c.word 0).toNat))) ∧
    ((¬ ∃ id, (c.word 0).toNat < 8 ∧ c.x.sh.toList.getD (c.word 0).toNat none = some id) →
      exec (.shclose pm t1 t2) s = .next (s.slotFault c ⟨.loanRights, c.word 0, 0⟩))) ∧
  (∀ s c pm field shelf k t1 b p x, Selected s (.lbase pm field shelf k t1) c →
    (shelf = false → (c.x.reg k.toNat).info = some (b, p, x)) →
    (shelf = true → ∃ id sf, c.x.sh.toList.getD k.toNat none = some id ∧ (s.fn c.x.id.fn).shelf id = some sf ∧
      (sf.base, sf.pages, sf.cxl) = (b, p, x)) →
    exec (.lbase pm field shelf k t1) s = .next (s.sendsWord c (BitVec.ofNat 64 (match field with
      | .base => b * 65536
      | .len => p
      | .tier => if x then 1 else 0))))

/-- R104 to R109, R291 to R293: a register in the wrong state raises loan-rights, so do LSPLIT with 0 pages, with the
whole length or more, or without a free register, and LBASE of an empty register or a closed slot; LGIVE outside a
meeting and UNSEAL inside one raise meeting-state. The model's choice: meeting-state comes before loan-rights
(assumption log 11 for UNSEAL, 89 for LGIVE). -/
def Obligations.OwnershipFaults : Prop :=
  (∀ s c pm k t1, Selected s (.lsplit pm k t1) c → lsplitTurn c = true →
    let named (r : Nat) : Prop := ∃ j pm' x' kk g, c.fl.instr j = some (.palloc pm' x' kk g) ∧ kk.toNat = r ∧
      j < c.fl.words.length
    (∀ b p x, c.x.reg k.toNat = .loan b p x → (c.word 0).toNat = 0 ∨ p ≤ (c.word 0).toNat ∨
      ∀ r, r < 8 → c.x.reg r ≠ .empty ∨ named r ∨ r ∈ c.x.takenRegs) →
    exec (.lsplit pm k t1) s = .next (s.slotFault c ⟨.loanRights, BitVec.ofNat 64 k.toNat, 0⟩)) ∧
  (∀ s c pm field shelf k t1, Selected s (.lbase pm field shelf k t1) c →
    (shelf = false → c.x.reg k.toNat = .empty) →
    (shelf = true → ∀ id, c.x.sh.toList.getD k.toNat none = some id → (s.fn c.x.id.fn).shelf id = none) →
    exec (.lbase pm field shelf k t1) s = .next (s.slotFault c ⟨.loanRights, BitVec.ofNat 64 k.toNat, 0⟩)) ∧
  (∀ s c pm k t1, Selected s (.pfree pm k t1) c → c.x.drained k.toNat = true →
    (∀ b p x, c.x.reg k.toNat ≠ .loan b p x) →
    exec (.pfree pm k t1) s = .next (s.slotFault c ⟨.loanRights, BitVec.ofNat 64 k.toNat, 0⟩)) ∧
  (∀ s c pm k t1, Selected s (.seal pm k t1) c → c.x.drained k.toNat = true →
    (∀ b p x, c.x.reg k.toNat ≠ .loan b p x) →
    exec (.seal pm k t1) s = .next (s.slotFault c ⟨.loanRights, BitVec.ofNat 64 k.toNat, 0⟩)) ∧
  (∀ s c pm k t1, Selected s (.lgive pm k t1) c → c.x.drained k.toNat = true → s.partner c.x = none →
    exec (.lgive pm k t1) s = .next (s.slotFault c ⟨.meetingState, 0, 0⟩)) ∧
  (∀ s c pm k t1 q, Selected s (.lgive pm k t1) c → c.x.drained k.toNat = true → s.partner c.x = some q →
    c.x.reg k.toNat = .empty →
    exec (.lgive pm k t1) s = .next (s.slotFault c ⟨.loanRights, BitVec.ofNat 64 k.toNat, 0⟩)) ∧
  (∀ s c pm ex k off, Selected s (.unseal pm ex k off) c → c.x.inMeeting = true →
    exec (.unseal pm ex k off) s = .next (s.slotFault c ⟨.meetingState, 0, 0⟩)) ∧
  (∀ s c pm ex k off, Selected s (.unseal pm ex k off) c → c.x.inMeeting = false →
    (∀ b p x id v, c.x.reg k.toNat = .sealed b p x id v → v = c.x.id.fn ∧ c.x.sh.toList.contains (some id) = true) →
    exec (.unseal pm ex k off) s = .next (s.slotFault c ⟨.loanRights, BitVec.ofNat 64 k.toNat, 0⟩))

/-! ### Slots: activities, meetings, closures -/

/-- R295, R298 to R303: SPAWN sends the serial it has reserved; RETIRE, YIELD, SLEEP, GANG, SPLIT, MEET, GATHER, PART
and HCALL choose their exits, with what each captures. The model's choice: a target is taken modulo 2^64 (assumption log
97). -/
def Obligations.ActivitySlots : Prop :=
  (∀ s c pm share region banks cl t1, Selected s (.spawn pm share region banks cl t1) c →
    imageQuiet share region c = true →
    exec (.spawn pm share region banks cl t1) s =
      let n := ({ s with cur := none } : State).newSerial c.x.id.fn
      .next (n.2.records c (.scalar (BitVec.ofNat 64 n.1)) (.spawn cl.toNat (banks.toNat + 1) n.1
        (if share then some (c.word 0) else none)
        (if region then some (c.word (if share then 1 else 0)) else none)))) ∧
  (∀ s c pm ex, Selected s (.retire pm ex) c → c.x.inMeeting = false →
    exec (.retire pm ex) s = .next (s.exits c .retire)) ∧
  (∀ s c pm ex off, Selected s (.yield pm ex off) c → exec (.yield pm ex off) s =
    .next (s.exits c (.yield (((c.fl.addr : Int) + 16 * off.toInt) % 2 ^ 64).toNat))) ∧
  (∀ s c pm ex off, Selected s (.sleep pm ex off) c → exec (.sleep pm ex off) s =
    .next (s.exits c (.sleep (c.word 0) (((c.fl.addr : Int) + 16 * off.toInt) % 2 ^ 64).toNat))) ∧
  (∀ s c pm ex shape off, Selected s (.gang pm ex shape off) c → c.x.inMeeting = false → c.x.stack = [] →
    exec (.gang pm ex shape off) s =
      .next (s.exits c (.gang shape (((c.fl.addr : Int) + 16 * off.toInt) % 2 ^ 64).toNat))) ∧
  (∀ s c pm ex off, Selected s (.split pm ex off) c → exec (.split pm ex off) s =
    .next (s.exits c (.split (((c.fl.addr : Int) + 16 * off.toInt) % 2 ^ 64).toNat))) ∧
  (∀ s c pm ex off, Selected s (.meet pm ex off) c → meetQuiet c = true → c.x.inMeeting = false →
    c.x.lugOk (c.word 1) = true → exec (.meet pm ex off) s =
      .next (s.exits c (.meet (c.word 0) (c.word 1) (c.word 2) (((c.fl.addr : Int) + 16 * off.toInt) % 2 ^ 64).toNat))) ∧
  (∀ s c pm ex op off, Selected s (.gather pm ex op off) c → c.x.inMeeting = false →
    c.x.bad.contains (.register c.x.id .s 13) = false → exec (.gather pm ex op off) s =
    .next (s.exits c (.gather op (c.word 0) (c.word 1) (c.tok 2) ((c.x.s.toList.getD 13 0).toNat % 2 ^ 32)
      (((c.fl.addr : Int) + 16 * off.toInt) % 2 ^ 64).toNat))) ∧
  (∀ s c pm ex off, Selected s (.part pm ex off) c → partQuiet c = true → c.x.inMeeting = true →
    exec (.part pm ex off) s = .next (s.exits c (.part (((c.fl.addr : Int) + 16 * off.toInt) % 2 ^ 64).toNat))) ∧
  (∀ s c pm ex off, Selected s (.hcall pm ex off) c → c.x.inMeeting = false → c.x.id.fn ≠ 0 →
    exec (.hcall pm ex off) s =
      .next (s.exits c (.hcall (c.word 0) (((c.fl.addr : Int) + 16 * off.toInt) % 2 ^ 64).toNat)))

/-- R47, R56, R298, R300, R303, R326, R332: RETIRE, GANG, MEET, GATHER and HCALL inside a meeting and PART outside one
raise meeting-state; GANG with a nonzero depth apply-stack; MEET with a bad descriptor luggage; HCALL with hypervisor
privilege a privilege fault. R362: GATHER, which reads S13, raises data error where that register has a detected error.
The model's choices: meeting-state comes before the other checks (assumption log 11), and the data error names offset 104
(assumption log 13). -/
def Obligations.ActivityFaults : Prop :=
  (∀ s c pm ex, Selected s (.retire pm ex) c → c.x.inMeeting = true →
    exec (.retire pm ex) s = .next (s.slotFault c ⟨.meetingState, 0, 0⟩)) ∧
  (∀ s c pm ex shape off, Selected s (.gang pm ex shape off) c → c.x.inMeeting = true →
    exec (.gang pm ex shape off) s = .next (s.slotFault c ⟨.meetingState, 0, 0⟩)) ∧
  (∀ s c pm ex shape off, Selected s (.gang pm ex shape off) c → c.x.inMeeting = false → c.x.stack ≠ [] →
    exec (.gang pm ex shape off) s =
      .next (s.slotFault c ⟨.applyStack, BitVec.ofNat 64 c.x.stack.length, 0⟩)) ∧
  (∀ s c pm ex off, Selected s (.meet pm ex off) c → meetQuiet c = true → c.x.inMeeting = true →
    exec (.meet pm ex off) s = .next (s.slotFault c ⟨.meetingState, 0, 0⟩)) ∧
  (∀ s c pm ex off, Selected s (.meet pm ex off) c → meetQuiet c = true → c.x.inMeeting = false →
    (4 < (c.word 1).toNat / 16 % 8 ∨ 2 ^ 8 ≤ (c.word 1).toNat ∨ (0 < (c.word 1).toNat / 16 % 8 ∧
      (16 < (c.word 1).toNat % 16 + (c.word 1).toNat / 16 % 8 ∨
        c.x.banks < (c.word 1).toNat % 16 + (c.word 1).toNat / 16 % 8))) →
    exec (.meet pm ex off) s = .next (s.slotFault c ⟨.luggage, c.word 1, 0⟩)) ∧
  (∀ s c pm ex op off, Selected s (.gather pm ex op off) c → c.x.inMeeting = true →
    exec (.gather pm ex op off) s = .next (s.slotFault c ⟨.meetingState, 0, 0⟩)) ∧
  (∀ s c pm ex op off, Selected s (.gather pm ex op off) c → c.x.inMeeting = false →
    c.x.bad.contains (.register c.x.id .s 13) = true →
    exec (.gather pm ex op off) s = .next (s.slotFault c ⟨.dataError, 104, 0⟩)) ∧
  (∀ s c pm ex off, Selected s (.part pm ex off) c → partQuiet c = true → c.x.inMeeting = false →
    exec (.part pm ex off) s = .next (s.slotFault c ⟨.meetingState, 0, 0⟩)) ∧
  (∀ s c pm ex off, Selected s (.hcall pm ex off) c → c.x.inMeeting = true →
    exec (.hcall pm ex off) s = .next (s.slotFault c ⟨.meetingState, 0, 0⟩)) ∧
  (∀ s c pm ex off, Selected s (.hcall pm ex off) c → c.x.inMeeting = false → c.x.id.fn = 0 →
    exec (.hcall pm ex off) s = .next (s.slotFault c ⟨.privilege, 0, 0⟩))

/-- R50, R51, R87, R241, R304: XRD sends the partner's register as its snapshot holds it; outside a meeting, after the
partner has left and for a class M or C number above 7 it raises meeting-state. A handle of an environment in the
partner's spill frame is reloaded first, or raises environment-budget when no records can be had; a register that held a
detected error when the snapshot was taken raises data error. The model's choices: a handle whose environment is gone
raises record-integrity (assumption log 66) with the address of the partner's record, and the data error names the
register's offset (assumption log 13); XRD counts as a use of the environment (assumption log 23). -/
def Obligations.XrdSlot : Prop :=
  ∀ s c pm cls t1 t2, Selected s (.xrd pm cls t1 t2) c →
    let n := (c.word 0).toNat % 32
    (s.partner c.x = none → exec (.xrd pm cls t1 t2) s = .next (s.slotFault c ⟨.meetingState, 0, 0⟩)) ∧
    (∀ y m, s.partner c.x = some (y, m) →
      ((cls = .m ∨ cls = .c) → 7 < n → exec (.xrd pm cls t1 t2) s = .next (s.slotFault c ⟨.meetingState, 0, 0⟩)) ∧
      (((cls = .m ∨ cls = .c) → n ≤ 7) → m.snap.bad.contains (cls, n) = false →
        (cls = .s → exec (.xrd pm cls t1 t2) s = .next (s.sendsWord c (m.snap.s.toList.getD n 0))) ∧
        (cls = .m → exec (.xrd pm cls t1 t2) s = .next (s.sendsWord c (m.snap.m.toList.getD n 0))) ∧
        (cls = .v → exec (.xrd pm cls t1 t2) s =
          let t : Token := .vector (m.snap.v.toList.getD n 0) 0
          .next (s.sends c t t)) ∧
        (cls = .c → (m.snap.c.toList.getD n Handle.none).kind ≠ .spilled →
          (s.stale y (m.snap.c.toList.getD n Handle.none) = false → exec (.xrd pm cls t1 t2) s =
            let h := m.snap.c.toList.getD n Handle.none
            .next ((s.touchEnv y h).sends c (.handle h) (.handle h))) ∧
          (s.stale y (m.snap.c.toList.getD n Handle.none) = true → exec (.xrd pm cls t1 t2) s =
            .next (s.slotFault c ⟨.recordIntegrity, BitVec.ofNat 64 y.recAt, 0⟩))) ∧
        (cls = .c → (m.snap.c.toList.getD n Handle.none).kind = .spilled →
          let r := ({ s with cur := none } : State).reload y.id (m.snap.c.toList.getD n Handle.none).index.toNat
          (r = none → exec (.xrd pm cls t1 t2) s =
            .next (s.slotFault c ⟨.environmentBudget, BitVec.allOnes 64, 0⟩)) ∧
          (∀ t z m2, r = some t → t.act y.id = some z → z.meet = some m2 → exec (.xrd pm cls t1 t2) s =
            let h := m2.snap.c.toList.getD n Handle.none
            .next (t.sends c (.handle h) (.handle h))))) ∧
      (((cls = .m ∨ cls = .c) → n ≤ 7) → m.snap.bad.contains (cls, n) = true →
        exec (.xrd pm cls t1 t2) s =
          .next (s.slotFault c ⟨.dataError, BitVec.ofNat 64 (regOffset cls n), 0⟩)))

/-- R80, R305: CENV with an entry that is no multiple of 64 raises misalignment, with 31 words or more environment-word;
with 0 words it sends a bare handle; otherwise the environment store of the core takes a zeroed environment of the
executor, with count 0 until the commit, and CENV sends its handle. The model's choice: a misaligned entry is looked at
before the word count (assumption log 89). -/
def Obligations.CenvSlot : Prop :=
  ∀ s c pm t1, Selected s (.cenv pm t1) c →
    let a := (c.word 0).toNat
    let n := (c.word 1).toNat
    (a % 64 ≠ 0 → exec (.cenv pm t1) s = .next (s.slotFault c ⟨.misalignment, c.word 0, 0⟩)) ∧
    (a % 64 = 0 → 31 ≤ n → exec (.cenv pm t1) s = .next (s.slotFault c ⟨.environmentWord, c.word 1, 0⟩)) ∧
    (a % 64 = 0 → n = 0 → exec (.cenv pm t1) s =
      let t : Token := .handle ⟨.bare, 0, 0, BitVec.ofNat 42 (a / 64)⟩
      .next (s.sends c t t)) ∧
    (∀ p i, a % 64 = 0 → 0 < n → n < 31 → c.x.place = some p → (s.core p.core).room (envRecs n) = some i →
      exec (.cenv pm t1) s =
        let e : Env := ⟨c.x.id.serial, 0, n, List.replicate n 0, List.replicate n 0, s.fresh, some c.x.id, []⟩
        let h : Handle := ⟨.store, BitVec.ofNat 12 ((s.core p.core).gen i), BitVec.ofNat 8 i, BitVec.ofNat 42 (a / 64)⟩
        let t := (s.modCore p.core fun k => { k with envs := k.envs ++ [(i, e)] })
        .next (({ t with fresh := s.fresh + 1 } : State).records c (.handle h) (.cenv h n)))

/-- R81, R306, R307, R309, R310: CPUT of an unwritten word of an environment that this execution made keeps the word
(for .vec eight words with their kinds, for .ref the frame's reference) and passes the handle on, a word that it does
not have, that is written or of another environment raises environment-word, a frame offset past the banks held carrel
rights; CDROP, APPLY and VAPPLY are kept for the commit. The model's choice: a target is taken modulo 2^64 (assumption
log 97). -/
def Obligations.ClosureSlots : Prop :=
  (∀ s c pm mode w t1 h n, Selected s (.cput pm mode w t1) c → c.tok 0 = .handle h → c.fl.ownEnv h = some n →
    let k := match mode with | .vec => 8 | _ => 1
    w.toNat + k ≤ n → (∀ j, w.toNat ≤ j → j < w.toNat + k → c.fl.putDone h j = false) →
    (mode = .ref → (c.word 1).toNat % 2 ^ 19 < c.x.banks * 24576) →
    exec (.cput pm mode w t1) s = .next (s.records c (.handle h) (.cput h (match mode with
      | .val => [(w.toNat, 0, c.word 1)]
      | .ref => [(w.toNat, 1, BitVec.ofNat 64 (c.x.frameGen c.x.stack.length * 2 ^ 48 + c.x.stack.length * 2 ^ 41 +
          (c.word 1).toNat % 2 ^ 19))]
      | .vec => (upFrom 0 8).map fun j =>
          (w.toNat + j, if j = 0 then 2 else 3, BitVec.ofNat 64 ((c.tok 1).vec.toNat / 2 ^ (64 * j))))))) ∧
  (∀ s c pm mode w t1, Selected s (.cput pm mode w t1) c →
    (∀ h n, c.tok 0 = .handle h → c.fl.ownEnv h = some n →
      n < w.toNat + (match mode with | .vec => 8 | _ => 1) ∨
      ∃ j, w.toNat ≤ j ∧ j < w.toNat + (match mode with | .vec => 8 | _ => 1) ∧ c.fl.putDone h j = true) →
    exec (.cput pm mode w t1) s = .next (s.slotFault c ⟨.environmentWord, BitVec.ofNat 64 w.toNat, 0⟩)) ∧
  (∀ s c pm w t1 h n, Selected s (.cput pm .ref w t1) c → c.tok 0 = .handle h → c.fl.ownEnv h = some n →
    w.toNat < n → c.fl.putDone h w.toNat = false → c.x.banks * 24576 ≤ (c.word 1).toNat % 2 ^ 19 →
    exec (.cput pm .ref w t1) s =
      .next (s.slotFault c ⟨.carrelRights, BitVec.ofNat 64 ((c.word 1).toNat % 2 ^ 19), 0⟩)) ∧
  (∀ s c r, Selected s (.cdrop r) c → exec (.cdrop r) s = .next (s.records c .null (.cdrop r.toNat))) ∧
  (∀ s c pm ex r, Selected s (.apply pm ex r) c → exec (.apply pm ex r) s = .next (s.exits c (.apply r.toNat))) ∧
  (∀ s c pm ex m off, Selected s (.vapply pm ex m off) c → exec (.vapply pm ex m off) s =
    .next (s.exits c (.vapply m.toNat (c.tok 0) (((c.fl.addr : Int) + 16 * off.toInt) % 2 ^ 64).toNat)))

/-- R77, R92, R94, R308: ENVRD and ENVWR of a word of the current environment: a plain word is extended by the type, a
vector word needs the 64-bit type, a by-reference word whose owner, depth and generation hold goes to the carrel as a
load or store, with the checks of R280; a dangling reference, a missing word and a write to a plain word raise their
faults. R76, R361, R362: a stale current environment raises record-integrity; a detected error in its header or in the
record of the word, or of a further word of a vector, raises data error. The model's choices: the record address and the
offset, 8 times the word, that these faults name (assumption log 13), and that the header's record counts for every word
(assumption log 91). -/
def Obligations.EnvironmentWordSlots : Prop :=
  (∀ s c pm lsid ty w t1, Selected s (.envrd pm lsid ty w t1) c →
    (s.stale c.x c.x.env = true → exec (.envrd pm lsid ty w t1) s =
      .next (s.slotFault c ⟨.recordIntegrity, BitVec.ofNat 64 c.x.recAt, 0⟩)) ∧
    (s.stale c.x c.x.env = false → (∀ e, s.envOf c.x c.x.env = some e → e.words ≤ w.toNat) →
      exec (.envrd pm lsid ty w t1) s = .next (s.slotFault c ⟨.environmentWord, BitVec.ofNat 64 w.toNat, 0⟩)) ∧
    (∀ e, s.envOf c.x c.x.env = some e → w.toNat < e.words →
      0 ∈ e.bad ∨ (if w.toNat < 6 then 0 else 1 + (w.toNat - 6) / 8) ∈ e.bad →
      exec (.envrd pm lsid ty w t1) s = .next (s.slotFault c ⟨.dataError, BitVec.ofNat 64 (8 * w.toNat), 0⟩))) ∧
  (∀ s c pm lsid ty w t1 e, Selected s (.envrd pm lsid ty w t1) c →
    s.envOf c.x c.x.env = some e → w.toNat < e.words →
    let bad (j : Nat) : Prop := 0 ∈ e.bad ∨ (if j < 6 then 0 else 1 + (j - 6) / 8) ∈ e.bad
    ¬ bad w.toNat →
    let v := (e.vals.getD w.toNat 0).toNat
    let d := v / 2 ^ 41 % 2 ^ 7
    let live := c.x.id.serial = e.owner ∧ d ≤ c.x.stack.length ∧ c.x.frameGen d = v / 2 ^ 48 % 2 ^ 16
    let size := Ty.size ty
    let a := v % 2 ^ 19
    let f := rawTail (c.x.fmt (a / 24576)) (a % 24576)
    let n := if f = 0 then size else fmtSize f
    let bs := (upFrom a n).map fun o => (o, c.byte false lsid.toNat o)
    let x := leNat (bs.map (·.2))
    (e.kinds.getD w.toNat 0 = 0 ∨ e.kinds.getD w.toNat 0 = 3 →
      exec (.envrd pm lsid ty w t1) s = .next (s.sendsWord c (Ty.extend ty v))) ∧
    (e.kinds.getD w.toNat 0 = 2 → ty = .w64 → (∀ j, j < 8 → ¬ bad (w.toNat + j)) → exec (.envrd pm lsid ty w t1) s =
      let t : Token := .vector (e.vecAt w.toNat) 0
      .next (s.sends c t t)) ∧
    (∀ j, e.kinds.getD w.toNat 0 = 2 → ty = .w64 → j < 8 → bad (w.toNat + j) → (∀ i, i < j → ¬ bad (w.toNat + i)) →
      exec (.envrd pm lsid ty w t1) s =
        .next (s.slotFault c ⟨.dataError, BitVec.ofNat 64 (8 * (w.toNat + j)), 0⟩)) ∧
    (e.kinds.getD w.toNat 0 = 2 → ty ≠ .w64 → exec (.envrd pm lsid ty w t1) s =
      .next (s.slotFault c ⟨.environmentWord, BitVec.ofNat 64 w.toNat, 0⟩)) ∧
    (e.kinds.getD w.toNat 0 = 1 → ¬ live → exec (.envrd pm lsid ty w t1) s = .next (s.slotFault c
      ⟨.danglingFrame, e.vals.getD w.toNat 0, BitVec.ofNat 64 c.x.stack.length⟩)) ∧
    (e.kinds.getD w.toNat 0 = 1 → live → c.x.holds a size = true → f ≤ 8 → a % n = 0 →
      (∀ o, a ≤ o → o < a + n → c.badAt false lsid.toNat o = false) →
      exec (.envrd pm lsid ty w t1) s = .next (s.loads c (.scalar (Ty.extend ty (if f = 0 then x
        else tyFromNum (Ty.signed ty) (8 * size) (fmtRead f x)))) bs)) ∧
    (e.kinds.getD w.toNat 0 = 1 → live → c.x.holds a size = false →
      exec (.envrd pm lsid ty w t1) s = .next (s.slotFault c ⟨.carrelRights, BitVec.ofNat 64 a, 0⟩)) ∧
    (e.kinds.getD w.toNat 0 = 1 → live → c.x.holds a size = true → f = 9 ∨ f = 10 →
      exec (.envrd pm lsid ty w t1) s =
        .next (s.slotFault c ⟨.bankFormat, BitVec.ofNat 64 (a / 24576 + 16 * f), 0⟩)) ∧
    (e.kinds.getD w.toNat 0 = 1 → live → c.x.holds a size = true → f ≤ 8 → a % n ≠ 0 →
      exec (.envrd pm lsid ty w t1) s = .next (s.slotFault c ⟨.misalignment, BitVec.ofNat 64 a, 0⟩)) ∧
    (∀ b, e.kinds.getD w.toNat 0 = 1 → live → c.x.holds a size = true → f ≤ 8 → a % n = 0 → a ≤ b → b < a + n →
      c.badAt false lsid.toNat b = true → (∀ o, a ≤ o → o < b → c.badAt false lsid.toNat o = false) →
      exec (.envrd pm lsid ty w t1) s = .next (s.slotFault c ⟨.dataError, BitVec.ofNat 64 b, 0⟩))) ∧
  (∀ s c pm lsid ty w, Selected s (.envwr pm lsid ty w) c →
    (s.stale c.x c.x.env = true → exec (.envwr pm lsid ty w) s =
      .next (s.slotFault c ⟨.recordIntegrity, BitVec.ofNat 64 c.x.recAt, 0⟩)) ∧
    (s.stale c.x c.x.env = false → (∀ e, s.envOf c.x c.x.env = some e → e.words ≤ w.toNat) →
      exec (.envwr pm lsid ty w) s = .next (s.slotFault c ⟨.environmentWord, BitVec.ofNat 64 w.toNat, 0⟩)) ∧
    (∀ e, s.envOf c.x c.x.env = some e → w.toNat < e.words →
      0 ∈ e.bad ∨ (if w.toNat < 6 then 0 else 1 + (w.toNat - 6) / 8) ∈ e.bad →
      exec (.envwr pm lsid ty w) s = .next (s.slotFault c ⟨.dataError, BitVec.ofNat 64 (8 * w.toNat), 0⟩))) ∧
  (∀ s c pm lsid ty w e, Selected s (.envwr pm lsid ty w) c →
    s.envOf c.x c.x.env = some e → w.toNat < e.words →
    let bad (j : Nat) : Prop := 0 ∈ e.bad ∨ (if j < 6 then 0 else 1 + (j - 6) / 8) ∈ e.bad
    ¬ bad w.toNat →
    let v := (e.vals.getD w.toNat 0).toNat
    let d := v / 2 ^ 41 % 2 ^ 7
    let live := c.x.id.serial = e.owner ∧ d ≤ c.x.stack.length ∧ c.x.frameGen d = v / 2 ^ 48 % 2 ^ 16
    let size := Ty.size ty
    let a := v % 2 ^ 19
    let f := rawTail (c.x.fmt (a / 24576)) (a % 24576)
    let n := if f = 0 then size else fmtSize f
    let x := if f = 0 then (c.word 0).toNat else fmtWrite f (Machine.Num.ofInt
      (bitsInt (Ty.signed ty) (8 * size) (c.word 0).toNat))
    (e.kinds.getD w.toNat 0 ≠ 1 → exec (.envwr pm lsid ty w) s =
      .next (s.slotFault c ⟨.environmentWord, BitVec.ofNat 64 w.toNat, 0⟩)) ∧
    (e.kinds.getD w.toNat 0 = 1 → ¬ live → exec (.envwr pm lsid ty w) s = .next (s.slotFault c
      ⟨.danglingFrame, e.vals.getD w.toNat 0, BitVec.ofNat 64 c.x.stack.length⟩)) ∧
    (e.kinds.getD w.toNat 0 = 1 → live → c.x.holds a size = true → f ≤ 8 → a % n = 0 →
      exec (.envwr pm lsid ty w) s = .next (s.stores c .null false ((upFrom a n).zip (leBytes n x)) [])) ∧
    (e.kinds.getD w.toNat 0 = 1 → live → c.x.holds a size = false →
      exec (.envwr pm lsid ty w) s = .next (s.slotFault c ⟨.carrelRights, BitVec.ofNat 64 a, 0⟩)) ∧
    (e.kinds.getD w.toNat 0 = 1 → live → c.x.holds a size = true → f = 9 ∨ f = 10 →
      exec (.envwr pm lsid ty w) s =
        .next (s.slotFault c ⟨.bankFormat, BitVec.ofNat 64 (a / 24576 + 16 * f), 0⟩)) ∧
    (e.kinds.getD w.toNat 0 = 1 → live → c.x.holds a size = true → f ≤ 8 → a % n ≠ 0 →
      exec (.envwr pm lsid ty w) s = .next (s.slotFault c ⟨.misalignment, BitVec.ofNat 64 a, 0⟩)))

/-! ### Slots: matrix commands and the system -/

/-- R165, R181, R184, R323, R325: a matrix command sends 0 and records its kind and shape record offset, unless it
depends on a failed command of its gang or on a plane with an unreported reserved code; in a strict region one that
depends on a plane waits for a Q4N load of it (assumption log 55). Where it does depend on one, it takes the fault of the
report. MWAIT with no failed masked command sends 0. -/
def Obligations.MatrixSlots : Prop :=
  (∀ s c pm mode t1, Selected s (.mfuse pm mode t1) c → codesKnown (.mfuse mode) c = true →
    c.dependent (c.newCmd (.mfuse mode)) = .ok () →
    exec (.mfuse pm mode t1) s = .next (s.records c (.scalar 0) (.matrix (.mfuse mode) none))) ∧
  (∀ s c pm sp t1, Selected s (.mwload pm sp t1) c → codesKnown (.mwload sp) c = true →
    c.dependent (c.newCmd (.mwload sp)) = .ok () →
    exec (.mwload pm sp t1) s = .next (s.records c (.scalar 0) (.matrix (.mwload sp) (some (c.word 0).toNat)))) ∧
  (∀ s c pm t1, Selected s (.mwswap pm t1) c → codesKnown .mwswap c = true → c.dependent (c.newCmd .mwswap) = .ok () →
    exec (.mwswap pm t1) s = .next (s.records c (.scalar 0) (.matrix .mwswap none))) ∧
  (∀ s c pm zb ow t t1, Selected s (.mstream pm zb ow t t1) c → codesKnown (.mstream zb ow t.toNat) c = true →
    c.dependent (c.newCmd (.mstream zb ow t.toNat)) = .ok () →
    exec (.mstream pm zb ow t t1) s =
      .next (s.records c (.scalar 0) (.matrix (.mstream zb ow t.toNat) (some (c.word 0).toNat)))) ∧
  (∀ s c pm t t1, Selected s (.mstore pm t t1) c →
    c.dependent (c.newCmd (.mstore t.toNat)) = .ok () →
    exec (.mstore pm t t1) s =
      .next (s.records c (.scalar 0) (.matrix (.mstore t.toNat) (some (c.word 0).toNat)))) ∧
  (∀ s c pm mask t1, Selected s (.mrel pm mask t1) c → c.dependent (c.newCmd (.mrel mask.toNat)) = .ok () →
    exec (.mrel pm mask t1) s = .next (s.records c (.scalar 0) (.matrix (.mrel mask.toNat) none))) ∧
  (∀ s c pm i32 t t1, Selected s (.mldacc pm i32 t t1) c →
    c.dependent (c.newCmd (.mldacc i32 t.toNat)) = .ok () →
    exec (.mldacc pm i32 t t1) s =
      .next (s.records c (.scalar 0) (.matrix (.mldacc i32 t.toNat) (some (c.word 0).toNat)))) ∧
  (∀ s c e pm mode t1, Selected s (.mfuse pm mode t1) c → codesKnown (.mfuse mode) c = true →
    c.dependent (c.newCmd (.mfuse mode)) = .error e → exec (.mfuse pm mode t1) s = .next (s.slotFault c e)) ∧
  (∀ s c e pm sp t1, Selected s (.mwload pm sp t1) c → codesKnown (.mwload sp) c = true →
    c.dependent (c.newCmd (.mwload sp)) = .error e → exec (.mwload pm sp t1) s = .next (s.slotFault c e)) ∧
  (∀ s c e pm t1, Selected s (.mwswap pm t1) c → codesKnown .mwswap c = true →
    c.dependent (c.newCmd .mwswap) = .error e → exec (.mwswap pm t1) s = .next (s.slotFault c e)) ∧
  (∀ s c e pm zb ow t t1, Selected s (.mstream pm zb ow t t1) c → codesKnown (.mstream zb ow t.toNat) c = true →
    c.dependent (c.newCmd (.mstream zb ow t.toNat)) = .error e → exec (.mstream pm zb ow t t1) s = .next (s.slotFault c e)) ∧
  (∀ s c e pm t t1, Selected s (.mstore pm t t1) c →
    c.dependent (c.newCmd (.mstore t.toNat)) = .error e → exec (.mstore pm t t1) s = .next (s.slotFault c e)) ∧
  (∀ s c e pm mask t1, Selected s (.mrel pm mask t1) c →
    c.dependent (c.newCmd (.mrel mask.toNat)) = .error e → exec (.mrel pm mask t1) s = .next (s.slotFault c e)) ∧
  (∀ s c e pm i32 t t1, Selected s (.mldacc pm i32 t t1) c →
    c.dependent (c.newCmd (.mldacc i32 t.toNat)) = .error e → exec (.mldacc pm i32 t t1) s = .next (s.slotFault c e)) ∧
  (∀ s c pm t1 t2, Selected s (.mwait pm t1 t2) c → tilesQuiet c = true →
    (∀ g, s.gangOf c.x = some g → g.failedOn (fun t => (c.word 0).getLsbD t) = none) →
    exec (.mwait pm t1 t2) s = .next (s.sendsWord c 0)) ∧
  (∀ s c pm t1 t2 g m, Selected s (.mwait pm t1 t2) c → tilesQuiet c = true → s.gangOf c.x = some g →
    g.failedOn (fun t => (c.word 0).getLsbD t) = some m →
    exec (.mwait pm t1 t2) s = .next (s.slotFault c ⟨.shape, BitVec.ofNat 64 m.block,
      BitVec.ofNat 64 (m.offs.getD (memberOf c.x) 0 * 256 + m.slot)⟩))

/-- R231, R327, R388: what SRD sends for every special register. The %vf group needs hypervisor privilege: without it SRD
and SWR raise a privilege fault. SRD of a context with a detected error raises data error (R362). SWR sends its operand
and keeps the write for the commit. The model's choices: SRD raises that data error (assumption log 52), with detail 0
(assumption log 13). -/
def Obligations.SpecialRegisterSlots : Prop :=
  (∀ s c pm num t1, Selected s (.srd pm num t1) c →
    (0x100 ≤ num.toNat ∧ num.toNat ≤ 0x104 → c.x.id.fn = 0) → c.x.bad.contains (.context c.x.id) = false →
    wellFormed (.srd pm num t1) = true →
    let x := c.x
    let nat (n : Nat) : Word := BitVec.ofNat 64 n
    let core := match x.place with | some p => p.core | none => 0
    exec (.srd pm num t1) s = .next (s.sendsWord c (
      if num = 0x000 then nat x.id.serial
      else if num = 0x001 then nat x.region
      else if num = 0x002 then nat core
      else if num = 0x003 then nat (match x.gang with | some g => g.2 | none => 0)
      else if num = 0x004 then nat x.prio
      else if num = 0x005 then nat x.weight
      else if num = 0x006 then nat (match x.meet with | some m => if m.begun then m.partner.serial else 0 | none => 0)
      else if num = 0x007 then nat x.stack.length
      else if num = 0x008 then nat (match x.rep with | some r => r.2 | none => 0)
      else if num = 0x010 then x.tags
      else if num = 0x011 then x.tagerr
      else if num = 0x012 then x.tagWhy
      else if num = 0x013 then nat (x.copies.filter fun p => p.kind == .cout || p.kind == .cscat || p.kind == .cfill).length
      else if num = 0x014 then nat (x.copies.filter fun p => p.kind == .cin || p.kind == .cgath).length
      else if num = 0x020 then nat s.time
      else if num = 0x021 then nat ((s.core core).cycles / 160)
      else if num = 0x022 then x.seed
      else if num = 0x030 then x.lives.setWidth 64
      else if num = 0x031 then x.livev.setWidth 64
      else if num = 0x032 then x.livem.setWidth 64
      else if num = 0x033 then x.livec.setWidth 64
      else if num = 0x040 then x.flt.getD 0 0
      else if num = 0x041 then x.flt.getD 1 0
      else if num = 0x042 then x.flt.getD 2 0
      else if num = 0x043 then x.flt.getD 3 0
      else if num = 0x100 then nat s.vfbase
      else if num = 0x104 then nat (((upFrom 0 17).map fun v => (s.fn v).state.code * 4 ^ v).sum)
      else nat (s.vfLast * 256 + s.vfStatus)))) ∧
  (∀ s c pm num t1, Selected s (.srd pm num t1) c → (0x100 ≤ num.toNat ∧ num.toNat ≤ 0x104 → c.x.id.fn = 0) →
    c.x.bad.contains (.context c.x.id) = true →
    exec (.srd pm num t1) s = .next (s.slotFault c ⟨.dataError, 0, 0⟩)) ∧
  (∀ s c pm num t1, Selected s (.srd pm num t1) c → 0x100 ≤ num.toNat → num.toNat ≤ 0x104 → c.x.id.fn ≠ 0 →
    exec (.srd pm num t1) s = .next (s.slotFault c ⟨.privilege, 0, 0⟩)) ∧
  (∀ s c pm num t1, Selected s (.swr pm num t1) c → vfQuiet num c = true →
    (0x100 ≤ num.toNat ∧ num.toNat ≤ 0x104 → c.x.id.fn = 0) →
    exec (.swr pm num t1) s = .next (s.records c (.scalar (c.word 0)) (.swr num.toNat (c.word 0)))) ∧
  (∀ s c pm num t1, Selected s (.swr pm num t1) c → vfQuiet num c = true → 0x100 ≤ num.toNat → num.toNat ≤ 0x104 →
    c.x.id.fn ≠ 0 → exec (.swr pm num t1) s = .next (s.slotFault c ⟨.privilege, 0, 0⟩))

/-- R122, R328, R329: TLBINV at once removes from every acre the cached entries it names and sends 0, or 1 and no removal
for a function number above 16. SCRUB fixes its set, the quadrants that no enabled function holds, and sends nothing
until the clearing is done. -/
def Obligations.TlbinvAndScrubSlots : Prop :=
  (∀ s c pm kind t1 t2, Selected s (.tlbinv pm kind t1 t2) c →
    let l := (c.word 0).toNat
    let v := match kind with | .addr => l / 2 ^ 48 % 32 | .vf => l % 32 | .all => 0
    (16 < v → exec (.tlbinv pm kind t1 t2) s = .next (s.sendsWord c 1)) ∧
    (v ≤ 16 → exec (.tlbinv pm kind t1 t2) s = .next (({ s with acres := s.acres.map fun a =>
      { a with tlb := a.tlb.filter fun e => !(match kind with
        | .all => true
        | .vf => e.fn == v
        | .addr => e.fn == v && e.used.any fun u => u.1 == l / 2 ^ 16 % 2 ^ 32 ||
            (u.2 && u.1 / 32 == l / 2 ^ 16 % 2 ^ 32 / 32)) } } : State).sendsWord c 0))) ∧
  (∀ s c pm t1, Selected s (.scrub pm t1) c → s.scrub = none →
    ∃ t f, exec (.scrub pm t1) s = .next t ∧ t.scrub = some (s.freeQuads, c.x.id, c.k) ∧
      (t.act c.x.id).bind (·.flight) = some f ∧ (f.slot c.k).status = .pending ∧
      ∀ j, (f.slot j).ins = (c.fl.slot j).ins)

/-- R330, R331: what KILLQ and RESUME send, in the order of their checks, and what they keep for the commit. The model's
choice: RESUME answers 3, 2 for an unprivileged caller of another function, 1 and 2 in this order (assumption log 28). -/
def Obligations.KillqAndResumeSlots : Prop :=
  (∀ s c pm t1 t2, Selected s (.killq pm t1 t2) c → killqQuiet c = true →
    let v := (c.word 0).toNat % 32
    let q := (c.word 0).toNat / 2 ^ 8 % 64
    exec (.killq pm t1 t2) s =
      if v = 0 ∨ 16 < v ∨ (s.fn v).cfg.en = false then .next (s.sendsWord c 1)
      else if (s.fn v).cfg.lqcount ≤ q then .next (s.sendsWord c 2)
      else .next (s.records c (.scalar 0) (.killq v q))) ∧
  (∀ s c pm mode t1 t2, Selected s (.resume pm mode t1 t2) c →
    let l := (c.word 0).toNat
    let v := l / 2 ^ 32 % 32
    let target : Aid := ⟨if v = 0 then c.x.id.fn else v, l % 2 ^ 32⟩
    (l / 2 ^ 43 % 32 ≠ 0 ∨ 16 < v → exec (.resume pm mode t1 t2) s = .next (s.sendsWord c 3)) ∧
    (l / 2 ^ 43 % 32 = 0 → v ≤ 16 → c.x.id.fn ≠ 0 → v ≠ 0 →
      exec (.resume pm mode t1 t2) s = .next (s.sendsWord c 2)) ∧
    (l / 2 ^ 43 % 32 = 0 → v ≤ 16 → (c.x.id.fn = 0 ∨ v = 0) →
      (∀ y, s.act target = some y → y.run ≠ .faulted ∨ (∃ g m, y.gang = some (g, m) ∧ m ≠ 0) ∨
        s.resumeTaken target = true) →
      exec (.resume pm mode t1 t2) s = .next (s.sendsWord c 1)) ∧
    (∀ y, l / 2 ^ 43 % 32 = 0 → v ≤ 16 → s.act target = some y → y.run = .faulted →
      (∀ g m, y.gang = some (g, m) → m = 0) → s.resumeTaken target = false →
      (c.x.id.fn ≠ 0 → v = 0 → (s.fn target.fn).within y.region c.x.region = false →
        exec (.resume pm mode t1 t2) s = .next (s.sendsWord c 2)) ∧
      (c.x.id.fn = 0 ∨ (v = 0 ∧ (s.fn target.fn).within y.region c.x.region = true) →
        exec (.resume pm mode t1 t2) s = .next (s.records c (.scalar 0) (.resume target mode
          (if l.testBit 37 = true ∧ mode ≠ .kill then some (l / 2 ^ 38 % 32, BitVec.ofNat 64 (l / 2 ^ 48 % 2 ^ 16))
            else none))))))

/-! ### Slots: vectors -/

/-- R199, R200, R313: VADD, VSUB, VMUL, VFMA, VMIN and VMAX lane by lane: a lane whose mask bit is set and whose operands
carry no lane null gives the exact result, multiplied by the fourth operand and rounded, clamped or wrapped (VMIN and
VMAX: as it is); every other lane gives a lane null, or zero under zero policy 1. -/
def Obligations.VectorArithmeticSlots : Prop :=
  (∀ s c pm ty t1 t2 vs, Selected s (.vadd pm ty t1 t2) c → fragQuiet c = true → c.vecs ty = .ok vs →
    exec (.vadd pm ty t1 t2) s =
      let t := c.lanewise ty (vs.take 2) fun k v => c.laneResult ty k (Machine.Num.add c.rnd (v 0) (v 1))
      .next (s.sends c t t)) ∧
  (∀ s c pm ty t1 t2 vs, Selected s (.vsub pm ty t1 t2) c → fragQuiet c = true → c.vecs ty = .ok vs →
    exec (.vsub pm ty t1 t2) s =
      let t := c.lanewise ty (vs.take 2) fun k v => c.laneResult ty k (Machine.Num.add c.rnd (v 0) (v 1).neg)
      .next (s.sends c t t)) ∧
  (∀ s c pm ty t1 t2 vs, Selected s (.vmul pm ty t1 t2) c → fragQuiet c = true → c.vecs ty = .ok vs →
    exec (.vmul pm ty t1 t2) s =
      let t := c.lanewise ty (vs.take 2) fun k v => c.laneResult ty k ((v 0).mul (v 1))
      .next (s.sends c t t)) ∧
  (∀ s c pm ty t1 t2 vs, Selected s (.vfma pm ty t1 t2) c → fragQuiet c = true → c.vecs ty = .ok vs →
    exec (.vfma pm ty t1 t2) s =
      let t := c.lanewise ty (vs.take 3) fun k v =>
        c.laneResult ty k (Machine.Num.add c.rnd ((v 0).mul (v 1)) (v 2))
      .next (s.sends c t t)) ∧
  (∀ s c pm ty t1 t2 vs, Selected s (.vmin pm ty t1 t2) c → fragQuiet c = true → c.vecs ty = .ok vs →
    exec (.vmin pm ty t1 t2) s =
      let t := c.lanewise ty (vs.take 2) fun _ v => laneBits ty ((v 0).min (v 1))
      .next (s.sends c t t)) ∧
  (∀ s c pm ty t1 t2 vs, Selected s (.vmax pm ty t1 t2) c → fragQuiet c = true → c.vecs ty = .ok vs →
    exec (.vmax pm ty t1 t2) s =
      let t := c.lanewise ty (vs.take 2) fun _ v => laneBits ty ((v 0).max (v 1))
      .next (s.sends c t t))

/-- R314 to R316: VCMP sends one mask bit per participating lane whose condition holds; VLOGIC and VSHIFT act on the bits
of each participating lane; a select takes l where the mask bit is set and r elsewhere, with the lane nulls of the lane
it takes. -/
def Obligations.VectorCompareLogicShiftSlots : Prop :=
  (∀ s c pm ty cond t1 l r rest, Selected s (.vcmp pm ty cond t1) c → fragQuiet c = true →
    c.vecs ty = .ok (l :: r :: rest) → ∃ m : Word,
    exec (.vcmp pm ty cond t1) s = .next (s.sendsWord c m) ∧
    ∀ k, k < 64 → (m.getLsbD k = true ↔ k < ty.lanes ∧ c.maskBit k = true ∧ nullLane ty l.nulls k = false ∧
      nullLane ty r.nulls k = false ∧
      (let a := laneNum ty (lane ty l.vec k)
       let b := laneNum ty (lane ty r.vec k)
       if ty.isInt then (match cond with
          | .eq => a.int = b.int | .ne => a.int ≠ b.int | .lt => a.int < b.int | .le => a.int ≤ b.int
          | .gt => b.int < a.int | .ge => b.int ≤ a.int | .unord => False | .ord => True)
        else (match cond with
          | .eq => a.cmp b = some .eq
          | .ne => a.cmp b ≠ some .eq
          | .lt => a.cmp b = some .lt
          | .le => a.cmp b = some .lt ∨ a.cmp b = some .eq
          | .gt => a.cmp b = some .gt
          | .ge => a.cmp b = some .gt ∨ a.cmp b = some .eq
          | .unord => a.cmp b = none
          | .ord => a.cmp b ≠ none)))) ∧
  (∀ s c pm ty fn t1, Selected s (.vlogic pm ty fn t1) c → c.maskOk = .ok () → exec (.vlogic pm ty fn t1) s =
    let l := c.tok 0
    let r := c.toks.getD 1 (.scalar 0)
    let live (k : Nat) : Bool := c.maskBit k && !nullLane ty l.nulls k && !nullLane ty r.nulls k
    let t := ofLanes ty ((upFrom 0 ty.lanes).map fun k =>
      let a := lane ty l.vec k
      let b := lane ty r.vec k
      match fn with
      | .and => if live k then some (a &&& b) else c.skip
      | .or => if live k then some (a ||| b) else c.skip
      | .xor => if live k then some (a ^^^ b) else c.skip
      | .andn => if live k then some (a &&& (b ^^^ (2 ^ ty.width - 1))) else c.skip
      | .not => if live k then some (a ^^^ (2 ^ ty.width - 1)) else c.skip
      | .select => if c.maskBit k then (if nullLane ty l.nulls k then c.skip else some a)
          else (if nullLane ty r.nulls k then c.skip else some b))
    .next (s.sends c t t)) ∧
  (∀ s c pm ty kind var amount t1, Selected s (.vshift pm ty kind var amount t1) c → c.maskOk = .ok () →
    exec (.vshift pm ty kind var amount t1) s =
    let l := c.tok 0
    let r := c.toks.getD 1 (.scalar 0)
    let w := ty.width
    let t := ofLanes ty ((upFrom 0 ty.lanes).map fun k =>
      if c.maskBit k && !nullLane ty l.nulls k && !nullLane ty r.nulls k then
        let a := lane ty l.vec k
        let n := if var then lane ty r.vec k else amount.toNat
        some (match kind with
          | .shl => if n < w then a * 2 ^ n % 2 ^ w else 0
          | .shr => if n < w then a / 2 ^ n else 0
          | .sha => if n < w then intBits w (bitsInt true w a / 2 ^ n)
              else if bitsInt true w a < 0 then 2 ^ w - 1 else 0)
      else c.skip)
    .next (s.sends c t t))

/-- R169, R170, R317: VCVT converts each destination lane that its part feeds and its mask selects; lanes outside the
part of a narrowing conversion are zero. Without a prefix it rounds to nearest even, toward zero from float to integer.
-/
def Obligations.VcvtSlot : Prop :=
  ∀ s c pm src dst part t1 vs, Selected s (.vcvt pm src dst part t1) c → fragQuiet c = true → c.vecs src = .ok vs →
    exec (.vcvt pm src dst part t1) s =
      let l := vs.getD 0 .null
      let n := dst.lanes
      let m := src.lanes
      let p := part.toNat
      let rnd := if c.pfx.isNone && dst.isInt && !src.isInt then Rnd.rtz else c.rnd
      let t := ofLanes dst ((upFrom 0 n).map fun k =>
        let fed : Option Nat :=
          if m < n then (if p * m ≤ k ∧ k < p * m + m then some (k - p * m) else none)
          else if n < m then some (p * n + k) else some k
        match fed with
        | none => some 0
        | some i =>
          if c.maskBit k && !nullLane src l.nulls i then
            let e := laneNum src (lane src l.vec i)
            let e := match c.fourth src.isInt with | some q => e.mul q | none => e
            some (if dst.isInt then
                (if src.isInt then intLane dst c.sat e.int
                  else intBits dst.width (e.toIntClamp rnd (c.rho k) dst.isSigned dst.width))
              else dst.ffmt.round rnd c.sat (c.rho k) e)
          else c.skip)
      .next (s.sends c t t)

/-- R218, R219, R318, R319: VLD and VST that pass their checks with bank format f. Each participating lane of VLD reads
its bytes as R219 gives them and converts them to the lane type; each participating lane of VST writes its element,
higher lanes over lower ones. In an INT4 bank (format 10) lane k of a unit access is nibble k mod 2 of byte l + k / 2,
and a VST that writes one nibble of a byte keeps the other. R163, R165: in the codes of a Q4N bank (format 9) a lane of
VLD is the decoded value of its code under its block scale and superscale; in a strict region the lowest lane that meets
a reserved scale code raises strict-reserved-code with the code's offset and bits. R362: the lowest lane that reads a
byte with a detected error raises data error at the first such byte of its own. The model's choices: lanes are checked
from the lowest up (assumption log 51), the nibble that VST keeps counts as a read (assumption log 60), the corners of
logs 72 and 77, and raw access above the codes of a Q4N bank in every mode (assumption log 93). -/
def Obligations.VectorMemorySlots : Prop :=
  (∀ s c pm lsid ty mode t1 f, Selected s (.vld pm lsid ty mode t1) c →
    let l := c.word 0
    let idx := c.toks.getD 1 (.scalar 0)
    let ks := (upFrom 0 ty.lanes).filter (c.vPart ty)
    c.vCheck false ty mode l idx ks = .ok f → f ≤ 8 →
    let n := if f = 0 then ty.width / 8 else fmtSize f
    let adr (k : Nat) : Nat := vAddr mode ty n l idx k
    let bytes (k : Nat) : List (Nat × Byte) := (upFrom (adr k) n).map fun o => (o, c.byte false lsid.toNat o)
    (∀ k ∈ ks, ∀ o, adr k ≤ o → o < adr k + n → c.badAt false lsid.toNat o = false) →
    exec (.vld pm lsid ty mode t1) s =
      .next (s.loads c (ofLanes ty ((upFrom 0 ty.lanes).map fun k => if c.vPart ty k then
        some (if f = 0 then leNat ((bytes k).map (·.2)) else etyWrite ty (fmtRead f (leNat ((bytes k).map (·.2)))))
        else c.skip)) (ks.flatMap bytes))) ∧
  (∀ s c pm lsid ty mode t1 f, Selected s (.vld pm lsid ty mode t1) c →
    let l := c.word 0
    let idx := c.toks.getD 1 (.scalar 0)
    let ks := (upFrom 0 ty.lanes).filter (c.vPart ty)
    c.vCheck false ty mode l idx ks = .ok f → f ≤ 8 ∨ f = 10 →
    let n := if f = 0 then ty.width / 8 else if f = 10 then 1 else fmtSize f
    let adr (k : Nat) : Nat := if f ≠ 10 then vAddr mode ty n l idx k
      else if mode = .unit then (l + BitVec.ofNat 64 (k / 2)).toNat else l.toNat
    ∀ k ∈ ks, ∀ b, adr k ≤ b → b < adr k + n → c.badAt false lsid.toNat b = true →
      (∀ o, adr k ≤ o → o < b → c.badAt false lsid.toNat o = false) →
      (∀ j ∈ ks, j < k → ∀ o, adr j ≤ o → o < adr j + n → c.badAt false lsid.toNat o = false) →
      exec (.vld pm lsid ty mode t1) s = .next (s.slotFault c ⟨.dataError, BitVec.ofNat 64 b, 0⟩)) ∧
  (∀ s c pm lsid ty mode f, Selected s (.vst pm lsid ty mode) c →
    let l := c.word 0
    let idx := c.toks.getD 2 (.scalar 0)
    let ks := (upFrom 0 ty.lanes).filter (c.vPart ty)
    c.vCheck true ty mode l idx ks = .ok f → f ≤ 8 →
    let n := if f = 0 then ty.width / 8 else fmtSize f
    let val (k : Nat) : Nat :=
      let v := lane ty (c.tok 1).vec k
      if f = 0 then v else fmtWrite f (etyRead ty v)
    exec (.vst pm lsid ty mode) s = .next (s.stores c .null false
      (ks.flatMap fun k => (upFrom (vAddr mode ty n l idx k) n).zip (leBytes n (val k))) [])) ∧
  (∀ s c pm lsid ty mode t1, Selected s (.vld pm lsid ty mode t1) c → mode = .unit ∨ mode = .bcast →
    let l := c.word 0
    let ks := (upFrom 0 ty.lanes).filter (c.vPart ty)
    c.vCheck false ty mode l (c.toks.getD 1 (.scalar 0)) ks = .ok 10 →
    let adr (k : Nat) : Nat := if mode = .unit then (l + BitVec.ofNat 64 (k / 2)).toNat else l.toNat
    let nib (k : Nat) : Nat := if mode = .unit then k % 2 else 0
    (∀ k ∈ ks, c.badAt false lsid.toNat (adr k) = false) →
    exec (.vld pm lsid ty mode t1) s =
      .next (s.loads c (ofLanes ty ((upFrom 0 ty.lanes).map fun k => if c.vPart ty k then
        some (etyWrite ty (fmtRead 10 ((c.byte false lsid.toNat (adr k)).toNat / 16 ^ nib k % 16)))
        else c.skip)) (ks.map fun k => (adr k, c.byte false lsid.toNat (adr k))))) ∧
  (∀ s c pm lsid ty mode t1, Selected s (.vld pm lsid ty mode t1) c → mode = .unit ∨ mode = .bcast →
    let l := c.word 0
    let ks := (upFrom 0 ty.lanes).filter (c.vPart ty)
    c.vCheck false ty mode l (c.toks.getD 1 (.scalar 0)) ks = .ok 9 →
    let adr (k : Nat) : Nat := if mode = .unit then (l + BitVec.ofNat 64 (k / 2)).toNat else l.toNat
    let bank (k : Nat) : Nat := adr k / 24576 * 24576
    let code (k : Nat) : Nat := 2 * (adr k % 24576) + (if mode = .unit then k % 2 else 0)
    let at_ (k : Nat) : List Nat := [adr k, bank k + 20480 + code k / 16] ++ upFrom (bank k + 23040 + 4 * (code k / 256)) 4
    let num (os : List Nat) : Nat := leNat (os.map (c.byte false lsid.toNat))
    let nib (k : Nat) : Nat := num [adr k] / (if code k % 2 = 0 then 1 else 16) % 16
    let b (k : Nat) : Nat := num [bank k + 20480 + code k / 16]
    let sup (k : Nat) : Nat := num (upFrom (bank k + 23040 + 4 * (code k / 256)) 4)
    let strict := (s.fn c.x.id.fn).strict c.x.region
    let good (k : Nat) : Prop := (∀ o ∈ at_ k, c.badAt false lsid.toNat o = false) ∧
      (strict = true → q4nBadB (b k) = false ∧ q4nBadS (sup k) = false)
    ((∀ k ∈ ks, good k) → exec (.vld pm lsid ty mode t1) s =
        .next (s.loads c (ofLanes ty ((upFrom 0 ty.lanes).map fun k => if c.vPart ty k then
          some (q4nDecode (nib k) (b k) (sup k)) else c.skip))
          (ks.flatMap fun k => (at_ k).map fun o => (o, c.byte false lsid.toNat o)))) ∧
    (∀ k ∈ ks, (∀ j ∈ ks, j < k → good j) → ∀ o, (at_ k).find? (c.badAt false lsid.toNat) = some o →
      exec (.vld pm lsid ty mode t1) s = .next (s.slotFault c ⟨.dataError, BitVec.ofNat 64 o, 0⟩)) ∧
    (∀ k ∈ ks, (∀ j ∈ ks, j < k → good j) → (∀ o ∈ at_ k, c.badAt false lsid.toNat o = false) → strict = true →
      (q4nBadB (b k) = true → exec (.vld pm lsid ty mode t1) s = .next (s.slotFault c
        ⟨.strictCode, BitVec.ofNat 64 (bank k + 20480 + code k / 16), BitVec.ofNat 64 (b k)⟩)) ∧
      (q4nBadB (b k) = false → q4nBadS (sup k) = true → exec (.vld pm lsid ty mode t1) s = .next (s.slotFault c
        ⟨.strictCode, BitVec.ofNat 64 (bank k + 23040 + 4 * (code k / 256)), BitVec.ofNat 64 (sup k)⟩)))) ∧
  (∀ s c pm lsid ty, Selected s (.vst pm lsid ty .unit) c →
    let l := c.word 0
    let idx := c.toks.getD 2 (.scalar 0)
    let ks := (upFrom 0 ty.lanes).filter (c.vPart ty)
    c.vCheck true ty .unit l idx ks = .ok 10 →
    let adr (k : Nat) : Nat := (l + BitVec.ofNat 64 (k / 2)).toNat
    (∀ k ∈ ks, c.badAt false lsid.toNat (adr k) = false) →
    ∃ data : List (Nat × Byte), exec (.vst pm lsid ty .unit) s = .next (s.stores c .null false data
        ((ks.filter fun k => k ^^^ 1 ∉ ks).map fun k => (adr k, c.byte false lsid.toNat (adr k)))) ∧
      data.map (·.1) = ks.map adr ∧
      ∀ k ∈ ks, ∃ b : Byte, (data.filter fun d => d.1 = adr k).getLast? = some (adr k, b) ∧
        b.toNat / 16 ^ (k % 2) % 16 = fmtWrite 10 (etyRead ty (lane ty (c.tok 1).vec k)) ∧
        (k ^^^ 1 ∉ ks → b.toNat / 16 ^ ((k + 1) % 2) % 16 =
          (c.byte false lsid.toNat (adr k)).toNat / 16 ^ ((k + 1) % 2) % 16)) ∧
  (∀ s c pm lsid ty mode t1 e, Selected s (.vld pm lsid ty mode t1) c →
    c.vCheck false ty mode (c.word 0) (c.toks.getD 1 (.scalar 0)) ((upFrom 0 ty.lanes).filter (c.vPart ty)) = .error e →
    exec (.vld pm lsid ty mode t1) s = .next (s.slotFault c e)) ∧
  (∀ s c pm lsid ty mode e, Selected s (.vst pm lsid ty mode) c →
    c.vCheck true ty mode (c.word 0) (c.toks.getD 2 (.scalar 0)) ((upFrom 0 ty.lanes).filter (c.vPart ty)) = .error e →
    exec (.vst pm lsid ty mode) s = .next (s.slotFault c e))

/-- R175, R320: VRED over the adjacent-pair tree with identities for the lanes that do not take part; first and count
look at the bits of the participating lanes. -/
def Obligations.VredSlot : Prop :=
  ∀ s c pm ty fn t1 vs, Selected s (.vred pm ty fn t1) c → fragQuiet c = true → c.vecs ty = .ok vs →
    let l := vs.getD 0 .null
    let r := vs.getD 1 (.scalar 0)
    let live (k : Nat) : Bool := c.maskBit k && !nullLane ty l.nulls k && (fn != .dot || !nullLane ty r.nulls k)
    let hit (k : Nat) : Bool := live k && lane ty l.vec k != 0
    (fn = .first → ∃ n, exec (.vred pm ty fn t1) s = .next (s.sendsWord c (BitVec.ofNat 64 n)) ∧ n ≤ ty.lanes ∧
      (∀ k, k < n → hit k = false) ∧ (n < ty.lanes → hit n = true)) ∧
    (fn = .count → exec (.vred pm ty fn t1) s =
      .next (s.sendsWord c (BitVec.ofNat 64 ((List.range ty.lanes).filter hit).length))) ∧
    (fn ≠ .first → fn ≠ .count → ty.isInt = true → exec (.vred pm ty fn t1) s =
      .next (s.sendsWord c (redInt ty.isSigned ty.width fn ((upFrom 0 ty.lanes).map fun k =>
        if live k then
          let a := bitsInt ty.isSigned ty.width (lane ty l.vec k)
          some (if fn = .dot then a * bitsInt ty.isSigned ty.width (lane ty r.vec k) else a)
        else none)))) ∧
    (fn ≠ .first → fn ≠ .count → ty.isInt = false → exec (.vred pm ty fn t1) s =
      .next (s.sendsWord c (redFloat ty fn ((upFrom 0 ty.lanes).map fun k =>
        if live k then
          let a := ty.ffmt.read (lane ty l.vec k)
          some (if fn = .dot then viaFp32 (a.mul (ty.ffmt.read (lane ty r.vec k))) else a)
        else none))))

/-- R176, R177, R321, R322: what each function of VPERM moves into lane k, with the lane nulls of the lanes it takes, the
scalar or null token of .ext, the packed lanes of .comp; VSPEC applies its function to each participating lane. -/
def Obligations.VpermAndVspecSlots : Prop :=
  (∀ s c pm ty fn sh t1, Selected s (.vperm pm ty fn sh t1) c → c.maskOk = .ok () →
    let l := c.tok 0
    let n := ty.lanes
    let src (k : Nat) : Option Nat := if nullLane ty l.nulls k then c.skip else some (lane ty l.vec k)
    let vec (f : Nat → Option Nat) : Token :=
      ofLanes ty ((upFrom 0 n).map fun k => if c.maskBit k then f k else c.skip)
    let t : Token := match fn with
      | .perm => vec fun k => if nullLane ty (c.tok 1).nulls k then c.skip else src (lane ty (c.tok 1).vec k % n)
      | .bcast => vec fun _ => src 0
      | .sup => vec fun k => if sh.toNat ≤ k then src (k - sh.toNat) else some 0
      | .sdn => vec fun k => if k + sh.toNat < n then src (k + sh.toNat) else some 0
      | .iota => vec fun k => some (if ty.isInt then k % 2 ^ ty.width else ty.ffmt.round .rne false 0 (Machine.Num.ofInt k))
      | .comp => ofLanes ty ((((upFrom 0 n).filter fun k => c.maskBit k && !nullLane ty l.nulls k).map
          (lane ty l.vec) ++ List.replicate
            (n - ((upFrom 0 n).filter fun k => c.maskBit k && !nullLane ty l.nulls k).length) 0).map some)
      | .exp => vec fun k => src ((upFrom 0 k).filter c.maskBit).length
      | .ext => if c.maskBit sh.toNat && !nullLane ty l.nulls sh.toNat then
            .scalar (BitVec.ofNat 64 (lane ty l.vec sh.toNat))
          else if c.zp then .scalar 0 else .null
    exec (.vperm pm ty fn sh t1) s = .next (s.sends c t t)) ∧
  (∀ s c pm ty fn t1, Selected s (.vspec pm ty fn t1) c → c.maskOk = .ok () → exec (.vspec pm ty fn t1) s =
    let t := ofLanes ty ((upFrom 0 ty.lanes).map fun k =>
      if c.maskBit k && !nullLane ty (c.tok 0).nulls k then
        some (specLane fn ty c.rnd c.sat (c.rho k) (lane ty (c.tok 0).vec k))
      else c.skip)
    .next (s.sends c t t))

/-- R201, R202: the fragment that stands for the left operand: zeros where the tile is released or untyped or the
member's quadrant holds no part of it, else sixteen elements of row frag / 4 from column 16 × (frag mod 4); a type that
does not fit the tile raises shape, and so does a tile that a failed command would have written (R184), with that
command's details; a fragment with a detected error raises data error at the first bad element's offset (R362). A vector
instruction whose mask register holds a detected error raises data error at the register's offset, VLD and VST before
any other check of theirs. The instructions that may take a fragment take whatever fault their operands raise. The
model's choices: the offsets that the data errors name (assumption log 13), and that these instructions report an error
in a mask register or an accumulator element (assumption log 52). -/
def Obligations.FragmentOperand : Prop :=
  (∀ (c : Ctx) (p : Pfx) (ty : ETy) (g : Gang), c.pfx = some p → p.acc = true → c.s.gangOf c.x = some g →
    c.maskOk = .ok () →
    (∀ row col, c.badFragment p = some (row, col) →
      c.vecs ty = .error ⟨.dataError, BitVec.ofNat 64 (4 * (64 * row + col)), 0⟩) ∧
    (∀ m, c.badFragment p = none → g.failedOn (fun n => n == p.tile.toNat) = some m → c.vecs ty =
      .error ⟨.shape, BitVec.ofNat 64 m.block, BitVec.ofNat 64 (m.offs.getD (memberOf c.x) 0 * 256 + m.slot)⟩) ∧
    (c.badFragment p = none → g.failedOn (fun n => n == p.tile.toNat) = none →
    let q := memberOf c.x / 4
    let t := (g.tiles.getD q []).getD p.tile.toNat ⟨.none, false, []⟩
    let upper : Prop := (g.mode = .kfuse ∨ g.mode = .full) ∧ 2 ≤ q ∧ q < 4
    let zero : Prop := upper ∨ t.live = false ∨ t.ty = .none
    let fits : Prop := (ty = .f32 ∧ (zero ∨ t.ty = .fp32)) ∨ ((ty = .i32 ∨ ty = .n32) ∧ (zero ∨ t.ty = .int32))
    (¬ fits → c.vecs ty = .error ⟨.shape, 0, 0⟩) ∧
    (fits → ∃ v : Vec, c.vecs ty = .ok (.vector v 0 :: c.toks) ∧
      ∀ k, k < 16 → lane .n32 v k =
        if upper ∨ t.live = false ∨ t.ty = .none then 0
        else ((assocGet (64 * (p.frag.toNat / 4) + 16 * (p.frag.toNat % 4) + k) t.elems).getD 0).toNat))) ∧
  (∀ (s : State) (c : Ctx) (p : Pfx), c.pfx = some p → p.mask ≠ 0 →
    c.x.bad.contains (.register c.x.id .m p.mask.toNat) = true →
    let e : Flt := ⟨.dataError, BitVec.ofNat 64 (8 * p.mask.toNat), 0⟩
    (∀ pm ty fn t1, Selected s (.vlogic pm ty fn t1) c →
      exec (.vlogic pm ty fn t1) s = .next (s.slotFault c e)) ∧
    (∀ pm ty kind var amount t1, Selected s (.vshift pm ty kind var amount t1) c →
      exec (.vshift pm ty kind var amount t1) s = .next (s.slotFault c e)) ∧
    (∀ pm ty fn sh t1, Selected s (.vperm pm ty fn sh t1) c →
      exec (.vperm pm ty fn sh t1) s = .next (s.slotFault c e)) ∧
    (∀ pm ty fn t1, Selected s (.vspec pm ty fn t1) c →
      exec (.vspec pm ty fn t1) s = .next (s.slotFault c e)) ∧
    (∀ ty, c.vecs ty = .error e) ∧
    (∀ pm lsid ty mode t1, Selected s (.vld pm lsid ty mode t1) c →
      exec (.vld pm lsid ty mode t1) s = .next (s.slotFault c e)) ∧
    (∀ pm lsid ty mode, Selected s (.vst pm lsid ty mode) c →
      exec (.vst pm lsid ty mode) s = .next (s.slotFault c e))) ∧
  (∀ (s : State) (c : Ctx) (e : Flt), fragQuiet c = true →
    (∀ pm ty t1 t2, c.vecs ty = .error e → Selected s (.vadd pm ty t1 t2) c →
      exec (.vadd pm ty t1 t2) s = .next (s.slotFault c e)) ∧
    (∀ pm ty t1 t2, c.vecs ty = .error e → Selected s (.vsub pm ty t1 t2) c →
      exec (.vsub pm ty t1 t2) s = .next (s.slotFault c e)) ∧
    (∀ pm ty t1 t2, c.vecs ty = .error e → Selected s (.vmul pm ty t1 t2) c →
      exec (.vmul pm ty t1 t2) s = .next (s.slotFault c e)) ∧
    (∀ pm ty t1 t2, c.vecs ty = .error e → Selected s (.vfma pm ty t1 t2) c →
      exec (.vfma pm ty t1 t2) s = .next (s.slotFault c e)) ∧
    (∀ pm ty t1 t2, c.vecs ty = .error e → Selected s (.vmin pm ty t1 t2) c →
      exec (.vmin pm ty t1 t2) s = .next (s.slotFault c e)) ∧
    (∀ pm ty t1 t2, c.vecs ty = .error e → Selected s (.vmax pm ty t1 t2) c →
      exec (.vmax pm ty t1 t2) s = .next (s.slotFault c e)) ∧
    (∀ pm ty cond t1, c.vecs ty = .error e → Selected s (.vcmp pm ty cond t1) c →
      exec (.vcmp pm ty cond t1) s = .next (s.slotFault c e)) ∧
    (∀ pm ty fn t1, c.vecs ty = .error e → Selected s (.vred pm ty fn t1) c →
      exec (.vred pm ty fn t1) s = .next (s.slotFault c e)) ∧
    (∀ pm src dst part t1, c.vecs src = .error e → Selected s (.vcvt pm src dst part t1) c →
      exec (.vcvt pm src dst part t1) s = .next (s.slotFault c e)))

/-! ### Decoding -/

/-- The words that the encoding tables and examples of R224 to R243, R248, R281, R282, R289 and R318 to R322 give decode
to the instructions that they stand for, field by field; a word of no assigned opcode, or with an unlisted value, is
refused (R228, R244). -/
def Obligations.DecodedWords : Prop :=
  decodeWord 0x20443826 = .ok (.add .ifTrue true (some ⟨7, .l⟩) (some ⟨9, .p⟩)) ∧
  decodeWord 0x028C1011 = .ok (.rd .v 3 (some ⟨2, .l⟩) (some ⟨4, .r⟩)) ∧
  decodeWord 0x68010814 = .ok (.ld .always 0 .i32 4 (some ⟨5, .l⟩)) ∧
  decodeWord 0x6A034000 = .ok (.st .always 1 .n32 0) ∧
  decodeWord 0x7207821C = .ok (.cas .always 3 .w64 1 (some ⟨7, .l⟩)) ∧
  decodeWord 0x740091FF = .ok (.cin .always 9 none none) ∧
  decodeWord 0x3E20860C = .ok (.shi .always .sha true 3 (some ⟨3, .l⟩)) ∧
  decodeWord 0x580C29FF = .ok (.fadd .always false .rup (some ⟨5, .l⟩) none) ∧
  decodeWord 0x8A004BFF = .ok (.bfmt .always 2 5 none) ∧
  decodeWord 0xB801820C = .ok (.envrd .always 0 .w64 1 (some ⟨3, .l⟩)) ∧
  decodeWord 0xE0284025 = .ok (.vadd .always .f32 (some ⟨8, .l⟩) (some ⟨9, .r⟩)) ∧
  decodeWord 0xFC283803 = .ok (.vspec .always .f32 .rsqrt (some ⟨7, .l⟩)) ∧
  decodeWord 0x00000000 = .error .opcode ∧ decodeWord 0x1A000000 = .error .opcode ∧
  decodeWord 0x4E000000 = .error .opcode ∧ decodeWord 0xDE000000 = .error .opcode

/-- R225 to R243: for every well-formed slot instruction, decoding its encoding gives it back, every operand included. -/
def Obligations.DecodeOfEncode : Prop :=
  ∀ i, isSlotInstr i = true → wellFormed i = true → decodeWord (encode i) = .ok i

/-- R228, R244: a word that decodes is the encoding of the instruction it gives, which is well formed: no bit of a word
is ignored, and no two words give one instruction. -/
def Obligations.EncodeOfDecode : Prop :=
  ∀ w i, decodeWord w = .ok i → encode i = w ∧ isSlotInstr i = true ∧ wellFormed i = true

/-! ### One step -/

/-- A step runs the decoded instruction of the slot that the agenda names, the event that it names, or first the
operation of the %vf group that an SWR has started, once every earlier one has finished and no clearing covers its
record (R211, R329, R388). Before the meaning it only selects the slot and notes that the activity issued last on its
core (R353); after it, it only notes the time at which cores whose last activity has left became idle (R420): the state
that the meaning answers is else as it is, and a fault or refusal passes. A slot waits for its turn (R353, R374, R375)
exactly while a lower one of its block, which has waited for no other senders, can fire, or while an activity before its
own in the round-robin of the core, which starts after the one that issued last, has a slot that waits for no token and
can fire. The model's choices: on a stopped core no slot fires (assumption log 78), which slots count as ready no later
(assumption log 5), the order in which an agenda fires ready slots else (assumption log 1), and that a word placed as the
next instruction is run by the very next step, its core set going (assumption logs 2 and 78). -/
def Obligations.StepRunsTheInstruction : Prop :=
  (∀ (s : State) a k x fl w i rest, s.vfNext = none → s.agenda = .slot a k :: rest → s.act a = some x →
    x.flight = some fl → fl.words[k]? = some w → decodeWord w = .ok i →
    let r : State := { s with agenda := rest }
    (s.halted a = false → r.outOfTurn a k = false → step s = after s (exec i (r.issuing a k))) ∧
    (s.halted a = true ∨ r.outOfTurn a k = true → step s = after s (.next r))) ∧
  (∀ (s t : State), ∃ u : State, after s (.next t) = .next u ∧ { u with cores := t.cores } = t ∧
    ∀ n, u.core n = { t.core n with idleFrom := (u.core n).idleFrom } ∧
      let runs (w : State) : Prop := ∃ x p, x ∈ w.acts ∧ x.place = some p ∧ p.core = n
      (runs s ∧ ¬ runs t → (u.core n).idleFrom = t.time) ∧ (¬ (runs s ∧ ¬ runs t) → u.core n = t.core n)) ∧
  (∀ s f r, after s (.fault f) = .fault f ∧ after s (.refused r) = .refused r) ∧
  (∀ (s : State) a k, ({ s.issuing a k with cores := s.cores, cur := s.cur } : State) = s ∧
    (s.issuing a k).cur = some (a, k) ∧
    ∀ n, ((∃ x p, s.act a = some x ∧ x.place = some p ∧ p.core = n) →
        (s.issuing a k).core n = { s.core n with last := some a }) ∧
      ((∀ x p, s.act a = some x → x.place = some p → p.core ≠ n) → (s.issuing a k).core n = s.core n)) ∧
  (∀ (s : State) a k x fl, s.act a = some x → x.flight = some fl →
    let fires (b : Aid) (g : Flight) (j : Nat) : Prop := (g.slot j).status = .notYet ∧
      ∃ i t, g.instr j = some i ∧ exec i (s.issuing b j) = .next t
    (s.outOfTurn a k = true ↔
      (∃ j, j < k ∧ (∀ n ∈ fl.senders j, n ∈ fl.senders k) ∧ fires a fl j) ∨
      ∃ p b y g j, x.place = some p ∧ b ∈ (s.issueOrder p.core).takeWhile (· != a) ∧ s.act b = some y ∧
        y.flight = some g ∧ j < g.words.length ∧ g.fromStart j = true ∧ fires b g j)) ∧
  (∀ (f : Flight) k i, f.instr k = some i →
    (f.fromStart k = true ↔ predReq i = none ∧ f.needs k i = [] ∧ f.fourth k = false) ∧
    ∀ n, n ∈ f.senders k ↔ (∃ o e, (o ∈ f.needs k i ∨ (o = .p ∧ predReq i ≠ none)) ∧
        (f.slot k).ins.find? (fun a => a.1 == o) = some e ∧ e.2.1 = n) ∨
      (f.fourth k = true ∧ ∃ e, (f.slot (k - 1)).ins.find? (fun a => a.1 == .l) = some e ∧ e.2.1 = n)) ∧
  (∀ (s : State) c,
    let here := (upFrom 0 Config.coreSlots).flatMap fun k =>
      (s.acts.filter fun x => x.place == some ⟨c, k⟩).map (·.id)
    ((s.core c).last = none → s.issueOrder c = here) ∧
    (∀ a before rest, (s.core c).last = some a → here = before ++ a :: rest → a ∉ before →
      s.issueOrder c = rest ++ before ++ [a])) ∧
  (∀ (s : State) e rest, s.vfNext = none → s.agenda = .event e :: rest →
    step s = after s (exec e { s with agenda := rest })) ∧
  (∀ (s : State), s.vfPending = [] ∨ s.vfBusy ≠ none → s.vfNext = none) ∧
  (∀ (s : State) op v rest, s.vfPending = (op, v) :: rest → s.vfBusy = none →
    (op = .commit → 16 < v ∨ (vfRecOf (s.recBytes v)).en = false ∨ s.scrubs (vfRecOf (s.recBytes v)) = false) →
    step s = after s (exec (match op with | .commit => .vfCommit v | .save => .vfSave v | .restore => .vfRestore v) s)) ∧
  (∀ (s : State) w i, decodeWord w = .ok i →
    step (s.withFetchWord 32 w.toNat) =
      after (s.withFetchWord 32 w.toNat)
        (exec i (({ s.withFetchWord 32 w.toNat with agenda := [] } : State).issuing fetchAid 1)))

/-- R213: NULL sends null tokens; a slot of any instruction with a null token among those that it waits for fires null:
its targets get null tokens, and nothing else changes: no register, no memory, no effect for the commit, no fault; loads
that read the bytes of a store that now fires null, or that can fire no more, fire again (R219; with no such store an
execution stays as it is). A slot whose predicate does not match never fires, a null token on another operand
notwithstanding; a null predicate makes it fire null. A slot with two tokens at an operand never fires (R214, R217). -/
def Obligations.NullTokensFireNull : Prop :=
  (∀ s c pm t1 t2, Selected s (.null pm t1 t2) c → exec (.null pm t1 t2) s = .next (s.sends c .null .null)) ∧
  (∀ s i c, isSlotInstr i = true → SelectedNull s i c →
    exec i s = .next (s.nulls c)) ∧
  (∀ s i c, SelectedNull s i c → isStore i = false → s.nulls c = ({ s with cur := none } : State).setFlight c.x.id
    (((c.fl.modSlot c.k fun sl => { sl with status := .nulled, eff := .none }).sendAll c.k i .null .null).unperform
      (s.baseByte c.x))) ∧
  (∀ (f : Flight) base, (∀ sl ∈ f.slots, sl.status = .notYet → sl.eff = .none) → f.unperform base = f) ∧
  (∀ (f : Flight) k i b, f.collided k = true → f.ready k i b = .never) ∧
  (∀ (f : Flight) k i b toks, (f.slot k).status = .notYet → f.collided k = false → f.data k i = some toks →
    (predReq i = none → Token.null ∈ toks → f.ready k i b = .fireNull) ∧
    (∀ w, predReq i = some w → (f.slot k).arrived .p = some .null → f.ready k i b = .fireNull) ∧
    (∀ w t, predReq i = some (some w) → (f.slot k).arrived .p = some t → t ≠ .null → t.truth ≠ w →
      f.ready k i b = .never) ∧
    (∀ w t, predReq i = some (some w) → (f.slot k).arrived .p = some t → t ≠ .null → t.truth = w →
      Token.null ∈ toks → f.ready k i b = .fireNull))

/-- R216, R217: a slot of any other instruction that fires, fires null or faults changes nothing but its activity's block
in flight: no register, loan, tag, carrel byte or byte of memory, no other activity, no function, desk, gang or device
state. On the cores only environments that its activity had reserved may be released. -/
def Obligations.SlotFrame : Prop :=
  ∀ i s t, isSlotInstr i = true → actsAtOnce i = false → exec i s = .next t →
    ({ t with acts := s.acts, cores := s.cores, cur := s.cur } : State) = s ∧
    t.acts.map Act.committed = s.acts.map Act.committed ∧
    (∀ a k b, s.cur = some (a, k) → b ≠ a → t.act b = s.act b) ∧
    (∀ n, t.core n = { s.core n with envs := (t.core n).envs, gens := (t.core n).gens } ∧
      (∀ e ∈ (t.core n).envs, e ∈ (s.core n).envs) ∧
      (((s.core n).envs.map (·.1)).Nodup → ∀ e ∈ (s.core n).envs, e.2.reserver = none → e ∈ (t.core n).envs))

/-- What the slots that act at once leave alone (R277, R291, R295, R304, R305, R328, R329): memory, registers, loans,
tags and carrels of every activity, every field of the machine but the one that they reserve in, and of the cores all
but the environment stores. PALLOC, SPAWN, SEAL, TLBINV and SCRUB leave every other activity as it is, its block in
flight included, and in the stores may release only environments that their activity had reserved. CENV and XRD may spill
and reload environments (R86, R87): of another activity they change only where its handles say that an environment lies,
and what its frame holds; of a function only the pages charged for frames. -/
def Obligations.ReservingSlotFrame : Prop :=
  ∀ i s t, actsAtOnce i = true → exec i s = .next t →
    let alone : Prop := t.acts.map Act.committed = s.acts.map Act.committed ∧
      (∀ a k b, s.cur = some (a, k) → b ≠ a → t.act b = s.act b) ∧
      ∀ n, (∀ e ∈ (t.core n).envs, e ∈ (s.core n).envs) ∧
        (((s.core n).envs.map (·.1)).Nodup → ∀ e ∈ (s.core n).envs, e.2.reserver = none → e ∈ (t.core n).envs)
    t.acts.map Act.held = s.acts.map Act.held ∧
    (∀ n, t.core n = { s.core n with envs := (t.core n).envs, gens := (t.core n).gens }) ∧
    match i with
    | .palloc .. =>
      ({ t with acts := s.acts, cores := s.cores, cur := s.cur, fresh := s.fresh } : State) = s ∧ alone
    | .spawn .. | .seal .. =>
      ({ t with acts := s.acts, cores := s.cores, cur := s.cur, funcs := s.funcs } : State) = s ∧ alone ∧
        (∃ v n m, t.funcs = (s.modFn v fun f => { f with serialCtr := n, shelfCtr := m }).funcs)
    | .tlbinv .. =>
      ({ t with acts := s.acts, cores := s.cores, cur := s.cur, acres := s.acres } : State) = s ∧ alone ∧
        ∀ n, ∀ e ∈ (t.acre n).tlb, e ∈ (s.acre n).tlb
    | .scrub .. =>
      ({ t with acts := s.acts, cores := s.cores, cur := s.cur, scrub := s.scrub } : State) = s ∧ alone
    | _ =>
      ({ t with acts := s.acts, cores := s.cores, cur := s.cur, funcs := s.funcs, fresh := s.fresh } : State) = s ∧
        (∀ v, ({ t.fn v with regions := (s.fn v).regions, pageu := (s.fn v).pageu, devPages := (s.fn v).devPages } :
          Func) = s.fn v) ∧
        ∀ a k b x, s.cur = some (a, k) → b ≠ a → s.act b = some x → ∃ (y : Act) (g : Handle → Handle),
          t.act b = some y ∧ (∀ h, (g h).entry = h.entry) ∧
          { y with frameEnv := x.frameEnv, frame := x.frame } = x.mapHandles g

/-! ### Reset and invariants -/

/-- R432, R433: after reset no activity, gang, desk or message exists, record 0 is the factory configuration and runs, no
VF is enabled, memory is zero and canonical, the ports and links are up with four lanes, the rings are empty. The values
that the spec leaves open are the model's (assumption log 3). -/
def Obligations.ResetState : Prop :=
  let s := State.reset
  s.acts = [] ∧ s.gangs = [] ∧ s.desks = [] ∧ s.msgs = [] ∧ s.meetings = [] ∧ s.mem = [] ∧ s.memOk = true ∧
  (s.fn 0).cfg.quad = [0, 1, 2, 3] ∧ (s.fn 0).cfg.chan = [0, 1] ∧ (s.fn 0).cfg.power = 2048 ∧
  (s.fn 0).cfg.lqcount = 1 ∧ (s.fn 0).cfg.en = true ∧ (s.fn 0).state = .running ∧
  (∀ v, 1 ≤ v → v ≤ 16 → (s.fn v).cfg.en = false ∧ (s.fn v).state = .off ∧ (s.fn v).key = 0) ∧
  (∀ a, Memory.get s.mem a = 0) ∧
  (∀ n l, s.link n = some l → l.up = true ∧ l.lanes = 4) ∧
  (∀ r ∈ s.rings, r.entries = [] ∧ r.frozen = false) ∧ s.stopped = false ∧ s.kills = [] ∧ s.vfPending = []

/-- Physical memory and the carrels keep their canonical form in every step. -/
def Obligations.MemoryStaysCanonical : Prop :=
  ∀ s t, s.memOk = true → step s = .next t → t.memOk = true

/-! ### Commit and faults -/

/-- R83, R84, R159, R215, R216, R221, R231, R249: the commit of a single activity's block with one BR, whose other
effects are WRs of every class, CDROPs, SWRs of its own special registers and stores to its carrel: its registers are
the tokens of the WRs, a byte with a null mark and a register without a WR as before; a C register holds the handle, a
special register the low bits that it has, %seed advances past the block's stochastic roundings unless an SWR names it;
its carrel is written in order of the load/store IDs and nowhere else; it continues at the target. Every environment of
its core that is in use then has as its count the references that the activities there hold, at most 65,535; one that
has none is gone. What an SWR of the %vf registers does, and what each exit of a single activity does once the target
passes its entry check (R16, R54, R60, R90, R91, R222, R223, R286, R299, R300, R332). The model's choices: an environment
in a spill frame may change its place there, and its handles with it (assumption log 99); a commit stands only where
every WR of class C brings a handle that the activity holds or may still gain (log 66); RET and APPLY reload the
environment that becomes current where it is spilled (log 67); APPLY and VAPPLY take their handles, mask and M7 as
committed before the block (log 12). -/
def Obligations.CommitWritesRegistersAndCarrel : Prop :=
  (∀ (s t : State) (x : Act) (fl : Flight) (k target : Nat),
    s.act x.id = some x → x.gang = none → x.flight = some fl → x.trap = none →
    fl.exits = [(k, .branch target)] → (kindRepeats (hdrKind fl.hdr) = false ∨ target ≠ fl.addr) →
    (∀ j, j < fl.words.length → match fl.effAt j with
      | .none | .exit _ | .store false _ => True
      | .write _ _ _ | .cdrop _ => True
      | .swr n _ => n = 0x22 ∨ n = 0x30 ∨ n = 0x31 ∨ n = 0x32 ∨ n = 0x33
      | _ => False) →
    s.tryCommit [⟨0, x, fl⟩] = .ok t →
    (∃ y, t.act x.id = some y ∧ y.resume = target ∧ y.entry = .checked ∧ y.flight = none ∧ y.rep = none ∧
      y.carrel = fl.byLsid.foldl (fun m j => match fl.effAt j with
        | .store false d => Memory.writeList m d
        | _ => m) x.carrel ∧
      (∀ n, n < 32 →
        ((∀ j tok, j < fl.words.length → fl.effAt j ≠ .write .s n tok) → y.s.toList.getD n 0 = x.s.toList.getD n 0) ∧
        (∀ j tok, j < fl.words.length → fl.effAt j = .write .s n tok →
          (∀ i u, i < fl.words.length → fl.effAt i = .write .s n u → i = j) → y.s.toList.getD n 0 = tok.word)) ∧
      (∀ n, n < 32 →
        ((∀ j tok, j < fl.words.length → fl.effAt j ≠ .write .v n tok) → y.v.toList.getD n 0 = x.v.toList.getD n 0) ∧
        (∀ j tok, j < fl.words.length → fl.effAt j = .write .v n tok →
          (∀ i u, i < fl.words.length → fl.effAt i = .write .v n u → i = j) →
          y.v.toList.getD n 0 = mergeVec (x.v.toList.getD n 0) tok.vec tok.nulls)) ∧
      (∀ n, n < 8 →
        ((∀ j tok, j < fl.words.length → fl.effAt j ≠ .write .m n tok) → y.m.toList.getD n 0 = x.m.toList.getD n 0) ∧
        (∀ j tok, j < fl.words.length → fl.effAt j = .write .m n tok →
          (∀ i u, i < fl.words.length → fl.effAt i = .write .m n u → i = j) → y.m.toList.getD n 0 = tok.word)) ∧
      (∀ n, n < 8 → (∀ q ∈ (s.fn x.id.fn).shelves, q.unsealing = false) →
        let is (g h : Handle) : Prop := g = { h with index := g.index } ∧ (h.kind ≠ .spilled → g = h)
        let only (j : Nat) : Prop := ∀ i, i < fl.words.length →
          (fl.effAt i = .cdrop n ∨ ∃ u, fl.effAt i = .write .c n u) → i = j
        ((∀ j, j < fl.words.length → fl.effAt j ≠ .cdrop n ∧ ∀ u, fl.effAt j ≠ .write .c n u) →
          is (y.c.toList.getD n Handle.none) (x.c.toList.getD n Handle.none)) ∧
        (∀ j h, j < fl.words.length → fl.effAt j = .write .c n (.handle h) → only j →
          is (y.c.toList.getD n Handle.none) h) ∧
        (∀ j, j < fl.words.length → fl.effAt j = .cdrop n → only j → y.c.toList.getD n Handle.none = Handle.none)) ∧
      (let last (n : Nat) (old new : Word) : Prop :=
        ((∀ j w, j < fl.words.length → fl.effAt j ≠ .swr n w) → new = old) ∧
        (∀ j w, j < fl.words.length → fl.effAt j = .swr n w →
          (∀ i u, i < fl.words.length → fl.effAt i = .swr n u → i = j) → new = w)
      last 0x22 (seedAdvance (fl.rsBelow fl.words.length) x.seed) y.seed ∧
      (∀ m j w, j < fl.words.length → fl.effAt j = .swr m w →
        (∀ i u, i < fl.words.length → fl.effAt i = .swr m u → i = j) →
        (m = 0x30 → y.lives = w.setWidth 32) ∧ (m = 0x31 → y.livev = w.setWidth 32) ∧
        (m = 0x32 → y.livem = w.setWidth 8) ∧ (m = 0x33 → y.livec = w.setWidth 8)) ∧
      ((∀ j w, j < fl.words.length → fl.effAt j ≠ .swr 0x30 w) → y.lives = x.lives) ∧
      ((∀ j w, j < fl.words.length → fl.effAt j ≠ .swr 0x31 w) → y.livev = x.livev) ∧
      ((∀ j w, j < fl.words.length → fl.effAt j ≠ .swr 0x32 w) → y.livem = x.livem) ∧
      ((∀ j w, j < fl.words.length → fl.effAt j ≠ .swr 0x33 w) → y.livec = x.livec))) ∧
    ((∀ q ∈ (s.fn x.id.fn).shelves, q.unsealing = false) → ∀ p ∈ (t.core x.coreNum).envs, p.2.reserver = none →
      p.2.count = ((t.onCore x.coreNum).map fun z => z.refs p.1).sum ∧ 0 < p.2.count ∧ p.2.count ≤ 65535)) ∧
  (∀ (s : State) a (w : Word), s.writeSreg a 0x100 w = { s with vfbase := w.toNat / 512 * 512 } ∧
    s.writeSreg a 0x101 w = { s with vfPending := s.vfPending ++ [(.commit, bits w.toNat 4 0)] } ∧
    s.writeSreg a 0x102 w = { s with vfPending := s.vfPending ++ [(.save, bits w.toNat 4 0)] } ∧
    s.writeSreg a 0x103 w = { s with vfPending := s.vfPending ++ [(.restore, bits w.toNat 4 0)] }) ∧
  (∀ (s : State) (q : Mem) k n w, q.fl.effAt k = .swr n w → s.commitReg q k = s.writeSreg q.x.id n w) ∧
  (∀ (s0 p s : State) (q : Mem) k e y, q.x.gang = none → s.act q.x.id = some y → q.fl.exits = [(k, e)] →
    let upd (f : Act → Act) : State := s.modAct q.x.id f
    let wait (t : Nat) (kind : WKind) (wop : Nat) (mask : Word) : State := upd fun z => z.waitAt s t kind wop mask
    let ends (u : State) : Prop := State.exit s0 p s [q] q k e = .ok u
    let checked (t : Nat) : Prop := s0.exitCheck q.x t .exit false = .ok ()
    let msg (d : Option Nat) (lug : Word) (v : Vec) : Party := ⟨q.x.id, q.x.recAt, d, lug, v⟩
    (∀ t, checked t →
      (e = .branch t → kindRepeats (hdrKind q.fl.hdr) = false ∨ t ≠ q.fl.addr ∨ q.x.rep = none → ends (upd (Act.goTo t))) ∧
      (e = .indirect t → ends (upd (Act.goTo t))) ∧
      (∀ u, e = .call t → s.push q.x.id ⟨true, fallThrough q.fl, y.env, y.gen, none⟩ = .ok u →
        ends (u.modAct q.x.id fun z => z.newFrame.goTo t)) ∧
      (∀ m, e = .wtany m t → ends ((wait t .wtany 0 m).checkTagWait q.x.id)) ∧
      (∀ m, e = .wtall m t → ends ((wait t .wtall 0 m).checkTagWait q.x.id)) ∧
      (∀ m, e = .wcnt m t → ends ((wait t .wcnt (m.toNat % 2 ^ 32) m).checkTagWait q.x.id)) ∧
      (∀ d, e = .sleep d t → ends ((wait t .sleep (Min.min (s.time + d.toNat) (2 ^ 60 - 1)) 0).checkSleep q.x.id)) ∧
      (∀ key lug tmo, e = .meet key lug tmo t → ends (((wait t .meet (keyDigest q.x.id.fn key) 0).modAct q.x.id fun z =>
        { z with meet := some ⟨⟨0, 0⟩, false, (lugFields lug).1, (lugFields lug).2.1, (lugFields lug).2.2, false, .present,
          none, z.snapshot⟩ }).sendMsg (.meetArrival (msg (deadlineOf s.time (bits tmo.toNat 31 0)) lug 0) key))) ∧
      (∀ op key ar tok tmo, e = .gather op key ar tok tmo t →
        ends ((wait t .gather (keyDigest q.x.id.fn key) 0).sendMsg
          (.gatherArrival (msg (deadlineOf s.time tmo) 0 tok.vec) key ar op))) ∧
      (∀ r b n c id, e = .unseal r t → y.reg r = .sealed b n c id q.x.id.fn →
        ends ((wait t .unseal id 0).modFn q.x.id.fn fun f => { f with shelves := f.shelves.map fun h =>
          if h.id = id then { h with unsealing := true } else h })) ∧
      (e = .part t → ends ((wait t .part 0 0).modAct q.x.id fun z => { z with meet := z.meet.map fun m =>
        { m with parting := ((s.act m.partner).bind fun o => o.flight).map (·.seq) } })) ∧
      (e = .yield t → (upd (Act.goTo t)).yieldsTo [q.x.id] [q.x.coreNum] = false → ends (upd (Act.goTo t))) ∧
      (∀ w, e = .yield t → (upd (Act.goTo t)).yieldsTo [q.x.id] [q.x.coreNum] = true → y.trap = none →
        q.x.inMeeting = false → (upd (Act.goTo t)).writeBackAll q.x.id = some w →
        ends ((w.tick.2.modAct q.x.id fun z => z.makeReady w).enqueue q.x.id)) ∧
      (∀ arg, e = .hcall arg t → ends ((upd (Act.goTo t)).takeFault q.x.id
        ⟨q.fl.addr, .hcall, k, 0, 2, q.x.id.serial, arg, BitVec.ofNat 64 t⟩))) ∧
    (∀ t sh, s0.exitCheck q.x t .exit true = .ok () → e = .gang sh t → ends (upd fun z =>
      { z.waitAt s t .gang (match sh with | .quad => 1 | .acre => 2) 0 with
        reshape := some sh, attempts := 0, retryAt := 0 })) ∧
    (e = .retire → ends (upd fun z => { z with retiring := true, rep := none })) ∧
    (∀ fr rest, e = .ret → y.stack = fr :: rest → fr.turns = none →
      s0.exitCheck y fr.ret .exit false = .ok () → ∀ u,
      (s.setAct { (y.goTo fr.ret) with env := (if fr.call then y.env else fr.env), stack := rest, gen := fr.prevgen }).reloadEnv
        q.x.id = .ok u → ends u) ∧
    (e = .ret → y.stack = [] → State.exit s0 p s [q] q k e = .error (fltA .applyStack 0)) ∧
    (let z := (p.act q.x.id).getD q.x
      let good (j : Nat) : Prop := z.regOk .c j = .ok () ∧ (z.c.toList.getD j Handle.none).kind ≠ .empty ∧
        p.stale z (z.c.toList.getD j Handle.none) = false ∧ p.badHeader z (z.c.toList.getD j Handle.none) = false ∧
        s0.exitCheck z (z.c.toList.getD j Handle.none).addr (.closure (p.envWords z (z.c.toList.getD j Handle.none))) false =
          .ok ()
      (∀ c u w, e = .apply c → good c → s.push z.id ⟨false, fallThrough q.fl, z.env, z.gen, none⟩ = .ok u →
        State.reloadEnv (u.modAct z.id fun o => { (o.newFrame.goTo (z.c.toList.getD c Handle.none).addr) with
          env := (z.c.toList.getD c Handle.none).asEnv }) z.id = .ok w → ends w) ∧
      (∀ m ch t, e = .vapply m ch t → (m = 0 ∨ z.regOk .m m = .ok ()) →
        let sel := (upFrom 0 8).filter fun j => (z.choices m ch).contains (some j)
        (sel = [] → s0.exitCheck z t .exit false = .ok () → ends (s.modAct z.id (Act.goTo t))) ∧
        (∀ u w, sel ≠ [] → (∀ j ∈ sel, good j) → s.push z.id ⟨false, 0, z.env, z.gen, some ⟨t,
            sel.map fun j => (j, z.c.toList.getD j Handle.none), z.choices m ch, z.m.toList.getD 7 0,
            z.bad.contains (.register z.id .m 7)⟩⟩ = .ok u →
          ∀ v, u.reloadTurns z.id = .ok v → s0.startTurn v z.id = .ok w → ends w))) ∧
    (∀ n i t u, e = .branch t → t = q.fl.addr → kindRepeats (hdrKind q.fl.hdr) = true → q.x.rep = some (n, i) → i + 1 < n →
      s0.enter q.x.id.fn q.x.acre t .continue_ false 0 = .ok u →
      ends (upd fun z => { z with resume := t, entry := .checked, rep := some (n, i + 1) })) ∧
    (∀ n i t, e = .branch t → t = q.fl.addr → kindRepeats (hdrKind q.fl.hdr) = true → q.x.rep = some (n, i) → n ≤ i + 1 →
      checked (fallThrough q.fl) → ends (upd (Act.goTo (fallThrough q.fl)))))

/-- R10, R217, R332, R360, R363 to R365, R368, R405: taking a fault. An activity that faults keeps its registers, its
carrel and its resume address, holds the fault record with its own serial, drops its execution and leaves its slot;
while its function is being pre-empted the fault waits to be resolved. How a fault is resolved: policy 0 with a handler
spawns it in the owning domain, at the handler's address, with the four words of the fault record, S0 the argument, S1
the serial and weight 2^16; an HCALL spawns the physical function's handler, S2 the calling function; policy 2 kills the
domain's tree. The entry of type 01h is written first. An HCALL for which hcrgn names no open region only writes it.
R23: a region table entry that fails its check code when the walk of a fault reads it is recorded, and a
record-integrity fault is resolved the same way. The model's choices: the faulted activity leaves its slot and keeps
registers and carrel (assumption log 27); the integrity fault comes after the fault itself (assumption log 80). -/
def Obligations.TakingAFault : Prop :=
  (∀ (s : State) a x r, s.act a = some x → x.gang = none → x.meet = none → s.preempting a.fn = true →
    ∃ y, (s.takeFault a r).act a = some y ∧ y.run = .faulted ∧ y.fault = some { r with serial := a.serial } ∧
      y.flight = none ∧ y.place = none ∧ y.unsolved = true ∧ y.s = x.s ∧ y.v = x.v ∧ y.m = x.m ∧
      y.carrel = x.carrel ∧ y.resume = x.resume) ∧
  (∀ (s : State) x r d, r.cause ≠ .hcall → x.handler = none → (s.fn x.id.fn).owner x.region = some d →
    d.rstate ≠ .killed → d.policy = 0 → d.handler ≠ 0 → s.recordFree x.id.fn d.idx = true → s.badEntry x = none →
    (s.resolve x r).acts.length = s.acts.length + 1 ∧
    ∃ h ∈ (s.resolve x r).acts, h.id = ⟨x.id.fn, (s.newSerial x.id.fn).1⟩ ∧ h.region = d.idx ∧
      h.run = .ready ∧ h.resume = d.handler ∧ h.entry = .handler ∧ h.flt = r.words ∧ h.weight = Config.grant ∧
      h.banks = 1 ∧ h.s.toList.getD 0 0 = d.harg ∧ h.s.toList.getD 1 0 = BitVec.ofNat 64 x.id.serial) ∧
  (∀ (s : State) x r d, r.cause = .hcall → (s.fn 0).region (s.fn 0).cfg.hcrgn = some d → d.rstate = .open →
    (∀ q ∈ (s.fn 0).chain (s.fn 0).cfg.hcrgn, q.bad = false) → s.recordFree 0 (s.fn 0).cfg.hcrgn = true →
    (s.resolve x r).acts.length = s.acts.length + 1 ∧
    ∃ h ∈ (s.resolve x r).acts, h.id.fn = 0 ∧ h.region = (s.fn 0).cfg.hcrgn ∧ h.run = .ready ∧
      h.resume = d.handler ∧ h.flt = r.words ∧ h.weight = Config.grant ∧ h.s.toList.getD 0 0 = d.harg ∧
      h.s.toList.getD 1 0 = BitVec.ofNat 64 x.id.serial ∧ h.s.toList.getD 2 0 = BitVec.ofNat 64 x.id.fn) ∧
  (∀ (s : State) x r d, r.cause ≠ .hcall → x.handler = none → (s.fn x.id.fn).owner x.region = some d →
    d.rstate ≠ .killed → d.policy = 2 → s.badEntry x = none →
    s.resolve x r = (s.logAct x 1 r.cause.code r.words).killTree x.id.fn d.idx none) ∧
  (∀ (s : State) x r, r.cause = .hcall → (∀ q ∈ (s.fn 0).chain (s.fn 0).cfg.hcrgn, q.bad = false) →
    (∀ d, (s.fn 0).region (s.fn 0).cfg.hcrgn = some d → d.rstate ≠ .open) →
    s.resolve x r = s.logAct x 1 Cause.hcall.code r.words) ∧
  (∀ (s : State) x r e, r.cause ≠ .hcall → (r.cause ≠ .recordIntegrity ∨ r.origin ≠ 4) → s.badEntry x = some e →
    s.resolve x r =
      let t := (s.logAct x 1 r.cause.code r.words).resolveFrom x r.words
      let q : FaultRec := ⟨0, .recordIntegrity, 255, r.member, 4, r.serial, BitVec.ofNat 64 e, 0⟩
      ((t.logAct x 0x0D 0 [q.a]).logAct x 1 q.cause.code q.words).resolveFrom x q.words)

/-! ### Events: blocks and engines -/

/-- R206, R207, R222, R223, R228, R362: BLOCK_START of an activity or gang that can begin a block on cores that run. The
entry check and decoding come first; a failure faults at the block before any slot fires, and once a kind or word check
has been made what is tried again makes only the tag check. Then every member has the block in flight with nothing
fired; a repeating block first takes its trip count from member 0, and a count of zero passes to the fall-through block.
The model's choices: the trip count of a gang is that of member 0 (assumption log 9), a retried entry makes only the tag
check (log 10), a bad trip register is a data error that names its offset (logs 13 and 52), a fetch that fails is a
fault of the block entered with slot 255 (log 69). -/
def Obligations.BlockStarts : Prop :=
  ∀ (s : State) a x, s.act a = some x → memberOf x = 0 → (s.crew x).all Act.idle = true → s.fnRuns a.fn = true →
    (∀ y ∈ s.crew x, y.trap = none ∧ y.bad.contains (.context y.id) = false ∧ s.halted y.id = false) →
    (∀ f, s.enter a.fn x.acre x.resume x.entry.way.1 x.gang.isSome x.entry.way.2 = .error f →
      exec (.blockStart a) s = .next (State.settle ((if f.cause = .illegalEntry then s.entryDone (s.crew x)
        else s).takeFault a ⟨x.resume, f.cause, 255, 0, 0, a.serial, f.a, f.detailB x⟩))) ∧
    (∀ hdr, s.enter a.fn x.acre x.resume x.entry.way.1 x.gang.isSome x.entry.way.2 = .ok hdr →
      let s1 := s.entryDone (s.crew x)
      (∀ f, s1.fetchWords a.fn x.acre (x.resume + 16) (hdrSlots hdr) = .error f →
        exec (.blockStart a) s =
          .next (s1.takeFault a ⟨x.resume, f.cause, 255, 0, 0, a.serial, f.a, f.detailB x⟩).settle) ∧
      (∀ words, s1.fetchWords a.fn x.acre (x.resume + 16) (hdrSlots hdr) = .ok words →
      let fl := newFlight s1.fresh x.resume hdr words s1.time
      let s2 : State := (s.crew x).foldl (fun (t : State) y => t.modCore y.coreNum fun k => k.fetched x.resume) s1.tick.2
      let trip (y : Act) : Word := y.s.toList.getD (hdrTrip hdr) 0
      let good (y : Act) : Prop := y.bad.contains (.register y.id .s (hdrTrip hdr)) = false
      (∀ f k, decodeFault fl x.hyper = some (f, k) →
        exec (.blockStart a) s =
          .next (s1.takeFault a ⟨x.resume, f.cause, k, 0, 0, a.serial, f.a, f.detailB x⟩).settle) ∧
      (decodeFault fl x.hyper = none →
        (kindRepeats (hdrKind hdr) = false → ∃ t, exec (.blockStart a) s = .next t ∧ t.mem = s.mem ∧
          ∀ y ∈ s.crew x, t.act y.id = some { y with entry := .checked, flight := some fl, rep := none }) ∧
        (kindRepeats (hdrKind hdr) = true → ∀ r, x.rep = some r → ∃ t, exec (.blockStart a) s = .next t ∧
          ∀ y ∈ s.crew x, t.act y.id = some { y with entry := .checked, flight := some fl, rep := some r }) ∧
        (kindRepeats (hdrKind hdr) = true → x.rep = none → (∀ y ∈ s.crew x, good y ∧ (trip y).toNat < 2 ^ 24) →
          trip x ≠ 0 → ∃ t, exec (.blockStart a) s = .next t ∧ ∀ y ∈ s.crew x,
            t.act y.id = some { y with entry := .checked, flight := some fl, rep := some ((trip x).toNat, 0) }) ∧
        (kindRepeats (hdrKind hdr) = true → x.rep = none → x.gang = none → ¬ good x →
          exec (.blockStart a) s = .next (s2.takeFault a
            ⟨x.resume, .dataError, 255, 0, 0, a.serial, BitVec.ofNat 64 (8 * hdrTrip hdr), 0⟩).settle) ∧
        (kindRepeats (hdrKind hdr) = true → x.rep = none → x.gang = none → good x → 2 ^ 24 ≤ (trip x).toNat →
          exec (.blockStart a) s =
            .next (s2.takeFault a ⟨x.resume, .repeatCount, 255, 0, 0, a.serial, trip x, 0⟩).settle) ∧
        (kindRepeats (hdrKind hdr) = true → x.rep = none → x.gang = none → good x → trip x = 0 →
          s2.exitCheck x (fallThrough fl) .exit false = .ok () →
          ∃ t, exec (.blockStart a) s = .next t ∧
            t.act a = some { x with entry := .checked, resume := fallThrough fl, rep := none }))))

/-- R33, R214 to R217: BLOCK_COMMIT of a quiescent, complete execution that raises nothing commits it; BLOCK_FAULT of any
other raises one fault, by the first case that applies: a second token at an operand, a slot's fault, two exits, no exit,
a WR or store that is neither done nor nulled. R23: a block that would commit and whose commit reads the region table
faults where an entry fails its check code; which blocks read it is the model's choice (assumption log 80). R87: a stale
handle goes to the black-box record beside its fault. -/
def Obligations.BlocksEnd : Prop :=
  (∀ (s : State) a x crew t, s.act a = some x → s.flying x = some crew → memberOf x = 0 →
    (crew.all fun q => q.fl.quiet && !s.halted q.x.id) = true → s.stopped = false → s.mayEnd a.fn = true →
    (∀ q ∈ crew, q.fl.faultCase = none) → divergence crew = none → s.tryCommit crew = .ok t →
    (∀ q ∈ crew, q.fl.readsRegions q.x.hasFrame = false ∨ s.badEntry q.x = none) →
    exec (.blockCommit a) s = .next (State.settle (match crew with
      | [] => t
      | q :: _ => (crew.map fun m => m.x.coreNum).eraseDups.foldl (fun (u : State) n => u.modCore n fun k =>
          k.predicted q.fl.addr (((q.fl.exitSlot.bind q.fl.instr).map exitNum).getD 0)
            (((t.act a).map (·.resume)).getD 0)) t))) ∧
  (∀ (s : State) a x fl rank k f, s.act a = some x → x.gang = none → x.flight = some fl → fl.quiet = true →
    s.halted a = false → s.stopped = false → s.mayEnd a.fn = true → fl.faultCase = some (rank, k, f) →
    (rank = 1 → s.engineFault ⟨0, x, fl⟩ k f = false) →
    exec (.blockFault a) s = .next (State.settle ((if f.cause = .recordIntegrity then s.logStale ⟨0, x, fl⟩ k f
      else s).takeFault a ⟨fl.addr, f.cause, k, 0, 0, a.serial, f.a,
      if f.cause.hasB then f.b else BitVec.ofNat 64 (match x.rep with | some (_, i) => i | none => 0)⟩))) ∧
  (∀ (s t : State) a x fl e, s.act a = some x → x.gang = none → x.flight = some fl → fl.quiet = true →
    s.halted a = false → s.stopped = false → s.mayEnd a.fn = true → fl.faultCase = none →
    s.tryCommit [⟨0, x, fl⟩] = .ok t → fl.readsRegions x.hasFrame = true → s.badEntry x = some e →
    exec (.blockCommit a) s = .next s ∧ exec (.blockFault a) s = .next (s.recordFault x e).settle) ∧
  (∀ (f : Flight),
    (∀ k o, k < f.words.length → (f.slot k).second = some o → (∀ j, j < k → (f.slot j).second = none) →
      f.faultCase = some (0, k, ⟨.collision, BitVec.ofNat 64 (4 * k + o.code), 0⟩)) ∧
    ((∀ j, j < f.words.length → (f.slot j).second = none) →
      (∀ k e, k < f.words.length → (f.slot k).status = .faulted e →
        (∀ j, j < k → ∀ d, (f.slot j).status ≠ .faulted d) → f.faultCase = some (1, k, e)) ∧
      ((∀ j, j < f.words.length → ∀ d, (f.slot j).status ≠ .faulted d) →
        (∀ k e j d r, f.exits = (k, e) :: (j, d) :: r →
          f.faultCase = some (2, k, ⟨.multipleExit, BitVec.ofNat 64 j, 0⟩)) ∧
        (f.exits = [] → f.faultCase = some (4, 255, ⟨.missingExit, 0, 0⟩)) ∧
        (∀ e, f.exits = [e] → f.written = false → f.faultCase = some (5, 255, ⟨.incomplete, 0, 0⟩)) ∧
        (∀ e, f.exits = [e] → f.written = true → f.faultCase = none))))

/-- R93, R115 to R123, R181, R184, R192, R195: COPY_COMPLETE of a command that the copy units may work on moves the
elements still to move, sets the tag and makes the completion child ready; TRANSLATION_WALK fills the acre's cache with
the stage-1 entry of the page and the stage-2 entries that it used, each tagged with its function and stage, or with
none when a stage fails; MATRIX_COMMAND_START, in slot order, and MATRIX_COMMAND_COMPLETE of a command whose turn it is.
A CBANK and an MWLOAD read the strict flag: an entry that fails its check code then faults their activity (R23). The
model's choices: that those are reads of the entries (assumption log 80); one that meets bad data late does nothing and
leaves its members' contexts bad (assumption log 74), a command reads its operands at its start or at its completion
(log 50), MSTORE writes its tiles at its completion (log 73). -/
def Obligations.EngineEvents : Prop :=
  (∀ (s : State) a tag x c, s.act a = some x → x.copyOf tag = some c → s.copyRuns x c = true →
    let rest := (upFrom 0 c.count).filter fun n => !c.moved.contains n
    let r := if c.failed.isSome then (s, c.failed) else s.moveAll a c rest
    let t := r.1.modAct a fun y => y.tagDone c r.2
    let u : State := match c.child with
      | none => t
      | some ch => t.copyChild x tag r.2.isSome ch
    let w : State := (u.checkTagWait a).refreshEnvu a.fn
    ((c.kind = .cbank → s.badEntry x = none) → exec (.copyComplete a tag) s = .next w.settle) ∧
    (∀ e, c.kind = .cbank → s.badEntry x = some e →
      exec (.copyComplete a tag) s = .next (w.recordFault x e).settle)) ∧
  (∀ (x : Act) (c : Copy) j, j < 64 → c.tag < 64 →
    (x.tagDone c none).tags.getLsbD j = (x.tags.getLsbD j || decide (j = c.tag)) ∧
    (x.tagDone c none).tagerr = x.tagerr ∧
    (∀ e, (x.tagDone c (some e)).tagerr.getLsbD j = (x.tagerr.getLsbD j || decide (j = c.tag)) ∧
      (x.tagDone c (some e)).tags = x.tags)) ∧
  (∀ (s : State) v acre va w e, s.s1Walk v acre (va / 65536) = .ok w → s.stage2Entry v w.ip = some e →
    ∃ tabs : List TlbEntry, exec (.translationWalk v acre va) s = .next (s.modAcre acre fun q =>
        q.cache (⟨v, 1, va / 65536, w.ip, e.cxl, w.big, tabs.flatMap (·.used)⟩ :: e ::
          tabs.filter fun d => d.page != w.ip)) ∧
      ∀ d ∈ tabs, d.page ∈ w.tables ∧ s.stage2Entry v d.page = some d) ∧
  (∀ (s : State) v acre page w, s.s1Walk v acre page = .ok w → ∃ root e1 e2 : Nat,
    (s.fn v).tableAt (page / 2 ^ 31) = some root ∧
    s.s1Read v acre (root * 2 ^ 16 + 8 * (page / 2 ^ 18 % 2 ^ 13)) = .ok e1 ∧ entryOk 1 e1 = true ∧
    s.s1Read v acre (e1 / 2 ^ 16 % 2 ^ 32 * 2 ^ 16 + 8 * (page / 2 ^ 5 % 2 ^ 13)) = .ok e2 ∧ entryOk 2 e2 = true ∧
    (e2.testBit 62 = true → w.big = true ∧ w.ip = e2 / 2 ^ 16 % 2 ^ 32 + page % 32) ∧
    (e2.testBit 62 = false → w.big = false ∧ ∃ e3,
      s.s1Read v acre (e2 / 2 ^ 16 % 2 ^ 32 * 2 ^ 16 + 8 * (page % 32)) = .ok e3 ∧ entryOk 3 e3 = true ∧
      w.ip = e3 / 2 ^ 16 % 2 ^ 32)) ∧
  (∀ (s : State) v ip e, s.stage2Entry v ip = some e → e.fn = v ∧ e.stage = 2 ∧ e.page = ip ∧
    ∃ pa, s.walk2 v (ip * 65536) = some (pa, e.cxl) ∧ e.target = pa / 65536) ∧
  (∀ (s : State) v acre va, ((∃ e, s.walk1 v acre (va / 65536) = .error e) ∨
      ∃ ip, s.walk1 v acre (va / 65536) = .ok ip ∧ s.walk2 v (ip * 65536) = none) →
    exec (.translationWalk v acre va) s = .next s) ∧
  (∀ (s : State) a x g idx m early, s.act a = some x → s.gangOf x = some g → g.cmd idx = some m →
    s.matrixRuns g m = true → m.started = false → (s.fn a.fn).preempt = none → g.turnOf idx = true →
    (g.startOk m = false → exec (.matrixCommandStart a idx early) s =
      .next (State.settle ((s.setGang (g.setCmd { m with failed := true })).checkSplit a))) ∧
    (g.startOk m = true → exec (.matrixCommandStart a idx early) s =
      let t := s.stopFiller g
      .next (t.setGang (g.setCmd { (if early then { t.captureAll g m with early := true } else m) with started := true })))) ∧
  (∀ (s : State) a x g idx m d early, s.act a = some x → s.gangOf x = some g → g.cmd idx = some m →
    d ∈ g.cmds → d.idx < idx → d.pending = true → d.started = false →
    exec (.matrixCommandStart a idx early) s = .next s) ∧
  (∀ (s : State) a x g idx m, s.act a = some x → s.gangOf x = some g → g.cmd idx = some m →
    s.matrixRuns g m = true → m.started = true →
      let d := if m.early then { m with early := false } else s.captureAll g m
      let late := s.lateErrors g m
      let hits := match d.kind with
        | .mwload _ => if (s.fn a.fn).strict x.region then d.reservedHits else []
        | _ => []
      let t : State := if late = [] then (match d.kind with
          | .mstore n => s.storeTiles g d n
          | _ => s.tilesMended g d)
        else late.foldl (fun (u : State) b => u.modAct b fun y => { y with bad := .context b :: y.bad }) s
      let h := (if late = [] then (g.setCmd d).apply d else g.setCmd d).setCmd { d with done := true, data := [], hits := hits }
      let u : State := (t.setGang h.tidy).checkSplit a
      (((∀ sp, d.kind ≠ .mwload sp) ∨ s.badEntry x = none) →
        exec (.matrixCommandComplete a idx) s = .next u.settle) ∧
      (∀ sp e, d.kind = .mwload sp → s.badEntry x = some e →
        exec (.matrixCommandComplete a idx) s = .next (u.recordFault x e).settle))

/-! ### Events: the life of activities -/

/-- R26, R32, R342 to R354: LAUNCH takes the next record of a ring and writes its status byte; DISPATCH places the
selected activity on the first core of its choice with its base priority; WRITE_BACK, PRIORITY_AGING and
GANG_RESERVATION, which raises a trap of the GANG's block with the gang in place (R256). The model's choices: a GANG for
want of root records backs off (assumption log 16), the ageing of one that waits for its gang's place counts from the
start of that wait (log 57), each member of a gang is a ready activity of its own (log 85), a gang that waits in SPLIT
and has no place ages and takes one (log 101), and what failed its check code stays failed, and is met at the reads that
log 80 names, the search for a free entry among them, until it is written again. -/
def Obligations.LaunchAndPlacement : Prop :=
  (∀ (s : State) v q, (s.fn v).cfg.en = true → s.fnRuns v = true → s.locked = true → q < (s.fn v).cfg.lqcount →
    (s.fn v).cons.getD q 0 ≠ (s.fn v).prod.getD q 0 →
    let c := (s.fn v).cons.getD q 0
    let place := (s.fn v).cfg.lqbase + q * 16384 + c % 64 * 256
    let rc := s.ipaRead v place 256
    let copied := s.sched.any fun e => e.copies.contains (v, q, c)
    let taken (t : State) (st : Nat) : State := (State.ipaWrite v t (place + 0x38) [BitVec.ofNat 8 st]).modFn v fun f =>
      { f with cons := f.cons.set q ((c + 1) % 2 ^ 32) }
    (∀ k ∈ s.kills, k.target = .queue v q →
      exec (.launch v q) s = .next ((taken s 6).schedTaken v q c none)) ∧
    ((∀ k ∈ s.kills, k.target ≠ .queue v q) →
      (∀ st, s.launchStatus v rc copied = st → st ≠ 0 →
        exec (.launch v q) s = .next ((taken s st).schedTaken v q c none)) ∧
      (s.launchStatus v rc copied = 0 → exec (.launch v q) s =
        let r := s.launchRecord v q rc
        .next (((taken r.2 0).schedTaken v q c (some r.1)).searchEntries v r.1)))) ∧
  (∀ (s : State) v g, (∀ r ∈ (s.fn v).regions, r.idx < g → s.regionInUse v r = true → r.bad = false) →
    s.searchEntries v g = s) ∧
  (∀ (s t : State) die x c cs, s.select die = some (x, t) →
    s.badRead x = none → t.placesOnDie x die = c :: cs →
    exec (.dispatch die) s = .next ((t.modAct x.id fun y =>
      { y with run := .running, prio := (t.fn x.id.fn).baseprio x.region }).placeAct x.id c)) ∧
  (∀ (s t : State) die x e, s.select die = some (x, t) → s.badRead x = some e →
    exec (.dispatch die) s = .next (t.recordFault x e).settle) ∧
  (∀ (s : State) x, recordOk x.record = false → s.badRead x = some x.recAt) ∧
  (∀ (s : State) x, recordOk x.record = true → s.badRead x = s.badEntry x) ∧
  (∀ (s : State) x, s.badEntry x =
    (((s.fn x.id.fn).chain x.region).find? (·.bad)).map fun r => (s.fn x.id.fn).rcbAt r.idx) ∧
  (∀ (s t : State) a x, s.act a = some x → s.wantsWriteBack x = true → s.badEntry x = none →
    s.writeBackAll a = some t → exec (.writeBack a) s = .next t) ∧
  (∀ (s : State) a x e, s.act a = some x → s.wantsWriteBack x = true → s.badEntry x = some e →
    exec (.writeBack a) s = .next (s.recordFault x e).settle) ∧
  (∀ (s : State) a x, s.act a = some x → x.run = .ready → s.badEntry x = none →
    exec (.priorityAging a) s = .next ((s.modAct a fun y =>
    { y with prio := Min.min 15 ((s.fn a.fn).baseprio x.region + (s.time - x.readyAt) / 50000) }).stamp a)) ∧
  (∀ (s : State) a x, s.act a = some x → x.run = .waiting → x.wkind = .gang ∨ (x.wkind = .split ∧ x.place = none) →
    s.badEntry x = none → exec (.priorityAging a) s = .next ((s.modAct a fun y =>
      { y with prio := Min.min 15 ((s.fn a.fn).baseprio x.region + (s.time - x.waitFrom) / 50000) }).stamp a)) ∧
  (∀ (s : State) a x e, s.act a = some x → x.run = .ready ∨ (x.run = .waiting ∧ x.wkind = .gang) →
    s.badEntry x = some e → exec (.priorityAging a) s = .next (s.recordFault x e).settle) ∧
  (∀ (s : State) a x shape, s.act a = some x → x.reshape = some shape → s.gangOf x = none → s.wantsSite x = true →
    (s.badRead x = none ∨ x.place.isSome = true) →
    let room := match (s.fn a.fn).root x.region with
      | some r => decide (sizeOfShape shape - 1 ≤ r.rfree)
      | none => false
    (∀ site, room = true → s.chooseSite x shape (fun _ => x.banks) = some site →
      let t : State := (s.formGang x shape site).refreshEnvu a.fn
      (x.trap = none → exec (.gangReservation a) s = .next t) ∧
      (∀ y, x.trap.isSome = true → t.act a = some y →
        exec (.gangReservation a) s = .next (t.raiseTrap y).settle)) ∧
    (room = false ∨ s.chooseSite x shape (fun _ => x.banks) = none → exec (.gangReservation a) s =
      .next (s.modAct a fun y => { y with
        attempts := y.attempts + 1
        retryAt := s.time + 2 ^ Min.min (y.attempts + 1) 6 * 1000 + y.id.serial % 64 * 16 }))) ∧
  (∀ (s : State) a x g shape site, s.act a = some x → x.reshape = some shape → s.gangOf x = some g →
    s.wantsSite x = true → (∀ y ∈ s.crew x, s.badRead y = none ∨ y.place.isSome = true) →
    s.chooseSite x shape (s.crewBanks x) = some site →
    exec (.gangReservation a) s = .next ((s.placeGang x g site).refreshEnvu a.fn)) ∧
  (∀ (s : State) a x shape y rest e, s.act a = some x → x.reshape = some shape → s.wantsSite x = true →
    s.crew x = y :: rest → y.place = none → s.badRead y = some e →
    exec (.gangReservation a) s = .next (s.recordFault y e).settle)

/-- R30, R31, R256, R298, R299, R330, R349, R365: RETIRE_EFFECT once every copy has completed, KILL_FINISH of a queue
and of a tree, SLEEP_DEADLINE; what a retirement does (the activity is gone, and with it its loans, handles and slot, and
its weight returns); the passing of weight to a region, which completes it when all of it has returned. The model's
choices: the trap of a retiring activity is resolved before its weight returns (assumption log 15), a region's entry that
fails its check code is met when a retirement reads it (log 80), the kill of a PREEMPT entry of the schedule table writes
no notice (log 18), and a kill ends once every message to a desk that it sent has been taken (log 59). -/
def Obligations.EndsOfActivities : Prop :=
  (∀ (s : State) a x, s.act a = some x → x.retiring = true → x.saved = false → s.fnOn a.fn = true →
    (∀ y ∈ s.crew x, y.copies = [] ∧ y.trap = none) → s.badEntry x = none →
    exec (.retireEffect a) s = .next (State.settle (s.retire a false true))) ∧
  (∀ (s : State) a x n b k, s.act a = some x → x.gang = none → x.retiring = true → x.saved = false → s.fnOn a.fn = true →
    x.copies = [] → x.trap = some (n, b, k) → s.badEntry x = none → exec (.retireEffect a) s =
      .next (State.settle ((s.resolve x ⟨b, .trap, k, 0, 1, a.serial, BitVec.ofNat 64 n, 0⟩).retire a false true))) ∧
  (∀ (s : State) a x e, s.act a = some x → x.retiring = true → x.saved = false → s.fnOn a.fn = true →
    (∀ y ∈ s.crew x, y.copies = []) → s.badEntry x = some e →
    exec (.retireEffect a) s = .next (s.recordFault x e).settle) ∧
  (∀ (s : State) a x, s.act a = some x → x.gang = none → (∀ q ∈ (s.fn a.fn).shelves, q.unsealing = false) →
    (∀ b p c id v, LReg.sealed b p c id v ∉ x.l.toList) →
    let u : State := s.free a false
    let t : State := s.retire a false true
    t = ({ u with gangs := u.gangs.filter fun g => !(g.fn == a.fn && g.lead == a.serial) } : State).giveWeight a.fn
        x.region (x.weight + x.childWeight) ∧
      (∀ y ∈ t.acts, y.id ≠ a) ∧
      (∀ b p c e, LReg.loan b p c ∈ x.l.toList → e ∈ (t.fn a.fn).stage1 → e.va < b ∨ b + p ≤ e.va) ∧
      (∀ p, x.place = some p → ∀ q ∈ (t.core p.core).envs, q.2.reserver = none →
        q.2.count = ((t.onCore p.core).map fun z => z.refs q.1).sum ∧ 0 < q.2.count)) ∧
  (∀ (s : State) k x, s.kills.find? (fun y => y.target == k) = some x → s.killLanded x = false →
    exec (.killFinish k) s = .next s) ∧
  (∀ (s : State) k x v, s.kills.find? (fun y => y.target == k) = some x → s.killLanded x = true →
    (∃ q, k = .queue v q) ∨ (∃ d, k = .tree v d) →
    let gone : State := { s with kills := s.kills.filter fun y => y.target != k }
    let released : State := x.regions.foldl (fun (t : State) g =>
      match (t.fn v).region g with
      | none => t
      | some r => ((t.giveDevice v g r.devp).modRegion v g fun q => { q with devp := [] }).freeDesks v g)
      (match k with | .queue w q => gone.discardRecords w q | .tree _ _ => gone)
    let roots (t : State) : List Nat := x.regions.filter fun g => match (t.fn v).region g with
      | some r => r.parent.isNone
      | none => false
    (∀ q, k = .queue v q → x.entry = none → roots released = [] → exec (.killFinish k) s = .next released) ∧
    (∀ d r p, k = .tree v d → x.entry = none → (released.fn v).region d = some r → r.parent = some p →
      roots (released.giveWeight v p r.held) = [] →
      exec (.killFinish k) s = .next (released.giveWeight v p r.held)) ∧
    (∀ d r, k = .tree v d → x.entry = none → (released.fn v).region d = some r → r.parent = none →
      roots (released.writeNotice v r true) = [d] →
      exec (.killFinish k) s = .next ((released.writeNotice v r true).schedEnded v d)) ∧
    (∀ d r e, k = .tree v d → x.entry = some e → (released.fn v).region d = some r → r.parent = none →
      roots released = [d] → exec (.killFinish k) s = .next ((released.schedEnded v d).schedLaunch e))) ∧
  (∀ (s : State) a x, s.act a = some x → x.gang = none → x.saved = false → x.run = .waiting → x.wkind = .sleep →
    x.wop ≤ s.time → exec (.sleepDeadline a) s = .next (State.settle (s.wakeOne a))) ∧
  (∀ (s : State) a x, s.act a = some x → x.run = .waiting → x.trap = none → x.place = none →
    ∃ y, (s.wakeOne a).act a = some y ∧ y.run = .ready ∧ y.wkind = .none ∧ y.readyAt = s.time ∧ y.s = x.s) ∧
  (∀ (s : State) v g n r, (s.fn v).region g = some r → r.rstate = .open → r.parent = none →
    (r.returned + n) % 2 ^ 64 = r.issued →
    ∃ q, ((s.giveWeight v g n).fn v).region g = some q ∧ q.rstate = .complete ∧ q.devp = []) ∧
  (∀ (s : State) v g n r, (s.fn v).region g = some r →
    (r.rstate ≠ .open ∨ (r.returned + n) % 2 ^ 64 ≠ r.issued) →
    s.giveWeight v g n = s.modRegion v g fun q => { q with returned := (q.returned + n) % 2 ^ 64 })

/-! ### Events: desks and meetings -/

/-- R37 to R43, R57, R58, R65 to R67, R385: arrivals, expiries and kills at a desk of a function that runs. The first
arrival opens the desk, a second one makes the pair or completes the round; an arrival of another kind or after its
deadline lands at once; the expiries of a round are taken by deadline; every notice is a message to its party. R23: an
arrival that opens a desk faults where an entry of its regions fails its check code; that the key charge is such a read
is the model's choice (assumption log 80). -/
def Obligations.DeskEvents : Prop :=
  (∀ (s : State) n p key x w, s.msg n = some (.meetArrival p key) → s.act p.id = some x →
    s.route p.id.fn key = .here w → s.fnRuns w = true →
    let t := (s.takeMsg n).expireDesk w key
    (t.desk w key = none → p.due t.time = false → t.badEntry x = none →
      ∀ u, t.newDesk w key x (.meeting (some p) []) = some u → exec (.meetArrival n) s = .next u) ∧
    (t.desk w key = none → p.due t.time = false → t.badEntry x = none →
      t.newDesk w key x (.meeting (some p) []) = none → exec (.meetArrival n) s = .next (t.notice p.id 5 4 none)) ∧
    (∀ e, t.desk w key = none → p.due t.time = false → t.badEntry x = some e →
      exec (.meetArrival n) s = .next (t.recordFault x e).settle) ∧
    (t.desk w key = none → p.due t.time = true →
      exec (.meetArrival n) s = .next (t.notice p.id 1 0 none)) ∧
    (∀ d q prs, t.desk w key = some d → d.st = .meeting (some q) prs → t.stillWaits q key = true →
      exec (.meetArrival n) s = .next (t.setDesk w key (.meeting none (prs ++ [(q, p)])))) ∧
    (∀ d prs, t.desk w key = some d → d.st = .meeting none prs → p.due t.time = false →
      exec (.meetArrival n) s = .next (t.setDesk w key (.meeting (some p) prs))) ∧
    (∀ d m r, t.desk w key = some d → d.st = .gathering m r →
      exec (.meetArrival n) s = .next (t.notice p.id 5 1 none))) ∧
  (∀ (s : State) n p key arity op x w, s.msg n = some (.gatherArrival p key arity op) → s.act p.id = some x →
    s.route p.id.fn key = .here w → s.fnRuns w = true →
    let t := (s.takeMsg n).expireDesk w key
    (gatherOk op arity = false → exec (.gatherArrival n) s = .next (t.notice p.id 5 3 none)) ∧
    (gatherOk op arity = true → p.due t.time = false →
      (t.desk w key = none → t.badEntry x = none →
        ∀ u, t.newDesk w key x (.gathering 0 (some ⟨arity, op, [p]⟩)) = some u → exec (.gatherArrival n) s = .next u) ∧
      (∀ e, t.desk w key = none → t.badEntry x = some e →
        exec (.gatherArrival n) s = .next (t.recordFault x e).settle) ∧
      (∀ d m, t.desk w key = some d → d.st = .gathering m none →
        exec (.gatherArrival n) s = .next (t.setDesk w key (.gathering m (some ⟨arity, op, [p]⟩)))) ∧
      (∀ d m r, t.desk w key = some d → d.st = .gathering m (some r) →
        (r.arity ≠ arity ∨ r.op ≠ op → exec (.gatherArrival n) s = .next (t.notice p.id 5 2 none)) ∧
        (r.arity = arity → r.op = op → r.parties.length + 1 ≠ arityCount arity → exec (.gatherArrival n) s =
          .next (t.setDesk w key (.gathering m (some { r with parties := r.parties ++ [p] })))) ∧
        (r.arity = arity → r.op = op → r.parties.length + 1 = arityCount arity → exec (.gatherArrival n) s =
          .next ((t.release { r with parties := r.parties ++ [p] } m).closeRound w key (m + 1)))) ∧
      (∀ d q prs, t.desk w key = some d → d.st = .meeting q prs →
        exec (.gatherArrival n) s = .next (t.notice p.id 5 1 none)))) ∧
  (∀ (s : State) fn key d p prs, s.fnRuns fn = true → s.desk fn key = some d → d.st = .meeting (some p) prs →
    p.due s.time = true → exec (.meetExpiry fn key) s =
      let t := s.notice p.id 1 0 none
      .next (if prs.isEmpty then t.freeDesk fn key else t.setDesk fn key (.meeting none prs))) ∧
  (∀ (s : State) fn key a d n r p, s.fnRuns fn = true → s.desk fn key = some d → d.st = .gathering n (some r) →
    firstDue fn s.time r.parties = some p →
    (p.id = a → exec (.gatherExpiry fn key a) s =
      let t := s.notice a 3 r.parties.length none
      let rest := r.parties.filter fun q => q.id != a
      .next (if rest.isEmpty then t.closeRound fn key n
        else t.setDesk fn key (.gathering n (some { r with parties := rest })))) ∧
    (p.id ≠ a → exec (.gatherExpiry fn key a) s = .next s)) ∧
  (∀ (fn now : Nat) (ps : List Party) p, (∀ q ∈ ps, q.id.fn < 32 ∧ q.id.serial < 2 ^ 32) →
    firstDue fn now ps = some p → p ∈ ps ∧ p.due now = true ∧
    ∀ q ∈ ps, q.due now = true → p.deadline.getD 0 ≤ q.deadline.getD 0) ∧
  (∀ (s : State) n fn key a d, s.msg n = some (.kill fn key a) → s.fnRuns fn = true →
    ((s.takeMsg n).expireDesk fn key).desk fn key = some d →
    let t := (s.takeMsg n).expireDesk fn key
    (∀ p, d.st = .meeting (some p) [] → p.id = a → exec (.deskKill n) s = .next (t.freeDesk fn key)) ∧
    (∀ p q, d.st = .meeting none [(p, q)] → p.id = a → exec (.deskKill n) s =
      .next ((t.notice q.id 2 a.serial none).freeDesk fn key)) ∧
    (∀ m r, d.st = .gathering m (some r) → (∃ p ∈ r.parties, p.id = a) → exec (.deskKill n) s =
      .next (((r.parties.filter fun p => p.id != a).foldl (fun (u : State) p => u.notice p.id 2 a.serial none)
        t).closeRound fn key (m + 1))))

/-- R63, R64: the result of a gathering round, lane by lane: the sum modulo 2^w or the exact sum rounded once, the
least, the greatest (signed, unsigned or as floating-point numbers, -0 below +0, a NaN if any is one) or the bitwise
combination, or the number of parties; the vector types fill their lanes. The model's choice: the bits of S15 above a
result of 32 or 16 bits are zero (assumption log 87). -/
def Obligations.GatheringResult : Prop :=
  (∀ (vs : List Nat), gatherLane .add 1 vs = vs.sum % 2 ^ 64 ∧ gatherLane .add 0 vs = vs.sum % 2 ^ 64 ∧
    gatherLane .add 5 vs = vs.sum % 2 ^ 32) ∧
  (∀ (v : Nat) (vs : List Nat), (∀ u ∈ v :: vs, u < 2 ^ 64) →
    gatherLane .min 1 (v :: vs) ∈ v :: vs ∧ (∀ u ∈ v :: vs, gatherLane .min 1 (v :: vs) ≤ u) ∧
    gatherLane .max 1 (v :: vs) ∈ v :: vs ∧ (∀ u ∈ v :: vs, u ≤ gatherLane .max 1 (v :: vs))) ∧
  (∀ ty (v : Nat) (vs : List Nat), ty = 0 ∨ ty = 5 → (∀ u ∈ v :: vs, u < 2 ^ gatherWidth ty) →
    let int (u : Nat) : Int := bitsInt true (gatherWidth ty) u
    gatherLane .min ty (v :: vs) ∈ v :: vs ∧ (∀ u ∈ v :: vs, int (gatherLane .min ty (v :: vs)) ≤ int u) ∧
    gatherLane .max ty (v :: vs) ∈ v :: vs ∧ (∀ u ∈ v :: vs, int u ≤ int (gatherLane .max ty (v :: vs)))) ∧
  (∀ ty (vs : List Nat), ty = 0 ∨ ty = 1 ∨ ty = 5 → ∀ j, j < gatherWidth ty →
    (vs ≠ [] → (gatherLane .and ty vs).testBit j = vs.all (·.testBit j)) ∧
    (gatherLane .or ty vs).testBit j = vs.any (·.testBit j) ∧
    (gatherLane .xor ty vs).testBit j = decide ((vs.filter (·.testBit j)).length % 2 = 1)) ∧
  (∀ ty f (vs : List Nat), gatherFmt ty = some f → vs ≠ [] →
    let val (u : Nat) : ℚ := match f.read u with
      | .fin s n d => (if s then -1 else 1) * n / d
      | _ => 0
    ((∃ v ∈ vs, f.read v = .nan) →
      gatherLane .add ty vs = f.nan ∧ gatherLane .min ty vs = f.nan ∧ gatherLane .max ty vs = f.nan) ∧
    ((∃ v ∈ vs, f.read v = .inf true) → (∃ v ∈ vs, f.read v = .inf false) → gatherLane .add ty vs = f.nan) ∧
    (∀ s, (∃ v ∈ vs, f.read v = .inf s) → (∀ v ∈ vs, f.read v ≠ .nan ∧ f.read v ≠ .inf (!s)) →
      gatherLane .add ty vs = f.infBits s) ∧
    ((∀ v ∈ vs, ∃ s n d, f.read v = .fin s n d) → ∃ (s : Bool) (n d : Nat), 0 < d ∧
      (if s then -1 else 1) * (n : ℚ) / d = (vs.map val).sum ∧ gatherLane .add ty vs = f.round .rne false 0 (.fin s n d) ∧
      (n = 0 → (s = true ↔ ∀ v ∈ vs, ∃ e, f.read v = .fin true 0 e))) ∧
    ((∀ v ∈ vs, f.read v ≠ .nan) →
      (∃ v ∈ vs, gatherLane .min ty vs = f.round .rne false 0 (f.read v) ∧ ∀ u ∈ vs,
        (f.read v).cmp (f.read u) ≠ some .gt ∧
        ((f.read v).cmp (f.read u) = some .eq → (f.read u).isNeg = true → (f.read v).isNeg = true)) ∧
      (∃ v ∈ vs, gatherLane .max ty vs = f.round .rne false 0 (f.read v) ∧ ∀ u ∈ vs,
        (f.read v).cmp (f.read u) ≠ some .lt ∧
        ((f.read v).cmp (f.read u) = some .eq → (f.read v).isNeg = true → (f.read u).isNeg = true)))) ∧
  (∀ op a ps k, arityType a ≠ 8 → k < gatherLanes (arityType a) →
    let w := gatherWidth (arityType a)
    gatherResult op a ps / 2 ^ (w * k) % 2 ^ w =
      gatherLane op (arityType a) (ps.map fun p => p.contrib.toNat / 2 ^ (w * k) % 2 ^ w) ∧
    gatherResult op a ps < 2 ^ (w * gatherLanes (arityType a))) ∧
  (∀ op a ps, arityType a = 8 → gatherResult op a ps = arityCount a) ∧
  (∀ op a ps, arityType a < 5 → gatherWidth (arityType a) = 64 →
    gatherResult op a ps = gatherLane op (arityType a) (ps.map fun p => p.contrib.toNat % 2 ^ 64))

/-- R17, R44, R48, R49, R54, R55, R59, R336: PAIR_PLACEMENT takes the first pair that a core qualifies for, once no copy
touches its luggage (R138), and moves its parties there; a party whose record, or the entry of a region of it, fails its
check code faults (R12, R23, R335); TRAVEL_ARRIVAL begins the meeting and lands both with MET and the partner's serial;
LANDING_NOTICE lands a waiting party with its status; PART_LANDING ends a party's meeting. The model's choices: the pair
of a party that faults so is dissolved and the other lands ABORTED (assumption log 76), and what a travelled party
brought is free on the meeting core from its PART landing on (log 86). -/
def Obligations.MeetingEvents : Prop :=
  (∀ (s : State) fn key d fst q rest x y c, s.desk fn key = some d → d.st = .meeting fst (q :: rest) →
    s.act q.1.id = some x → s.act q.2.id = some y → s.fnRuns x.id.fn = true → s.fnRuns y.id.fn = true →
    s.fnRuns fn = true → x.lugQuiet = true → y.lugQuiet = true → s.meetingCore x y d.home = some c →
    (x.place = none → s.badRead x = none) → (y.place = none → s.badRead y = none) →
    exec (.pairPlacement fn key) s =
      let left := (q :: rest).filter fun r => r != q
      let t : State := if fst.isNone && left.isEmpty then s.freeDesk fn key else s.setDesk fn key (.meeting fst left)
      let t : State := t.modAct x.id fun z => { z with meet := z.meet.map fun m => { m with partner := y.id, first := true } }
      let t : State := t.modAct y.id fun z => { z with meet := z.meet.map fun m => { m with partner := x.id, first := false } }
      let t : State := (t.travel x.id c).travel y.id c
      .next { t with meetings := t.meetings ++ [⟨t.fresh, x.id, y.id, c, false⟩], fresh := t.fresh + 1 }) ∧
  (∀ (s : State) fn key d fst q rest x y c, s.desk fn key = some d → d.st = .meeting fst (q :: rest) →
    s.act q.1.id = some x → s.act q.2.id = some y → s.fnRuns x.id.fn = true → s.fnRuns y.id.fn = true →
    s.fnRuns fn = true → x.lugQuiet = true → y.lugQuiet = true → s.meetingCore x y d.home = some c →
    (∀ e, x.place = none → s.badRead x = some e →
      exec (.pairPlacement fn key) s = .next (s.pairFault fn key x e)) ∧
    (∀ e, (x.place.isSome = true ∨ s.badRead x = none) → y.place = none → s.badRead y = some e →
      exec (.pairPlacement fn key) s = .next (s.pairFault fn key y e))) ∧
  (∀ (s : State) fn key x e, s.pairFault fn key x e = ((s.deskKilled fn key x.id).recordFault x e).settle) ∧
  (∀ (s : State) n m, s.meetings.find? (fun q => q.num == n && !q.begun) = some m → s.fnOn m.first.fn = true →
    s.fnOn m.second.fn = true → s.stopped = false → exec (.travelArrival n) s =
      let t : State := { s with meetings := s.meetings.map fun q => if q.num = n then { q with begun := true } else q }
      let t : State := t.modAct m.first fun x => { x with meet := x.meet.map fun z => { z with begun := true } }
      let t : State := t.modAct m.second fun x => { x with meet := x.meet.map fun z => { z with begun := true } }
      .next (State.settle ((t.land m.first 0 (BitVec.ofNat 64 m.second.serial) none).land m.second 0
        (BitVec.ofNat 64 m.first.serial) none))) ∧
  (∀ (s : State) n a st s15 v15 x, s.msg n = some (.landing a st s15 v15) → s.act a = some x → x.saved = false →
    exec (.landingNotice n) s =
      .next (State.settle (((s.takeMsg n).modAct a fun y => { y with meet := none }).land a st s15 v15))) ∧
  (∀ (s : State) a st s15 v15 x, s.act a = some x → x.gang = none → x.run = .waiting → x.place.isSome = true →
    x.trap = none → x.env.kind ≠ .spilled → ∃ y, (s.land a st s15 v15).act a = some y ∧ y.run = .running ∧
      y.wkind = .none ∧ y.s.toList.getD 14 0 = BitVec.ofNat 64 st ∧ y.s.toList.getD 15 0 = s15 ∧
      (∀ n, n < 14 ∨ 16 ≤ n → y.s.toList.getD n 0 = x.s.toList.getD n 0) ∧
      (v15 = none → y.v = x.v) ∧ (∀ w, v15 = some w → y.v.toList.getD 15 0 = w)) ∧
  (∀ (s : State) a x m, s.act a = some x → x.meet = some m → x.wkind = .part → x.run = .waiting →
    (∀ n y f, m.parting = some n → s.act m.partner = some y → y.flight = some f → f.seq ≠ n) → s.fnRuns a.fn = true →
    exec (.partLanding a) s =
      let t : State := s.leaveMeeting a .parted
      let t : State := if x.behind.isSome then (t.unplaceEnvs a).writeRecord a else t
      .next (State.settle (((t.land a (if m.left == .killed then 2 else 0) (BitVec.ofNat 64 m.partner.serial)
        none).finishUnseals a.fn).refreshEnvu a.fn)))

/-! ### Events: pre-emption, slices, schedules, function records -/

/-- R348, R349, R355, R356, R395 to R397: a pre-emption request marks the function; 4 µs later its blocks in flight are
dropped: nothing else changes, but that the cores may lose environments that those blocks had reserved and that an
unsealing which waited only for slots that they had opened ends (R109); at a boundary the streams stop and every copy
records its first element not yet moved, and the pre-emption of one that stays ends with its contexts made whole; a
slice ends only after its length, and goes on where no other member has work; SCHEDULE_LAUNCH looks at one entry. The
model's choices: an entry of the black-box record that names no core goes to the ring of die 4 with core 1FFFh
(assumption log 53), and of a stopped copy the elements of a granule that has been written stay moved (log 50). -/
def Obligations.PreemptionEvents : Prop :=
  (∀ (s : State) v why, (why = .hypervisor ∨ why = .restoreElsewhere) → (s.fn v).state = .running →
    (s.fn v).preempt = none → s.vfBusy = none → exec (.preemptionRequest v why) s =
      .next (s.modFn v fun f => { f with preempt := some ⟨s.time, why, false, .stay⟩ })) ∧
  (∀ (s : State) v p, (s.fn v).preempt = some p → p.closed = false → p.since + 4000 ≤ s.time →
    ∃ t : State,
      (let u : State := t.modFn v fun f => { f with preempt := some { p with closed := true } }
      exec (.preemptAbortDeadline v) s = .next (u.finishUnseals v) ∧
        ((∀ q ∈ (s.fn v).shelves, q.unsealing = false) → u.finishUnseals v = u)) ∧
      (∀ a x, s.act a = some x → t.act a = some (if a.fn = v ∧ x.flight.isSome then { x with flight := none } else x)) ∧
      ({ t with acts := s.acts, cores := s.cores } : State) = s ∧
      ∀ n, t.core n = { s.core n with envs := (t.core n).envs, gens := (t.core n).gens } ∧
        (∀ e ∈ (t.core n).envs, e ∈ (s.core n).envs) ∧
        (((s.core n).envs.map (·.1)).Nodup → ∀ e ∈ (s.core n).envs, e.2.reserver = none → e ∈ (t.core n).envs)) ∧
  (∀ (s : State) v p, (s.fn v).preempt = some p → p.goal = .stay → s.atBoundary v = true → s.stopped = false →
    exec (.preemptSave v) s =
      let t : State := s.log 4 2 0x1FFF v 0 (match p.why with
        | .sliceEnd => 0
        | .hypervisor => 1
        | .restoreElsewhere => 2) [BitVec.ofNat 64 p.since, BitVec.ofNat 64 s.time]
      let t : State := t.stopStreams v
      let t : State := { t with acts := t.acts.map fun x => if x.id.fn = v then x.stopCopies else x }
      .next (State.settle ((((t.leaveChip v false).modFn v fun f => { f with preempt := none })).makeWhole v))) ∧
  (∀ (x : Act), x.stopCopies = { x with copies := x.copies.map Copy.stop }) ∧
  (∀ (c : Copy), c.resumeAt ≤ c.count ∧ (∀ j, j < c.resumeAt → j ∈ c.moved) ∧
    (c.resumeAt < c.count → c.resumeAt ∉ c.moved) ∧ c.stop = { c with moved := c.stop.moved } ∧
    ∀ j, j ∈ c.stop.moved ↔ j < c.count ∧ j ∈ c.moved ∧ ∃ i, i < c.resumeAt ∧ c.granule i = c.granule j) ∧
  (∀ (s : State) g x, s.groupBusy g = false → s.stopped = false → s.runningOf g = some x → (s.fn x).preempt = none →
    (s.time < (s.fn x).sliceFrom + (s.fn x).sliceLen → exec (.sliceEnd g) s = .next (State.settle s)) ∧
    ((s.fn x).sliceFrom + (s.fn x).sliceLen ≤ s.time →
      (∀ y, s.nextMember g x = some y → exec (.sliceEnd g) s =
        .next (State.settle (s.modFn x fun f => { f with preempt := some ⟨s.time, .sliceEnd, false, .slice y⟩ }))) ∧
      (s.nextMember g x = none → exec (.sliceEnd g) s = .next (State.settle (s.startSlice x))))) ∧
  (∀ (s : State) e, e ≤ 255 → s.locked = true → s.stopped = false →
    let w := s.schedGet e 0x18
    let v := bits w 60 56
    let period := s.schedGet e 0x08
    bit w 63 = true → bits w 62 61 ≠ 3 → (period = 0 ∨ 10000 ≤ period) → 1 ≤ v → v ≤ 16 →
    (∀ k, s.sched.find? (fun x => x.entry == e) = some k → k.on = true →
      (s.time < s.schedGet e 0x30 → exec (.scheduleLaunch e) s = .next s) ∧
      (s.schedGet e 0x30 ≤ s.time → bit (s.schedGet e 0x20) 0 = false → period ≠ 0 → exec (.scheduleLaunch e) s =
        .next (State.settle ((s.schedLaunch e).schedSet e 0x30 (s.schedGet e 0x30 + period)))) ∧
      (s.schedGet e 0x30 ≤ s.time → bit (s.schedGet e 0x20) 0 = true → bits w 62 61 = 0 → period ≠ 0 →
        exec (.scheduleLaunch e) s = .next (State.settle ((s.schedSet e 0x28 (bits (s.schedGet e 0x28) 63 32 * 2 ^ 32 +
          (bits (s.schedGet e 0x28) 31 0 + 1) % 2 ^ 32)).schedSet e 0x30 (s.schedGet e 0x30 + period))))) ∧
    (s.sched.find? (fun x => x.entry == e) = none → exec (.scheduleLaunch e) s =
      let t : State := s.schedSet e 0x30 (firstLaunch (s.schedGet e 0) period s.time)
      .next { t with sched := ⟨e, true, []⟩ :: t.sched.filter fun x => x.entry != e }))

/-- R329, R388 to R391, R401 to R403, R437: the operations of the %vf group answer the status of their first failing
check and otherwise act; VF_COMMIT_DONE ends a commit; SCRUB_CLEAR_DONE clears the stores of the set's cores, drops
cached entries of disabled functions and sends 0. The model's choices: a save or restore of a number above 16 ends with
status 11 (assumption log 98); the reshape of a running function is a pre-emption recorded as one for a restore elsewhere
(log 35); a commit waits at its start while a SCRUB clears quadrants of its record (log 31); when an image does not fit
(log 37). -/
def Obligations.FunctionRecordEvents : Prop :=
  (∀ (s t : State) v, s.vfHead .commit v = some t →
    (∀ st, t.commitStatus v = st → st ≠ 0 → exec (.vfCommit v) s = .next (t.setStatus v st)) ∧
    (t.commitStatus v = 0 → (vfRecOf (t.recBytes v)).en = false → (t.fn v).cfg.en = false →
      exec (.vfCommit v) s = .next (t.setStatus v 0)) ∧
    (t.commitStatus v = 0 → (vfRecOf (t.recBytes v)).en = true → t.scrubs (vfRecOf (t.recBytes v)) = true →
      exec (.vfCommit v) s = .next s) ∧
    (t.commitStatus v = 0 → (vfRecOf (t.recBytes v)).en = true → t.scrubs (vfRecOf (t.recBytes v)) = false →
      (t.fn v).cfg.en = false → exec (.vfCommit v) s =
        let r := vfRecOf (t.recBytes v)
        let u := (t.setFn v ((t.fn v).enabled r)).loadKey v r.kslot
        let u : State := if (t.others v).any fun o => sameGroup v r o then u else u.assignQuads v r.quad
        let u : State := { u with vfBusy := some (.commit, v) }
        .next (State.settle ((u.modFn v fun f => { f with next := some r }).setStatus v 1))) ∧
    (t.commitStatus v = 0 → (vfRecOf (t.recBytes v)).en = false → (t.fn v).cfg.en = true →
      exec (.vfCommit v) s =
        let r := vfRecOf (t.recBytes v)
        let u : State := { (t.killQueuesFrom v 0).setFState v .changing with vfBusy := some (.commit, v) }
        .next (State.settle ((u.modFn v fun f => { f with next := some r }).setStatus v 1))) ∧
    (t.commitStatus v = 0 → (vfRecOf (t.recBytes v)).en = true → t.scrubs (vfRecOf (t.recBytes v)) = false →
      (t.fn v).cfg.en = true →
      let r := vfRecOf (t.recBytes v)
      let u : State := (t.killQueuesFrom v r.lqcount).modFn v fun f => { f with
        state := .changing
        sliceFrom := if (t.fn v).state = .parked then 0 else f.sliceFrom
        sliceLen := if (t.fn v).state = .parked then 0 else f.sliceLen }
      let start (w : State) (n : Option VfRec) : State :=
        (({ w with vfBusy := some (.commit, v) } : State).modFn v fun f => { f with next := n }).setStatus v 1
      ((t.fn v).cfg.quad = r.quad → exec (.vfCommit v) s =
        .next (State.settle (start ((u.modFn v fun f => { f with cfg := r }).dropTlb fun e => e.fn == v) (some r)))) ∧
      ((t.fn v).cfg.quad ≠ r.quad → (t.fn v).state ≠ .parked → exec (.vfCommit v) s =
        .next (State.settle (start (u.modFn v fun f => { f with
          preempt := some ⟨s.time, .restoreElsewhere, false, .reshape⟩ }) (some r)))) ∧
      ((t.fn v).cfg.quad ≠ r.quad → (t.fn v).state = .parked →
        (∀ w, u.reshapeParked v r = some w → exec (.vfCommit v) s = .next (State.settle (start w (some r)))) ∧
        (u.reshapeParked v r = none → exec (.vfCommit v) s = .next (State.settle (start u none)))))) ∧
  (∀ (s : State) v r, let t : State := s.modFn v fun f => { f with cfg := r }
    (t.noCapacity v r.save = true → s.reshape v r =
      (s.modFn v fun f => { f with next := none, cfg := (s.fn v).cfg }).makeWhole v) ∧
    (t.noCapacity v r.save = false → s.reshape v r =
      (((t.dropTlb fun e => e.fn == v).assignQuads v r.quad).loadImage v r.save).makeWhole v)) ∧
  (∀ (s : State) v, s.vfBusy = some (.commit, v) → (s.fn v).preempt = none → s.killing v = false →
    (s.fn v).next = none → exec (.vfCommitDone v) s =
      .next (State.settle { ((s.afterCommit v).modFn v fun f => { f with next := none }).setStatus v 9 with vfBusy := none })) ∧
  (∀ (s : State) v r, s.vfBusy = some (.commit, v) → (s.fn v).preempt = none → s.killing v = false →
    (s.fn v).next = some r → r.en = false → exec (.vfCommitDone v) s =
      let t : State := ((s.tearDown v).writeStateWord v).modFn v fun f => { f with next := none }
      .next (State.settle { t.setStatus v 0 with vfBusy := none })) ∧
  (∀ (s : State) v r, s.vfBusy = some (.commit, v) → (s.fn v).preempt = none → s.killing v = false →
    (s.fn v).next = some r → r.en = true → r.group = 0 → v < s.funcs.length → (s.fn v).state = .changing →
    (s.fn v).held = false → exec (.vfCommitDone v) s =
      let t : State := ((s.modFn v fun f => { f with cfg := r }).setFState v .running).modFn v fun f =>
        { f with next := none }
      .next (State.settle { t.setStatus v 0 with vfBusy := none })) ∧
  (∀ (s t : State) v, s.vfHead .save v = some t →
    (v = 0 ∨ 16 < v ∨ (t.fn v).cfg.en = false ∨ (t.fn v).held = true →
      exec (.vfSave v) s = .next (t.setStatus v 11)) ∧
    (1 ≤ v → v ≤ 16 → (t.fn v).cfg.en = true → (t.fn v).held = false → (t.fn v).cfg.saveRoom = false →
      exec (.vfSave v) s = .next (t.setStatus v 7)) ∧
    (1 ≤ v → v ≤ 16 → (t.fn v).cfg.en = true → (t.fn v).held = false → (t.fn v).cfg.saveRoom = true →
      (t.fn v).state = .running → (t.fn v).preempt = none → exec (.vfSave v) s =
        let u : State := { t with vfBusy := some (.save, v) }
        .next ((u.modFn v fun f => { f with
          state := .changing, preempt := some ⟨s.time, .hypervisor, false, .save⟩ }).setStatus v 1)) ∧
    (1 ≤ v → v ≤ 16 → (t.fn v).cfg.en = true → (t.fn v).held = false → (t.fn v).cfg.saveRoom = true →
      (t.fn v).state ≠ .running → exec (.vfSave v) s =
        .next ((((t.leaveChip v true).saveImage v (t.fn v).cfg.save (t.fn v).cfg.imageBound).modFn v fun f =>
          { f with held := true }).setStatus v 0))) ∧
  (∀ (s t : State) v, s.vfHead .restore v = some t →
    (16 < v ∨ (t.fn v).cfg.en = false ∨ (t.fn v).held = false → exec (.vfRestore v) s = .next (t.setStatus v 11)) ∧
    (v ≤ 16 → (t.fn v).cfg.en = true → (t.fn v).held = true →
      (t.imageOk (t.fn v).cfg.save = false → exec (.vfRestore v) s = .next (t.setStatus v 3)) ∧
      (t.imageOk (t.fn v).cfg.save = true → t.noCapacity v (t.fn v).cfg.save = true →
        exec (.vfRestore v) s = .next (t.setStatus v 9)) ∧
      (t.imageOk (t.fn v).cfg.save = true → t.noCapacity v (t.fn v).cfg.save = false →
        let u : State := t.modFn v fun f => { f with held := false }
        ((t.fn v).cfg.group = 0 → exec (.vfRestore v) s =
          .next (State.settle (((u.setFState v .running).restoreImage v).setStatus v 0))) ∧
        (∀ w, (t.fn v).cfg.group ≠ 0 → w ∈ t.groupMembers (t.fn v).cfg.group → w ≠ v → (t.fn w).state = .running →
          exec (.vfRestore v) s = .next (u.setStatus v 0)) ∧
        ((t.fn v).cfg.group ≠ 0 → (∀ w ∈ t.groupMembers (t.fn v).cfg.group, w ≠ v →
            (t.fn w).state ≠ .running ∧ (t.fn w).state ≠ .changing) →
          exec (.vfRestore v) s = .next (State.settle ((u.handOver v v).setStatus v 0)))))) ∧
  (∀ (s : State) v area, (s.imageAt v area).held.regions.any (fun r =>
      s.regionInUse v r && decide ((s.fn v).cfg.rtcount < r.idx + 1)) = true ∨
      (s.fn v).cfg.pageb < (s.imageAt v area).held.pageu ∨
      (∃ g ∈ (s.imageAt v area).gangs, s.sites v g.shape = []) ∨
      (∃ p ∈ (s.imageAt v area).held.stage1, s.walk2 v (p.ipa * 65536) = none) →
    s.noCapacity v area = true) ∧
  (∀ (s : State) area, s.imageOk area = true → s.hv64 area ≤ imageMost ∧
    crc16 (s.hvRead area (s.hv64 area - 2)) = leNat (s.hvRead (area + s.hv64 area - 2) 2)) ∧
  (∀ (s : State) qs a k, s.scrub = some (qs, a, k) → ∃ t : State, exec .scrubClearDone s = .next t ∧ t.scrub = none ∧
    (∀ q ∈ qs, ∀ c ∈ s.quadCores q, (t.core c).envs = [] ∧ (t.core c).cache = [] ∧ (t.core c).pred = []) ∧
    (∀ n, ∀ e ∈ (t.acre n).tlb, e ∈ (s.acre n).tlb ∧ (s.fn e.fn).cfg.en = true) ∧
    (∀ x f i, s.act a = some x → x.flight = some f → (f.slot k).status = .pending → f.instr k = some i →
      ∃ y, t.act a = some y ∧
        y.flight = some ((f.modSlot k fun sl => { sl with status := .done }).sendAll k i (.scalar 0) .null)))

/-! ### Events: host window and fabric -/

/-- R72, R342, R407 to R409: a request of a valid host to a function that is not off is performed and completed; any
other, and any that a check refuses, gets an error completion and changes nothing. -/
def Obligations.HostWindowEvents : Prop :=
  (∀ (s : State) h q value, s.hostOk h = true → q < (s.fn h.fn).cfg.lqcount →
    (value % 2 ^ 32 + 2 ^ 32 - (s.fn h.fn).cons.getD q 0) % 2 ^ 32 ≤ 64 → exec (.doorbell h q value) s =
      .next ((s.modFn h.fn fun f => { f with prod := f.prod.set q (value % 2 ^ 32) }).complete h true [])) ∧
  (∀ (s : State) h q value, s.hostOk h = false ∨ (s.fn h.fn).cfg.lqcount ≤ q ∨
      64 < (value % 2 ^ 32 + 2 ^ 32 - (s.fn h.fn).cons.getD q 0) % 2 ^ 32 →
    exec (.doorbell h q value) s = .next (s.complete h false [])) ∧
  (∀ (s : State) h (w : Word), s.hostOk h = true → bits w.toNat 63 60 ≠ 2 → exec (.loanAllocate h w) s =
    .next ((if bits w.toNat 59 57 ≠ 0 ∨ bits w.toNat 55 48 ≠ 0 ∨ bits w.toNat 63 60 ≠ 1 then s.loanResult h.fn 4 0
      else s.loanAlloc h.fn w.toNat).complete h true [])) ∧
  (∀ (s : State) h (w : Word), s.hostOk h = true → bits w.toNat 63 60 = 2 → exec (.loanFree h w) s =
    .next ((if bits w.toNat 59 57 ≠ 0 ∨ bits w.toNat 55 48 ≠ 0 then s.loanResult h.fn 4 0
      else s.loanDrop h.fn w.toNat).complete h true [])) ∧
  (∀ (s : State) v w, v < s.funcs.length →
    (bits w 23 0 = 0 ∨ bits w 47 24 ≠ 0 → ((s.loanAlloc v w).fn v).loanRes = BitVec.ofNat 64 (4 * 2 ^ 60)) ∧
    (bits w 23 0 ≠ 0 → bits w 47 24 = 0 → 256 ≤ (s.fn v).hostLoans.length →
      ((s.loanAlloc v w).fn v).loanRes = BitVec.ofNat 64 (5 * 2 ^ 60)) ∧
    ((s.fn v).hostLoans.find? (fun l => l.1 == bits w 47 16) = none →
      ((s.loanDrop v w).fn v).loanRes = BitVec.ofNat 64 (4 * 2 ^ 60)) ∧
    (∀ l, (s.fn v).hostLoans.find? (fun l => l.1 == bits w 47 16) = some l → bit w 56 = false → bits w 15 0 = 0 →
      ((s.loanDrop v w).fn v).loanRes = 0 ∧
      ((s.loanDrop v w).fn v).hostLoans = (s.fn v).hostLoans.filter (fun m => m.1 != l.1) ∧
      ((s.loanDrop v w).fn v).pageu = (s.fn v).pageu - l.2.1)) ∧
  (∀ (s : State) h e (value : Word), s.hostOk h = true → 1 ≤ e → e ≤ 511 → exec (.podCatalogueWrite h e value) s =
    .next ((State.ipaWrite h.fn s ((s.fn h.fn).cfg.podcat + 8 * e) (leBytes 8 value.toNat)).complete h true [])) ∧
  (∀ (s : State) h off data, s.hostOk h = true →
    (s.winWrite h.fn off data = none → exec (.hostWindowWrite h off data) s =
      .next (State.settle (s.complete h false []))) ∧
    (∀ t, s.winWrite h.fn off data = some t → exec (.hostWindowWrite h off data) s =
      .next (State.settle (t.complete h true [])))) ∧
  (∀ (s : State) v data, data.length = 8 →
    (∀ q, q < (s.fn v).cfg.lqcount → q < 64 → s.winWrite v (8 * q) data = s.ringBell v q (leNat data)) ∧
    s.winWrite v 0x200 data = some (s.loanCommand v (leNat data)) ∧
    s.winWrite v 0x208 data = none ∧ s.winWrite v 0x210 data = none ∧ s.winWrite v 0x218 data = none ∧
    (∀ va, va < 2 ^ 48 → va % 256 = 0 → (s.fn v).inHostLoan va 8 = true → ∀ ks, s.apertureKeys v va 8 = some ks →
      s.winWrite v (2 ^ 48 + va) data = some (State.physWriteAt v s (ks.zip data)))) ∧
  (∀ (s : State) h off n bs, s.hostOk h = true → s.winRead h.fn off n = some bs →
    exec (.hostWindowRead h off n) s = .next (s.complete h true bs)) ∧
  (∀ (s : State) h off n, s.hostOk h = false ∨ s.winRead h.fn off n = none →
    exec (.hostWindowRead h off n) s = .next (s.complete h false [])) ∧
  (∀ (s : State) v, s.winRead v 0x208 8 = some (leBytes 8 (s.fn v).loanRes.toNat) ∧
    s.winRead v 0x210 8 = some (leBytes 8 (s.fn v).pageu) ∧
    s.winRead v 0x218 8 = some (leBytes 8 (s.fn v).cfg.pageb) ∧
    s.winRead v 0x220 8 = some (leBytes 8 (s.fn v).hostLoans.length) ∧ s.winRead v 0x200 8 = none)

/-- R124, R347, R411 to R416: a good flit in sequence is taken and its acknowledged flits leave the replay buffer; any
other asks for a replay; a replay resends from the named flit, the eighth retrains the link; retrains and their end;
end-to-end acknowledgements and retries; sending and queueing in the order of the types; device time and its rate; CXL
ports, and the 8 TiB of the CXL tier. The model's choices: an address above the CXL tier acts as a port that is down
(assumption log 61), links 12 d to 12 d + 11 belong to die 4 + d, the rate correction is the difference limited to 200
parts in a million and a retry takes another link (log 40, PRESUMED), and a flit whose header fails its check code drops
every message that has begun on its link and the next one of each type (log 92). -/
def Obligations.FabricEvents : Prop :=
  (∀ (s : State) n l flit, s.link n = some l → l.up = true → l.training = false → flit.length = 256 →
    crc32 (flit.take 248) = bits (leNat (flit.drop 248)) 31 0 →
    (bits (leNat (flit.drop 248)) 63 52 ≠ l.rxNext → exec (.flitReceive n flit) s =
      .next { s with out := s.out ++ [.replayReq n l.rxNext] }) ∧
    (bits (leNat (flit.drop 248)) 63 52 = l.rxNext →
      let inFlight := (l.txNext + 4095 - bits (leNat (flit.drop 248)) 51 40) % 4096
      let kept := if inFlight ≤ 128 then l.buffer.drop (l.buffer.length - inFlight) else l.buffer
      exec (.flitReceive n flit) s = .next (State.flush (s.takeFlit n { l with
        rxNext := (l.rxNext + 1) % 4096
        buffer := kept
        replays := if kept.any fun f => f.1 == l.replayOf then l.replays else 0 } flit) n))) ∧
  (∀ (s : State) n l flit, s.link n = some l → l.up = true → l.training = false → flit.length = 256 →
    crc32 (flit.take 248) ≠ bits (leNat (flit.drop 248)) 31 0 → exec (.flitReceive n flit) s =
      let t := s.wrongFlit n l
      .next { t with out := t.out ++ [.replayReq n l.rxNext] }) ∧
  (∀ (s : State) n l flit, flitHeaderOk flit = false → s.takeFlit n l flit =
    (s.setLink n { l with
      errors := l.errors + 1, drops := l.opened ++ l.drops, opened := [], blind := [1, 2, 3, 4, 5, 6, 7, 9] }).log
      (4 + n / 12) 7 0x1FFF 31 0 0 [BitVec.ofNat 64 n]) ∧
  (∀ (s : State) n l flit, flitHeaderOk flit = true →
    let last := bit (headerBits flit 71 71) 0
    let type := headerBits flit 127 124
    let key := (headerBits flit 123 115, headerBits flit 100 77)
    (type = 0 → s.takeFlit n l flit = s.setLink n l) ∧
    (type ≠ 0 → key ∈ l.drops → s.takeFlit n l flit =
      s.setLink n (if last then { l with drops := l.drops.filter fun d => d != key } else l)) ∧
    (type ≠ 0 → key ∉ l.drops → type ∈ l.blind → key ∉ l.opened → s.takeFlit n l flit = s.setLink n { l with
      blind := l.blind.filter (· != type), drops := if last then l.drops else key :: l.drops }) ∧
    (type ≠ 0 → key ∉ l.drops → (type ∉ l.blind ∨ key ∈ l.opened) → s.headerChecks flit = false →
      s.takeFlit n l flit = s.dropHeader n l key last)) ∧
  (∀ (s : State) n seq l i, s.link n = some l → l.up = true → l.training = false →
    l.buffer.findIdx? (fun f => f.1 == seq) = some i →
    let k := if l.replayOf = seq then l.replays + 1 else 1
    let m := { l with replays := k, replayOf := seq }
    (k < 8 → exec (.linkReplay n seq) s =
      .next { s with links := s.links.set n m, out := s.out ++ (l.buffer.drop i).map fun f => .flit n f.1 f.2 }) ∧
    (8 ≤ k → exec (.linkReplay n seq) s = .next (s.retrain n m l.lanes))) ∧
  (∀ (s : State) n l, s.link n = some l → l.up = true → l.training = false → s.sec.recovery = false →
    exec (.laneRetrainCommand n) s = .next (s.retrain n l 4)) ∧
  (∀ (s : State) n l limit,
    let old := l.retrains.filter fun t => decide (s.time < t + 1000000)
    let m (ts : List Nat) : Link := { l with
      training := true, since := s.time, limit := limit, replays := 0, wrong := [], retrains := ts }
    (l.lanes ≤ limit → 0 < limit → old.length < 15 →
      s.retrain n l limit = { s with links := s.links.set n (m (old ++ [s.time])) }) ∧
    (l.lanes ≤ limit → 15 ≤ old.length → s.retrain n l limit = s.linkDown n (m (old ++ [s.time]))) ∧
    (0 < limit → limit < l.lanes → old.length < 16 →
      s.retrain n l limit = { s with links := s.links.set n (m old) }) ∧
    (limit = 0 → 0 < l.lanes → s.retrain n l limit = s.linkDown n (m old))) ∧
  (∀ (s : State) n l good, s.link n = some l → l.up = true → l.training = true → 1 ≤ good → 1 ≤ l.limit →
    let w := if 4 ≤ l.limit ∧ 4 ≤ good then 4 else if 2 ≤ l.limit ∧ 2 ≤ good then 2 else 1
    exec (.linkRetrainDone n good) s =
      let t := s.setLink n { l with training := false, lanes := w, limit := 4 }
      let t := if w = l.lanes then t
        else t.log (4 + n / 12) 5 0x1FFF 31 0 w [BitVec.ofNat 64 n, BitVec.ofNat 64 (s.time - l.since)]
      .next (State.flush (t.resend n l.buffer) n)) ∧
  (∀ (s : State) dst seq, exec (.endToEndAck dst seq) s =
    .next { s with kept := s.kept.filter fun k => !(k.dst == dst && k.seq == seq) }) ∧
  (∀ (s : State) dst seq n k l, s.kept.find? (fun k => k.dst == dst && k.seq == seq) = some k → s.link n = some l →
    k.sentAt + 20000 ≤ s.time → l.up = true → k.link ≠ some n →
    exec (.messageRetry dst seq n) s =
      let cs := flitChunks (k.data.length / 232 + 1) k.data
      let t : State := ((upFrom 0 cs.length).zip cs).foldl (fun (t : State) c => t.sendFlit n k.type
        (flitHeader k.type s.device k.dst k.fn k.seq (ceilDiv c.2.length 8) (c.1 + 1 == cs.length)) c.2) s
      .next { t with kept := t.kept.map fun e =>
        if e.dst = dst ∧ e.seq = seq then { e with sentAt := s.time, link := some n } else e }) ∧
  (∀ (s : State) n l type header data, s.link n = some l → l.up = true → l.training = false → l.buffer.length < 128 →
    l.queue = [] → s.sendFlit n type header data =
      let f := flitBytes header data l.txNext ((l.rxNext + 4095) % 4096)
      { s with
        links := s.links.set n { l with txNext := (l.txNext + 1) % 4096, buffer := l.buffer ++ [(l.txNext, f)] }
        out := s.out ++ [.flit n l.txNext f] }) ∧
  (∀ (s : State) n l type header data, s.link n = some l → l.up = true →
    l.training = true ∨ 128 ≤ l.buffer.length → s.sendFlit n type header data =
      { s with links := s.links.set n { l with queue :=
          (l.queue.filter fun f => decide (flitRank f.1 ≤ flitRank type)) ++ [(type, header, data)] ++
          (l.queue.filter fun f => !decide (flitRank f.1 ≤ flitRank type)) } }) ∧
  (∀ (s : State) time, s.locked = false →
    exec (.ptpMessage time) s = .next { s with time := time, locked := true }) ∧
  (∀ (s : State) time, s.locked = true → ∃ r : Int, exec (.ptpMessage time) s = .next { s with ratePpm := r } ∧
    -200 ≤ r ∧ r ≤ 200) ∧
  (∀ (s : State) port, exec (.cxlPortDown port) s = .next { s with ports := s.ports.set port false }) ∧
  (∀ (s : State) port, exec (.cxlPortUp port) s = .next { s with ports := s.ports.set port true }) ∧
  (∀ (s t : State) port v acre va pa ipa, port < s.ports.length → exec (.cxlPortDown port) s = .next t →
    Config.cxlPort (pa / 65536) % 4 = port → t.translate v acre va = .ok pa true ipa → t.devByte v acre va = .error 4) ∧
  (∀ (s : State) v acre va pa ipa, 2 ^ 43 ≤ pa → s.translate v acre va = .ok pa true ipa → s.devByte v acre va = .error 4)

/-! ### Events: power, reliability, boot -/

/-- R362, R371, R406, R418 to R428: what the power, droop, temperature and error events do. The model's choices: a
patrol pass changes nothing itself, and sensors below 288 are those of the acres (assumption log 42); a second failed
phase is fatal (log 58); the retirement of a page that no function maps changes no leaf (log 43); the entry of a
disabled scrub goes to die 4 (log 53); how divider increases and filler are spread under the slope (log 95). -/
def Obligations.PowerAndErrorEvents : Prop :=
  (∀ (s : State) other demand, ∃ t, exec (.powerMeasure other demand) s = .next t ∧ t.pool = 2600 - other - 60 ∧
    t.mem = s.mem ∧ t.acts = s.acts) ∧
  (∀ (s : State) other demand, ∃ u : State,
    exec (.powerMeasure other demand) s = .next (((u.setRails).dividers demand).rampDown demand) ∧
    u.grants = ((upFrom 0 17).filter fun v => (s.fn v).cfg.en).map
      (fun v => (v, ({ s with pool := 2600 - other - 60 } : State).grantOf demand v)) ∧
    u.funcs = s.funcs ∧ u.cores = s.cores ∧ u.acres = s.acres) ∧
  (∀ (s : State) demand c, (∀ p ∈ s.coreTargets demand, p.1 ≠ c) → (s.dividers demand).core c = s.core c) ∧
  (∀ (s : State) demand p, p ∈ s.coreTargets demand → (∀ q ∈ s.coreTargets demand, q.1 = p.1 → q = p) →
    ((s.dividers demand).core p.1).divider ≤ p.2.2) ∧
  (∀ (owns : List Nat) fall, fall ≤ owns.sum → fall - 250 ≤ (owns.map (fillPart fall owns.sum)).sum) ∧
  (∀ n (l : List (Nat × Nat)),
    ((taperFrom n l).2.map (·.2)).sum + Min.min n (l.map (·.2)).sum = (l.map (·.2)).sum) ∧
  (∀ (s : State) c, s.onCore c = [] → (s.core c).gated = false → (s.core c).idleFrom + 50000 ≤ s.time →
    s.enabledAcres.contains (acreOf c) = true → ∃ t, exec (.coreGate c) s = .next t ∧
      t.core c = { s.core c with envs := [], gens := [], cache := [], pred := [], last := none, gated := true } ∧
      ∀ d, d ≠ c → t.core d = s.core d) ∧
  (∀ (s : State) n, n < 288 → ∃ t, exec (.droop n) s = .next t ∧ (t.acre n).drooping = true ∧
    ((s.acre n).lastDroop = none → (t.acre n).lastDroop = some s.time ∧ (t.acre n).stretched = 0) ∧
    (∀ d, (s.acre n).lastDroop = some d → s.time < d + 1000000 → t.rings = s.rings)) ∧
  (∀ (s : State) n k, n < 288 → (s.acre n).drooping = true → exec (.droopRecovery n k) s =
    .next (s.modAcre n fun x => { x with drooping := false, stretched := x.stretched + k })) ∧
  (∀ (s : State) n c, n < 292 → ∃ t, exec (.thermalEvent n c) s = .next t ∧
    (110000 ≤ c → t.stopped = true) ∧ (c < 95000 → t.rings = s.rings) ∧
    (n < 288 → 100000 ≤ c → c < 110000 → (t.acre n).throttled = true) ∧
    (n < 288 → c < 98000 → (t.acre n).throttled = false)) ∧
  (∀ (s : State) n, n < 288 → (s.acre n).nextStep ≤ s.time → (s.acre n).throttled = true ∨ (s.acre n).steps ≠ 0 →
    ∃ t, exec (.thermalThrottleStep n) s = .next t ∧ (t.acre n).nextStep = s.time + 100000 ∧
      ((t.acre n).steps = if (s.acre n).throttled then Min.min 5 ((s.acre n).steps + 1) else (s.acre n).steps - 1) ∧
      ∀ c, acreOf c = n → (t.core c).divider = Min.min (s.core c).cap (ratioAt (t.acre n).steps)) ∧
  (∀ (s : State) u l, s.rings.length = 6 → ∃ t, exec (.fatalError u l) s = .next t ∧ t.stopped = true ∧
    t.rings.length = 6 ∧ ∀ d, d < 6 → (t.rings.getD d Ring.reset).frozen = true ∧
      ((s.rings.getD d Ring.reset).frozen = false →
        ∃ e, assocGet ((s.rings.getD d Ring.reset).next % 4096) (t.rings.getD d Ring.reset).entries = some e ∧
          e.type = 0xE ∧ e.sub = u ∧ e.data = [BitVec.ofNat 64 l] ∧ e.time = s.time)) ∧
  (∀ (s : State) u k, 2 ^ 48 ≤ k → ∃ t, exec (.correctedError u (.memory k) false) s = .next t ∧ t.mem = s.mem ∧
    t.poison = s.poison ∧ t.corrected = s.corrected) ∧
  (∀ (s : State) u k, k < 2 ^ 48 → ∃ t, exec (.correctedError u (.memory k) false) s = .next t ∧ t.mem = s.mem ∧
    t.poison = s.poison ∧ (k / 65536, k / 64, s.time) ∈ t.corrected) ∧
  (∀ (s : State) u k, ∃ t, exec (.uncorrectedError u (.memory k)) s = .next t ∧ (∀ j, j / 64 = k / 64 → j ∈ t.poison) ∧
    t.mem = s.mem ∧ t.acts.map Act.held = s.acts.map Act.held) ∧
  (∀ (s : State) u a o x, s.act a = some x → ∃ t y, exec (.uncorrectedError u (.carrel a o)) s = .next t ∧
    t.act a = some y ∧ y.bad.contains (.carrel a o) = true ∧ y.carrel = x.carrel) ∧
  (∀ (s : State) u c i, ∃ t, exec (.uncorrectedError u (.envRecord c i)) s = .next t ∧
    (t.core c).envs = (s.core c).envs.map fun p => if p.1 ≤ i ∧ i < p.1 + envRecs p.2.words then
      (p.1, { p.2 with bad := (i - p.1) :: p.2.bad.filter fun r => r != i - p.1 }) else p) ∧
  (∀ (s : State) n p, n < 288 → p < 6 → ∃ t, exec (.regulatorPhaseFail n p) s = .next t ∧ p ∈ (t.acre n).phases ∧
    (((s.acre n).phases.any fun q => q != p) = true → t.stopped = true) ∧
    (((s.acre n).phases.any fun q => q != p) = false → t.stopped = s.stopped)) ∧
  (∀ (s : State), exec .patrolScrub s = .next s) ∧
  (∀ (s : State), s.sec.recovery = false → exec .patrolScrubEnable s = .next { s with patrol := true }) ∧
  (∀ (s : State), s.sec.recovery = false → exec .patrolScrubDisable s =
    .next (({ s with patrol := false } : State).log 4 0xA 0x1FFF 31 0 0xFF [0])) ∧
  (∀ (s : State) r, s.retiring.find? (fun e => e.1 == r.1) = some r →
    s.mapper r.1 = none → exec (.pageRetirementDone r.1) s =
      .next { s.copyPage r.1 r.2.1 with retiring := s.retiring.filter fun e => e.1 != r.1 }) ∧
  (∀ (s : State) r v ip, s.retiring.find? (fun e => e.1 == r.1) = some r →
    s.mapper r.1 = some (v, ip) → exec (.pageRetirementDone r.1) s =
      let t := ((s.copyPage r.1 r.2.1).remap v ip r.2.1).dropTlb fun e => e.fn == v && e.usedPage ip
      .next { t with retiring := t.retiring.filter fun e => e.1 != r.1 })

/-- R369 to R372, R429 to R433: resets, firmware, attestation, key transport and reads of the black-box record. A cold
reset with firmware that verifies brings up function 0 by its record; one that does not verify leaves the part in
recovery with no function enabled, its measurement extended with the stages that did verify, where nothing but an image
is accepted; a failed step of bring-up is fatal. A warm reset leaves memory and the rings. The model's choices: an image
without a stage does not verify, one is verified at once in recovery, a warm reset keeps memory and gives function 0 a
new key, and how a failed step is recorded (assumption log 44); keys are numbers (log 34); a cold reset clears
everything, memory with it, at its start, whichever step or verification then fails (log 96). -/
def Obligations.BootAndSecurityEvents : Prop :=
  (∀ (s : State) cfg m, (∀ k, cfg.failed = some k → 7 < k) →
    Sec.verify { s.sec with imports := [], measure := measure0, recovery := false } s.sec.firmware measure0 = (true, m) →
    exec (.coldReset cfg) s = .next (State.bringUp { State.reset with
      device := s.device, disabled := s.disabled, fresh := s.fresh, out := s.out, nextKey := s.nextKey
      funcs := List.replicate 17 Func.off
      sec := { s.sec with imports := [], measure := m, recovery := false } } cfg)) ∧
  (∀ (s : State) cfg m, cfg.failed ≠ some 1 →
    Sec.verify { s.sec with imports := [], measure := measure0, recovery := false } s.sec.firmware measure0 = (false, m) →
    ∃ t, exec (.coldReset cfg) s = .next t ∧ t.sec.recovery = true ∧ t.sec.measure = m ∧
      t.stopped = true ∧ t.acts = [] ∧ t.mem = [] ∧ ∀ v, (t.fn v).cfg.en = false ∧ (t.fn v).state = .off) ∧
  (∀ (s : State) cfg k m, cfg.failed = some k → k ≤ 7 →
    (k = 1 ∨ Sec.verify { s.sec with imports := [], measure := measure0, recovery := false }
      s.sec.firmware measure0 = (true, m)) →
    ∃ t, exec (.coldReset cfg) s = .next t ∧ t.stopped = true ∧ t.acts = [] ∧ t.mem = [] ∧
      ∀ v, (t.fn v).cfg.en = false ∧ (t.fn v).state = .off) ∧
  (∀ (s : State) cfg, cfg.failed = some 6 ∨ cfg.failed = some 7 → (s.bringUp cfg).stopped = true ∧
    (s.bringUp cfg).mem = s.mem ∧ (s.bringUp cfg).funcs = s.funcs) ∧
  (∀ (s : State) cfg, cfg.failed ≠ some 6 → cfg.failed ≠ some 7 →
    let base := cfg.vfbase / 512 * 512
    let t : State := State.physWrite 0 { s with time := cfg.time, locked := true, vfbase := base } base (cfg.record.take 512)
    let r := vfRecOf (t.recBytes 0)
    (t.commitStatus 0 ≠ 0 → s.bringUp cfg = t.fatal 1 0) ∧
    (t.commitStatus 0 = 0 → s.bringUp cfg =
      ((t.modFn 0 fun f => { f with cfg := r, state := .running }).assignQuads 0 r.quad).setStatus 0 0)) ∧
  (∀ (c : Sec) m, Sec.verify c [] m = (false, m)) ∧
  (∀ (c : Sec) f fs m, Sec.stages c (f :: fs) m = if c.stageOk f
    then Sec.stages c fs (Config.sha256 (m ++ Config.sha256 f.bytes)) else (false, m)) ∧
  (∀ (s : State) cfg, s.sec.recovery = false → ∃ t : State, exec (.warmReset cfg) s = .next (t.bringUp cfg) ∧
    t.mem = s.mem ∧ t.rings = s.rings ∧ t.acts = [] ∧ t.gangs = [] ∧ t.desks = [] ∧ t.sec.imports = [] ∧
    t.sec.fuses = s.sec.fuses ∧ (t.fn 0).key = s.nextKey ∧ (∀ v, 1 ≤ v → (t.fn v).cfg.en = false ∧ (t.fn v).key = 0) ∧
    (∀ a ∈ s.enabledAcres, ∀ n, 16 * a ≤ n → n < 16 * a + 16 → (t.core n).gated = true)) ∧
  (∀ (s : State) cfg, s.sec.recovery = true → exec (.warmReset cfg) s = .next s) ∧
  (∀ (s : State) stages, s.sec.recovery = false → exec (.firmwareImage stages) s =
    .next { s with sec := { s.sec with firmware := stages } }) ∧
  (∀ (s : State) stages ok m, s.sec.recovery = true →
    Sec.verify { s.sec with firmware := stages } stages measure0 = (ok, m) → exec (.firmwareImage stages) s =
      .next { s with sec := { s.sec with firmware := stages, recovery := !ok, measure := m } }) ∧
  (∀ (s : State) nonce, nonce.length = 32 → s.sec.recovery = false → ∃ r : Report,
    exec (.attestationRequest nonce) s = .next { s with out := s.out ++ [.report r] } ∧ r.nonce = nonce ∧
    r.measure = [s.sec.measure] ∧ r.sig = Config.slhSign (r.nonce ++ r.measure.flatten ++ r.records ++ r.kemKey)) ∧
  (∀ (s : State) v r, s.sec.recovery = false → 1 ≤ v → (s.fn v).cfg.en = true →
    Config.slhVerify s.sec.identity (r.nonce ++ r.measure.flatten ++ r.records ++ r.kemKey) r.sig = true →
    (∃ m, r.measure = [m] ∧ m.length = 32 ∧ m ∈ s.sec.accepted) → r.nonce.length = 32 → r.records.length = 32 →
    exec (.keyExport v r) s =
      .next { s with out := s.out ++ [.wrappedKey (Config.kemWrap (s.fn v).key r.kemKey)] }) ∧
  (∀ (s : State) v r, s.sec.recovery = true ∨ v = 0 ∨ (s.fn v).cfg.en = false ∨ (∃ m ∈ r.measure, m ∉ s.sec.accepted) ∨
    (¬ ∃ m, r.measure = [m] ∧ m.length = 32) ∨ r.nonce.length ≠ 32 ∨ r.records.length ≠ 32 ∨
    Config.slhVerify s.sec.identity (r.nonce ++ r.measure.flatten ++ r.records ++ r.kemKey) r.sig = false →
    exec (.keyExport v r) s = .next s) ∧
  (∀ (s : State) slot blob, s.sec.recovery = false → 1 ≤ slot → slot ≤ 1023 →
    (∀ f ∈ s.funcs, f.cfg.en = true → f.cfg.kslot ≠ slot) → exec (.keyImport slot blob) s =
      .next { s with sec := { s.sec with imports :=
        (s.sec.imports.filter fun i => i.1 != slot) ++ [(slot, Config.kemUnwrap blob, s.time)] } }) ∧
  (∀ (s : State) slot, ∃ t, exec (.keyImportExpiry slot) s = .next t ∧ ∀ i, i ∈ t.sec.imports ↔
    i ∈ s.sec.imports ∧ ¬ (i.1 = slot ∧ i.2.2 + 10000000000 ≤ s.time)) ∧
  (∀ (s : State) ring index r, s.rings[ring]? = some r → index < 4096 → s.sec.recovery = false →
    exec (.blackboxRead ring index) s = .next { s with out := s.out ++
      [.bbEntry ((assocGet index r.entries).getD BbEntry.reset).words] }) ∧
  (∀ (s : State), s.sec.recovery = false → exec .blackboxUnfreeze s =
    .next { s with rings := s.rings.map fun r => { r with frozen := false } })
end

