-- ==== Sys2Proof/Laws/Access.lean ====
section
/-!
SUPPORT. The checks of a carrel access (R280), one lemma per outcome, what loads, stores and atomic operations answer, and
a lane of a VLD from a Q4N bank.
-/
namespace Sys2Proof.Machine

/-- The part of a Q4N bank above its codes counts as raw, and an aligned access of a bank that a load may read takes its
format. -/
theorem formatAt_ok {bank fmt a size f : Nat} (hf : rawTail fmt (a % 24576) = f) (h8 : f ≤ 8)
    (ha : a % (if f = 0 then size else fmtSize f) = 0) : formatAt bank fmt a size = .ok f := by
  unfold rawTail at hf
  unfold formatAt
  simp only [Config.bankSize]
  split at hf
  · rename_i h9
    subst hf
    rw [if_neg (by omega)]
    simp only [h9.1, if_true]
    rw [if_neg (by simpa using ha)]
  · rename_i h9
    subst hf
    rw [if_neg (by omega)]
    simp only [show fmt ≠ 9 by omega, if_false]
    rw [if_neg (by simpa using ha)]

/-- In an INT4 bank or in the codes of a Q4N bank the format is wrong. -/
theorem formatAt_format {bank fmt a size f : Nat} (hf : rawTail fmt (a % 24576) = f) (h : f = 9 ∨ f = 10) :
    formatAt bank fmt a size = .error (fltA .bankFormat (bank + 16 * f)) := by
  unfold rawTail at hf
  unfold formatAt
  simp only [Config.bankSize]
  split at hf
  · omega
  · subst hf
    rw [if_pos (by omega)]

/-- A misaligned access raises misalignment. -/
theorem formatAt_align {bank fmt a size f : Nat} (hf : rawTail fmt (a % 24576) = f) (h8 : f ≤ 8)
    (ha : a % (if f = 0 then size else fmtSize f) ≠ 0) : formatAt bank fmt a size = .error (fltA .misalignment a) := by
  unfold rawTail at hf
  unfold formatAt
  simp only [Config.bankSize]
  split at hf
  · rename_i h9
    subst hf
    rw [if_neg (by omega)]
    simp only [h9.1, if_true]
    rw [if_pos (by simpa using ha)]
  · rename_i h9
    subst hf
    rw [if_neg (by omega)]
    simp only [show fmt ≠ 9 by omega, if_false]
    rw [if_pos (by simpa using ha)]

/-- What an access of the own carrel meets (R280): carrel-rights outside the banks held, else the checks of the bank. -/
theorem Ctx.check_own {c : Ctx} {store : Bool} {a size : Nat} :
    c.check false store a size =
      if c.x.holds a size then formatAt (a / 24576) (c.x.fmt (a / 24576)) a size
      else .error (fltA .carrelRights a) := by
  unfold Ctx.check
  cases c.x.holds a size <;> simp [Config.bankSize]

/-- What an access of partner space meets (R50, R280). -/
theorem Ctx.check_partner {c : Ctx} {store : Bool} {a size : Nat} {y : Act} {m : MeetSt}
    (hp : c.s.partner c.x = some (y, m)) :
    c.check true store a size =
      if m.lugCount * 24576 ≤ a ∨ (store = true ∧ m.lugRo = true) then .error (fltA .carrelRights a)
      else formatAt (m.lugFirst + a / 24576) (y.fmt (m.lugFirst + a / 24576)) a size := by
  unfold Ctx.check
  simp [hp, Config.bankSize]

/-- Outside a meeting, or after the partner has left, it raises meeting-state. -/
theorem Ctx.check_alone {c : Ctx} {store : Bool} {a size : Nat} (hp : c.s.partner c.x = none) :
    c.check true store a size = .error (flt .meetingState) := by
  unfold Ctx.check
  simp [hp]

/-- Membership in a run of numbers. -/
theorem mem_upFrom {x : Nat} : ∀ (n a : Nat), x ∈ upFrom a n ↔ a ≤ x ∧ x < a + n
  | 0, a => by simp [upFrom]
  | n + 1, a => by
    simp only [upFrom, List.mem_cons, mem_upFrom n (a + 1)]
    omega

/-- No byte of a range carries an uncorrectable error that the load meets. -/
theorem Ctx.badByte_none {c : Ctx} {partner : Bool} {lsid a n : Nat}
    (h : ∀ o, a ≤ o → o < a + n → c.badAt partner lsid o = false) : c.badByte partner lsid (upFrom a n) = none := by
  unfold Ctx.badByte
  rw [List.find?_eq_none]
  intro o ho
  obtain ⟨h1, h2⟩ := (mem_upFrom n a).1 ho
  simp [h o h1 h2]

/-- The first element of a run of numbers with a property. -/
theorem find_upFrom {p : Nat → Bool} {o : Nat} (hp : p o = true) : ∀ (n a : Nat), a ≤ o → o < a + n →
    (∀ x, a ≤ x → x < o → p x = false) → (upFrom a n).find? p = some o
  | 0, a => by omega
  | n + 1, a => by
    intro h1 h2 h3
    rcases Nat.eq_or_lt_of_le h1 with rfl | h
    · simp [upFrom, hp]
    · simp only [upFrom, List.find?_cons, h3 a (Nat.le_refl a) h]
      exact find_upFrom hp n (a + 1) h (by omega) fun x hx => h3 x (by omega)

/-- The first byte of a range that carries an uncorrectable error. -/
theorem Ctx.badByte_some {c : Ctx} {partner : Bool} {lsid a n o : Nat} (h1 : a ≤ o) (h2 : o < a + n)
    (h : c.badAt partner lsid o = true) (h3 : ∀ x, a ≤ x → x < o → c.badAt partner lsid x = false) :
    c.badByte partner lsid (upFrom a n) = some o :=
  find_upFrom h n a h1 h2 h3

/-- A load that passes its checks. -/
theorem Ctx.load_ok {c : Ctx} {partner : Bool} {lsid a f : Nat} {ty : Ty}
    (hc : c.check partner false a (Ty.size ty) = .ok f)
    (hb : c.badByte partner lsid (upFrom a (if f = 0 then Ty.size ty else fmtSize f)) = none) :
    c.load partner lsid ty a =
      let n := if f = 0 then Ty.size ty else fmtSize f
      let bs := c.bytes partner lsid a n
      let w := if f = 0 then Ty.extend ty (readNum bs)
        else Ty.extend ty (tyFromNum (Ty.signed ty) (8 * Ty.size ty) (fmtRead f (readNum bs)))
      .ok { c.send (.scalar w) with reads := bs } := by
  unfold Ctx.load
  rw [hc]
  simp only [bind, Except.bind, hb]
  rfl

/-- A load that reads a byte with an uncorrectable error raises a data error at its offset (R362). -/
theorem Ctx.load_bad {c : Ctx} {partner : Bool} {lsid a f b : Nat} {ty : Ty}
    (hc : c.check partner false a (Ty.size ty) = .ok f)
    (hb : c.badByte partner lsid (upFrom a (if f = 0 then Ty.size ty else fmtSize f)) = some b) :
    c.load partner lsid ty a = .error (fltA .dataError b) := by
  unfold Ctx.load
  rw [hc]
  simp only [bind, Except.bind, hb]
  rfl

/-- A load whose check fails raises that fault. -/
theorem Ctx.load_error {c : Ctx} {partner : Bool} {lsid a : Nat} {ty : Ty} {e : Flt}
    (hc : c.check partner false a (Ty.size ty) = .error e) : c.load partner lsid ty a = .error e := by
  unfold Ctx.load
  rw [hc]
  rfl

/-- What an atomic operation meets (R281, R282): carrel rights, a bank that acts as raw, alignment, a detected error. -/
theorem Ctx.checkRaw_eq {c : Ctx} {lsid a size : Nat} :
    c.checkRaw lsid a size =
      if c.x.holds a size = false then .error (fltA .carrelRights a)
      else if rawTail (c.x.fmt (a / 24576)) (a % 24576) ≠ 0 then
        .error (fltA .bankFormat (a / 24576 + 16 * c.x.fmt (a / 24576)))
      else if a % size ≠ 0 then .error (fltA .misalignment a)
      else match c.badByte false lsid (upFrom a size) with
        | some b => .error (fltA .dataError b)
        | none => .ok () := by
  have hr : rawTail (c.x.fmt (a / 24576)) (a % 24576) ≠ 0 ↔
      ¬ (c.x.fmt (a / 24576) = 0 ∨ (c.x.fmt (a / 24576) = 9 ∧ 20480 ≤ a % 24576)) := by
    unfold rawTail
    split <;> omega
  simp only [Ctx.checkRaw, Config.bankSize, hr]
  cases c.x.holds a size
  · rfl
  · by_cases h : c.x.fmt (a / 24576) = 0 ∨ (c.x.fmt (a / 24576) = 9 ∧ 20480 ≤ a % 24576)
    · by_cases h2 : a % size = 0
      · simp only [h, h2, not_true_eq_false, ne_eq, if_false, Bool.not_true]
        cases c.badByte false lsid (upFrom a size) <;> rfl
      · simp only [h, h2, not_true_eq_false, not_false_eq_true, ne_eq, if_false, if_true, Bool.not_true]
        rfl
    · simp only [h, not_false_eq_true, if_true, Bool.not_true]
      rfl

/-- A store that passes its checks. -/
theorem Ctx.store_ok {c : Ctx} {partner : Bool} {a f : Nat} {ty : Ty} {w : Word}
    (hc : c.check partner true a (Ty.size ty) = .ok f) :
    c.store partner ty a w = .ok (c.sendEff .null (.store partner (place a
      (if f = 0 then leBytes (Ty.size ty) w.toNat else leBytes (fmtSize f) (fmtWrite f (Ty.value ty w)))))) := by
  unfold Ctx.store
  rw [hc]
  rfl

/-- A store whose check fails raises that fault. -/
theorem Ctx.store_error {c : Ctx} {partner : Bool} {a : Nat} {ty : Ty} {w : Word} {e : Flt}
    (hc : c.check partner true a (Ty.size ty) = .error e) : c.store partner ty a w = .error e := by
  unfold Ctx.store
  rw [hc]
  rfl

/-- A lane of a VLD that reads a Q4N code (R163, R165): its bytes are the code's, its block scale's and its
superscale's; it has the decoded value, or in a strict region the fault of a reserved block scale, else of a reserved
superscale. -/
theorem Ctx.vldLane_q4n {c : Ctx} {lsid k adr bank code : Nat} {mode : VMode} {ty : ETy} {l : Word} {idx : Token}
    {ats : List Nat} {num : List Nat → Nat} (hm : mode = .unit ∨ mode = .bcast)
    (hadr : adr = if mode = .unit then (l + BitVec.ofNat 64 (k / 2)).toNat else l.toNat)
    (hbank : bank = adr / 24576 * 24576)
    (hcode : code = 2 * (adr % 24576) + (if mode = .unit then k % 2 else 0))
    (hats : ats = [adr, bank + 20480 + code / 16] ++ upFrom (bank + 23040 + 4 * (code / 256)) 4)
    (hnum : num = fun os => leNat (os.map (c.byte false lsid))) (hbad : ∀ o ∈ ats, c.badAt false lsid o = false) :
    c.vldLane lsid 9 mode ty l idx k =
      let nib := num [adr] / (if code % 2 = 0 then 1 else 16) % 16
      let b := num [bank + 20480 + code / 16]
      let sup := num (upFrom (bank + 23040 + 4 * (code / 256)) 4)
      if (c.s.fn c.x.id.fn).strict c.x.region = true ∧ (q4nBadB b = true ∨ q4nBadS sup = true) then
        (if q4nBadB b then .error (fltAB .strictCode (bank + 20480 + code / 16) b)
         else .error (fltAB .strictCode (bank + 23040 + 4 * (code / 256)) sup))
      else .ok (q4nDecode nib b sup, ats.map fun o => (o, c.byte false lsid o)) := by
  have hr : (vRange 9 mode ty l idx k).1 = adr := by
    rcases hm with rfl | rfl <;> simp [vRange, hadr]
  have hsub : adr - adr / 24576 * 24576 = adr % 24576 := by have := Nat.div_add_mod adr 24576; omega
  have hd : code / 2 = adr % 24576 := by
    have : (if mode = .unit then k % 2 else 0) < 2 := by split <;> omega
    omega
  have hab : bank + adr % 24576 = adr := by have := Nat.div_add_mod adr 24576; omega
  have hrd : ([q4nCodeByte code, q4nBOff code, q4nSOff code, q4nSOff code + 1, q4nSOff code + 2,
      q4nSOff code + 3].map (bank + ·)) = ats := by
    simp only [q4nCodeByte, q4nBOff, q4nSOff, hd, hats, upFrom, List.map_cons, List.map_nil, List.cons_append,
      List.nil_append, hab]
    simp only [List.cons.injEq, and_true, true_and]
    omega
  have hnone : c.badByte false lsid ats = none := by
    unfold Ctx.badByte; rw [List.find?_eq_none]; intro o ho; simp [hbad o ho]
  have hs4 : [bank + q4nSOff code, bank + (q4nSOff code + 1), bank + (q4nSOff code + 2), bank + (q4nSOff code + 3)] =
      upFrom (bank + 23040 + 4 * (code / 256)) 4 := by
    simp only [q4nSOff, upFrom, List.cons.injEq, and_true]; omega
  have hB : bank + q4nBOff code = bank + 20480 + code / 16 := by simp only [q4nBOff]; omega
  have hS : bank + q4nSOff code = bank + 23040 + 4 * (code / 256) := by simp only [q4nSOff]; omega
  have hC : bank + q4nCodeByte code = adr := by simp only [q4nCodeByte, hd, hab]
  have hsup : leNat [c.byte false lsid (bank + q4nSOff code), c.byte false lsid (bank + (q4nSOff code + 1)),
      c.byte false lsid (bank + (q4nSOff code + 2)), c.byte false lsid (bank + (q4nSOff code + 3))] =
      num (upFrom (bank + 23040 + 4 * (code / 256)) 4) := by
    rw [← hs4, hnum]; rfl
  have e1 : (c.byte false lsid (bank + 20480 + code / 16)).toNat = num [bank + 20480 + code / 16] := by
    rw [hnum]; simp [leNat]
  have e2 : (c.byte false lsid adr).toNat = num [adr] := by rw [hnum]; simp [leNat]
  have hodd : (if (k % 2 == 1) = true then 1 else 0) = k % 2 := by
    rcases Nat.mod_two_eq_zero_or_one k with h | h <;> simp [h]
  rcases hm with rfl | rfl
  all_goals
    unfold Ctx.vldLane
    simp only [hr, Config.bankSize, ← hbank, if_true]
    first
    | rw [hodd, hbank, hsub, ← hbank]
    | (simp only [Bool.false_eq_true, if_false]; rw [hbank, hsub, ← hbank])
    simp only [if_true, reduceCtorEq, if_false] at hcode
    rw [← hcode, hrd, hnone]
    simp only [q4nReserved, hsup, hB, hC, e1, e2]
    cases q4nBadB (num [bank + 20480 + code / 16]) <;>
      cases q4nBadS (num (upFrom (bank + 23040 + 4 * (code / 256)) 4)) <;>
      cases (c.s.fn c.x.id.fn).strict c.x.region <;> simp [hS, hB]

/-- A VLD all of whose participating lanes answer. -/
theorem Ctx.vldAll_ok {c : Ctx} {lsid f : Nat} {mode : VMode} {ty : ETy} {l : Word} {idx : Token} {v : Nat → Nat}
    {bs : Nat → List (Nat × Byte)} : ∀ {ks : List Nat},
    (∀ k ∈ ks, c.vPart ty k = true → c.vldLane lsid f mode ty l idx k = .ok (v k, bs k)) →
    c.vldAll lsid f mode ty l idx ks =
      .ok (ks.map fun k => if c.vPart ty k then some (v k) else c.skip, (ks.filter (c.vPart ty)).flatMap bs)
  | [], _ => rfl
  | k :: ks, h => by
    have ih := vldAll_ok (ks := ks) fun j hj => h j (by simp [hj])
    unfold Ctx.vldAll
    cases hp : c.vPart ty k
    · simp only [hp, ih, List.map_cons, List.filter_cons, Bool.false_eq_true, if_false]
      rfl
    · simp only [hp, ih, h k (by simp) hp, List.map_cons, List.filter_cons, List.flatMap_cons, if_true]
      rfl

/-- A VLD raises the fault of its lowest participating lane that raises one. -/
theorem Ctx.vldAll_error {c : Ctx} {lsid f k : Nat} {mode : VMode} {ty : ETy} {l : Word} {idx : Token} {e : Flt}
    {v : Nat → Nat × List (Nat × Byte)} : ∀ {n a : Nat}, a ≤ k → k < a + n →
    (∀ j, a ≤ j → j < k → c.vPart ty j = true → c.vldLane lsid f mode ty l idx j = .ok (v j)) →
    c.vPart ty k = true → c.vldLane lsid f mode ty l idx k = .error e →
    c.vldAll lsid f mode ty l idx (upFrom a n) = .error e
  | 0, a, h1, h2, _, _, _ => by omega
  | n + 1, a, h1, h2, h3, h4, h5 => by
    simp only [upFrom]
    unfold Ctx.vldAll
    rcases Nat.eq_or_lt_of_le h1 with rfl | h
    · simp only [h4, h5, if_true]
      rfl
    · have ih := vldAll_error (n := n) (a := a + 1) (e := e) (by omega) (by omega) (fun j hj => h3 j (by omega)) h4 h5
      cases hp : c.vPart ty a
      · simp only [ih, Bool.false_eq_true, if_false]
        rfl
      · simp only [ih, h3 a (Nat.le_refl a) h hp, if_true]
        rfl

end Sys2Proof.Machine
end

