-- ==== Sys2Proof/Laws/Firing.lean ====
section
/-!
SUPPORT. The firing protocol: what a selected slot is, and everything that firing it can do.
-/
namespace Sys2Proof.Machine

/-- A selected slot belongs to the activity that the state holds, with its block in flight. -/
theorem State.ctx_spec {s : State} {i : Instr} {c : Ctx} (h : s.ctx i = some c) :
    s.cur = some (c.x.id, c.k) ∧ s.act c.x.id = some c.x ∧ c.x.flight = some c.fl ∧ c.fl.instr c.k = some i ∧ c.i = i ∧
      c.s = s ∧ c.toks = (c.fl.data c.k i).getD [] ∧ c.pred = (c.fl.slot c.k).arrived .p ∧ c.pfx = c.fl.pfxOf c.k := by
  unfold State.ctx at h
  split at h
  · exact absurd h (by simp)
  rename_i a k hcur
  split at h
  · exact absurd h (by simp)
  rename_i x hx
  split at h
  · exact absurd h (by simp)
  rename_i f hf
  split at h
  · rename_i hi
    have hid : x.id = a := by
      have := List.find?_some hx
      simpa using this
    simp only [Option.some.injEq] at h
    subst h
    subst hid
    exact ⟨hcur, hx, hf, by simpa using hi, rfl, rfl, rfl, rfl, rfl⟩
  · exact absurd h (by simp)

/-- Clearing the selection changes no activity. -/
@[simp] theorem State.act_cur (s : State) (o : Option (Aid × Nat)) (a : Aid) :
    ({ s with cur := o } : State).act a = s.act a := rfl

/-- A selected slot whose condition holds and whose meaning answers tokens and an effect, without changing the state,
fires as `State.fired` says. -/
theorem fireSlot_ok {s : State} {i : Instr} {c : Ctx} {cond : Ctx → Bool} {f : Ctx → Except Flt FOut}
    {a b : Token} {e : Effect} {r : List (Nat × Byte)} (h : Selected s i c) (hc : cond c = true)
    (hf : f { c with s := { s with cur := none } } = .ok ⟨a, b, e, r, { s with cur := none }, false⟩) :
    fireSlot s i cond f = .next (s.fired c a b e r) := by
  obtain ⟨-, hact, hfl, -, hi, -, -, -, -⟩ := State.ctx_spec h.ctx
  unfold fireSlot State.fired
  rw [h.ctx, hi]
  simp only [hc, h.ready, hf, State.act_cur, hact, hfl, Option.getD_some, Bool.false_eq_true, if_false]
  rfl

/-- The same for a meaning with an immediate effect: it answers a state `t` in which the activity's block in flight is as
before. -/
theorem fireSlot_moved {s t : State} {i : Instr} {c : Ctx} {cond : Ctx → Bool} {f : Ctx → Except Flt FOut} {y : Act}
    {a b : Token} {e : Effect} {r : List (Nat × Byte)} (h : Selected s i c) (hc : cond c = true)
    (hf : f { c with s := { s with cur := none } } = .ok ⟨a, b, e, r, t, false⟩) (ht : t.act c.x.id = some y)
    (hy : y.flight = some c.fl) (hcur : t.cur = none) (hb : t.baseByte c.x = s.baseByte c.x) :
    fireSlot s i cond f = .next (t.fired c a b e r) := by
  obtain ⟨-, -, -, -, hi, -, -, -, -⟩ := State.ctx_spec h.ctx
  have hcur' : ({ t with cur := none } : State) = t := by rw [← hcur]
  unfold fireSlot State.fired State.withFlight
  rw [h.ctx, hi]
  simp only [hc, h.ready, hf, ht, hy, Option.getD_some, Bool.false_eq_true, if_false, hcur', hb]
  rfl

/-- A selected slot whose condition holds and whose meaning raises a fault keeps the fault for the end of the block. -/
theorem fireSlot_error {s : State} {i : Instr} {c : Ctx} {cond : Ctx → Bool} {f : Ctx → Except Flt FOut} {e : Flt}
    (h : Selected s i c) (hc : cond c = true) (hf : f { c with s := { s with cur := none } } = .error e) :
    fireSlot s i cond f = .next (s.slotFault c e) := by
  unfold fireSlot
  rw [h.ctx]
  simp only [hc, h.ready, hf]
  rfl

/-- A selected slot with a null token fires null: `State.nulls` says what that does. -/
theorem fireSlot_null {s : State} {i : Instr} {c : Ctx} {cond : Ctx → Bool} {f : Ctx → Except Flt FOut}
    (h : SelectedNull s i c) : fireSlot s i cond f = .next (s.nulls c) := by
  obtain ⟨-, -, -, -, hi, -, -, -, -⟩ := State.ctx_spec h.ctx
  unfold fireSlot State.nulls
  rw [h.ctx, hi]
  simp only [h.ready]

/-- A slot instruction stops only with `notFiring`, and never is refused. -/
theorem fireSlot_total (s : State) (i : Instr) (cond : Ctx → Bool) (f : Ctx → Except Flt FOut) :
    fireSlot s i cond f = .fault .notFiring ∨ ∃ t, fireSlot s i cond f = .next t := by
  unfold fireSlot
  split
  · exact .inl rfl
  · simp only
    split
    · exact .inr ⟨_, rfl⟩
    · split <;> exact .inr ⟨_, rfl⟩
    · exact .inl rfl

end Sys2Proof.Machine
end

