-- ==== Sys2Proof/Laws/Memory.lean ====
section
/-!
SUPPORT. Byte memories: every operation keeps the canonical form, and a read after a write gives what was written.
-/
namespace Sys2Proof.Machine

theorem Memory.wfFrom_mono {lo hi : Nat} (h : lo ≤ hi) :
    ∀ m : List Host.Cell, Memory.wfFrom hi m = true → Memory.wfFrom lo m = true
  | [], _ => rfl
  | (k, b) :: m, w => by
    simp only [Memory.wfFrom, Bool.and_eq_true, decide_eq_true_eq] at w ⊢
    exact ⟨⟨by omega, w.1.2⟩, w.2⟩

theorem Memory.wfFrom_set (b : Byte) :
    ∀ (m : List Host.Cell) (lo a : Nat), lo ≤ a → Memory.wfFrom lo m = true →
      Memory.wfFrom lo (Memory.set m a b) = true
  | [], lo, a, h, _ => by
    unfold Memory.set; split
    · rfl
    · simp [Memory.wfFrom, *]
  | (k, c) :: m, lo, a, h, w => by
    have w' := w
    simp only [Memory.wfFrom, Bool.and_eq_true, decide_eq_true_eq] at w
    obtain ⟨⟨h1, h2⟩, h3⟩ := w
    unfold Memory.set
    split
    · split
      · exact w'
      · simp only [Memory.wfFrom, Bool.and_eq_true, decide_eq_true_eq]
        exact ⟨⟨h, by assumption⟩, ⟨by omega, h2⟩, h3⟩
    · split
      · split
        · exact Memory.wfFrom_mono (by omega) m h3
        · subst_vars
          simp only [Memory.wfFrom, Bool.and_eq_true, decide_eq_true_eq]
          exact ⟨⟨h1, by assumption⟩, h3⟩
      · simp only [Memory.wfFrom, Bool.and_eq_true, decide_eq_true_eq]
        exact ⟨⟨h1, h2⟩, Memory.wfFrom_set b m (k + 1) a (by omega) h3⟩

/-- One write keeps the canonical form. -/
theorem Memory.wf_set {m : List Host.Cell} (a : Nat) (b : Byte) (h : Memory.wf m = true) :
    Memory.wf (Memory.set m a b) = true := Memory.wfFrom_set b m 0 a (Nat.zero_le a) h

/-- Writing a run of bytes keeps the canonical form. -/
theorem Memory.wf_write : ∀ (bs : List Byte) {m : List Host.Cell} (a : Nat), Memory.wf m = true →
    Memory.wf (Memory.write m a bs) = true
  | [], _, _, h => h
  | b :: bs, _, a, h => Memory.wf_write bs (a + 1) (Memory.wf_set a b h)

/-- Writing a list of bytes keeps the canonical form. -/
theorem Memory.wf_writeList : ∀ (l : List (Nat × Byte)) {m : List Host.Cell}, Memory.wf m = true →
    Memory.wf (Memory.writeList m l) = true
  | [], _, h => h
  | p :: l, _, h => Memory.wf_writeList l (Memory.wf_set p.1 p.2 h)

theorem Memory.wfFrom_filter (p : Host.Cell → Bool) :
    ∀ (m : List Host.Cell) (lo : Nat), Memory.wfFrom lo m = true → Memory.wfFrom lo (m.filter p) = true
  | [], _, _ => rfl
  | (k, b) :: m, lo, w => by
    simp only [Memory.wfFrom, Bool.and_eq_true, decide_eq_true_eq] at w
    obtain ⟨⟨h1, h2⟩, h3⟩ := w
    have r := Memory.wfFrom_filter p m (k + 1) h3
    rw [List.filter_cons]
    split
    · simp only [Memory.wfFrom, Bool.and_eq_true, decide_eq_true_eq]
      exact ⟨⟨h1, h2⟩, r⟩
    · exact Memory.wfFrom_mono (by omega) _ r

/-- Clearing a range keeps the canonical form. -/
theorem Memory.wf_clear {m : List Host.Cell} (lo hi : Nat) (h : Memory.wf m = true) :
    Memory.wf (Memory.clear lo hi m) = true := Memory.wfFrom_filter _ m 0 h

theorem Memory.get_below {a : Nat} :
    ∀ (m : List Host.Cell) (lo : Nat), Memory.wfFrom lo m = true → a < lo → Memory.get m a = Memory.unlisted
  | [], _, _, _ => rfl
  | (k, b) :: m, lo, w, h => by
    simp only [Memory.wfFrom, Bool.and_eq_true, decide_eq_true_eq] at w
    unfold Memory.get
    rw [if_neg (by omega)]
    exact Memory.get_below m (k + 1) w.2 (by omega)

theorem Memory.get_setFrom (b : Byte) (a x : Nat) :
    ∀ (m : List Host.Cell) (lo : Nat), Memory.wfFrom lo m = true →
      Memory.get (Memory.set m a b) x = if x = a then b else Memory.get m x
  | [], lo, _ => by
    unfold Memory.set
    split
    · simp [Memory.get, *]
    · simp [Memory.get, eq_comm]
  | (k, c) :: m, lo, w => by
    simp only [Memory.wfFrom, Bool.and_eq_true, decide_eq_true_eq] at w
    obtain ⟨⟨h1, h2⟩, h3⟩ := w
    have ih := Memory.get_setFrom b a x m (k + 1) h3
    have hb : ∀ y, y < k + 1 → Memory.get m y = Memory.unlisted := fun y hy => Memory.get_below m (k + 1) h3 hy
    unfold Memory.set
    split
    · rename_i hak
      split
      · by_cases hx : x = a
        · subst hx
          rw [if_pos rfl]
          rw [Memory.get, if_neg (by omega), hb x (by omega)]
          exact Eq.symm (by assumption)
        · rw [if_neg hx]
      · by_cases hx : x = a
        · subst hx; simp [Memory.get]
        · rw [if_neg hx, Memory.get, if_neg (fun e => hx e.symm)]
    · split
      · rename_i hak
        subst hak
        split
        · by_cases hx : x = a
          · subst hx
            rw [if_pos rfl, hb x (by omega)]
            exact Eq.symm (by assumption)
          · rw [if_neg hx, Memory.get, if_neg (fun e => hx e.symm)]
        · by_cases hx : x = a
          · subst hx; simp [Memory.get]
          · rw [if_neg hx, Memory.get, if_neg (fun e => hx e.symm), Memory.get, if_neg (fun e => hx e.symm)]
      · by_cases hx : x = k
        · subst hx
          rw [Memory.get, if_pos rfl, if_neg (by omega), Memory.get, if_pos rfl]
        · rw [Memory.get, if_neg (fun e => hx e.symm), ih]
          simp only [Memory.get, if_neg (fun e : k = x => hx e.symm)]

/-- A byte read after a write of one byte: the byte written at its address, the old byte elsewhere. -/
theorem Memory.get_set {m : List Host.Cell} (a x : Nat) (b : Byte) (h : Memory.wf m = true) :
    Memory.get (Memory.set m a b) x = if x = a then b else Memory.get m x := Memory.get_setFrom b a x m 0 h

/-- A byte outside a list of writes is as before. -/
theorem Memory.get_writeList_other {x : Nat} :
    ∀ (l : List (Nat × Byte)) {m : List Host.Cell}, Memory.wf m = true → (∀ p ∈ l, p.1 ≠ x) →
      Memory.get (Memory.writeList m l) x = Memory.get m x
  | [], _, _, _ => rfl
  | p :: l, m, h, hx => by
    rw [Memory.writeList, Memory.get_writeList_other l (Memory.wf_set p.1 p.2 h)
      (fun q hq => hx q (List.mem_cons_of_mem _ hq)), Memory.get_set _ _ _ h,
      if_neg (fun e => hx p List.mem_cons_self e.symm)]

/-- A byte outside a run of writes is as before. -/
theorem Memory.get_write_other {x : Nat} :
    ∀ (bs : List Byte) {m : List Host.Cell} (a : Nat), Memory.wf m = true → (x < a ∨ a + bs.length ≤ x) →
      Memory.get (Memory.write m a bs) x = Memory.get m x
  | [], _, _, _, _ => rfl
  | b :: bs, m, a, h, hx => by
    rw [List.length_cons] at hx
    rw [Memory.write, Memory.get_write_other bs (a + 1) (Memory.wf_set a b h) (by omega), Memory.get_set _ _ _ h,
      if_neg (by omega)]

/-- A byte outside a cleared range is as before, and one inside it reads as unlisted. -/
theorem Memory.get_clear {x : Nat} (lo hi : Nat) :
    ∀ m : List Host.Cell, Memory.get (Memory.clear lo hi m) x =
      if lo ≤ x ∧ x < hi then Memory.unlisted else Memory.get m x
  | [] => by simp [Memory.clear, Memory.get]
  | (k, b) :: m => by
    have ih := Memory.get_clear (x := x) lo hi m
    unfold Memory.clear at ih ⊢
    rw [List.filter_cons]
    by_cases hk : lo ≤ k ∧ k < hi
    · rw [if_neg (by simp; omega), ih]
      by_cases hx : lo ≤ x ∧ x < hi
      · simp [hx]
      · rw [if_neg hx, if_neg hx, Memory.get, if_neg (by omega)]
    · rw [if_pos (by simp; omega), Memory.get, ih]
      by_cases hx : k = x
      · subst hx; simp [Memory.get, hk]
      · simp [Memory.get, hx]

/-- Reset memory is canonical. -/
theorem State.reset_memOk : State.reset.memOk = true := by decide

end Sys2Proof.Machine
end

