-- ==== Sys2Proof/Laws/State.lean ====
section
/-!
SUPPORT. One lemma per field per update of the state, and what a reader of the updated part then finds: no later proof
unfolds a record update.
-/
namespace Sys2Proof.Machine

/-! ### What each update leaves alone -/

/-! #### `State.setAct` changes `acts` alone -/

@[simp] theorem State.setAct_time (s : State) (x : Act) : (s.setAct x).time = s.time := rfl
@[simp] theorem State.setAct_locked (s : State) (x : Act) : (s.setAct x).locked = s.locked := rfl
@[simp] theorem State.setAct_ratePpm (s : State) (x : Act) : (s.setAct x).ratePpm = s.ratePpm := rfl
@[simp] theorem State.setAct_timeFrac (s : State) (x : Act) : (s.setAct x).timeFrac = s.timeFrac := rfl
@[simp] theorem State.setAct_agenda (s : State) (x : Act) : (s.setAct x).agenda = s.agenda := rfl
@[simp] theorem State.setAct_turn (s : State) (x : Act) : (s.setAct x).turn = s.turn := rfl
@[simp] theorem State.setAct_cur (s : State) (x : Act) : (s.setAct x).cur = s.cur := rfl
@[simp] theorem State.setAct_fresh (s : State) (x : Act) : (s.setAct x).fresh = s.fresh := rfl
@[simp] theorem State.setAct_gangs (s : State) (x : Act) : (s.setAct x).gangs = s.gangs := rfl
@[simp] theorem State.setAct_cores (s : State) (x : Act) : (s.setAct x).cores = s.cores := rfl
@[simp] theorem State.setAct_acres (s : State) (x : Act) : (s.setAct x).acres = s.acres := rfl
@[simp] theorem State.setAct_base (s : State) (x : Act) : (s.setAct x).base = s.base := rfl
@[simp] theorem State.setAct_disabled (s : State) (x : Act) : (s.setAct x).disabled = s.disabled := rfl
@[simp] theorem State.setAct_mem (s : State) (x : Act) : (s.setAct x).mem = s.mem := rfl
@[simp] theorem State.setAct_poison (s : State) (x : Act) : (s.setAct x).poison = s.poison := rfl
@[simp] theorem State.setAct_keyTags (s : State) (x : Act) : (s.setAct x).keyTags = s.keyTags := rfl
@[simp] theorem State.setAct_keyOver (s : State) (x : Act) : (s.setAct x).keyOver = s.keyOver := rfl
@[simp] theorem State.setAct_desks (s : State) (x : Act) : (s.setAct x).desks = s.desks := rfl
@[simp] theorem State.setAct_msgs (s : State) (x : Act) : (s.setAct x).msgs = s.msgs := rfl
@[simp] theorem State.setAct_meetings (s : State) (x : Act) : (s.setAct x).meetings = s.meetings := rfl
@[simp] theorem State.setAct_funcs (s : State) (x : Act) : (s.setAct x).funcs = s.funcs := rfl
@[simp] theorem State.setAct_vfbase (s : State) (x : Act) : (s.setAct x).vfbase = s.vfbase := rfl
@[simp] theorem State.setAct_vfPending (s : State) (x : Act) : (s.setAct x).vfPending = s.vfPending := rfl
@[simp] theorem State.setAct_vfBusy (s : State) (x : Act) : (s.setAct x).vfBusy = s.vfBusy := rfl
@[simp] theorem State.setAct_vfLast (s : State) (x : Act) : (s.setAct x).vfLast = s.vfLast := rfl
@[simp] theorem State.setAct_vfStatus (s : State) (x : Act) : (s.setAct x).vfStatus = s.vfStatus := rfl
@[simp] theorem State.setAct_scrub (s : State) (x : Act) : (s.setAct x).scrub = s.scrub := rfl
@[simp] theorem State.setAct_kills (s : State) (x : Act) : (s.setAct x).kills = s.kills := rfl
@[simp] theorem State.setAct_images (s : State) (x : Act) : (s.setAct x).images = s.images := rfl
@[simp] theorem State.setAct_units (s : State) (x : Act) : (s.setAct x).units = s.units := rfl
@[simp] theorem State.setAct_owners (s : State) (x : Act) : (s.setAct x).owners = s.owners := rfl
@[simp] theorem State.setAct_sched (s : State) (x : Act) : (s.setAct x).sched = s.sched := rfl
@[simp] theorem State.setAct_ports (s : State) (x : Act) : (s.setAct x).ports = s.ports := rfl
@[simp] theorem State.setAct_links (s : State) (x : Act) : (s.setAct x).links = s.links := rfl
@[simp] theorem State.setAct_kept (s : State) (x : Act) : (s.setAct x).kept = s.kept := rfl
@[simp] theorem State.setAct_accepted (s : State) (x : Act) : (s.setAct x).accepted = s.accepted := rfl
@[simp] theorem State.setAct_e2eNext (s : State) (x : Act) : (s.setAct x).e2eNext = s.e2eNext := rfl
@[simp] theorem State.setAct_device (s : State) (x : Act) : (s.setAct x).device = s.device := rfl
@[simp] theorem State.setAct_out (s : State) (x : Act) : (s.setAct x).out = s.out := rfl
@[simp] theorem State.setAct_rings (s : State) (x : Act) : (s.setAct x).rings = s.rings := rfl
@[simp] theorem State.setAct_stopped (s : State) (x : Act) : (s.setAct x).stopped = s.stopped := rfl
@[simp] theorem State.setAct_pool (s : State) (x : Act) : (s.setAct x).pool = s.pool := rfl
@[simp] theorem State.setAct_grants (s : State) (x : Act) : (s.setAct x).grants = s.grants := rfl
@[simp] theorem State.setAct_shares (s : State) (x : Act) : (s.setAct x).shares = s.shares := rfl
@[simp] theorem State.setAct_patrol (s : State) (x : Act) : (s.setAct x).patrol = s.patrol := rfl
@[simp] theorem State.setAct_corrected (s : State) (x : Act) : (s.setAct x).corrected = s.corrected := rfl
@[simp] theorem State.setAct_retiring (s : State) (x : Act) : (s.setAct x).retiring = s.retiring := rfl
@[simp] theorem State.setAct_spares (s : State) (x : Act) : (s.setAct x).spares = s.spares := rfl
@[simp] theorem State.setAct_nextKey (s : State) (x : Act) : (s.setAct x).nextKey = s.nextKey := rfl
@[simp] theorem State.setAct_sec (s : State) (x : Act) : (s.setAct x).sec = s.sec := rfl

/-! #### `State.modAct` changes `acts` alone -/

@[simp] theorem State.modAct_time (s : State) (a : Aid) (f : Act → Act) : (s.modAct a f).time = s.time := rfl
@[simp] theorem State.modAct_locked (s : State) (a : Aid) (f : Act → Act) : (s.modAct a f).locked = s.locked := rfl
@[simp] theorem State.modAct_ratePpm (s : State) (a : Aid) (f : Act → Act) : (s.modAct a f).ratePpm = s.ratePpm := rfl
@[simp] theorem State.modAct_timeFrac (s : State) (a : Aid) (f : Act → Act) : (s.modAct a f).timeFrac = s.timeFrac := rfl
@[simp] theorem State.modAct_agenda (s : State) (a : Aid) (f : Act → Act) : (s.modAct a f).agenda = s.agenda := rfl
@[simp] theorem State.modAct_turn (s : State) (a : Aid) (f : Act → Act) : (s.modAct a f).turn = s.turn := rfl
@[simp] theorem State.modAct_cur (s : State) (a : Aid) (f : Act → Act) : (s.modAct a f).cur = s.cur := rfl
@[simp] theorem State.modAct_fresh (s : State) (a : Aid) (f : Act → Act) : (s.modAct a f).fresh = s.fresh := rfl
@[simp] theorem State.modAct_gangs (s : State) (a : Aid) (f : Act → Act) : (s.modAct a f).gangs = s.gangs := rfl
@[simp] theorem State.modAct_cores (s : State) (a : Aid) (f : Act → Act) : (s.modAct a f).cores = s.cores := rfl
@[simp] theorem State.modAct_acres (s : State) (a : Aid) (f : Act → Act) : (s.modAct a f).acres = s.acres := rfl
@[simp] theorem State.modAct_base (s : State) (a : Aid) (f : Act → Act) : (s.modAct a f).base = s.base := rfl
@[simp] theorem State.modAct_disabled (s : State) (a : Aid) (f : Act → Act) : (s.modAct a f).disabled = s.disabled := rfl
@[simp] theorem State.modAct_mem (s : State) (a : Aid) (f : Act → Act) : (s.modAct a f).mem = s.mem := rfl
@[simp] theorem State.modAct_poison (s : State) (a : Aid) (f : Act → Act) : (s.modAct a f).poison = s.poison := rfl
@[simp] theorem State.modAct_keyTags (s : State) (a : Aid) (f : Act → Act) : (s.modAct a f).keyTags = s.keyTags := rfl
@[simp] theorem State.modAct_keyOver (s : State) (a : Aid) (f : Act → Act) : (s.modAct a f).keyOver = s.keyOver := rfl
@[simp] theorem State.modAct_desks (s : State) (a : Aid) (f : Act → Act) : (s.modAct a f).desks = s.desks := rfl
@[simp] theorem State.modAct_msgs (s : State) (a : Aid) (f : Act → Act) : (s.modAct a f).msgs = s.msgs := rfl
@[simp] theorem State.modAct_meetings (s : State) (a : Aid) (f : Act → Act) : (s.modAct a f).meetings = s.meetings := rfl
@[simp] theorem State.modAct_funcs (s : State) (a : Aid) (f : Act → Act) : (s.modAct a f).funcs = s.funcs := rfl
@[simp] theorem State.modAct_vfbase (s : State) (a : Aid) (f : Act → Act) : (s.modAct a f).vfbase = s.vfbase := rfl
@[simp] theorem State.modAct_vfPending (s : State) (a : Aid) (f : Act → Act) : (s.modAct a f).vfPending = s.vfPending := rfl
@[simp] theorem State.modAct_vfBusy (s : State) (a : Aid) (f : Act → Act) : (s.modAct a f).vfBusy = s.vfBusy := rfl
@[simp] theorem State.modAct_vfLast (s : State) (a : Aid) (f : Act → Act) : (s.modAct a f).vfLast = s.vfLast := rfl
@[simp] theorem State.modAct_vfStatus (s : State) (a : Aid) (f : Act → Act) : (s.modAct a f).vfStatus = s.vfStatus := rfl
@[simp] theorem State.modAct_scrub (s : State) (a : Aid) (f : Act → Act) : (s.modAct a f).scrub = s.scrub := rfl
@[simp] theorem State.modAct_kills (s : State) (a : Aid) (f : Act → Act) : (s.modAct a f).kills = s.kills := rfl
@[simp] theorem State.modAct_images (s : State) (a : Aid) (f : Act → Act) : (s.modAct a f).images = s.images := rfl
@[simp] theorem State.modAct_units (s : State) (a : Aid) (f : Act → Act) : (s.modAct a f).units = s.units := rfl
@[simp] theorem State.modAct_owners (s : State) (a : Aid) (f : Act → Act) : (s.modAct a f).owners = s.owners := rfl
@[simp] theorem State.modAct_sched (s : State) (a : Aid) (f : Act → Act) : (s.modAct a f).sched = s.sched := rfl
@[simp] theorem State.modAct_ports (s : State) (a : Aid) (f : Act → Act) : (s.modAct a f).ports = s.ports := rfl
@[simp] theorem State.modAct_links (s : State) (a : Aid) (f : Act → Act) : (s.modAct a f).links = s.links := rfl
@[simp] theorem State.modAct_kept (s : State) (a : Aid) (f : Act → Act) : (s.modAct a f).kept = s.kept := rfl
@[simp] theorem State.modAct_accepted (s : State) (a : Aid) (f : Act → Act) : (s.modAct a f).accepted = s.accepted := rfl
@[simp] theorem State.modAct_e2eNext (s : State) (a : Aid) (f : Act → Act) : (s.modAct a f).e2eNext = s.e2eNext := rfl
@[simp] theorem State.modAct_device (s : State) (a : Aid) (f : Act → Act) : (s.modAct a f).device = s.device := rfl
@[simp] theorem State.modAct_out (s : State) (a : Aid) (f : Act → Act) : (s.modAct a f).out = s.out := rfl
@[simp] theorem State.modAct_rings (s : State) (a : Aid) (f : Act → Act) : (s.modAct a f).rings = s.rings := rfl
@[simp] theorem State.modAct_stopped (s : State) (a : Aid) (f : Act → Act) : (s.modAct a f).stopped = s.stopped := rfl
@[simp] theorem State.modAct_pool (s : State) (a : Aid) (f : Act → Act) : (s.modAct a f).pool = s.pool := rfl
@[simp] theorem State.modAct_grants (s : State) (a : Aid) (f : Act → Act) : (s.modAct a f).grants = s.grants := rfl
@[simp] theorem State.modAct_shares (s : State) (a : Aid) (f : Act → Act) : (s.modAct a f).shares = s.shares := rfl
@[simp] theorem State.modAct_patrol (s : State) (a : Aid) (f : Act → Act) : (s.modAct a f).patrol = s.patrol := rfl
@[simp] theorem State.modAct_corrected (s : State) (a : Aid) (f : Act → Act) : (s.modAct a f).corrected = s.corrected := rfl
@[simp] theorem State.modAct_retiring (s : State) (a : Aid) (f : Act → Act) : (s.modAct a f).retiring = s.retiring := rfl
@[simp] theorem State.modAct_spares (s : State) (a : Aid) (f : Act → Act) : (s.modAct a f).spares = s.spares := rfl
@[simp] theorem State.modAct_nextKey (s : State) (a : Aid) (f : Act → Act) : (s.modAct a f).nextKey = s.nextKey := rfl
@[simp] theorem State.modAct_sec (s : State) (a : Aid) (f : Act → Act) : (s.modAct a f).sec = s.sec := rfl

/-! #### `State.setFn` changes `funcs` alone -/

@[simp] theorem State.setFn_time (s : State) (v : Nat) (f : Func) : (s.setFn v f).time = s.time := rfl
@[simp] theorem State.setFn_locked (s : State) (v : Nat) (f : Func) : (s.setFn v f).locked = s.locked := rfl
@[simp] theorem State.setFn_ratePpm (s : State) (v : Nat) (f : Func) : (s.setFn v f).ratePpm = s.ratePpm := rfl
@[simp] theorem State.setFn_timeFrac (s : State) (v : Nat) (f : Func) : (s.setFn v f).timeFrac = s.timeFrac := rfl
@[simp] theorem State.setFn_agenda (s : State) (v : Nat) (f : Func) : (s.setFn v f).agenda = s.agenda := rfl
@[simp] theorem State.setFn_turn (s : State) (v : Nat) (f : Func) : (s.setFn v f).turn = s.turn := rfl
@[simp] theorem State.setFn_cur (s : State) (v : Nat) (f : Func) : (s.setFn v f).cur = s.cur := rfl
@[simp] theorem State.setFn_fresh (s : State) (v : Nat) (f : Func) : (s.setFn v f).fresh = s.fresh := rfl
@[simp] theorem State.setFn_acts (s : State) (v : Nat) (f : Func) : (s.setFn v f).acts = s.acts := rfl
@[simp] theorem State.setFn_gangs (s : State) (v : Nat) (f : Func) : (s.setFn v f).gangs = s.gangs := rfl
@[simp] theorem State.setFn_cores (s : State) (v : Nat) (f : Func) : (s.setFn v f).cores = s.cores := rfl
@[simp] theorem State.setFn_acres (s : State) (v : Nat) (f : Func) : (s.setFn v f).acres = s.acres := rfl
@[simp] theorem State.setFn_base (s : State) (v : Nat) (f : Func) : (s.setFn v f).base = s.base := rfl
@[simp] theorem State.setFn_disabled (s : State) (v : Nat) (f : Func) : (s.setFn v f).disabled = s.disabled := rfl
@[simp] theorem State.setFn_mem (s : State) (v : Nat) (f : Func) : (s.setFn v f).mem = s.mem := rfl
@[simp] theorem State.setFn_poison (s : State) (v : Nat) (f : Func) : (s.setFn v f).poison = s.poison := rfl
@[simp] theorem State.setFn_keyTags (s : State) (v : Nat) (f : Func) : (s.setFn v f).keyTags = s.keyTags := rfl
@[simp] theorem State.setFn_keyOver (s : State) (v : Nat) (f : Func) : (s.setFn v f).keyOver = s.keyOver := rfl
@[simp] theorem State.setFn_desks (s : State) (v : Nat) (f : Func) : (s.setFn v f).desks = s.desks := rfl
@[simp] theorem State.setFn_msgs (s : State) (v : Nat) (f : Func) : (s.setFn v f).msgs = s.msgs := rfl
@[simp] theorem State.setFn_meetings (s : State) (v : Nat) (f : Func) : (s.setFn v f).meetings = s.meetings := rfl
@[simp] theorem State.setFn_vfbase (s : State) (v : Nat) (f : Func) : (s.setFn v f).vfbase = s.vfbase := rfl
@[simp] theorem State.setFn_vfPending (s : State) (v : Nat) (f : Func) : (s.setFn v f).vfPending = s.vfPending := rfl
@[simp] theorem State.setFn_vfBusy (s : State) (v : Nat) (f : Func) : (s.setFn v f).vfBusy = s.vfBusy := rfl
@[simp] theorem State.setFn_vfLast (s : State) (v : Nat) (f : Func) : (s.setFn v f).vfLast = s.vfLast := rfl
@[simp] theorem State.setFn_vfStatus (s : State) (v : Nat) (f : Func) : (s.setFn v f).vfStatus = s.vfStatus := rfl
@[simp] theorem State.setFn_scrub (s : State) (v : Nat) (f : Func) : (s.setFn v f).scrub = s.scrub := rfl
@[simp] theorem State.setFn_kills (s : State) (v : Nat) (f : Func) : (s.setFn v f).kills = s.kills := rfl
@[simp] theorem State.setFn_images (s : State) (v : Nat) (f : Func) : (s.setFn v f).images = s.images := rfl
@[simp] theorem State.setFn_units (s : State) (v : Nat) (f : Func) : (s.setFn v f).units = s.units := rfl
@[simp] theorem State.setFn_owners (s : State) (v : Nat) (f : Func) : (s.setFn v f).owners = s.owners := rfl
@[simp] theorem State.setFn_sched (s : State) (v : Nat) (f : Func) : (s.setFn v f).sched = s.sched := rfl
@[simp] theorem State.setFn_ports (s : State) (v : Nat) (f : Func) : (s.setFn v f).ports = s.ports := rfl
@[simp] theorem State.setFn_links (s : State) (v : Nat) (f : Func) : (s.setFn v f).links = s.links := rfl
@[simp] theorem State.setFn_kept (s : State) (v : Nat) (f : Func) : (s.setFn v f).kept = s.kept := rfl
@[simp] theorem State.setFn_accepted (s : State) (v : Nat) (f : Func) : (s.setFn v f).accepted = s.accepted := rfl
@[simp] theorem State.setFn_e2eNext (s : State) (v : Nat) (f : Func) : (s.setFn v f).e2eNext = s.e2eNext := rfl
@[simp] theorem State.setFn_device (s : State) (v : Nat) (f : Func) : (s.setFn v f).device = s.device := rfl
@[simp] theorem State.setFn_out (s : State) (v : Nat) (f : Func) : (s.setFn v f).out = s.out := rfl
@[simp] theorem State.setFn_rings (s : State) (v : Nat) (f : Func) : (s.setFn v f).rings = s.rings := rfl
@[simp] theorem State.setFn_stopped (s : State) (v : Nat) (f : Func) : (s.setFn v f).stopped = s.stopped := rfl
@[simp] theorem State.setFn_pool (s : State) (v : Nat) (f : Func) : (s.setFn v f).pool = s.pool := rfl
@[simp] theorem State.setFn_grants (s : State) (v : Nat) (f : Func) : (s.setFn v f).grants = s.grants := rfl
@[simp] theorem State.setFn_shares (s : State) (v : Nat) (f : Func) : (s.setFn v f).shares = s.shares := rfl
@[simp] theorem State.setFn_patrol (s : State) (v : Nat) (f : Func) : (s.setFn v f).patrol = s.patrol := rfl
@[simp] theorem State.setFn_corrected (s : State) (v : Nat) (f : Func) : (s.setFn v f).corrected = s.corrected := rfl
@[simp] theorem State.setFn_retiring (s : State) (v : Nat) (f : Func) : (s.setFn v f).retiring = s.retiring := rfl
@[simp] theorem State.setFn_spares (s : State) (v : Nat) (f : Func) : (s.setFn v f).spares = s.spares := rfl
@[simp] theorem State.setFn_nextKey (s : State) (v : Nat) (f : Func) : (s.setFn v f).nextKey = s.nextKey := rfl
@[simp] theorem State.setFn_sec (s : State) (v : Nat) (f : Func) : (s.setFn v f).sec = s.sec := rfl

/-! #### `State.modFn` changes `funcs` alone -/

@[simp] theorem State.modFn_time (s : State) (v : Nat) (g : Func → Func) : (s.modFn v g).time = s.time := rfl
@[simp] theorem State.modFn_locked (s : State) (v : Nat) (g : Func → Func) : (s.modFn v g).locked = s.locked := rfl
@[simp] theorem State.modFn_ratePpm (s : State) (v : Nat) (g : Func → Func) : (s.modFn v g).ratePpm = s.ratePpm := rfl
@[simp] theorem State.modFn_timeFrac (s : State) (v : Nat) (g : Func → Func) : (s.modFn v g).timeFrac = s.timeFrac := rfl
@[simp] theorem State.modFn_agenda (s : State) (v : Nat) (g : Func → Func) : (s.modFn v g).agenda = s.agenda := rfl
@[simp] theorem State.modFn_turn (s : State) (v : Nat) (g : Func → Func) : (s.modFn v g).turn = s.turn := rfl
@[simp] theorem State.modFn_cur (s : State) (v : Nat) (g : Func → Func) : (s.modFn v g).cur = s.cur := rfl
@[simp] theorem State.modFn_fresh (s : State) (v : Nat) (g : Func → Func) : (s.modFn v g).fresh = s.fresh := rfl
@[simp] theorem State.modFn_acts (s : State) (v : Nat) (g : Func → Func) : (s.modFn v g).acts = s.acts := rfl
@[simp] theorem State.modFn_gangs (s : State) (v : Nat) (g : Func → Func) : (s.modFn v g).gangs = s.gangs := rfl
@[simp] theorem State.modFn_cores (s : State) (v : Nat) (g : Func → Func) : (s.modFn v g).cores = s.cores := rfl
@[simp] theorem State.modFn_acres (s : State) (v : Nat) (g : Func → Func) : (s.modFn v g).acres = s.acres := rfl
@[simp] theorem State.modFn_base (s : State) (v : Nat) (g : Func → Func) : (s.modFn v g).base = s.base := rfl
@[simp] theorem State.modFn_disabled (s : State) (v : Nat) (g : Func → Func) : (s.modFn v g).disabled = s.disabled := rfl
@[simp] theorem State.modFn_mem (s : State) (v : Nat) (g : Func → Func) : (s.modFn v g).mem = s.mem := rfl
@[simp] theorem State.modFn_poison (s : State) (v : Nat) (g : Func → Func) : (s.modFn v g).poison = s.poison := rfl
@[simp] theorem State.modFn_keyTags (s : State) (v : Nat) (g : Func → Func) : (s.modFn v g).keyTags = s.keyTags := rfl
@[simp] theorem State.modFn_keyOver (s : State) (v : Nat) (g : Func → Func) : (s.modFn v g).keyOver = s.keyOver := rfl
@[simp] theorem State.modFn_desks (s : State) (v : Nat) (g : Func → Func) : (s.modFn v g).desks = s.desks := rfl
@[simp] theorem State.modFn_msgs (s : State) (v : Nat) (g : Func → Func) : (s.modFn v g).msgs = s.msgs := rfl
@[simp] theorem State.modFn_meetings (s : State) (v : Nat) (g : Func → Func) : (s.modFn v g).meetings = s.meetings := rfl
@[simp] theorem State.modFn_vfbase (s : State) (v : Nat) (g : Func → Func) : (s.modFn v g).vfbase = s.vfbase := rfl
@[simp] theorem State.modFn_vfPending (s : State) (v : Nat) (g : Func → Func) : (s.modFn v g).vfPending = s.vfPending := rfl
@[simp] theorem State.modFn_vfBusy (s : State) (v : Nat) (g : Func → Func) : (s.modFn v g).vfBusy = s.vfBusy := rfl
@[simp] theorem State.modFn_vfLast (s : State) (v : Nat) (g : Func → Func) : (s.modFn v g).vfLast = s.vfLast := rfl
@[simp] theorem State.modFn_vfStatus (s : State) (v : Nat) (g : Func → Func) : (s.modFn v g).vfStatus = s.vfStatus := rfl
@[simp] theorem State.modFn_scrub (s : State) (v : Nat) (g : Func → Func) : (s.modFn v g).scrub = s.scrub := rfl
@[simp] theorem State.modFn_kills (s : State) (v : Nat) (g : Func → Func) : (s.modFn v g).kills = s.kills := rfl
@[simp] theorem State.modFn_images (s : State) (v : Nat) (g : Func → Func) : (s.modFn v g).images = s.images := rfl
@[simp] theorem State.modFn_units (s : State) (v : Nat) (g : Func → Func) : (s.modFn v g).units = s.units := rfl
@[simp] theorem State.modFn_owners (s : State) (v : Nat) (g : Func → Func) : (s.modFn v g).owners = s.owners := rfl
@[simp] theorem State.modFn_sched (s : State) (v : Nat) (g : Func → Func) : (s.modFn v g).sched = s.sched := rfl
@[simp] theorem State.modFn_ports (s : State) (v : Nat) (g : Func → Func) : (s.modFn v g).ports = s.ports := rfl
@[simp] theorem State.modFn_links (s : State) (v : Nat) (g : Func → Func) : (s.modFn v g).links = s.links := rfl
@[simp] theorem State.modFn_kept (s : State) (v : Nat) (g : Func → Func) : (s.modFn v g).kept = s.kept := rfl
@[simp] theorem State.modFn_accepted (s : State) (v : Nat) (g : Func → Func) : (s.modFn v g).accepted = s.accepted := rfl
@[simp] theorem State.modFn_e2eNext (s : State) (v : Nat) (g : Func → Func) : (s.modFn v g).e2eNext = s.e2eNext := rfl
@[simp] theorem State.modFn_device (s : State) (v : Nat) (g : Func → Func) : (s.modFn v g).device = s.device := rfl
@[simp] theorem State.modFn_out (s : State) (v : Nat) (g : Func → Func) : (s.modFn v g).out = s.out := rfl
@[simp] theorem State.modFn_rings (s : State) (v : Nat) (g : Func → Func) : (s.modFn v g).rings = s.rings := rfl
@[simp] theorem State.modFn_stopped (s : State) (v : Nat) (g : Func → Func) : (s.modFn v g).stopped = s.stopped := rfl
@[simp] theorem State.modFn_pool (s : State) (v : Nat) (g : Func → Func) : (s.modFn v g).pool = s.pool := rfl
@[simp] theorem State.modFn_grants (s : State) (v : Nat) (g : Func → Func) : (s.modFn v g).grants = s.grants := rfl
@[simp] theorem State.modFn_shares (s : State) (v : Nat) (g : Func → Func) : (s.modFn v g).shares = s.shares := rfl
@[simp] theorem State.modFn_patrol (s : State) (v : Nat) (g : Func → Func) : (s.modFn v g).patrol = s.patrol := rfl
@[simp] theorem State.modFn_corrected (s : State) (v : Nat) (g : Func → Func) : (s.modFn v g).corrected = s.corrected := rfl
@[simp] theorem State.modFn_retiring (s : State) (v : Nat) (g : Func → Func) : (s.modFn v g).retiring = s.retiring := rfl
@[simp] theorem State.modFn_spares (s : State) (v : Nat) (g : Func → Func) : (s.modFn v g).spares = s.spares := rfl
@[simp] theorem State.modFn_nextKey (s : State) (v : Nat) (g : Func → Func) : (s.modFn v g).nextKey = s.nextKey := rfl
@[simp] theorem State.modFn_sec (s : State) (v : Nat) (g : Func → Func) : (s.modFn v g).sec = s.sec := rfl

/-! #### `State.setGang` changes `gangs` alone -/

@[simp] theorem State.setGang_time (s : State) (g : Gang) : (s.setGang g).time = s.time := rfl
@[simp] theorem State.setGang_locked (s : State) (g : Gang) : (s.setGang g).locked = s.locked := rfl
@[simp] theorem State.setGang_ratePpm (s : State) (g : Gang) : (s.setGang g).ratePpm = s.ratePpm := rfl
@[simp] theorem State.setGang_timeFrac (s : State) (g : Gang) : (s.setGang g).timeFrac = s.timeFrac := rfl
@[simp] theorem State.setGang_agenda (s : State) (g : Gang) : (s.setGang g).agenda = s.agenda := rfl
@[simp] theorem State.setGang_turn (s : State) (g : Gang) : (s.setGang g).turn = s.turn := rfl
@[simp] theorem State.setGang_cur (s : State) (g : Gang) : (s.setGang g).cur = s.cur := rfl
@[simp] theorem State.setGang_fresh (s : State) (g : Gang) : (s.setGang g).fresh = s.fresh := rfl
@[simp] theorem State.setGang_acts (s : State) (g : Gang) : (s.setGang g).acts = s.acts := rfl
@[simp] theorem State.setGang_cores (s : State) (g : Gang) : (s.setGang g).cores = s.cores := rfl
@[simp] theorem State.setGang_acres (s : State) (g : Gang) : (s.setGang g).acres = s.acres := rfl
@[simp] theorem State.setGang_base (s : State) (g : Gang) : (s.setGang g).base = s.base := rfl
@[simp] theorem State.setGang_disabled (s : State) (g : Gang) : (s.setGang g).disabled = s.disabled := rfl
@[simp] theorem State.setGang_mem (s : State) (g : Gang) : (s.setGang g).mem = s.mem := rfl
@[simp] theorem State.setGang_poison (s : State) (g : Gang) : (s.setGang g).poison = s.poison := rfl
@[simp] theorem State.setGang_keyTags (s : State) (g : Gang) : (s.setGang g).keyTags = s.keyTags := rfl
@[simp] theorem State.setGang_keyOver (s : State) (g : Gang) : (s.setGang g).keyOver = s.keyOver := rfl
@[simp] theorem State.setGang_desks (s : State) (g : Gang) : (s.setGang g).desks = s.desks := rfl
@[simp] theorem State.setGang_msgs (s : State) (g : Gang) : (s.setGang g).msgs = s.msgs := rfl
@[simp] theorem State.setGang_meetings (s : State) (g : Gang) : (s.setGang g).meetings = s.meetings := rfl
@[simp] theorem State.setGang_funcs (s : State) (g : Gang) : (s.setGang g).funcs = s.funcs := rfl
@[simp] theorem State.setGang_vfbase (s : State) (g : Gang) : (s.setGang g).vfbase = s.vfbase := rfl
@[simp] theorem State.setGang_vfPending (s : State) (g : Gang) : (s.setGang g).vfPending = s.vfPending := rfl
@[simp] theorem State.setGang_vfBusy (s : State) (g : Gang) : (s.setGang g).vfBusy = s.vfBusy := rfl
@[simp] theorem State.setGang_vfLast (s : State) (g : Gang) : (s.setGang g).vfLast = s.vfLast := rfl
@[simp] theorem State.setGang_vfStatus (s : State) (g : Gang) : (s.setGang g).vfStatus = s.vfStatus := rfl
@[simp] theorem State.setGang_scrub (s : State) (g : Gang) : (s.setGang g).scrub = s.scrub := rfl
@[simp] theorem State.setGang_kills (s : State) (g : Gang) : (s.setGang g).kills = s.kills := rfl
@[simp] theorem State.setGang_images (s : State) (g : Gang) : (s.setGang g).images = s.images := rfl
@[simp] theorem State.setGang_units (s : State) (g : Gang) : (s.setGang g).units = s.units := rfl
@[simp] theorem State.setGang_owners (s : State) (g : Gang) : (s.setGang g).owners = s.owners := rfl
@[simp] theorem State.setGang_sched (s : State) (g : Gang) : (s.setGang g).sched = s.sched := rfl
@[simp] theorem State.setGang_ports (s : State) (g : Gang) : (s.setGang g).ports = s.ports := rfl
@[simp] theorem State.setGang_links (s : State) (g : Gang) : (s.setGang g).links = s.links := rfl
@[simp] theorem State.setGang_kept (s : State) (g : Gang) : (s.setGang g).kept = s.kept := rfl
@[simp] theorem State.setGang_accepted (s : State) (g : Gang) : (s.setGang g).accepted = s.accepted := rfl
@[simp] theorem State.setGang_e2eNext (s : State) (g : Gang) : (s.setGang g).e2eNext = s.e2eNext := rfl
@[simp] theorem State.setGang_device (s : State) (g : Gang) : (s.setGang g).device = s.device := rfl
@[simp] theorem State.setGang_out (s : State) (g : Gang) : (s.setGang g).out = s.out := rfl
@[simp] theorem State.setGang_rings (s : State) (g : Gang) : (s.setGang g).rings = s.rings := rfl
@[simp] theorem State.setGang_stopped (s : State) (g : Gang) : (s.setGang g).stopped = s.stopped := rfl
@[simp] theorem State.setGang_pool (s : State) (g : Gang) : (s.setGang g).pool = s.pool := rfl
@[simp] theorem State.setGang_grants (s : State) (g : Gang) : (s.setGang g).grants = s.grants := rfl
@[simp] theorem State.setGang_shares (s : State) (g : Gang) : (s.setGang g).shares = s.shares := rfl
@[simp] theorem State.setGang_patrol (s : State) (g : Gang) : (s.setGang g).patrol = s.patrol := rfl
@[simp] theorem State.setGang_corrected (s : State) (g : Gang) : (s.setGang g).corrected = s.corrected := rfl
@[simp] theorem State.setGang_retiring (s : State) (g : Gang) : (s.setGang g).retiring = s.retiring := rfl
@[simp] theorem State.setGang_spares (s : State) (g : Gang) : (s.setGang g).spares = s.spares := rfl
@[simp] theorem State.setGang_nextKey (s : State) (g : Gang) : (s.setGang g).nextKey = s.nextKey := rfl
@[simp] theorem State.setGang_sec (s : State) (g : Gang) : (s.setGang g).sec = s.sec := rfl

/-! #### `State.modCore` changes `cores` alone -/

@[simp] theorem State.modCore_time (s : State) (c : Nat) (f : Core → Core) : (s.modCore c f).time = s.time := rfl
@[simp] theorem State.modCore_locked (s : State) (c : Nat) (f : Core → Core) : (s.modCore c f).locked = s.locked := rfl
@[simp] theorem State.modCore_ratePpm (s : State) (c : Nat) (f : Core → Core) : (s.modCore c f).ratePpm = s.ratePpm := rfl
@[simp] theorem State.modCore_timeFrac (s : State) (c : Nat) (f : Core → Core) : (s.modCore c f).timeFrac = s.timeFrac := rfl
@[simp] theorem State.modCore_agenda (s : State) (c : Nat) (f : Core → Core) : (s.modCore c f).agenda = s.agenda := rfl
@[simp] theorem State.modCore_turn (s : State) (c : Nat) (f : Core → Core) : (s.modCore c f).turn = s.turn := rfl
@[simp] theorem State.modCore_cur (s : State) (c : Nat) (f : Core → Core) : (s.modCore c f).cur = s.cur := rfl
@[simp] theorem State.modCore_fresh (s : State) (c : Nat) (f : Core → Core) : (s.modCore c f).fresh = s.fresh := rfl
@[simp] theorem State.modCore_acts (s : State) (c : Nat) (f : Core → Core) : (s.modCore c f).acts = s.acts := rfl
@[simp] theorem State.modCore_gangs (s : State) (c : Nat) (f : Core → Core) : (s.modCore c f).gangs = s.gangs := rfl
@[simp] theorem State.modCore_acres (s : State) (c : Nat) (f : Core → Core) : (s.modCore c f).acres = s.acres := rfl
@[simp] theorem State.modCore_base (s : State) (c : Nat) (f : Core → Core) : (s.modCore c f).base = s.base := rfl
@[simp] theorem State.modCore_disabled (s : State) (c : Nat) (f : Core → Core) : (s.modCore c f).disabled = s.disabled := rfl
@[simp] theorem State.modCore_mem (s : State) (c : Nat) (f : Core → Core) : (s.modCore c f).mem = s.mem := rfl
@[simp] theorem State.modCore_poison (s : State) (c : Nat) (f : Core → Core) : (s.modCore c f).poison = s.poison := rfl
@[simp] theorem State.modCore_keyTags (s : State) (c : Nat) (f : Core → Core) : (s.modCore c f).keyTags = s.keyTags := rfl
@[simp] theorem State.modCore_keyOver (s : State) (c : Nat) (f : Core → Core) : (s.modCore c f).keyOver = s.keyOver := rfl
@[simp] theorem State.modCore_desks (s : State) (c : Nat) (f : Core → Core) : (s.modCore c f).desks = s.desks := rfl
@[simp] theorem State.modCore_msgs (s : State) (c : Nat) (f : Core → Core) : (s.modCore c f).msgs = s.msgs := rfl
@[simp] theorem State.modCore_meetings (s : State) (c : Nat) (f : Core → Core) : (s.modCore c f).meetings = s.meetings := rfl
@[simp] theorem State.modCore_funcs (s : State) (c : Nat) (f : Core → Core) : (s.modCore c f).funcs = s.funcs := rfl
@[simp] theorem State.modCore_vfbase (s : State) (c : Nat) (f : Core → Core) : (s.modCore c f).vfbase = s.vfbase := rfl
@[simp] theorem State.modCore_vfPending (s : State) (c : Nat) (f : Core → Core) : (s.modCore c f).vfPending = s.vfPending := rfl
@[simp] theorem State.modCore_vfBusy (s : State) (c : Nat) (f : Core → Core) : (s.modCore c f).vfBusy = s.vfBusy := rfl
@[simp] theorem State.modCore_vfLast (s : State) (c : Nat) (f : Core → Core) : (s.modCore c f).vfLast = s.vfLast := rfl
@[simp] theorem State.modCore_vfStatus (s : State) (c : Nat) (f : Core → Core) : (s.modCore c f).vfStatus = s.vfStatus := rfl
@[simp] theorem State.modCore_scrub (s : State) (c : Nat) (f : Core → Core) : (s.modCore c f).scrub = s.scrub := rfl
@[simp] theorem State.modCore_kills (s : State) (c : Nat) (f : Core → Core) : (s.modCore c f).kills = s.kills := rfl
@[simp] theorem State.modCore_images (s : State) (c : Nat) (f : Core → Core) : (s.modCore c f).images = s.images := rfl
@[simp] theorem State.modCore_units (s : State) (c : Nat) (f : Core → Core) : (s.modCore c f).units = s.units := rfl
@[simp] theorem State.modCore_owners (s : State) (c : Nat) (f : Core → Core) : (s.modCore c f).owners = s.owners := rfl
@[simp] theorem State.modCore_sched (s : State) (c : Nat) (f : Core → Core) : (s.modCore c f).sched = s.sched := rfl
@[simp] theorem State.modCore_ports (s : State) (c : Nat) (f : Core → Core) : (s.modCore c f).ports = s.ports := rfl
@[simp] theorem State.modCore_links (s : State) (c : Nat) (f : Core → Core) : (s.modCore c f).links = s.links := rfl
@[simp] theorem State.modCore_kept (s : State) (c : Nat) (f : Core → Core) : (s.modCore c f).kept = s.kept := rfl
@[simp] theorem State.modCore_accepted (s : State) (c : Nat) (f : Core → Core) : (s.modCore c f).accepted = s.accepted := rfl
@[simp] theorem State.modCore_e2eNext (s : State) (c : Nat) (f : Core → Core) : (s.modCore c f).e2eNext = s.e2eNext := rfl
@[simp] theorem State.modCore_device (s : State) (c : Nat) (f : Core → Core) : (s.modCore c f).device = s.device := rfl
@[simp] theorem State.modCore_out (s : State) (c : Nat) (f : Core → Core) : (s.modCore c f).out = s.out := rfl
@[simp] theorem State.modCore_rings (s : State) (c : Nat) (f : Core → Core) : (s.modCore c f).rings = s.rings := rfl
@[simp] theorem State.modCore_stopped (s : State) (c : Nat) (f : Core → Core) : (s.modCore c f).stopped = s.stopped := rfl
@[simp] theorem State.modCore_pool (s : State) (c : Nat) (f : Core → Core) : (s.modCore c f).pool = s.pool := rfl
@[simp] theorem State.modCore_grants (s : State) (c : Nat) (f : Core → Core) : (s.modCore c f).grants = s.grants := rfl
@[simp] theorem State.modCore_shares (s : State) (c : Nat) (f : Core → Core) : (s.modCore c f).shares = s.shares := rfl
@[simp] theorem State.modCore_patrol (s : State) (c : Nat) (f : Core → Core) : (s.modCore c f).patrol = s.patrol := rfl
@[simp] theorem State.modCore_corrected (s : State) (c : Nat) (f : Core → Core) : (s.modCore c f).corrected = s.corrected := rfl
@[simp] theorem State.modCore_retiring (s : State) (c : Nat) (f : Core → Core) : (s.modCore c f).retiring = s.retiring := rfl
@[simp] theorem State.modCore_spares (s : State) (c : Nat) (f : Core → Core) : (s.modCore c f).spares = s.spares := rfl
@[simp] theorem State.modCore_nextKey (s : State) (c : Nat) (f : Core → Core) : (s.modCore c f).nextKey = s.nextKey := rfl
@[simp] theorem State.modCore_sec (s : State) (c : Nat) (f : Core → Core) : (s.modCore c f).sec = s.sec := rfl

/-! #### `State.modAcre` changes `acres` alone -/

@[simp] theorem State.modAcre_time (s : State) (a : Nat) (f : Acre → Acre) : (s.modAcre a f).time = s.time := rfl
@[simp] theorem State.modAcre_locked (s : State) (a : Nat) (f : Acre → Acre) : (s.modAcre a f).locked = s.locked := rfl
@[simp] theorem State.modAcre_ratePpm (s : State) (a : Nat) (f : Acre → Acre) : (s.modAcre a f).ratePpm = s.ratePpm := rfl
@[simp] theorem State.modAcre_timeFrac (s : State) (a : Nat) (f : Acre → Acre) : (s.modAcre a f).timeFrac = s.timeFrac := rfl
@[simp] theorem State.modAcre_agenda (s : State) (a : Nat) (f : Acre → Acre) : (s.modAcre a f).agenda = s.agenda := rfl
@[simp] theorem State.modAcre_turn (s : State) (a : Nat) (f : Acre → Acre) : (s.modAcre a f).turn = s.turn := rfl
@[simp] theorem State.modAcre_cur (s : State) (a : Nat) (f : Acre → Acre) : (s.modAcre a f).cur = s.cur := rfl
@[simp] theorem State.modAcre_fresh (s : State) (a : Nat) (f : Acre → Acre) : (s.modAcre a f).fresh = s.fresh := rfl
@[simp] theorem State.modAcre_acts (s : State) (a : Nat) (f : Acre → Acre) : (s.modAcre a f).acts = s.acts := rfl
@[simp] theorem State.modAcre_gangs (s : State) (a : Nat) (f : Acre → Acre) : (s.modAcre a f).gangs = s.gangs := rfl
@[simp] theorem State.modAcre_cores (s : State) (a : Nat) (f : Acre → Acre) : (s.modAcre a f).cores = s.cores := rfl
@[simp] theorem State.modAcre_base (s : State) (a : Nat) (f : Acre → Acre) : (s.modAcre a f).base = s.base := rfl
@[simp] theorem State.modAcre_disabled (s : State) (a : Nat) (f : Acre → Acre) : (s.modAcre a f).disabled = s.disabled := rfl
@[simp] theorem State.modAcre_mem (s : State) (a : Nat) (f : Acre → Acre) : (s.modAcre a f).mem = s.mem := rfl
@[simp] theorem State.modAcre_poison (s : State) (a : Nat) (f : Acre → Acre) : (s.modAcre a f).poison = s.poison := rfl
@[simp] theorem State.modAcre_keyTags (s : State) (a : Nat) (f : Acre → Acre) : (s.modAcre a f).keyTags = s.keyTags := rfl
@[simp] theorem State.modAcre_keyOver (s : State) (a : Nat) (f : Acre → Acre) : (s.modAcre a f).keyOver = s.keyOver := rfl
@[simp] theorem State.modAcre_desks (s : State) (a : Nat) (f : Acre → Acre) : (s.modAcre a f).desks = s.desks := rfl
@[simp] theorem State.modAcre_msgs (s : State) (a : Nat) (f : Acre → Acre) : (s.modAcre a f).msgs = s.msgs := rfl
@[simp] theorem State.modAcre_meetings (s : State) (a : Nat) (f : Acre → Acre) : (s.modAcre a f).meetings = s.meetings := rfl
@[simp] theorem State.modAcre_funcs (s : State) (a : Nat) (f : Acre → Acre) : (s.modAcre a f).funcs = s.funcs := rfl
@[simp] theorem State.modAcre_vfbase (s : State) (a : Nat) (f : Acre → Acre) : (s.modAcre a f).vfbase = s.vfbase := rfl
@[simp] theorem State.modAcre_vfPending (s : State) (a : Nat) (f : Acre → Acre) : (s.modAcre a f).vfPending = s.vfPending := rfl
@[simp] theorem State.modAcre_vfBusy (s : State) (a : Nat) (f : Acre → Acre) : (s.modAcre a f).vfBusy = s.vfBusy := rfl
@[simp] theorem State.modAcre_vfLast (s : State) (a : Nat) (f : Acre → Acre) : (s.modAcre a f).vfLast = s.vfLast := rfl
@[simp] theorem State.modAcre_vfStatus (s : State) (a : Nat) (f : Acre → Acre) : (s.modAcre a f).vfStatus = s.vfStatus := rfl
@[simp] theorem State.modAcre_scrub (s : State) (a : Nat) (f : Acre → Acre) : (s.modAcre a f).scrub = s.scrub := rfl
@[simp] theorem State.modAcre_kills (s : State) (a : Nat) (f : Acre → Acre) : (s.modAcre a f).kills = s.kills := rfl
@[simp] theorem State.modAcre_images (s : State) (a : Nat) (f : Acre → Acre) : (s.modAcre a f).images = s.images := rfl
@[simp] theorem State.modAcre_units (s : State) (a : Nat) (f : Acre → Acre) : (s.modAcre a f).units = s.units := rfl
@[simp] theorem State.modAcre_owners (s : State) (a : Nat) (f : Acre → Acre) : (s.modAcre a f).owners = s.owners := rfl
@[simp] theorem State.modAcre_sched (s : State) (a : Nat) (f : Acre → Acre) : (s.modAcre a f).sched = s.sched := rfl
@[simp] theorem State.modAcre_ports (s : State) (a : Nat) (f : Acre → Acre) : (s.modAcre a f).ports = s.ports := rfl
@[simp] theorem State.modAcre_links (s : State) (a : Nat) (f : Acre → Acre) : (s.modAcre a f).links = s.links := rfl
@[simp] theorem State.modAcre_kept (s : State) (a : Nat) (f : Acre → Acre) : (s.modAcre a f).kept = s.kept := rfl
@[simp] theorem State.modAcre_accepted (s : State) (a : Nat) (f : Acre → Acre) : (s.modAcre a f).accepted = s.accepted := rfl
@[simp] theorem State.modAcre_e2eNext (s : State) (a : Nat) (f : Acre → Acre) : (s.modAcre a f).e2eNext = s.e2eNext := rfl
@[simp] theorem State.modAcre_device (s : State) (a : Nat) (f : Acre → Acre) : (s.modAcre a f).device = s.device := rfl
@[simp] theorem State.modAcre_out (s : State) (a : Nat) (f : Acre → Acre) : (s.modAcre a f).out = s.out := rfl
@[simp] theorem State.modAcre_rings (s : State) (a : Nat) (f : Acre → Acre) : (s.modAcre a f).rings = s.rings := rfl
@[simp] theorem State.modAcre_stopped (s : State) (a : Nat) (f : Acre → Acre) : (s.modAcre a f).stopped = s.stopped := rfl
@[simp] theorem State.modAcre_pool (s : State) (a : Nat) (f : Acre → Acre) : (s.modAcre a f).pool = s.pool := rfl
@[simp] theorem State.modAcre_grants (s : State) (a : Nat) (f : Acre → Acre) : (s.modAcre a f).grants = s.grants := rfl
@[simp] theorem State.modAcre_shares (s : State) (a : Nat) (f : Acre → Acre) : (s.modAcre a f).shares = s.shares := rfl
@[simp] theorem State.modAcre_patrol (s : State) (a : Nat) (f : Acre → Acre) : (s.modAcre a f).patrol = s.patrol := rfl
@[simp] theorem State.modAcre_corrected (s : State) (a : Nat) (f : Acre → Acre) : (s.modAcre a f).corrected = s.corrected := rfl
@[simp] theorem State.modAcre_retiring (s : State) (a : Nat) (f : Acre → Acre) : (s.modAcre a f).retiring = s.retiring := rfl
@[simp] theorem State.modAcre_spares (s : State) (a : Nat) (f : Acre → Acre) : (s.modAcre a f).spares = s.spares := rfl
@[simp] theorem State.modAcre_nextKey (s : State) (a : Nat) (f : Acre → Acre) : (s.modAcre a f).nextKey = s.nextKey := rfl
@[simp] theorem State.modAcre_sec (s : State) (a : Nat) (f : Acre → Acre) : (s.modAcre a f).sec = s.sec := rfl

/-! #### `State.modRegion` changes `funcs` alone -/

@[simp] theorem State.modRegion_time (s : State) (v g : Nat) (f : Region → Region) : (s.modRegion v g f).time = s.time := rfl
@[simp] theorem State.modRegion_locked (s : State) (v g : Nat) (f : Region → Region) : (s.modRegion v g f).locked = s.locked := rfl
@[simp] theorem State.modRegion_ratePpm (s : State) (v g : Nat) (f : Region → Region) : (s.modRegion v g f).ratePpm = s.ratePpm := rfl
@[simp] theorem State.modRegion_timeFrac (s : State) (v g : Nat) (f : Region → Region) : (s.modRegion v g f).timeFrac = s.timeFrac := rfl
@[simp] theorem State.modRegion_agenda (s : State) (v g : Nat) (f : Region → Region) : (s.modRegion v g f).agenda = s.agenda := rfl
@[simp] theorem State.modRegion_turn (s : State) (v g : Nat) (f : Region → Region) : (s.modRegion v g f).turn = s.turn := rfl
@[simp] theorem State.modRegion_cur (s : State) (v g : Nat) (f : Region → Region) : (s.modRegion v g f).cur = s.cur := rfl
@[simp] theorem State.modRegion_fresh (s : State) (v g : Nat) (f : Region → Region) : (s.modRegion v g f).fresh = s.fresh := rfl
@[simp] theorem State.modRegion_acts (s : State) (v g : Nat) (f : Region → Region) : (s.modRegion v g f).acts = s.acts := rfl
@[simp] theorem State.modRegion_gangs (s : State) (v g : Nat) (f : Region → Region) : (s.modRegion v g f).gangs = s.gangs := rfl
@[simp] theorem State.modRegion_cores (s : State) (v g : Nat) (f : Region → Region) : (s.modRegion v g f).cores = s.cores := rfl
@[simp] theorem State.modRegion_acres (s : State) (v g : Nat) (f : Region → Region) : (s.modRegion v g f).acres = s.acres := rfl
@[simp] theorem State.modRegion_base (s : State) (v g : Nat) (f : Region → Region) : (s.modRegion v g f).base = s.base := rfl
@[simp] theorem State.modRegion_disabled (s : State) (v g : Nat) (f : Region → Region) : (s.modRegion v g f).disabled = s.disabled := rfl
@[simp] theorem State.modRegion_mem (s : State) (v g : Nat) (f : Region → Region) : (s.modRegion v g f).mem = s.mem := rfl
@[simp] theorem State.modRegion_poison (s : State) (v g : Nat) (f : Region → Region) : (s.modRegion v g f).poison = s.poison := rfl
@[simp] theorem State.modRegion_keyTags (s : State) (v g : Nat) (f : Region → Region) : (s.modRegion v g f).keyTags = s.keyTags := rfl
@[simp] theorem State.modRegion_keyOver (s : State) (v g : Nat) (f : Region → Region) : (s.modRegion v g f).keyOver = s.keyOver := rfl
@[simp] theorem State.modRegion_desks (s : State) (v g : Nat) (f : Region → Region) : (s.modRegion v g f).desks = s.desks := rfl
@[simp] theorem State.modRegion_msgs (s : State) (v g : Nat) (f : Region → Region) : (s.modRegion v g f).msgs = s.msgs := rfl
@[simp] theorem State.modRegion_meetings (s : State) (v g : Nat) (f : Region → Region) : (s.modRegion v g f).meetings = s.meetings := rfl
@[simp] theorem State.modRegion_vfbase (s : State) (v g : Nat) (f : Region → Region) : (s.modRegion v g f).vfbase = s.vfbase := rfl
@[simp] theorem State.modRegion_vfPending (s : State) (v g : Nat) (f : Region → Region) : (s.modRegion v g f).vfPending = s.vfPending := rfl
@[simp] theorem State.modRegion_vfBusy (s : State) (v g : Nat) (f : Region → Region) : (s.modRegion v g f).vfBusy = s.vfBusy := rfl
@[simp] theorem State.modRegion_vfLast (s : State) (v g : Nat) (f : Region → Region) : (s.modRegion v g f).vfLast = s.vfLast := rfl
@[simp] theorem State.modRegion_vfStatus (s : State) (v g : Nat) (f : Region → Region) : (s.modRegion v g f).vfStatus = s.vfStatus := rfl
@[simp] theorem State.modRegion_scrub (s : State) (v g : Nat) (f : Region → Region) : (s.modRegion v g f).scrub = s.scrub := rfl
@[simp] theorem State.modRegion_kills (s : State) (v g : Nat) (f : Region → Region) : (s.modRegion v g f).kills = s.kills := rfl
@[simp] theorem State.modRegion_images (s : State) (v g : Nat) (f : Region → Region) : (s.modRegion v g f).images = s.images := rfl
@[simp] theorem State.modRegion_units (s : State) (v g : Nat) (f : Region → Region) : (s.modRegion v g f).units = s.units := rfl
@[simp] theorem State.modRegion_owners (s : State) (v g : Nat) (f : Region → Region) : (s.modRegion v g f).owners = s.owners := rfl
@[simp] theorem State.modRegion_sched (s : State) (v g : Nat) (f : Region → Region) : (s.modRegion v g f).sched = s.sched := rfl
@[simp] theorem State.modRegion_ports (s : State) (v g : Nat) (f : Region → Region) : (s.modRegion v g f).ports = s.ports := rfl
@[simp] theorem State.modRegion_links (s : State) (v g : Nat) (f : Region → Region) : (s.modRegion v g f).links = s.links := rfl
@[simp] theorem State.modRegion_kept (s : State) (v g : Nat) (f : Region → Region) : (s.modRegion v g f).kept = s.kept := rfl
@[simp] theorem State.modRegion_accepted (s : State) (v g : Nat) (f : Region → Region) : (s.modRegion v g f).accepted = s.accepted := rfl
@[simp] theorem State.modRegion_e2eNext (s : State) (v g : Nat) (f : Region → Region) : (s.modRegion v g f).e2eNext = s.e2eNext := rfl
@[simp] theorem State.modRegion_device (s : State) (v g : Nat) (f : Region → Region) : (s.modRegion v g f).device = s.device := rfl
@[simp] theorem State.modRegion_out (s : State) (v g : Nat) (f : Region → Region) : (s.modRegion v g f).out = s.out := rfl
@[simp] theorem State.modRegion_rings (s : State) (v g : Nat) (f : Region → Region) : (s.modRegion v g f).rings = s.rings := rfl
@[simp] theorem State.modRegion_stopped (s : State) (v g : Nat) (f : Region → Region) : (s.modRegion v g f).stopped = s.stopped := rfl
@[simp] theorem State.modRegion_pool (s : State) (v g : Nat) (f : Region → Region) : (s.modRegion v g f).pool = s.pool := rfl
@[simp] theorem State.modRegion_grants (s : State) (v g : Nat) (f : Region → Region) : (s.modRegion v g f).grants = s.grants := rfl
@[simp] theorem State.modRegion_shares (s : State) (v g : Nat) (f : Region → Region) : (s.modRegion v g f).shares = s.shares := rfl
@[simp] theorem State.modRegion_patrol (s : State) (v g : Nat) (f : Region → Region) : (s.modRegion v g f).patrol = s.patrol := rfl
@[simp] theorem State.modRegion_corrected (s : State) (v g : Nat) (f : Region → Region) : (s.modRegion v g f).corrected = s.corrected := rfl
@[simp] theorem State.modRegion_retiring (s : State) (v g : Nat) (f : Region → Region) : (s.modRegion v g f).retiring = s.retiring := rfl
@[simp] theorem State.modRegion_spares (s : State) (v g : Nat) (f : Region → Region) : (s.modRegion v g f).spares = s.spares := rfl
@[simp] theorem State.modRegion_nextKey (s : State) (v g : Nat) (f : Region → Region) : (s.modRegion v g f).nextKey = s.nextKey := rfl
@[simp] theorem State.modRegion_sec (s : State) (v g : Nat) (f : Region → Region) : (s.modRegion v g f).sec = s.sec := rfl

/-! #### `State.modChain` changes `funcs` alone -/

@[simp] theorem State.modChain_time (s : State) (v g : Nat) (h : Region → Region) : (s.modChain v g h).time = s.time := rfl
@[simp] theorem State.modChain_locked (s : State) (v g : Nat) (h : Region → Region) : (s.modChain v g h).locked = s.locked := rfl
@[simp] theorem State.modChain_ratePpm (s : State) (v g : Nat) (h : Region → Region) : (s.modChain v g h).ratePpm = s.ratePpm := rfl
@[simp] theorem State.modChain_timeFrac (s : State) (v g : Nat) (h : Region → Region) : (s.modChain v g h).timeFrac = s.timeFrac := rfl
@[simp] theorem State.modChain_agenda (s : State) (v g : Nat) (h : Region → Region) : (s.modChain v g h).agenda = s.agenda := rfl
@[simp] theorem State.modChain_turn (s : State) (v g : Nat) (h : Region → Region) : (s.modChain v g h).turn = s.turn := rfl
@[simp] theorem State.modChain_cur (s : State) (v g : Nat) (h : Region → Region) : (s.modChain v g h).cur = s.cur := rfl
@[simp] theorem State.modChain_fresh (s : State) (v g : Nat) (h : Region → Region) : (s.modChain v g h).fresh = s.fresh := rfl
@[simp] theorem State.modChain_acts (s : State) (v g : Nat) (h : Region → Region) : (s.modChain v g h).acts = s.acts := rfl
@[simp] theorem State.modChain_gangs (s : State) (v g : Nat) (h : Region → Region) : (s.modChain v g h).gangs = s.gangs := rfl
@[simp] theorem State.modChain_cores (s : State) (v g : Nat) (h : Region → Region) : (s.modChain v g h).cores = s.cores := rfl
@[simp] theorem State.modChain_acres (s : State) (v g : Nat) (h : Region → Region) : (s.modChain v g h).acres = s.acres := rfl
@[simp] theorem State.modChain_base (s : State) (v g : Nat) (h : Region → Region) : (s.modChain v g h).base = s.base := rfl
@[simp] theorem State.modChain_disabled (s : State) (v g : Nat) (h : Region → Region) : (s.modChain v g h).disabled = s.disabled := rfl
@[simp] theorem State.modChain_mem (s : State) (v g : Nat) (h : Region → Region) : (s.modChain v g h).mem = s.mem := rfl
@[simp] theorem State.modChain_poison (s : State) (v g : Nat) (h : Region → Region) : (s.modChain v g h).poison = s.poison := rfl
@[simp] theorem State.modChain_keyTags (s : State) (v g : Nat) (h : Region → Region) : (s.modChain v g h).keyTags = s.keyTags := rfl
@[simp] theorem State.modChain_keyOver (s : State) (v g : Nat) (h : Region → Region) : (s.modChain v g h).keyOver = s.keyOver := rfl
@[simp] theorem State.modChain_desks (s : State) (v g : Nat) (h : Region → Region) : (s.modChain v g h).desks = s.desks := rfl
@[simp] theorem State.modChain_msgs (s : State) (v g : Nat) (h : Region → Region) : (s.modChain v g h).msgs = s.msgs := rfl
@[simp] theorem State.modChain_meetings (s : State) (v g : Nat) (h : Region → Region) : (s.modChain v g h).meetings = s.meetings := rfl
@[simp] theorem State.modChain_vfbase (s : State) (v g : Nat) (h : Region → Region) : (s.modChain v g h).vfbase = s.vfbase := rfl
@[simp] theorem State.modChain_vfPending (s : State) (v g : Nat) (h : Region → Region) : (s.modChain v g h).vfPending = s.vfPending := rfl
@[simp] theorem State.modChain_vfBusy (s : State) (v g : Nat) (h : Region → Region) : (s.modChain v g h).vfBusy = s.vfBusy := rfl
@[simp] theorem State.modChain_vfLast (s : State) (v g : Nat) (h : Region → Region) : (s.modChain v g h).vfLast = s.vfLast := rfl
@[simp] theorem State.modChain_vfStatus (s : State) (v g : Nat) (h : Region → Region) : (s.modChain v g h).vfStatus = s.vfStatus := rfl
@[simp] theorem State.modChain_scrub (s : State) (v g : Nat) (h : Region → Region) : (s.modChain v g h).scrub = s.scrub := rfl
@[simp] theorem State.modChain_kills (s : State) (v g : Nat) (h : Region → Region) : (s.modChain v g h).kills = s.kills := rfl
@[simp] theorem State.modChain_images (s : State) (v g : Nat) (h : Region → Region) : (s.modChain v g h).images = s.images := rfl
@[simp] theorem State.modChain_units (s : State) (v g : Nat) (h : Region → Region) : (s.modChain v g h).units = s.units := rfl
@[simp] theorem State.modChain_owners (s : State) (v g : Nat) (h : Region → Region) : (s.modChain v g h).owners = s.owners := rfl
@[simp] theorem State.modChain_sched (s : State) (v g : Nat) (h : Region → Region) : (s.modChain v g h).sched = s.sched := rfl
@[simp] theorem State.modChain_ports (s : State) (v g : Nat) (h : Region → Region) : (s.modChain v g h).ports = s.ports := rfl
@[simp] theorem State.modChain_links (s : State) (v g : Nat) (h : Region → Region) : (s.modChain v g h).links = s.links := rfl
@[simp] theorem State.modChain_kept (s : State) (v g : Nat) (h : Region → Region) : (s.modChain v g h).kept = s.kept := rfl
@[simp] theorem State.modChain_accepted (s : State) (v g : Nat) (h : Region → Region) : (s.modChain v g h).accepted = s.accepted := rfl
@[simp] theorem State.modChain_e2eNext (s : State) (v g : Nat) (h : Region → Region) : (s.modChain v g h).e2eNext = s.e2eNext := rfl
@[simp] theorem State.modChain_device (s : State) (v g : Nat) (h : Region → Region) : (s.modChain v g h).device = s.device := rfl
@[simp] theorem State.modChain_out (s : State) (v g : Nat) (h : Region → Region) : (s.modChain v g h).out = s.out := rfl
@[simp] theorem State.modChain_rings (s : State) (v g : Nat) (h : Region → Region) : (s.modChain v g h).rings = s.rings := rfl
@[simp] theorem State.modChain_stopped (s : State) (v g : Nat) (h : Region → Region) : (s.modChain v g h).stopped = s.stopped := rfl
@[simp] theorem State.modChain_pool (s : State) (v g : Nat) (h : Region → Region) : (s.modChain v g h).pool = s.pool := rfl
@[simp] theorem State.modChain_grants (s : State) (v g : Nat) (h : Region → Region) : (s.modChain v g h).grants = s.grants := rfl
@[simp] theorem State.modChain_shares (s : State) (v g : Nat) (h : Region → Region) : (s.modChain v g h).shares = s.shares := rfl
@[simp] theorem State.modChain_patrol (s : State) (v g : Nat) (h : Region → Region) : (s.modChain v g h).patrol = s.patrol := rfl
@[simp] theorem State.modChain_corrected (s : State) (v g : Nat) (h : Region → Region) : (s.modChain v g h).corrected = s.corrected := rfl
@[simp] theorem State.modChain_retiring (s : State) (v g : Nat) (h : Region → Region) : (s.modChain v g h).retiring = s.retiring := rfl
@[simp] theorem State.modChain_spares (s : State) (v g : Nat) (h : Region → Region) : (s.modChain v g h).spares = s.spares := rfl
@[simp] theorem State.modChain_nextKey (s : State) (v g : Nat) (h : Region → Region) : (s.modChain v g h).nextKey = s.nextKey := rfl
@[simp] theorem State.modChain_sec (s : State) (v g : Nat) (h : Region → Region) : (s.modChain v g h).sec = s.sec := rfl

/-! #### `State.tick` advances `fresh` alone -/

@[simp] theorem State.tick_time (s : State) : s.tick.2.time = s.time := rfl
@[simp] theorem State.tick_locked (s : State) : s.tick.2.locked = s.locked := rfl
@[simp] theorem State.tick_ratePpm (s : State) : s.tick.2.ratePpm = s.ratePpm := rfl
@[simp] theorem State.tick_timeFrac (s : State) : s.tick.2.timeFrac = s.timeFrac := rfl
@[simp] theorem State.tick_agenda (s : State) : s.tick.2.agenda = s.agenda := rfl
@[simp] theorem State.tick_turn (s : State) : s.tick.2.turn = s.turn := rfl
@[simp] theorem State.tick_cur (s : State) : s.tick.2.cur = s.cur := rfl
@[simp] theorem State.tick_acts (s : State) : s.tick.2.acts = s.acts := rfl
@[simp] theorem State.tick_gangs (s : State) : s.tick.2.gangs = s.gangs := rfl
@[simp] theorem State.tick_cores (s : State) : s.tick.2.cores = s.cores := rfl
@[simp] theorem State.tick_acres (s : State) : s.tick.2.acres = s.acres := rfl
@[simp] theorem State.tick_base (s : State) : s.tick.2.base = s.base := rfl
@[simp] theorem State.tick_disabled (s : State) : s.tick.2.disabled = s.disabled := rfl
@[simp] theorem State.tick_mem (s : State) : s.tick.2.mem = s.mem := rfl
@[simp] theorem State.tick_poison (s : State) : s.tick.2.poison = s.poison := rfl
@[simp] theorem State.tick_keyTags (s : State) : s.tick.2.keyTags = s.keyTags := rfl
@[simp] theorem State.tick_keyOver (s : State) : s.tick.2.keyOver = s.keyOver := rfl
@[simp] theorem State.tick_desks (s : State) : s.tick.2.desks = s.desks := rfl
@[simp] theorem State.tick_msgs (s : State) : s.tick.2.msgs = s.msgs := rfl
@[simp] theorem State.tick_meetings (s : State) : s.tick.2.meetings = s.meetings := rfl
@[simp] theorem State.tick_funcs (s : State) : s.tick.2.funcs = s.funcs := rfl
@[simp] theorem State.tick_vfbase (s : State) : s.tick.2.vfbase = s.vfbase := rfl
@[simp] theorem State.tick_vfPending (s : State) : s.tick.2.vfPending = s.vfPending := rfl
@[simp] theorem State.tick_vfBusy (s : State) : s.tick.2.vfBusy = s.vfBusy := rfl
@[simp] theorem State.tick_vfLast (s : State) : s.tick.2.vfLast = s.vfLast := rfl
@[simp] theorem State.tick_vfStatus (s : State) : s.tick.2.vfStatus = s.vfStatus := rfl
@[simp] theorem State.tick_scrub (s : State) : s.tick.2.scrub = s.scrub := rfl
@[simp] theorem State.tick_kills (s : State) : s.tick.2.kills = s.kills := rfl
@[simp] theorem State.tick_images (s : State) : s.tick.2.images = s.images := rfl
@[simp] theorem State.tick_units (s : State) : s.tick.2.units = s.units := rfl
@[simp] theorem State.tick_owners (s : State) : s.tick.2.owners = s.owners := rfl
@[simp] theorem State.tick_sched (s : State) : s.tick.2.sched = s.sched := rfl
@[simp] theorem State.tick_ports (s : State) : s.tick.2.ports = s.ports := rfl
@[simp] theorem State.tick_links (s : State) : s.tick.2.links = s.links := rfl
@[simp] theorem State.tick_kept (s : State) : s.tick.2.kept = s.kept := rfl
@[simp] theorem State.tick_accepted (s : State) : s.tick.2.accepted = s.accepted := rfl
@[simp] theorem State.tick_e2eNext (s : State) : s.tick.2.e2eNext = s.e2eNext := rfl
@[simp] theorem State.tick_device (s : State) : s.tick.2.device = s.device := rfl
@[simp] theorem State.tick_out (s : State) : s.tick.2.out = s.out := rfl
@[simp] theorem State.tick_rings (s : State) : s.tick.2.rings = s.rings := rfl
@[simp] theorem State.tick_stopped (s : State) : s.tick.2.stopped = s.stopped := rfl
@[simp] theorem State.tick_pool (s : State) : s.tick.2.pool = s.pool := rfl
@[simp] theorem State.tick_grants (s : State) : s.tick.2.grants = s.grants := rfl
@[simp] theorem State.tick_shares (s : State) : s.tick.2.shares = s.shares := rfl
@[simp] theorem State.tick_patrol (s : State) : s.tick.2.patrol = s.patrol := rfl
@[simp] theorem State.tick_corrected (s : State) : s.tick.2.corrected = s.corrected := rfl
@[simp] theorem State.tick_retiring (s : State) : s.tick.2.retiring = s.retiring := rfl
@[simp] theorem State.tick_spares (s : State) : s.tick.2.spares = s.spares := rfl
@[simp] theorem State.tick_nextKey (s : State) : s.tick.2.nextKey = s.nextKey := rfl
@[simp] theorem State.tick_sec (s : State) : s.tick.2.sec = s.sec := rfl
@[simp] theorem State.tick_fresh (s : State) : s.tick.2.fresh = s.fresh + 1 := rfl

/-! #### `State.physSet` changes `mem`, `keyOver` and `poison` alone -/

@[simp] theorem State.physSet_time (s : State) (v : Nat) (l : Loc) (b : Byte) : (s.physSet v l b).time = s.time := rfl
@[simp] theorem State.physSet_locked (s : State) (v : Nat) (l : Loc) (b : Byte) : (s.physSet v l b).locked = s.locked := rfl
@[simp] theorem State.physSet_ratePpm (s : State) (v : Nat) (l : Loc) (b : Byte) : (s.physSet v l b).ratePpm = s.ratePpm := rfl
@[simp] theorem State.physSet_timeFrac (s : State) (v : Nat) (l : Loc) (b : Byte) : (s.physSet v l b).timeFrac = s.timeFrac := rfl
@[simp] theorem State.physSet_agenda (s : State) (v : Nat) (l : Loc) (b : Byte) : (s.physSet v l b).agenda = s.agenda := rfl
@[simp] theorem State.physSet_turn (s : State) (v : Nat) (l : Loc) (b : Byte) : (s.physSet v l b).turn = s.turn := rfl
@[simp] theorem State.physSet_cur (s : State) (v : Nat) (l : Loc) (b : Byte) : (s.physSet v l b).cur = s.cur := rfl
@[simp] theorem State.physSet_fresh (s : State) (v : Nat) (l : Loc) (b : Byte) : (s.physSet v l b).fresh = s.fresh := rfl
@[simp] theorem State.physSet_acts (s : State) (v : Nat) (l : Loc) (b : Byte) : (s.physSet v l b).acts = s.acts := rfl
@[simp] theorem State.physSet_gangs (s : State) (v : Nat) (l : Loc) (b : Byte) : (s.physSet v l b).gangs = s.gangs := rfl
@[simp] theorem State.physSet_cores (s : State) (v : Nat) (l : Loc) (b : Byte) : (s.physSet v l b).cores = s.cores := rfl
@[simp] theorem State.physSet_acres (s : State) (v : Nat) (l : Loc) (b : Byte) : (s.physSet v l b).acres = s.acres := rfl
@[simp] theorem State.physSet_base (s : State) (v : Nat) (l : Loc) (b : Byte) : (s.physSet v l b).base = s.base := rfl
@[simp] theorem State.physSet_disabled (s : State) (v : Nat) (l : Loc) (b : Byte) : (s.physSet v l b).disabled = s.disabled := rfl
@[simp] theorem State.physSet_keyTags (s : State) (v : Nat) (l : Loc) (b : Byte) : (s.physSet v l b).keyTags = s.keyTags := rfl
@[simp] theorem State.physSet_desks (s : State) (v : Nat) (l : Loc) (b : Byte) : (s.physSet v l b).desks = s.desks := rfl
@[simp] theorem State.physSet_msgs (s : State) (v : Nat) (l : Loc) (b : Byte) : (s.physSet v l b).msgs = s.msgs := rfl
@[simp] theorem State.physSet_meetings (s : State) (v : Nat) (l : Loc) (b : Byte) : (s.physSet v l b).meetings = s.meetings := rfl
@[simp] theorem State.physSet_funcs (s : State) (v : Nat) (l : Loc) (b : Byte) : (s.physSet v l b).funcs = s.funcs := rfl
@[simp] theorem State.physSet_vfbase (s : State) (v : Nat) (l : Loc) (b : Byte) : (s.physSet v l b).vfbase = s.vfbase := rfl
@[simp] theorem State.physSet_vfPending (s : State) (v : Nat) (l : Loc) (b : Byte) : (s.physSet v l b).vfPending = s.vfPending := rfl
@[simp] theorem State.physSet_vfBusy (s : State) (v : Nat) (l : Loc) (b : Byte) : (s.physSet v l b).vfBusy = s.vfBusy := rfl
@[simp] theorem State.physSet_vfLast (s : State) (v : Nat) (l : Loc) (b : Byte) : (s.physSet v l b).vfLast = s.vfLast := rfl
@[simp] theorem State.physSet_vfStatus (s : State) (v : Nat) (l : Loc) (b : Byte) : (s.physSet v l b).vfStatus = s.vfStatus := rfl
@[simp] theorem State.physSet_scrub (s : State) (v : Nat) (l : Loc) (b : Byte) : (s.physSet v l b).scrub = s.scrub := rfl
@[simp] theorem State.physSet_kills (s : State) (v : Nat) (l : Loc) (b : Byte) : (s.physSet v l b).kills = s.kills := rfl
@[simp] theorem State.physSet_images (s : State) (v : Nat) (l : Loc) (b : Byte) : (s.physSet v l b).images = s.images := rfl
@[simp] theorem State.physSet_units (s : State) (v : Nat) (l : Loc) (b : Byte) : (s.physSet v l b).units = s.units := rfl
@[simp] theorem State.physSet_owners (s : State) (v : Nat) (l : Loc) (b : Byte) : (s.physSet v l b).owners = s.owners := rfl
@[simp] theorem State.physSet_sched (s : State) (v : Nat) (l : Loc) (b : Byte) : (s.physSet v l b).sched = s.sched := rfl
@[simp] theorem State.physSet_ports (s : State) (v : Nat) (l : Loc) (b : Byte) : (s.physSet v l b).ports = s.ports := rfl
@[simp] theorem State.physSet_links (s : State) (v : Nat) (l : Loc) (b : Byte) : (s.physSet v l b).links = s.links := rfl
@[simp] theorem State.physSet_kept (s : State) (v : Nat) (l : Loc) (b : Byte) : (s.physSet v l b).kept = s.kept := rfl
@[simp] theorem State.physSet_accepted (s : State) (v : Nat) (l : Loc) (b : Byte) : (s.physSet v l b).accepted = s.accepted := rfl
@[simp] theorem State.physSet_e2eNext (s : State) (v : Nat) (l : Loc) (b : Byte) : (s.physSet v l b).e2eNext = s.e2eNext := rfl
@[simp] theorem State.physSet_device (s : State) (v : Nat) (l : Loc) (b : Byte) : (s.physSet v l b).device = s.device := rfl
@[simp] theorem State.physSet_out (s : State) (v : Nat) (l : Loc) (b : Byte) : (s.physSet v l b).out = s.out := rfl
@[simp] theorem State.physSet_rings (s : State) (v : Nat) (l : Loc) (b : Byte) : (s.physSet v l b).rings = s.rings := rfl
@[simp] theorem State.physSet_stopped (s : State) (v : Nat) (l : Loc) (b : Byte) : (s.physSet v l b).stopped = s.stopped := rfl
@[simp] theorem State.physSet_pool (s : State) (v : Nat) (l : Loc) (b : Byte) : (s.physSet v l b).pool = s.pool := rfl
@[simp] theorem State.physSet_grants (s : State) (v : Nat) (l : Loc) (b : Byte) : (s.physSet v l b).grants = s.grants := rfl
@[simp] theorem State.physSet_shares (s : State) (v : Nat) (l : Loc) (b : Byte) : (s.physSet v l b).shares = s.shares := rfl
@[simp] theorem State.physSet_patrol (s : State) (v : Nat) (l : Loc) (b : Byte) : (s.physSet v l b).patrol = s.patrol := rfl
@[simp] theorem State.physSet_corrected (s : State) (v : Nat) (l : Loc) (b : Byte) : (s.physSet v l b).corrected = s.corrected := rfl
@[simp] theorem State.physSet_retiring (s : State) (v : Nat) (l : Loc) (b : Byte) : (s.physSet v l b).retiring = s.retiring := rfl
@[simp] theorem State.physSet_spares (s : State) (v : Nat) (l : Loc) (b : Byte) : (s.physSet v l b).spares = s.spares := rfl
@[simp] theorem State.physSet_nextKey (s : State) (v : Nat) (l : Loc) (b : Byte) : (s.physSet v l b).nextKey = s.nextKey := rfl
@[simp] theorem State.physSet_sec (s : State) (v : Nat) (l : Loc) (b : Byte) : (s.physSet v l b).sec = s.sec := rfl

/-! ### What each update writes -/

/-- Looking up an identity in a list of activities of which some are changed, their identities kept. -/
theorem find_changed {a b : Aid} {f : Act → Act} (hf : ∀ x, x.id = a → (f x).id = a) (l : List Act) :
    (l.map fun y => if y.id = a then f y else y).find? (fun x => x.id = b) =
      if b = a then (l.find? fun x => x.id = b).map f else l.find? fun x => x.id = b := by
  induction l with
  | nil => simp
  | cons z zs ih =>
    simp only [List.map_cons]
    by_cases hz : z.id = a
    · by_cases hb : b = a
      · simp [hz, hb, hf z hz]
      · rw [if_pos hz, List.find?_cons_of_neg (by simp [hf z hz, Ne.symm hb]), ih,
          List.find?_cons_of_neg (by simp [hz, Ne.symm hb])]
    · by_cases hb : z.id = b
      · have h : ¬ b = a := fun e => hz (hb.trans e)
        simp [hb, h]
      · rw [if_neg hz, List.find?_cons_of_neg (by simp [hb]), ih, List.find?_cons_of_neg (by simp [hb])]

/-- A replaced activity is found as it now is. -/
theorem State.act_setAct {s : State} {x y : Act} (h : s.act x.id = some y) : (s.setAct x).act x.id = some x := by
  rw [State.act] at h
  rw [State.act, State.setAct, find_changed (f := fun _ => x) (fun _ _ => rfl), if_pos rfl, h]
  rfl

/-- Replacing an activity leaves every other one. -/
theorem State.act_setAct_ne {s : State} {x : Act} {a : Aid} (h : a ≠ x.id) : (s.setAct x).act a = s.act a := by
  rw [State.act, State.setAct, find_changed (f := fun _ => x) (fun _ _ => rfl), if_neg h]
  rfl

/-- A changed activity is found changed, when the change keeps its identity. -/
theorem State.act_modAct {s : State} {a : Aid} {f : Act → Act} (hf : ∀ x, (f x).id = x.id) :
    (s.modAct a f).act a = (s.act a).map f := by
  rw [State.act, State.modAct, find_changed (fun x hx => (hf x).trans hx), if_pos rfl]
  rfl

/-- Changing an activity leaves every other one, when the change keeps its identity. -/
theorem State.act_modAct_ne {s : State} {a b : Aid} {f : Act → Act} (hf : ∀ x, (f x).id = x.id) (h : b ≠ a) :
    (s.modAct a f).act b = s.act b := by
  rw [State.act, State.modAct, find_changed (fun x hx => (hf x).trans hx), if_neg h]
  rfl

/-- A replaced function reads as it now is. -/
theorem State.fn_setFn {s : State} {v : Nat} {f : Func} (h : v < s.funcs.length) : (s.setFn v f).fn v = f := by
  simp [State.fn, State.setFn, List.getD, h]

/-- Replacing a function leaves every other one. -/
theorem State.fn_setFn_ne {s : State} {v w : Nat} {f : Func} (h : w ≠ v) : (s.setFn v f).fn w = s.fn w := by
  simp [State.fn, State.setFn, List.getD, List.getElem?_set_ne (Ne.symm h)]

/-- A function above the last reads as off, whatever is written there. -/
theorem State.fn_setFn_absent {s : State} {v : Nat} {f : Func} (h : s.funcs.length ≤ v) : s.setFn v f = s := by
  simp [State.setFn, List.set_eq_of_length_le h]

/-- A changed function reads changed. -/
theorem State.fn_modFn {s : State} {v : Nat} {g : Func → Func} (h : v < s.funcs.length) :
    (s.modFn v g).fn v = g (s.fn v) := State.fn_setFn h

/-- Changing a function leaves every other one. -/
theorem State.fn_modFn_ne {s : State} {v w : Nat} {g : Func → Func} (h : w ≠ v) : (s.modFn v g).fn w = s.fn w :=
  State.fn_setFn_ne h

/-- The number of functions stays. -/
@[simp] theorem State.setFn_funcs_length (s : State) (v : Nat) (f : Func) :
    (s.setFn v f).funcs.length = s.funcs.length := by simp [State.setFn]

/-- The number of functions stays. -/
@[simp] theorem State.modFn_funcs_length (s : State) (v : Nat) (g : Func → Func) :
    (s.modFn v g).funcs.length = s.funcs.length := State.setFn_funcs_length _ _ _

/-- A changed core reads changed, when the change keeps its number. -/
theorem State.core_modCore {s : State} {c : Nat} {f : Core → Core} (h : (f (s.core c)).num = c) :
    (s.modCore c f).core c = f (s.core c) := by
  simp [State.core, State.modCore] at *
  simp [h]

/-- Changing a core leaves every other one, when the change keeps its number. -/
theorem State.core_modCore_ne {s : State} {c d : Nat} {f : Core → Core} (h : (f (s.core c)).num = c) (hd : d ≠ c) :
    (s.modCore c f).core d = s.core d := by
  have e : ∀ l : List Core, (l.filter fun x => x.num != c).find? (fun x => x.num = d) = l.find? fun x => x.num = d := by
    intro l
    induction l with
    | nil => rfl
    | cons z zs ih =>
      by_cases hz : z.num = c
      · have : ¬ c = d := fun k => hd k.symm
        simpa [hz, this] using ih
      · by_cases hk : z.num = d
        · simp [hk, hd]
        · simpa [hz, hk] using ih
  have h1 : ¬ c = d := fun k => hd k.symm
  rw [State.core, State.modCore, List.find?_cons_of_neg (by simp [h, h1])]
  simp only [e]
  rfl

/-- A changed acre reads changed, when the change keeps its number. -/
theorem State.acre_modAcre {s : State} {a : Nat} {f : Acre → Acre} (h : (f (s.acre a)).num = a) :
    (s.modAcre a f).acre a = f (s.acre a) := by
  simp [State.acre, State.modAcre] at *
  simp [h]

/-- The core found under a number carries it. -/
@[simp] theorem State.core_num (s : State) (c : Nat) : (s.core c).num = c := by
  unfold State.core
  cases h : s.cores.find? fun x => decide (x.num = c) with
  | none => rfl
  | some x => simpa using List.find?_some h

/-- The acre found under a number carries it. -/
@[simp] theorem State.acre_num (s : State) (a : Nat) : (s.acre a).num = a := by
  unfold State.acre
  cases h : s.acres.find? fun x => decide (x.num = a) with
  | none => rfl
  | some x => simpa using List.find?_some h

/-- The region found under an index carries it. -/
theorem Func.region_idx {f : Func} {g : Nat} {r : Region} (h : f.region g = some r) : r.idx = g := by
  simpa using List.find?_some h

/-- A region in the chain of another is the one that its index names. -/
theorem Func.chain_region (f : Func) {r : Region} : ∀ n g, r ∈ chainAux f n g → f.region r.idx = some r
  | 0, g, h => by simp [chainAux] at h
  | n + 1, g, h => by
    unfold chainAux at h
    split at h
    · simp at h
    rename_i q hq
    rcases List.mem_cons.1 h with rfl | h
    · exact Func.region_idx hq ▸ hq
    · split at h
      · simp at h
      · exact Func.chain_region f n _ h

end Sys2Proof.Machine
end

