-- ==== Sys2Proof/Laws/Translation.lean ====
section
/-!
SUPPORT. Physical memory and the addresses that lead to it: what reads at intermediate addresses give within a page, and
that every write keeps memory canonical and every activity as it is.
-/
namespace Sys2Proof.Machine

theorem upFrom_length (n : Nat) : ∀ a, (upFrom a n).length = n := by
  induction n with
  | zero => intro a; rfl
  | succ n ih => intro a; simp [upFrom, ih]

/-- Two runs of addresses whose values agree place by place. -/
theorem map_upFrom {α : Type} (f g : Nat → α) (n : Nat) : ∀ a b, (∀ k, k < n → f (a + k) = g (b + k)) →
    (upFrom a n).map f = (upFrom b n).map g := by
  induction n with
  | zero => intro a b _; rfl
  | succ n ih =>
    intro a b h
    simp only [upFrom, List.map_cons]
    rw [show f a = g b by simpa using h 0 (by omega), ih (a + 1) (b + 1) fun k hk => by
      simpa [Nat.add_assoc, Nat.add_comm, Nat.add_left_comm] using h (k + 1) (by omega)]

/-- Where stage 2 maps no page, its bytes read as 0. -/
theorem State.ipaRead_unmapped {s : State} {v p o n : Nat} (h : s.walk2 v (p * 65536) = none) (hn : o + n ≤ 65536) :
    s.ipaRead v (p * 65536 + o) n = List.replicate n 0 := by
  rw [State.ipaRead, List.eq_replicate_iff]
  refine ⟨by simp [upFrom_length], fun b hb => ?_⟩
  obtain ⟨a, ha, rfl⟩ := List.mem_map.mp hb
  rw [mem_upFrom] at ha
  rw [State.ipaGet, show a / 65536 * 65536 = p * 65536 by omega, h]
  rfl

/-- An intermediate address that leads to HBM reads the physical byte, where no error is detected. -/
theorem State.ipaGet_mapped {s : State} {v p o pa : Nat} (h : s.walk2 v (p * 65536) = some (pa, false))
    (hp : s.poison = []) (ho : o < 65536) :
    s.ipaGet v (p * 65536 + o) = some (s.physGet v (Loc.of (p * 65536 + o) (pa + o) false)) := by
  rw [State.ipaGet, show (p * 65536 + o) / 65536 * 65536 = p * 65536 by omega, h,
    show (p * 65536 + o) % 65536 = o by omega]
  simp [State.memUp, hp]

/-- Where stage 2 maps a page of HBM, its bytes are those of the physical page. -/
theorem State.ipaRead_mapped {s : State} {v p o n pa : Nat} (h : s.walk2 v (p * 65536) = some (pa, false))
    (hp : s.poison = []) (hn : o + n ≤ 65536) :
    s.ipaRead v (p * 65536 + o) n =
      (upFrom 0 n).map fun k => s.physGet v (Loc.of (p * 65536 + (o + k)) (pa + (o + k)) false) :=
  map_upFrom _ _ n _ 0 fun k hk => by
    rw [Nat.add_assoc, State.ipaGet_mapped h hp (by omega), Nat.zero_add]; rfl

/-- The same for tenant addresses of a page that stage 1 maps. -/
theorem State.vaRead_mapped {s : State} {v p o n ip pa : Nat} (h1 : s.walk1 v noAcre p = .ok ip)
    (h : s.walk2 v (ip * 65536) = some (pa, false)) (hp : s.poison = []) (hn : o + n ≤ 65536) :
    s.vaRead v (p * 65536 + o) n =
      (upFrom 0 n).map fun k => s.physGet v (Loc.of (ip * 65536 + (o + k)) (pa + (o + k)) false) :=
  map_upFrom _ _ n _ 0 fun k hk => by
    rw [show (p * 65536 + o + k) / 65536 = p by omega, h1, show (p * 65536 + o + k) % 65536 = o + k by omega]
    simp only [State.ipaGet_mapped h hp (show o + k < 65536 by omega), Nat.zero_add]
    rfl

/-! ### Stage 1 -/

/-- A walk that finds a page went through the root table of the function. -/
theorem State.s1Walk_root {s : State} {v acre page : Nat} {w : S1Walk} (h : s.s1Walk v acre page = .ok w) :
    (s.fn v).tableAt (page / 262144 / 8192) ≠ none := by
  intro hn; simp [State.s1Walk, hn] at h

theorem State.walk1_of {s : State} {v acre page : Nat} {w : S1Walk} (h : s.s1Walk v acre page = .ok w) :
    s.walk1 v acre page = .ok w.ip := by simp [State.walk1, h, Except.map]

/-- A function without stage-1 tables translates nothing by a walk. -/
theorem State.walk1_bare {s : State} {v acre page : Nat} (h : (s.fn v).tables = []) : s.walk1 v acre page = .error none := by
  simp [State.walk1, State.s1Walk, Func.tableAt, h, assocGet, Except.map]

/-! ### What writes keep -/

/-- Memory is canonical after a change that keeps the activities and leaves physical memory canonical. -/
theorem State.memOk_of {s t : State} (h : s.memOk = true) (ha : t.acts = s.acts) (hm : Memory.wf t.mem = true) :
    t.memOk = true := by
  simp only [State.memOk, Bool.and_eq_true] at h ⊢
  exact ⟨hm, by rw [ha]; exact h.2⟩

theorem State.memOk_mem {s : State} (h : s.memOk = true) : Memory.wf s.mem = true := by
  simp only [State.memOk, Bool.and_eq_true] at h; exact h.1

@[simp] theorem State.zeroPage_acts (s : State) (v ip key : Nat) : (s.zeroPage v ip key).acts = s.acts := rfl
@[simp] theorem State.zeroPage_mem (s : State) (v ip key : Nat) :
    (s.zeroPage v ip key).mem = Memory.clear key (key + 65536) s.mem := rfl

theorem State.physSet_memOk {s : State} (v : Nat) (l : Loc) (b : Byte) (h : s.memOk = true) :
    (s.physSet v l b).memOk = true := by
  refine State.memOk_of h rfl (Memory.wf_set _ _ ?_)
  split
  · exact State.memOk_mem h
  · exact Memory.wf_write _ _ (State.memOk_mem h)

theorem State.zeroPage_memOk {s : State} (v ip key : Nat) (h : s.memOk = true) : (s.zeroPage v ip key).memOk = true :=
  State.memOk_of h rfl (Memory.wf_clear _ _ (State.memOk_mem h))

theorem State.physWrite_memOk (v : Nat) : ∀ (bs : List Byte) {s : State} (key : Nat), s.memOk = true →
    (State.physWrite v s key bs).memOk = true
  | [], _, _, h => h
  | b :: bs, _, key, h => State.physWrite_memOk v bs (key + 1) (State.physSet_memOk v _ b h)

theorem State.physWrite_acts (v : Nat) : ∀ (bs : List Byte) (s : State) (key : Nat),
    (State.physWrite v s key bs).acts = s.acts
  | [], _, _ => rfl
  | b :: bs, s, key => State.physWrite_acts v bs (s.physSet v ⟨key, none⟩ b) (key + 1)

theorem State.ipaWrite_memOk (v : Nat) : ∀ (bs : List Byte) {s : State} (ipa : Nat), s.memOk = true →
    (State.ipaWrite v s ipa bs).memOk = true
  | [], _, _, h => h
  | b :: bs, s, ipa, h => by
    rw [State.ipaWrite]
    refine State.ipaWrite_memOk v bs (ipa + 1) ?_
    split
    · exact h
    · split
      · exact State.physSet_memOk v _ b h
      · exact h

theorem State.ipaWrite_acts (v : Nat) : ∀ (bs : List Byte) (s : State) (ipa : Nat),
    (State.ipaWrite v s ipa bs).acts = s.acts
  | [], _, _ => rfl
  | b :: bs, s, ipa => by
    rw [State.ipaWrite, State.ipaWrite_acts v bs]
    split
    · rfl
    · split <;> rfl

theorem State.zeroIpa_memOk {s : State} (v ip : Nat) (h : s.memOk = true) : (s.zeroIpa v ip).memOk = true := by
  unfold State.zeroIpa; split
  · exact h
  · exact State.zeroPage_memOk v ip _ h

@[simp] theorem State.zeroIpa_acts (s : State) (v ip : Nat) : (s.zeroIpa v ip).acts = s.acts := by
  unfold State.zeroIpa; split <;> rfl

/-- Giving and taking table pages changes no memory and no activity. -/
theorem State.retable_mem (s : State) (v : Nat) : (s.retable v).mem = s.mem ∧ (s.retable v).acts = s.acts := by
  unfold State.retable; dsimp only; split <;> exact ⟨rfl, rfl⟩

/-- A fold of changes that keep memory canonical and the activities as they are does so too. -/
theorem State.foldl_keeps {α : Type} {f : State → α → State}
    (h : ∀ s a, s.memOk = true → (f s a).memOk = true ∧ (f s a).acts = s.acts) :
    ∀ (l : List α) (s : State), s.memOk = true → (l.foldl f s).memOk = true ∧ (l.foldl f s).acts = s.acts
  | [], _, hs => ⟨hs, rfl⟩
  | a :: l, s, hs =>
    let r := State.foldl_keeps h l (f s a) (h s a hs).1
    ⟨r.1, r.2.trans (h s a hs).2⟩

/-- Everything that a change of the stage-1 mappings does to memory and the activities: its writes are those of table
entries, through stage 2. -/
theorem State.mapStage1_keeps {s : State} (v : Nat) (g : List S1Page → List S1Page) (h : s.memOk = true) :
    (s.mapStage1 v g).memOk = true ∧ (s.mapStage1 v g).acts = s.acts := by
  have r := State.retable_mem (s.modFn v fun f => { f with stage1 := g f.stage1 }) v
  have h1 := State.memOk_of h r.2 (by rw [r.1]; exact State.memOk_mem h)
  have z := State.foldl_keeps (f := fun (t : State) (n : Nat × Nat) => t.zeroIpa v n.2)
    (fun t n ht => ⟨State.zeroIpa_memOk v n.2 ht, State.zeroIpa_acts t v n.2⟩)
  have w := State.foldl_keeps (f := fun (t : State) (e : Nat × Nat) => State.ipaWrite v t e.1 (leBytes 8 e.2))
    (fun t e ht => ⟨State.ipaWrite_memOk v _ _ ht, State.ipaWrite_acts v _ t _⟩)
  unfold State.mapStage1
  dsimp only
  refine ⟨(w _ _ (z _ _ h1).1).1, ?_⟩
  rw [(w _ _ (z _ _ h1).1).2, (z _ _ h1).2, r.2]; rfl

theorem State.vaWrite_memOk (v : Nat) : ∀ (bs : List Byte) {s : State} (a : Nat), s.memOk = true →
    (State.vaWrite v s a bs).memOk = true
  | [], _, _, h => h
  | b :: bs, s, a, h => by
    rw [State.vaWrite]
    refine State.vaWrite_memOk v bs (a + 1) ?_
    split
    · exact h
    · exact State.ipaWrite_memOk v [b] _ h

theorem State.vaWrite_acts (v : Nat) : ∀ (bs : List Byte) (s : State) (a : Nat),
    (State.vaWrite v s a bs).acts = s.acts
  | [], _, _ => rfl
  | b :: bs, s, a => by
    rw [State.vaWrite, State.vaWrite_acts v bs]
    split
    · rfl
    · exact State.ipaWrite_acts v [b] s _

end Sys2Proof.Machine
end

