-- ==== Sys2Proof/Tests/Slice0.lean ====
section
/-!
SUPPORT. The model's own tests. Words come from the encoding tables and examples of R224 to R322, expected results from
the spec's rules, worked by hand. `test_witness_<Obligation>` gives, for a statement with hypotheses, states and operands
that meet them, clause by clause.
-/
namespace Sys2Proof.Tests
open Sys2Proof.Machine
set_option Elab.async false

/-! ### Words of the spec -/

/-- A word decodes to an instruction and is its encoding. -/
def reads (w : Word32) (i : Instr) : Bool := decodeWord w == .ok i && encode i == w

/-- R226, R230 to R236, R239: registers, constants, exits, integer and float slots. -/
theorem test_decode_scalar :
    reads 0x028C1011 (.rd .v 3 (some ⟨2, .l⟩) (some ⟨4, .r⟩)) ∧ reads 0x04140000 (.wr .s 5) ∧
    reads 0x20443826 (.add .ifTrue true (some ⟨7, .l⟩) (some ⟨9, .p⟩)) ∧
    reads 0x3E20860C (.shi .always .sha true 3 (some ⟨3, .l⟩)) ∧
    reads 0x5210000A (.testi .sole .lt 0 (some ⟨2, .p⟩)) ∧
    reads 0x580C29FF (.fadd .always false .rup (some ⟨5, .l⟩) none) := by decide

/-- R279 to R289: memory, copies, tags, formats. -/
theorem test_decode_memory :
    reads 0x68010814 (.ld .always 0 .i32 4 (some ⟨5, .l⟩)) ∧ reads 0x6A034000 (.st .always 1 .n32 0) ∧
    reads 0x7207821C (.cas .always 3 .w64 1 (some ⟨7, .l⟩)) ∧ reads 0x740091FF (.cin .always 9 none none) ∧
    reads 0x82000003 (.wtall .always 0 3) ∧ reads 0x88000003 (.wcnt .always 0 3) ∧
    reads 0x8A004BFF (.bfmt .always 2 5 none) ∧
    reads 0x70040018 (.amo .always 2 .add 0 (some ⟨6, .l⟩)) ∧
    reads 0x6C004A0C (.pld .always 0 .n8 5 (some ⟨3, .l⟩)) ∧
    reads 0x840421FF (.tagff .always true (some ⟨4, .l⟩) none) ∧
    reads 0x8603FFFF (.tagclr .always none none) := by decide

/-- R291 to R294. -/
theorem test_decode_ownership :
    reads 0x8C000414 (.palloc .always false 2 (some ⟨5, .l⟩)) ∧
    reads 0x8E0001FF (.pfree .always 0 none) ∧
    reads 0x90000618 (.lsplit .always 3 (some ⟨6, .l⟩)) ∧
    reads 0x920005FF (.lgive .always 2 none) ∧
    reads 0x9400021C (.seal .always 1 (some ⟨7, .l⟩)) ∧
    reads 0x96010003 (.unseal .always 0 1 3) ∧
    reads 0x980031FF (.shopen .always (some ⟨6, .l⟩) none) ∧
    reads 0x9C041218 (.lbase .always .len true 1 (some ⟨6, .l⟩)) := by decide

/-- R295 to R304. -/
theorem test_decode_activity :
    reads 0x9E00021C (.spawn .always false false 0 1 (some ⟨7, .l⟩)) ∧
    reads 0xA003FFFF (.retire .always 0) ∧
    reads 0xA2000003 (.yield .always 0 3) ∧
    reads 0xA4000003 (.sleep .always 0 3) ∧
    reads 0xA6010003 (.gang .always 0 .quad 3) ∧
    reads 0xA8000003 (.split .always 0 3) ∧
    reads 0xAA000003 (.meet .always 0 3) ∧
    reads 0xAC060003 (.gather .always 0 .count 3) ∧
    reads 0xAE000003 (.part .always 0 3) ∧
    reads 0xB00449FF (.xrd .always .v (some ⟨9, .l⟩) none) := by decide

/-- R305 to R310. -/
theorem test_decode_closure :
    reads 0xB2000008 (.cenv .always (some ⟨2, .l⟩)) ∧
    reads 0xB400000C (.cput .always .val 0 (some ⟨3, .l⟩)) ∧
    reads 0xB78C0000 (.cdrop 3) ∧
    reads 0xB801820C (.envrd .always 0 .w64 1 (some ⟨3, .l⟩)) ∧
    reads 0xBA034200 (.envwr .always 1 .n32 1) ∧
    reads 0xBC010000 (.apply .always 0 1) ∧
    reads 0xBE030003 (.vapply .always 0 3 3) := by decide

/-- R323 to R325. -/
theorem test_decode_matrix :
    reads 0xC00007FF (.mfuse .always .full none) ∧
    reads 0xC2040008 (.mwload .always true (some ⟨2, .l⟩)) ∧
    reads 0xC40001FF (.mwswap .always none) ∧
    reads 0xC6001010 (.mstream .always false true 0 (some ⟨4, .l⟩)) ∧
    reads 0xC80001FF (.mstore .always 0 none) ∧
    reads 0xCA0003FF (.mrel .always 1 none) ∧
    reads 0xCC0039FF (.mwait .always (some ⟨7, .l⟩) none) ∧
    reads 0xCE0015FF (.mldacc .always true 2 none) := by decide

/-- R327 to R332. -/
theorem test_decode_system :
    reads 0xD0004008 (.srd .always 32 (some ⟨2, .l⟩)) ∧
    reads 0xD20045FF (.swr .always 34 none) ∧
    reads 0xD40419FF (.tlbinv .always .vf (some ⟨3, .l⟩) none) ∧
    reads 0xD6000008 (.scrub .always (some ⟨2, .l⟩)) ∧
    reads 0xD80021FF (.killq .always (some ⟨4, .l⟩) none) ∧
    reads 0xDA0029FF (.resume .always .retry (some ⟨5, .l⟩) none) ∧
    reads 0xDC000003 (.hcall .always 0 3) := by decide

/-- R313 to R322. -/
theorem test_decode_vector :
    reads 0xE0284025 (.vadd .always .f32 (some ⟨8, .l⟩) (some ⟨9, .r⟩)) ∧
    reads 0xE20421FF (.vsub .always .n8 (some ⟨4, .l⟩) none) ∧
    reads 0xE4203BFF (.vmul .always .bf16 (some ⟨7, .r⟩) none) ∧
    reads 0xE62841FF (.vfma .always .f32 (some ⟨8, .l⟩) none) ∧
    reads 0xE81019FF (.vmin .always .i32 (some ⟨3, .l⟩) none) ∧
    reads 0xEA2419FF (.vmax .always .f16 (some ⟨3, .l⟩) none) ∧
    reads 0xEC284802 (.vcmp .always .f32 .lt (some ⟨9, .l⟩)) ∧
    reads 0xEE142802 (.vlogic .always .n32 .xor (some ⟨5, .l⟩)) ∧
    reads 0xF0082103 (.vshift .always .i16 .sha false 3 (some ⟨4, .l⟩)) ∧
    reads 0xF2281818 (.vcvt .always .f32 .bf16 1 (some ⟨3, .l⟩)) ∧
    reads 0xF401400C (.vld .always 0 .f32 .unit (some ⟨3, .l⟩)) ∧
    reads 0xF6030400 (.vst .always 1 .bf16 .indexed) ∧
    reads 0xF8104800 (.vred .always .i32 .sum (some ⟨9, .l⟩)) ∧
    reads 0xFA1428C1 (.vperm .always .n32 .sdn 1 (some ⟨5, .l⟩)) ∧
    reads 0xFC283803 (.vspec .always .f32 .rsqrt (some ⟨7, .l⟩)) := by decide

/-- R228, R244: an unassigned opcode, an unlisted value, a predicate code with no meaning and a target that must be 1FFh
are refused, each by its name; a prefix (R229) is no instruction. -/
theorem test_decode_refuses :
    decodeWord 0x1A000000 = .error .opcode ∧ decodeWord 0x4E000000 = .error .opcode ∧
    decodeWord 0xDE000000 = .error .opcode ∧ decodeWord 0x20C43826 = .error .predicate ∧
    decodeWord 0xD0003E08 = .error .field ∧ decodeWord 0xFE000000 = .error .pfx ∧
    (decodePfx 0xFE000000).isSome = true := by decide

/-! ### Ill-formed instructions -/

/-- R208: no target is operand x of slot 127. -/
theorem test_ill_target : wellFormed (.mov .always (some ⟨127, .x⟩) none) = false ∧
    wellFormed (.mov .always none (some ⟨127, .x⟩)) = false ∧
    wellFormed (.mov .always (some ⟨127, .l⟩) (some ⟨0, .x⟩)) = true := by decide

/-- R224, R230: there are eight M and eight C registers. -/
theorem test_ill_register : wellFormed (.rd .m 8 none none) = false ∧ wellFormed (.wr .c 8) = false ∧
    wellFormed (.rd .m 7 none none) = true ∧ wellFormed (.rd .v 31 none none) = true := by decide

/-- R239: a 32-bit shift is by less than 32; TESTI has eight conditions; R308: an environment has 30 words. -/
theorem test_ill_scalar : wellFormed (.shi .always .shl true 32 none) = false ∧
    wellFormed (.shi .always .shl false 32 none) = true ∧ wellFormed (.testi .sole .leu 0 none) = false ∧
    wellFormed (.testi .sole .bitset 0 none) = false ∧ wellFormed (.envrd .always 0 .w64 30 none) = false ∧
    wellFormed (.envwr .always 0 .w64 30) = false ∧ wellFormed (.envwr .always 0 .w64 29) = true := by decide

/-- R231: which special registers exist, and which SWR may name. -/
theorem test_ill_special : wellFormed (.srd .always 0x009 none) = false ∧ wellFormed (.srd .always 0x104 none) = true ∧
    wellFormed (.swr .always 0x104 none) = false ∧ wellFormed (.swr .always 0x022 none) = true := by decide

/-- R243: the types, conditions, parts, functions and immediates of the vector instructions. -/
theorem test_ill_vector : wellFormed (.vadd .always .q4n none none) = false ∧
    wellFormed (.vcmp .always .i32 .unord none) = false ∧ wellFormed (.vcmp .always .f32 .unord none) = true ∧
    wellFormed (.vlogic .always .q4n .and none) = false ∧ wellFormed (.vshift .always .f32 .shl false 0 none) = false ∧
    wellFormed (.vshift .always .i8 .shl false 8 none) = false ∧
    wellFormed (.vshift .always .i8 .shl true 1 none) = false ∧
    wellFormed (.vcvt .always .f32 .bf16 2 none) = false ∧ wellFormed (.vcvt .always .f32 .bf16 1 none) = true ∧
    wellFormed (.vst .always 0 .f32 .bcast) = false ∧ wellFormed (.vred .always .f32 .and none) = false ∧
    wellFormed (.vperm .always .i32 .perm 1 none) = false ∧ wellFormed (.vperm .always .i32 .sup 16 none) = false ∧
    wellFormed (.vspec .always .i8 .rcp none) = false := by decide

/-! ### States for witnesses -/

/-- The activity of `put`: two banks in its carrel. -/
def actor : Act := { actFor 0 with banks := 2, resume := 4096 }

/-- After reset, a running activity `a` whose block holds `i` in slot 1 behind the word `pfx`; the operands that `i` uses
have received `toks`, its predicate lets it fire, and the slot is selected. -/
def putAfter (pfx : Word32) (i : Instr) (toks : List Token) (a : Act) : State :=
  let ins := ((dataOps i).zip toks).map (fun q => (q.1, 0, q.2)) ++ [(Opnd.p, 0, tokenFor i .p)]
  let fl : Flight := ⟨0, 4096, [], [pfx, encode i], [⟨[], .done, [], .none⟩, ⟨ins, .notYet, [], .none⟩], 0⟩
  { State.reset with acts := [{ a with flight := some fl }], cur := some (a.id, 1) }

/-- `putAfter` behind a MOV that has fired. -/
def put (i : Instr) (toks : List Token) (a : Act := actor) : State := putAfter 0x0603FFFF i toks a

/-- Scalars as tokens. -/
def nums (l : List Word) : List Token := l.map .scalar

/-- Whether the selected slot of a state holds `i`, is ready, and its context has a property. -/
def fits (s : State) (i : Instr) (p : Ctx → Bool) : Bool :=
  match s.ctx i with
  | some c => c.fl.ready c.k i true == .fire && p c
  | none => false

/-- In state `s` the slot that holds `i` is selected, and its context has a property. -/
def shows (s : State) (i : Instr) (p : Ctx → Bool) : Prop := ∃ c, Selected s i c ∧ p c = true

theorem shows_of_fits {s : State} {i : Instr} {p : Ctx → Bool} (h : fits s i p = true) : shows s i p := by
  unfold fits at h
  split at h
  · next c hc =>
    simp only [Bool.and_eq_true, beq_iff_eq] at h
    exact ⟨c, ⟨hc, h.1⟩, h.2⟩
  · cases h

theorem forall_shows {α : Type} {l : List α} {f : α → State} {g : α → Instr} {p : α → Ctx → Bool}
    (h : (l.all fun a => fits (f a) (g a) (p a)) = true) : ∀ a ∈ l, shows (f a) (g a) (p a) :=
  fun a ha => shows_of_fits (List.all_eq_true.mp h a ha)

/-- Every instruction of a list is selected in some state: with the scalars 6, 3 and 1 at its operands. -/
def allSelected (l : List Instr) : Prop := ∀ i ∈ l, ∃ s c, Selected s i c

theorem allSelected_of {l : List Instr} (h : (l.all fun i => fits (put i (nums [6, 3, 1])) i fun _ => true) = true) :
    allSelected l := by
  intro i hi
  obtain ⟨c, hc, -⟩ := shows_of_fits (List.all_eq_true.mp h i hi)
  exact ⟨_, c, hc⟩

/-- A meeting in progress with `partner`, one bank of luggage. -/
def meetingWith (partner : Aid) : MeetSt :=
  ⟨partner, true, 0, 1, false, true, .present, none, ⟨Vector.replicate 32 7, Vector.replicate 32 0, Vector.replicate 8 0,
    Vector.replicate 8 Handle.none, []⟩⟩

/-- The partner: activity 5 of the physical function. -/
def other : Act := { actor with id := ⟨0, 5⟩, flight := none, meet := some (meetingWith fetchAid) }

/-- `put` with the activity in a meeting with the partner `o`. -/
def putMetOf (o : Act) (i : Instr) (toks : List Token) (a : Act := actor) : State :=
  let s := put i toks { a with meet := some (meetingWith ⟨0, 5⟩) }
  { s with acts := s.acts ++ [o] }

/-- `put` with the activity in a meeting with `other`. -/
def putMet (i : Instr) (toks : List Token) (a : Act := actor) : State := putMetOf other i toks a

/-- The partner with read-only luggage, with luggage of format `f`, and with none. -/
def otherRo : Act := { other with meet := some { meetingWith fetchAid with lugRo := true } }
def otherFmt (f : BitVec 4) : Act := { other with fmts := Vector.replicate 16 f }
def otherBare : Act := { other with meet := some { meetingWith fetchAid with lugCount := 0 } }

/-- Whether a load with ID 0 meets no detected error in a range of the own carrel. -/
def clean (c : Ctx) (off n : Nat) : Bool := (upFrom off n).all fun o => !c.badAt false 0 o

/-- Whether a load or atomic operation with ID 0 of `n` bytes at `a` passes its checks up to a detected error, which it
meets first at `b`. -/
def dirtyAt (b a n : Nat) (c : Ctx) : Bool :=
  c.x.holds a n && rawTail (c.x.fmt (a / 24576)) (a % 24576) == 0 && a % n == 0 && decide (a ≤ b ∧ b < a + n) &&
    c.badAt false 0 b && clean c a (b - a)

/-! ### Witnesses: slots -/

theorem test_witness_RegisterAndConstantSlots :
    allSelected [.wr .s 5, .mov .always none none, .null .always none none, .geni .always 5 none,
      .genu .always 5 none, .genc .always 5 none, .sel .always none none] ∧
    shows (put (.rd .s 5 none none) []) (.rd .s 5 none none)
      (fun c => !c.x.bad.contains (.register c.x.id .s (c.physical .s 5))) ∧
    shows (put (.rd .v 31 none none) [] { actor with bad := [.register actor.id .v 31] }) (.rd .v 31 none none)
      (fun c => c.x.bad.contains (.register c.x.id .v (c.physical .v 31))) :=
  ⟨allSelected_of (by decide), shows_of_fits (by decide), shows_of_fits (by decide)⟩

theorem test_witness_IntegerArithmeticSlots :
    allSelected ([false, true].flatMap fun w => [.add .always w none none, .sub .ifTrue w none none,
      .mul .ifFalse w none none, .and .always w none none, .or .always w none none, .xor .always w none none]) ∧
    allSelected [.addi .always 1 none, .andi .ifTrue 1 none, .ori .ifFalse 1 none] :=
  ⟨allSelected_of (by decide), allSelected_of (by decide)⟩

theorem test_witness_MulhDivRemSlots :
    allSelected ([.ss, .nn, .sn].map fun k => .mulh .always k none none) ∧
    allSelected ([.s64, .n64, .s32, .n32].flatMap fun k => [.div .always k none none, .rem .always k none none]) :=
  ⟨allSelected_of (by decide), allSelected_of (by decide)⟩

theorem test_witness_ShiftMinMaxExtSlots :
    allSelected ([false, true].flatMap fun w => [.shl .always w none none, .shr .always w none none,
      .sha .always w none none, .shi .always .sha w 31 none, .min .always w w none none, .max .always w w none none,
      .min .always w (!w) none none, .max .always w (!w) none none]) ∧
    allSelected ([.i8, .n8, .i16, .n16, .i32, .n32].map fun k => .ext .always k none none) :=
  ⟨allSelected_of (by decide), allSelected_of (by decide)⟩

theorem test_witness_BitFieldSlots :
    allSelected ([false, true].flatMap fun w => [.bfx .always w true none none, .bfi .always w none none,
      .cnt .always w .pop none none, .cnt .always w .lz none none, .cnt .always w .tz none none,
      .cnt .always w .brev none none]) :=
  allSelected_of (by decide)

/-- A test in slot 1 with both operands and a false predicate. -/
def testFlight : Flight :=
  ⟨0, 0, [], [0, encode (.test .ift .lt none none)], [⟨[], .done, [], .none⟩,
    ⟨[(.l, 0, .scalar 1), (.r, 0, .scalar 2), (.p, 0, .scalar 0)], .notYet, [], .none⟩], 0⟩

theorem test_witness_TestSlots :
    allSelected ([.sole, .ift, .iff, .gate, .all, .any, .alln, .anyn].flatMap fun ct =>
      [.test ct .lt none none, .testi ct .lt 5 none, .ftest ct false .lt none none]) ∧
    (wellFormed (.testi .iff .lt 5 none) = true) ∧
    ((testFlight.slot 1).status = .notYet ∧ testFlight.collided 1 = false ∧
      testFlight.data 1 (.test .ift .lt none none) = some [.scalar 1, .scalar 2] ∧
      Token.null ∉ [Token.scalar 1, .scalar 2] ∧ (testFlight.slot 1).arrived .p = some (.scalar 0)) :=
  ⟨allSelected_of (by decide), by decide, by decide⟩

theorem test_witness_ScalarFloatSlots :
    allSelected ([false, true].flatMap fun f => [.fadd .always f .rne none none, .fsub .always f .rtz none none,
      .fmul .always f .rdn none none, .fma .always f .rup none none, .fdiv .always f .rna none none,
      .fsqrt .always f .rs none none, .fmm .always f false none none, .fmm .always f true none none]) ∧
    allSelected ([.f32f64, .f64f32, .i64f32, .n64f32, .i64f64, .n64f64, .f32i64, .f32n64, .f64i64, .f64n64, .f32f16,
      .f16f32, .f32bf16, .bf16f32].map fun k => .fcvt .always k none none) :=
  ⟨allSelected_of (by decide), allSelected_of (by decide)⟩

theorem test_witness_ControlSlots :
    allSelected [.br .always 0 3, .call .always 0 3, .ret .always 0, .trap .always 7] ∧
    shows (put (.bri .always 0) (nums [16])) (.bri .always 0) (fun c => (c.word 0).toNat % 16 == 0) ∧
    shows (put (.bri .always 0) (nums [8])) (.bri .always 0) (fun c => (c.word 0).toNat % 16 != 0) :=
  ⟨allSelected_of (by decide), shows_of_fits (by decide), shows_of_fits (by decide)⟩

theorem test_witness_CarrelLoadSlots :
    shows (put (.ld .always 0 .i8 0 none) (nums [49151])) (.ld .always 0 .i8 0 none)
      (fun c => c.x.holds 49151 1 && rawTail (c.x.fmt 1) 24575 == 0 && clean c 49151 1) ∧
    shows (putMet (.pld .always 0 .w64 0 none) (nums [24568])) (.pld .always 0 .w64 0 none)
      (fun c => match c.s.partner c.x with
        | some (y, m) => decide (24568 < m.lugCount * 24576) && rawTail (y.fmt m.lugFirst) 24568 == 0 &&
          (upFrom 24568 8).all fun o => !c.badAt true 0 o
        | none => false) :=
  ⟨shows_of_fits (by decide), shows_of_fits (by decide)⟩

theorem test_witness_CarrelStoreSlots :
    shows (put (.st .always 0 .w64 0) (nums [49144, 1])) (.st .always 0 .w64 0)
      (fun c => c.x.holds 49144 8 && rawTail (c.x.fmt 1) 24568 == 0) ∧
    shows (putMet (.pst .always 0 .w64 0) (nums [24568, 1])) (.pst .always 0 .w64 0)
      (fun c => match c.s.partner c.x with
        | some (y, m) => !m.lugRo && decide (24568 < m.lugCount * 24576) && rawTail (y.fmt m.lugFirst) 24568 == 0
        | none => false) :=
  ⟨shows_of_fits (by decide), shows_of_fits (by decide)⟩

theorem test_witness_CarrelAccessFaults :
    shows (put (.ld .always 0 .w64 0 none) (nums [49145])) (.ld .always 0 .w64 0 none)
      (fun c => !c.x.holds 49145 8) ∧
    shows (put (.st .always 0 .w64 0) (nums [49152, 1])) (.st .always 0 .w64 0) (fun c => !c.x.holds 49152 8) ∧
    shows (put (.ld .always 0 .w64 0 none) (nums [4])) (.ld .always 0 .w64 0 none)
      (fun c => c.x.holds 4 8 && rawTail (c.x.fmt 0) 4 == 0) ∧
    shows (put (.st .always 0 .w64 0) (nums [4, 1])) (.st .always 0 .w64 0)
      (fun c => c.x.holds 4 8 && rawTail (c.x.fmt 0) 4 == 0) ∧
    shows (put (.ld .always 0 .w64 0 none) (nums [0]) { actor with fmts := Vector.replicate 16 10 })
      (.ld .always 0 .w64 0 none) (fun c => c.x.holds 0 8 && rawTail (c.x.fmt 0) 0 == 10) ∧
    shows (put (.st .always 0 .w64 0) (nums [20472, 1]) { actor with fmts := Vector.replicate 16 9 })
      (.st .always 0 .w64 0) (fun c => c.x.holds 20472 8 && rawTail (c.x.fmt 0) 20472 == 9) ∧
    shows (put (.pld .always 0 .w64 0 none) (nums [0])) (.pld .always 0 .w64 0 none)
      (fun c => (c.s.partner c.x).isNone) ∧
    shows (put (.pst .always 0 .w64 0) (nums [0, 1])) (.pst .always 0 .w64 0) (fun c => (c.s.partner c.x).isNone) :=
  ⟨shows_of_fits (by decide), shows_of_fits (by decide), shows_of_fits (by decide), shows_of_fits (by decide),
    shows_of_fits (by decide), shows_of_fits (by decide), shows_of_fits (by decide), shows_of_fits (by decide)⟩

/-- Whether a partner access at `a` lies in the partner's luggage, may be written, and the format there. -/
def partnerCase (a : Nat) (c : Ctx) : Option (Bool × Bool × Nat) :=
  (c.s.partner c.x).map fun q => (decide (a < q.2.lugCount * 24576), q.2.lugRo,
    rawTail (q.1.fmt (q.2.lugFirst + a / 24576)) (a % 24576))

/-- The partner clauses of CarrelAccessFaults: past the luggage, no luggage, read-only, Q4N codes and scales,
misaligned. -/
theorem test_witness_CarrelAccessFaults_partner :
    (∀ q ∈ [(other, 24576), (otherBare, 0)],
      shows (putMetOf q.1 (.pld .always 0 .w64 0 none) (nums [BitVec.ofNat 64 q.2])) (.pld .always 0 .w64 0 none)
          (fun c => (partnerCase q.2 c).map (·.1) == some false) ∧
      shows (putMetOf q.1 (.pst .always 0 .w64 0) (nums [BitVec.ofNat 64 q.2, 1])) (.pst .always 0 .w64 0)
          (fun c => (partnerCase q.2 c).map (·.1) == some false)) ∧
    shows (putMetOf otherRo (.pst .always 0 .w64 0) (nums [0, 1])) (.pst .always 0 .w64 0)
      (fun c => partnerCase 0 c == some (true, true, 0)) ∧
    (∀ q ∈ [((10 : BitVec 4), 24568, 10), (9, 20472, 9), (0, 24571, 0)],
      shows (putMetOf (otherFmt q.1) (.pld .always 0 .w64 0 none) (nums [BitVec.ofNat 64 q.2.1])) (.pld .always 0 .w64 0 none)
          (fun c => partnerCase q.2.1 c == some (true, false, q.2.2)) ∧
      shows (putMetOf (otherFmt q.1) (.pst .always 0 .w64 0) (nums [BitVec.ofNat 64 q.2.1, 1])) (.pst .always 0 .w64 0)
          (fun c => partnerCase q.2.1 c == some (true, false, q.2.2))) :=
  ⟨fun q h => ⟨forall_shows (f := fun q : Act × Nat => putMetOf q.1 (.pld .always 0 .w64 0 none) (nums [BitVec.ofNat 64 q.2]))
        (g := fun _ => .pld .always 0 .w64 0 none) (p := fun q c => (partnerCase q.2 c).map (·.1) == some false)
        (l := [(other, 24576), (otherBare, 0)]) (by decide) q h,
      forall_shows (f := fun q : Act × Nat => putMetOf q.1 (.pst .always 0 .w64 0) (nums [BitVec.ofNat 64 q.2, 1]))
        (g := fun _ => .pst .always 0 .w64 0) (p := fun q c => (partnerCase q.2 c).map (·.1) == some false)
        (l := [(other, 24576), (otherBare, 0)]) (by decide) q h⟩,
    shows_of_fits (by decide),
    fun q h => ⟨forall_shows (f := fun q : BitVec 4 × Nat × Nat => putMetOf (otherFmt q.1) (.pld .always 0 .w64 0 none) (nums [BitVec.ofNat 64 q.2.1]))
        (g := fun _ => .pld .always 0 .w64 0 none) (p := fun q c => partnerCase q.2.1 c == some (true, false, q.2.2))
        (l := [(10, 24568, 10), (9, 20472, 9), (0, 24571, 0)]) (by decide) q h,
      forall_shows (f := fun q : BitVec 4 × Nat × Nat => putMetOf (otherFmt q.1) (.pst .always 0 .w64 0) (nums [BitVec.ofNat 64 q.2.1, 1]))
        (g := fun _ => .pst .always 0 .w64 0) (p := fun q c => partnerCase q.2.1 c == some (true, false, q.2.2))
        (l := [(10, 24568, 10), (9, 20472, 9), (0, 24571, 0)]) (by decide) q h⟩⟩

/-- The last clauses of CarrelAccessFaults: the last byte of an own and of a partner access has a detected error. -/
theorem test_witness_CarrelAccessFaults_error :
    shows (put (.ld .always 0 .w64 0 none) (nums [49144]) { actor with bad := [.carrel actor.id 49151] })
      (.ld .always 0 .w64 0 none) (dirtyAt 49151 49144 8) ∧
    shows (putMetOf { other with bad := [.carrel ⟨0, 5⟩ 24575] } (.pld .always 0 .w64 0 none) (nums [24568]))
      (.pld .always 0 .w64 0 none)
      (fun c => partnerCase 24568 c == some (true, false, 0) && c.badAt true 0 24575 &&
        (upFrom 24568 7).all fun o => !c.badAt true 0 o) :=
  ⟨shows_of_fits (by decide), shows_of_fits (by decide)⟩

/-- The faults of AtomicSlots: past the banks held, in the codes of a Q4N bank, misaligned, a detected error. -/
theorem test_witness_AtomicSlots_faults :
    (∀ i ∈ [Instr.amo .always 0 .add 0 none, .cas .always 0 .w64 0 none],
      shows (put i (nums [49152, 1, 2])) i (fun c => !c.x.holds 49152 8)) ∧
    (∀ i ∈ [Instr.amo .always 0 .add 0 none, .cas .always 0 .w64 0 none],
      shows (put i (nums [20472, 1, 2]) { actor with fmts := Vector.replicate 16 9 }) i
        (fun c => c.x.holds 20472 8 && rawTail (c.x.fmt 0) 20472 != 0)) ∧
    (∀ i ∈ [Instr.amo .always 0 .add 0 none, .cas .always 0 .w64 0 none],
      shows (put i (nums [4, 1, 2])) i (fun c => c.x.holds 4 8 && rawTail (c.x.fmt 0) 4 == 0)) ∧
    (∀ i ∈ [Instr.amo .always 0 .add 0 none, .cas .always 0 .w64 0 none],
      shows (put i (nums [8, 1, 2]) { actor with bad := [.carrel actor.id 9] }) i (dirtyAt 9 8 8)) :=
  ⟨forall_shows (by decide), forall_shows (by decide), forall_shows (by decide), forall_shows (by decide)⟩

theorem test_witness_AtomicSlots :
    shows (put (.amo .always 0 .add 0 none) (nums [49144, 1])) (.amo .always 0 .add 0 none)
      (fun c => c.x.holds 49144 8 && rawTail (c.x.fmt 1) 24568 == 0 && clean c 49144 8) ∧
    shows (put (.amo .always 0 .add 0 none) (nums [20480, 1]) { actor with fmts := Vector.replicate 16 9 })
      (.amo .always 0 .add 0 none)
      (fun c => c.x.holds 20480 8 && rawTail (c.x.fmt 0) 20480 == 0 && clean c 20480 8) ∧
    shows (put (.cas .always 0 .w64 0 none) (nums [49144, 1, 2])) (.cas .always 0 .w64 0 none)
      (fun c => c.x.holds 49144 8 && rawTail (c.x.fmt 1) 24568 == 0 && clean c 49144 8) :=
  ⟨shows_of_fits (by decide), shows_of_fits (by decide), shows_of_fits (by decide)⟩

/-- The context of a load with ID 5 in slot 1, after a store with ID 3 in slot 0 that wrote byte 8. -/
def loadCtx (data : List (Nat × Byte)) : Ctx :=
  let f : Flight := ⟨0, 0, [], [encode (.st .always 3 .i8 0), encode (.ld .always 5 .i8 0 none)],
    [⟨[], .done, [], .store false data⟩, ⟨[(.l, 0, .scalar 8)], .notYet, [], .none⟩], 0⟩
  ⟨State.reset, actor, f, 1, .ld .always 5 .i8 0 none, [.scalar 8], none, none⟩

/-- Both clauses of LoadsSeeLowerStores: a store of another byte, and a store of this byte. -/
theorem test_witness_LoadsSeeLowerStores :
    (((loadCtx [(9, 1)]).fl.slot 0).eff = .store false [(9, 1)] ∧ (8, (1 : Byte)) ∉ [(9, (1 : Byte))]) ∧
    (loadCtx [(8, 1)]).fl.instr 0 = some (.st .always 3 .i8 0) ∧ lsidOf (.st .always 3 .i8 0) = some 3 ∧
    0 < (loadCtx [(8, 1)]).fl.slots.length ∧ ((loadCtx [(8, 1)]).fl.slot 0).eff = .store false [(8, 1)] ∧
    [(8, (1 : Byte))].Pairwise (fun p q => p.1 ≠ q.1) ∧ (8, (1 : Byte)) ∈ [(8, (1 : Byte))] ∧
    (loadCtx [(8, 1)]).byte false 5 8 = 1 ∧ (loadCtx [(9, 1)]).byte false 5 8 = 0 := by decide

theorem test_witness_CopyCommandSlots :
    allSelected [.cin .always 63 none none, .cout .always 0 (some 7) none, .cgath .always 1 none none,
      .cscat .always 2 none none, .cbank .always 3 none none, .cfill .always 4 none none] := allSelected_of (by decide)

/-- A mask of tags that no CBANK in flight and no unreported reserved code carries. -/
def noStrict (c : Ctx) : Bool :=
  (c.x.copies.all fun p => p.kind != .cbank || !(c.word 0).getLsbD p.tag) &&
    c.x.strict.all fun h => !(c.word 0).getLsbD h.tag

theorem test_witness_TagAndFormatSlots :
    (∀ i ∈ [Instr.wtany .always 0 3, .wtall .always 0 3, .tagff .always true none none, .wcnt .always 0 3,
        .tagclr .always none none], shows (put i (nums [5]) { actor with tags := 4 }) i noStrict) ∧
    (∀ i ∈ [Instr.wtany .always 0 3, .wtall .always 0 3, .tagff .always true none none],
      shows (put i (nums [5]) { actor with strict := [⟨1, 16, 7⟩, ⟨2, 24, 9⟩] }) i fun c =>
        (c.x.copies.all fun p => p.kind != .cbank || !(c.word 0).getLsbD p.tag) &&
          c.x.strict == [⟨1, 16, 7⟩] ++ ⟨2, 24, 9⟩ :: [] && !(c.word 0).getLsbD 1 && (c.word 0).getLsbD 2) ∧
    shows (put (.bfmt .always 1 10 none) []) (.bfmt .always 1 10 none) (fun c => c.x.reaches 1) ∧
    shows (put (.bfmt .always 15 11 none) []) (.bfmt .always 15 11 none) (fun _ => true) ∧
    shows (put (.bfmt .always 2 0 none) []) (.bfmt .always 2 0 none) (fun c => !c.x.reaches 2) :=
  ⟨forall_shows (by decide), forall_shows (by decide),
    shows_of_fits (by decide), shows_of_fits (by decide), shows_of_fits (by decide)⟩

/-! ### Witnesses: ownership, activities, closures -/

/-- Stage-2 tables of the physical function that map its first 2 MiB to HBM: a level-1 entry at the root of its table and
a level-2 leaf. -/
def tableCells : List Host.Cell :=
  [(0x10000002, 0x01), (0x10000003, 0x10), (0x10000007, 0x80), (0x10010003, 0x20), (0x10010007, 0xC0)]

/-- Whether a PALLOC of HBM pages finds its register empty, pages within the budgets, and pages that are free. -/
def pallocCase (c : Ctx) (k : Nat) : Bool × Bool × Bool × Bool :=
  let n := (c.word 0).toNat
  let r := ({ c.s with cur := none } : State).reserved c.x.id.fn
  let base := r.chooseBase c.x.id.fn n
  let vas := (r.fn c.x.id.fn).stage1.map (·.va)
  let more := tablePages (vas ++ upFrom base n) - tablePages vas
  (c.x.reg k == .empty && !c.x.takenRegs.contains k, decide (0 < n) && decide (n < 2 ^ 24),
    r.pagesFit c.x.id.fn c.x.region n, decide (n + more ≤ (r.freePages c.x.id.fn false).length))

/-- The four results of PALLOC and its fault. -/
theorem test_witness_PallocSlot :
    shows { put (.palloc .always false 7 none) (nums [1]) with mem := tableCells } (.palloc .always false 7 none)
      (fun c => pallocCase c 7 == (true, true, true, true)) ∧
    shows (put (.palloc .always false 7 none) (nums [1])) (.palloc .always false 7 none)
      (fun c => pallocCase c 7 == (true, true, true, false)) ∧
    shows ((put (.palloc .always false 7 none) (nums [1])).modFn 0 fun f => { f with pageu := 0xFFFFFFFF })
      (.palloc .always false 7 none) (fun c => let p := pallocCase c 7; p.1 && p.2.1 && !p.2.2.1) ∧
    shows (put (.palloc .always false 7 none) (nums [2 ^ 24])) (.palloc .always false 7 none)
      (fun c => c.x.reg 7 == .empty && !c.x.takenRegs.contains 7 && decide (2 ^ 24 ≤ (c.word 0).toNat)) ∧
    shows (put (.palloc .always false 7 none) (nums [1]) { actor with l := Vector.replicate 8 (.loan 1 1 false) })
      (.palloc .always false 7 none) (fun c => c.x.reg 7 != .empty) :=
  ⟨shows_of_fits (by decide), shows_of_fits (by decide), shows_of_fits (by decide), shows_of_fits (by decide),
    shows_of_fits (by decide)⟩

/-- An activity that holds loans 0 to 5, a sealed register 6 (shelf 9) and the open shelf 4 in slot 0. -/
def keeper : Act := { actor with
  l := (((Vector.replicate 8 (.loan 16 4 false)).set 6 (.sealed 64 2 false 9 0)).set 7 .empty)
  sh := (Vector.replicate 8 none).set 0 (some 4) }

/-- `keeper` whose register 6 holds shelf 4 of function 1, beside its own open shelf 4. -/
def keeperOfTwo : Act := { keeper with l := keeper.l.set 6 (.sealed 64 2 false 4 1) }

/-- The shelves 4, 5 (being unsealed) and 9 of the physical function. -/
def withShelves (s : State) : State :=
  s.modFn 0 fun f => { f with shelves := [⟨4, 128, 2, false, none, (0, 0), false, false⟩,
    ⟨5, 160, 2, false, none, (0, 0), true, false⟩, ⟨9, 64, 2, false, some fetchAid, (0, 0), false, false⟩] }

/-- Whether a register is open for a tail of LSPLIT. -/
def openReg (c : Ctx) (r : Nat) : Bool :=
  c.x.reg r == .empty && !c.x.takenRegs.contains r && (upFrom 0 c.fl.words.length).all fun j =>
    match c.fl.instr j with | some (.palloc _ _ kk _) => kk.toNat != r | _ => true

/-- Whether a slot of the open-shelf table is free. -/
def openSlotFree (c : Ctx) (n : Nat) : Bool := (c.x.sh.toList.getD n none).isNone && !c.x.takenSlots.contains n

theorem test_witness_OwnershipSlots :
    shows (put (.pfree .always 0 none) [] keeper) (.pfree .always 0 none)
      (fun c => c.x.drained 0 && c.x.reg 0 == .loan 16 4 false) ∧
    shows (put (.lsplit .always 0 none) (nums [3]) keeper) (.lsplit .always 0 none)
      (fun c => lsplitTurn c && c.x.reg 0 == .loan 16 4 false && decide (0 < (c.word 0).toNat ∧ (c.word 0).toNat < 4) &&
        openReg c 7 && (upFrom 0 7).all fun r => !openReg c r) ∧
    shows (putMet (.lgive .always 6 none) [] keeper) (.lgive .always 6 none)
      (fun c => c.x.drained 6 && (c.s.partner c.x).isSome && c.x.reg 6 != .empty) ∧
    shows (put (.seal .always 5 none) [] keeper) (.seal .always 5 none)
      (fun c => c.x.drained 5 && c.x.reg 5 == .loan 16 4 false) ∧
    shows (withShelves (put (.unseal .always 0 6 3) [] keeper)) (.unseal .always 0 6 3)
      (fun c => !c.x.inMeeting && c.x.reg 6 == .sealed 64 2 false 9 0 && !c.x.sh.toList.contains (some 9)) ∧
    shows (withShelves (put (.unseal .always 0 6 3) [] keeperOfTwo)) (.unseal .always 0 6 3)
      (fun c => !c.x.inMeeting && c.x.reg 6 == .sealed 64 2 false 4 1 && c.x.sh.toList.contains (some 4)) ∧
    shows (withShelves (put (.shopen .always none none) (nums [77]) keeper)) (.shopen .always none none)
      (fun c => ((c.s.fn c.x.id.fn).shelf (c.word 0).toNat).isNone) ∧
    shows (withShelves (put (.shopen .always none none) (nums [5]) keeper)) (.shopen .always none none)
      (fun c => ((c.s.fn c.x.id.fn).shelf (c.word 0).toNat).any (·.unsealing)) ∧
    shows (withShelves (put (.shopen .always none none) (nums [9])
        { keeper with sh := Vector.replicate 8 (some 4) })) (.shopen .always none none)
      (fun c => ((c.s.fn c.x.id.fn).shelf (c.word 0).toNat).any (fun sf => !sf.unsealing) &&
        (upFrom 0 8).all fun n => !openSlotFree c n) ∧
    shows (withShelves (put (.shopen .always none none) (nums [9]) keeper)) (.shopen .always none none)
      (fun c => ((c.s.fn c.x.id.fn).shelf (c.word 0).toNat).any (fun sf => !sf.unsealing) &&
        openSlotFree c 1 && !openSlotFree c 0) ∧
    shows (withShelves (put (.shclose .always none none) (nums [0]) keeper)) (.shclose .always none none)
      (fun c => shelfDrained c && c.x.sh.toList.getD (c.word 0).toNat none == some 4) ∧
    shows (withShelves (put (.shclose .always none none) (nums [8]) keeper)) (.shclose .always none none)
      (fun c => shelfDrained c && decide (8 ≤ (c.word 0).toNat)) ∧
    shows (put (.lbase .always .tier false 6 none) [] keeper) (.lbase .always .tier false 6 none)
      (fun c => (c.x.reg 6).info == some (64, 2, false)) ∧
    shows (withShelves (put (.lbase .always .base true 0 none) [] keeper)) (.lbase .always .base true 0 none)
      (fun c => c.x.sh.toList.getD 0 none == some 4 &&
        ((c.s.fn c.x.id.fn).shelf 4).any fun sf => (sf.base, sf.pages, sf.cxl) == (128, 2, false)) :=
  ⟨shows_of_fits (by decide), shows_of_fits (by decide), shows_of_fits (by decide), shows_of_fits (by decide),
    shows_of_fits (by decide), shows_of_fits (by decide), shows_of_fits (by decide), shows_of_fits (by decide),
    shows_of_fits (by decide), shows_of_fits (by decide), shows_of_fits (by decide), shows_of_fits (by decide),
    shows_of_fits (by decide), shows_of_fits (by decide)⟩

theorem test_witness_OwnershipFaults :
    (∀ n ∈ [(0 : Word), 4, 5], shows (put (.lsplit .always 0 none) (nums [n]) keeper) (.lsplit .always 0 none)
      fun c => lsplitTurn c && c.x.reg 0 == .loan 16 4 false && decide ((c.word 0).toNat = 0 ∨ 4 ≤ (c.word 0).toNat)) ∧
    shows (put (.lsplit .always 7 none) (nums [1]) keeper) (.lsplit .always 7 none)
      (fun c => lsplitTurn c && c.x.reg 7 == .empty) ∧
    shows (put (.lsplit .always 0 none) (nums [1]) { keeper with l := Vector.replicate 8 (.loan 16 4 false) })
      (.lsplit .always 0 none) (fun c => lsplitTurn c && c.x.reg 0 == .loan 16 4 false &&
        (upFrom 0 8).all fun r => c.x.reg r != .empty) ∧
    shows (put (.lbase .always .len false 7 none) [] keeper) (.lbase .always .len false 7 none)
      (fun c => c.x.reg 7 == .empty) ∧
    shows (put (.lbase .always .len true 1 none) [] keeper) (.lbase .always .len true 1 none)
      (fun c => c.x.sh.toList.getD 1 none == none) ∧
    shows (put (.pfree .always 6 none) [] keeper) (.pfree .always 6 none)
      (fun c => c.x.drained 6 && c.x.reg 6 == .sealed 64 2 false 9 0) ∧
    shows (put (.seal .always 7 none) [] keeper) (.seal .always 7 none)
      (fun c => c.x.drained 7 && c.x.reg 7 == .empty) ∧
    shows (put (.lgive .always 0 none) [] keeper) (.lgive .always 0 none)
      (fun c => c.x.drained 0 && (c.s.partner c.x).isNone) ∧
    shows (putMet (.lgive .always 7 none) [] keeper) (.lgive .always 7 none)
      (fun c => c.x.drained 7 && (c.s.partner c.x).isSome && c.x.reg 7 == .empty) ∧
    shows (putMet (.unseal .always 0 6 3) [] keeper) (.unseal .always 0 6 3) (fun c => c.x.inMeeting) ∧
    shows (put (.unseal .always 0 0 3) [] keeper) (.unseal .always 0 0 3)
      (fun c => !c.x.inMeeting && c.x.reg 0 == .loan 16 4 false) ∧
    shows (put (.unseal .always 0 6 3) [] { keeper with sh := Vector.replicate 8 (some 9) }) (.unseal .always 0 6 3)
      (fun c => !c.x.inMeeting && c.x.reg 6 == .sealed 64 2 false 9 0 && c.x.sh.toList.contains (some 9)) :=
  ⟨forall_shows (by decide), shows_of_fits (by decide), shows_of_fits (by decide),
    shows_of_fits (by decide), shows_of_fits (by decide),
    shows_of_fits (by decide), shows_of_fits (by decide), shows_of_fits (by decide), shows_of_fits (by decide), shows_of_fits (by decide),
    shows_of_fits (by decide), shows_of_fits (by decide)⟩

/-- An activity of virtual function 1. -/
def guest : Act := { actor with id := ⟨1, 5⟩ }

theorem test_witness_ActivitySlots :
    shows (put (.spawn .always true true 1 2 none) (nums [65536, 4096])) (.spawn .always true true 1 2 none)
      (imageQuiet true true) ∧
    shows (put (.retire .always 0) []) (.retire .always 0) (fun c => !c.x.inMeeting) ∧
    allSelected [.yield .always 0 3, .sleep .always 0 3, .split .always 0 3] ∧
    shows (put (.gang .always 0 .acre 3) []) (.gang .always 0 .acre 3)
      (fun c => !c.x.inMeeting && c.x.stack.isEmpty) ∧
    shows (put (.meet .always 0 3) (nums [7, 0x11, 100])) (.meet .always 0 3)
      (fun c => meetQuiet c && !c.x.inMeeting && c.x.lugOk (c.word 1)) ∧
    shows (put (.gather .always 0 .add 3) (nums [7, 2, 100])) (.gather .always 0 .add 3)
      (fun c => !c.x.inMeeting && !c.x.bad.contains (.register c.x.id .s 13)) ∧
    shows (putMet (.part .always 0 3) []) (.part .always 0 3) (fun c => partQuiet c && c.x.inMeeting) ∧
    shows (put (.hcall .always 0 3) (nums [7]) guest) (.hcall .always 0 3)
      (fun c => !c.x.inMeeting && c.x.id.fn != 0) :=
  ⟨shows_of_fits (by decide), shows_of_fits (by decide), allSelected_of (by decide), shows_of_fits (by decide),
    shows_of_fits (by decide), shows_of_fits (by decide), shows_of_fits (by decide), shows_of_fits (by decide)⟩

/-- The luggage descriptors that MEET refuses: too many banks, a reserved bit, and banks that the activity lacks. -/
theorem test_witness_ActivityFaults :
    (∀ i ∈ [Instr.retire .always 0, .gang .always 0 .quad 3, .gather .always 0 .add 3, .hcall .always 0 3],
      shows (putMet i (nums [7, 2, 100])) i fun c => c.x.inMeeting) ∧
    shows (put (.gang .always 0 .quad 3) [] { actor with stack := [⟨true, 4096, Handle.none, 0, none⟩] })
      (.gang .always 0 .quad 3) (fun c => !c.x.inMeeting && !c.x.stack.isEmpty) ∧
    shows (putMet (.meet .always 0 3) (nums [7, 0, 100])) (.meet .always 0 3)
      (fun c => meetQuiet c && c.x.inMeeting) ∧
    (∀ d ∈ [(0x50 : Word), 0x100, 0x12], shows (put (.meet .always 0 3) (nums [7, d, 100])) (.meet .always 0 3)
      fun c => meetQuiet c && !c.x.inMeeting && (decide (4 < (c.word 1).toNat / 16 % 8) ||
        decide (2 ^ 8 ≤ (c.word 1).toNat) || decide (c.x.banks < (c.word 1).toNat % 16 + (c.word 1).toNat / 16 % 8))) ∧
    shows (put (.gather .always 0 .add 3) (nums [7, 2, 100]) { actor with bad := [.register actor.id .s 13] })
      (.gather .always 0 .add 3) (fun c => !c.x.inMeeting && c.x.bad.contains (.register c.x.id .s 13)) ∧
    shows (put (.part .always 0 3) []) (.part .always 0 3) (fun c => partQuiet c && !c.x.inMeeting) ∧
    shows (put (.hcall .always 0 3) (nums [7])) (.hcall .always 0 3) (fun c => !c.x.inMeeting && c.x.id.fn == 0) :=
  ⟨forall_shows (by decide),
    shows_of_fits (by decide), shows_of_fits (by decide),
    forall_shows (by decide),
    shows_of_fits (by decide), shows_of_fits (by decide), shows_of_fits (by decide)⟩

/-- The partner whose snapshot holds a handle in C7. -/
def otherHolds (h : Handle) : Act :=
  let m := meetingWith fetchAid
  { other with meet := some { m with snap := { m.snap with c := m.snap.c.set 7 h } } }

/-- The partner whose register 7 held a detected error when the snapshot was taken. -/
def otherBad (cls : Cls) : Act :=
  let m := meetingWith fetchAid
  { other with meet := some { m with snap := { m.snap with bad := [(cls, 7)] } } }

theorem test_witness_XrdSlot :
    shows (put (.xrd .always .s none none) (nums [31])) (.xrd .always .s none none)
      (fun c => (c.s.partner c.x).isNone) ∧
    (∀ cls ∈ [Cls.m, .c], shows (putMet (.xrd .always cls none none) (nums [8])) (.xrd .always cls none none)
      fun c => (c.s.partner c.x).isSome && decide (7 < (c.word 0).toNat % 32)) ∧
    (∀ cls ∈ [Cls.s, .v, .m, .c], shows (putMet (.xrd .always cls none none) (nums [7])) (.xrd .always cls none none)
      fun c => match c.s.partner c.x with
        | some (y, m) => !m.snap.bad.contains (cls, 7) && (m.snap.c.toList.getD 7 Handle.none).kind != .spilled &&
          !c.s.stale y (m.snap.c.toList.getD 7 Handle.none)
        | none => false) ∧
    (∀ cls ∈ [Cls.s, .v, .m, .c], shows (putMetOf (otherBad cls) (.xrd .always cls none none) (nums [7]))
        (.xrd .always cls none none)
      fun c => (c.s.partner c.x).any fun q => q.2.snap.bad.contains (cls, 7)) ∧
    shows (putMetOf (otherHolds ⟨.store, 3, 5, 64⟩) (.xrd .always .c none none) (nums [7])) (.xrd .always .c none none)
      (fun c => (c.s.partner c.x).any fun q => c.s.stale q.1 (q.2.snap.c.toList.getD 7 Handle.none)) ∧
    shows (putMetOf (otherHolds ⟨.spilled, 0, 0, 64⟩) (.xrd .always .c none none) (nums [7])) (.xrd .always .c none none)
      (fun c => (c.s.partner c.x).any fun q => (q.2.snap.c.toList.getD 7 Handle.none).kind == .spilled &&
        (({ c.s with cur := none } : State).reload q.1.id 0).isNone) ∧
    shows (putMetOf { otherHolds ⟨.spilled, 0, 0, 64⟩ with frameEnv := [⟨5, 1, 1, [0], [7], 0, none, []⟩], place := some ⟨0, 1⟩ }
        (.xrd .always .c none none) (nums [7])) (.xrd .always .c none none)
      (fun c => (c.s.partner c.x).any fun q => (q.2.snap.c.toList.getD 7 Handle.none).kind == .spilled &&
        ((({ c.s with cur := none } : State).reload q.1.id 0).bind fun t => (t.act q.1.id).bind (·.meet)).isSome) :=
  ⟨shows_of_fits (by decide),
    forall_shows (by decide),
    forall_shows (by decide),
    forall_shows (by decide),
    shows_of_fits (by decide), shows_of_fits (by decide), shows_of_fits (by decide)⟩

theorem test_witness_CenvSlot :
    shows (put (.cenv .always none) (nums [32, 4])) (.cenv .always none) (fun c => (c.word 0).toNat % 64 != 0) ∧
    shows (put (.cenv .always none) (nums [64, 31])) (.cenv .always none)
      (fun c => (c.word 0).toNat % 64 == 0 && decide (31 ≤ (c.word 1).toNat)) ∧
    shows (put (.cenv .always none) (nums [64, 0])) (.cenv .always none)
      (fun c => (c.word 0).toNat % 64 == 0 && (c.word 1).toNat == 0) ∧
    shows (put (.cenv .always none) (nums [64, 30])) (.cenv .always none)
      (fun c => (c.word 0).toNat % 64 == 0 && (c.word 1).toNat == 30 && c.x.place == some ⟨0, 0⟩ &&
        (c.s.core 0).room (envRecs 30) == some 0) :=
  ⟨shows_of_fits (by decide), shows_of_fits (by decide), shows_of_fits (by decide), shows_of_fits (by decide)⟩

/-- The handle of an environment of 8 words that this execution has made. -/
def made : Handle := ⟨.store, 0, 0, 64⟩

/-- A CPUT in slot 1 behind a CENV in slot 0 that has made `made`. -/
def putEnv (i : Instr) (toks : List Token) : State :=
  (put i toks).modAct fetchAid fun y => { y with flight := y.flight.map fun f =>
    { f with slots := f.slots.set 0 ⟨[], .done, [], .cenv made 8⟩ } }

theorem test_witness_ClosureSlots :
    (∀ q ∈ [(PutMode.val, (7 : BitVec 5)), (.ref, 7), (.vec, 0)],
      shows (putEnv (.cput .always q.1 q.2 none) [.handle made, .scalar 16]) (.cput .always q.1 q.2 none)
        fun c => c.fl.ownEnv made == some 8 && (upFrom 0 8).all (fun j => !c.fl.putDone made j) &&
          decide ((c.word 1).toNat % 2 ^ 19 < c.x.banks * 24576)) ∧
    shows (putEnv (.cput .always .val 8 none) [.handle made, .scalar 16]) (.cput .always .val 8 none)
      (fun c => c.fl.ownEnv made == some 8) ∧
    shows (putEnv (.cput .always .vec 1 none) [.scalar 5, .scalar 16]) (.cput .always .vec 1 none)
      (fun c => c.tok 0 == .scalar 5) ∧
    shows (putEnv (.cput .always .ref 7 none) [.handle made, .scalar 49152]) (.cput .always .ref 7 none)
      (fun c => c.fl.ownEnv made == some 8 && !c.fl.putDone made 7 &&
        decide (c.x.banks * 24576 ≤ (c.word 1).toNat % 2 ^ 19)) ∧
    allSelected [.cdrop 3, .apply .always 0 1, .vapply .always 0 3 3] :=
  ⟨forall_shows (by decide), shows_of_fits (by decide), shows_of_fits (by decide), shows_of_fits (by decide),
    allSelected_of (by decide)⟩

/-- `put` on core 0, whose environment store holds an environment of 16 words: word 0 plain, word 1 a reference to offset
8 of the current frame, words 2 to 9 a vector, word 10 a reference to a frame above the stack; it is the current one. -/
def putInEnv (i : Instr) (toks : List Token) : State :=
  let e : Env := ⟨0, 1, 16, [0, 1, 2, 3, 3, 3, 3, 3, 3, 3, 1, 0, 0, 0, 0, 0],
    [5, 8, 1, 2, 3, 4, 5, 6, 7, 8, 0x20000000000, 0, 0, 0, 0, 0], 0, none, []⟩
  { put i toks { actor with env := made } with cores := [{ Core.reset 0 with envs := [(0, e)] }] }

/-- The kind of a word of the current environment, and whether the frame that it refers to is live. -/
def wordCase (c : Ctx) (w : Nat) : Option (Nat × Bool) :=
  (c.s.envOf c.x c.x.env).bind fun e =>
    let v := (e.vals.getD w 0).toNat
    let d := v / 2 ^ 41 % 2 ^ 7
    if w < e.words ∧ e.bad = [] then
      some (e.kinds.getD w 0, c.x.id.serial == e.owner && decide (d ≤ c.x.stack.length) &&
        c.x.frameGen d == v / 2 ^ 48 % 2 ^ 16)
    else none

/-- The same with detected errors in some records of that environment. -/
def putInBadEnv (bad : List Nat) (i : Instr) (toks : List Token) : State :=
  (putInEnv i toks).modCore 0 fun k => { k with envs := k.envs.map fun e => (e.1, { e.2 with bad := bad }) }

theorem test_witness_EnvironmentWordSlots :
    shows (putInEnv (.envrd .always 0 .i8 0 none) []) (.envrd .always 0 .i8 0 none)
      (fun c => (wordCase c 0).map (·.1) == some 0) ∧
    shows (putInEnv (.envrd .always 0 .w64 2 none) []) (.envrd .always 0 .w64 2 none)
      (fun c => (wordCase c 2).map (·.1) == some 2) ∧
    shows (putInEnv (.envrd .always 0 .n32 2 none) []) (.envrd .always 0 .n32 2 none)
      (fun c => (wordCase c 2).map (·.1) == some 2) ∧
    shows (putInEnv (.envrd .always 0 .w64 10 none) []) (.envrd .always 0 .w64 10 none)
      (fun c => wordCase c 10 == some (1, false)) ∧
    shows (putInEnv (.envrd .always 0 .w64 1 none) []) (.envrd .always 0 .w64 1 none)
      (fun c => wordCase c 1 == some (1, true) && c.x.holds 8 8 && rawTail (c.x.fmt 0) 8 == 0 && clean c 8 8) ∧
    shows (putInEnv (.envwr .always 0 .w64 9) (nums [3])) (.envwr .always 0 .w64 9)
      (fun c => (wordCase c 9).map (·.1) == some 3) ∧
    shows (putInEnv (.envwr .always 0 .w64 10) (nums [3])) (.envwr .always 0 .w64 10)
      (fun c => wordCase c 10 == some (1, false)) ∧
    shows (putInEnv (.envwr .always 0 .w64 1) (nums [3])) (.envwr .always 0 .w64 1)
      (fun c => wordCase c 1 == some (1, true) && c.x.holds 8 8 && rawTail (c.x.fmt 0) 8 == 0) ∧
    (∀ i ∈ [Instr.envrd .always 0 .w64 0 none, .envwr .always 0 .w64 0],
      shows (put i (nums [3]) { actor with env := made }) i fun c => c.s.stale c.x c.x.env) ∧
    (∀ i ∈ [Instr.envrd .always 0 .w64 16 none, .envwr .always 0 .w64 16],
      shows (putInEnv i (nums [3])) i fun c => !c.s.stale c.x c.x.env && (c.s.envOf c.x c.x.env).all (·.words ≤ 16)) ∧
    (∀ i ∈ [Instr.envrd .always 0 .w64 0 none, .envwr .always 0 .w64 0],
      shows (putInBadEnv [0] i (nums [3])) i fun c =>
        (c.s.envOf c.x c.x.env).any fun e => decide (0 < e.words) && e.bad.contains 0) ∧
    shows (putInBadEnv [1] (.envrd .always 0 .w64 2 none) []) (.envrd .always 0 .w64 2 none) (fun c =>
      (c.s.envOf c.x c.x.env).any fun e => e.kinds.getD 2 0 == 2 && e.bad == [1] && decide (2 + 4 = 6 ∧ 6 < e.words)) :=
  ⟨shows_of_fits (by decide), shows_of_fits (by decide), shows_of_fits (by decide), shows_of_fits (by decide),
    shows_of_fits (by decide), shows_of_fits (by decide), shows_of_fits (by decide), shows_of_fits (by decide),
    forall_shows (by decide), forall_shows (by decide), forall_shows (by decide), shows_of_fits (by decide)⟩

/-- The carrel faults of EnvironmentWordSlots, word 1 referring to offset 8: no banks, a Q4N bank, a
reference to offset 12 read as 8 bytes, a detected error. -/
theorem test_witness_EnvironmentWordSlots_carrel :
    (∀ i ∈ [Instr.envrd .always 0 .w64 1 none, .envwr .always 0 .w64 1],
      shows ((putInEnv i (nums [3])).modAct fetchAid fun y => { y with banks := 0 }) i
        fun c => wordCase c 1 == some (1, true) && !c.x.holds 8 8) ∧
    (∀ i ∈ [Instr.envrd .always 0 .w64 1 none, .envwr .always 0 .w64 1],
      shows ((putInEnv i (nums [3])).modAct fetchAid fun y => { y with fmts := Vector.replicate 16 9 }) i
        fun c => wordCase c 1 == some (1, true) && c.x.holds 8 8 && rawTail (c.x.fmt 0) 8 == 9) ∧
    (∀ i ∈ [Instr.envrd .always 0 .w64 11 none, .envwr .always 0 .w64 11],
      shows ((putInEnv i (nums [3])).modCore 0 fun k => { k with envs := k.envs.map fun e =>
          (e.1, { e.2 with kinds := e.2.kinds.set 11 1, vals := e.2.vals.set 11 12 }) }) i
        fun c => wordCase c 11 == some (1, true) && c.x.holds 12 8 && rawTail (c.x.fmt 0) 12 == 0) ∧
    shows ((putInEnv (.envrd .always 0 .w64 1 none) []).modAct fetchAid fun y => { y with bad := [.carrel y.id 15] })
      (.envrd .always 0 .w64 1 none) (fun c => wordCase c 1 == some (1, true) && dirtyAt 15 8 8 c) :=
  ⟨forall_shows (by decide), forall_shows (by decide), forall_shows (by decide), shows_of_fits (by decide)⟩

/-! ### Witnesses: matrix commands, the system, vectors -/

/-- A quadrant gang of one listed member whose tile 2 is live with one FP32 element and whose commands are `cmds`. -/
def gangWith (cmds : List MCmd) : Gang :=
  ⟨0, 0, .quad, [0], some 0, .sep, [⟨none, false, []⟩], [⟨none, false, []⟩],
    [(List.replicate 8 ⟨.none, false, []⟩).set 2 ⟨.fp32, true, [(17, 0x3F800000)]⟩], cmds, 0⟩

/-- A failed MLDACC of tile 2. -/
def failedLoad : MCmd := ⟨0, .mldacc false 2, 4096, 3, [16], [⟨[]⟩], [], false, [], false, false, 0, false, true, [], false⟩

/-- A state whose activity is member 0 of the gang `g`. -/
def inGang (g : Gang) (s : State) : State :=
  { s with gangs := [g], acts := s.acts.map fun y => { y with gang := some (0, 0) } }

/-- Whether a matrix command depends on no failed one. -/
def independent (k : MKind) (c : Ctx) : Bool :=
  codesKnown k c && match c.dependent (c.newCmd k) with | .ok _ => (c.s.gangOf c.x).isSome | .error _ => false

/-- A command that has failed and holds every resource of a quadrant gang: an MFUSE. -/
def failedFuse : MCmd := { failedLoad with kind := .mfuse .full, quads := [] }

/-- Whether a matrix command depends on a failed one. -/
def dependsOnFailed (k : MKind) (c : Ctx) : Bool :=
  codesKnown k c && match c.dependent (c.newCmd k) with | .ok _ => false | .error _ => true

theorem test_witness_MatrixSlots_dependent :
    ∀ q ∈ [(Instr.mfuse .always .full none, MKind.mfuse .full), (.mwswap .always none, .mwswap),
        (.mrel .always 4 none, .mrel 4), (.mwload .always true none, .mwload true),
        (.mstream .always true false 7 none, .mstream true false 7), (.mstore .always 2 none, .mstore 2),
        (.mldacc .always true 3 none, .mldacc true 3)],
      shows (inGang (gangWith [failedFuse]) (put q.1 (nums [64]))) q.1 (dependsOnFailed q.2) :=
  forall_shows (by decide)

theorem test_witness_MatrixSlots :
    (∀ q ∈ [(Instr.mfuse .always .full none, MKind.mfuse .full), (.mwswap .always none, .mwswap),
        (.mrel .always 4 none, .mrel 4), (.mwload .always true none, .mwload true),
        (.mstream .always true false 7 none, .mstream true false 7), (.mstore .always 2 none, .mstore 2),
        (.mldacc .always true 3 none, .mldacc true 3)],
      shows (inGang (gangWith []) (put q.1 (nums [64]))) q.1 (independent q.2)) ∧
    shows (inGang (gangWith []) (put (.mwait .always none none) (nums [0xFF]))) (.mwait .always none none)
      (fun c => tilesQuiet c && (c.s.gangOf c.x).any fun g => (g.failedOn fun t => (c.word 0).getLsbD t).isNone) ∧
    shows (inGang (gangWith [failedLoad]) (put (.mwait .always none none) (nums [4]))) (.mwait .always none none)
      (fun c => tilesQuiet c && (c.s.gangOf c.x).any fun g =>
        (g.failedOn fun t => (c.word 0).getLsbD t) == some failedLoad) :=
  ⟨forall_shows (by decide), shows_of_fits (by decide), shows_of_fits (by decide)⟩

theorem test_witness_SpecialRegisterSlots :
    (∀ n ∈ [(0x000 : BitVec 13), 0x001, 0x002, 0x003, 0x004, 0x005, 0x006, 0x007, 0x008, 0x010, 0x011, 0x012, 0x013, 0x014,
        0x020, 0x021, 0x022, 0x030, 0x031, 0x032, 0x033, 0x040, 0x041, 0x042, 0x043, 0x100, 0x101, 0x102, 0x103, 0x104],
      shows (put (.srd .always n none) []) (.srd .always n none) fun c => c.x.id.fn == 0 &&
        !c.x.bad.contains (.context c.x.id) && wellFormed (.srd .always n none)) ∧
    (∀ n ∈ [(0x007 : BitVec 13), 0x104], shows (put (.srd .always n none) [] { actor with bad := [.context actor.id] })
      (.srd .always n none) fun c => c.x.id.fn == 0 && c.x.bad.contains (.context c.x.id)) ∧
    (∀ n ∈ [(0x100 : BitVec 13), 0x104], shows (put (.srd .always n none) [] guest) (.srd .always n none)
      fun c => c.x.id.fn != 0) ∧
    (∀ n ∈ [(0x022 : BitVec 13), 0x030, 0x033, 0x100, 0x101, 0x102, 0x103],
      shows (put (.swr .always n none) (nums [1])) (.swr .always n none) fun c => vfQuiet n c && c.x.id.fn == 0) ∧
    (∀ n ∈ [(0x022 : BitVec 13), 0x033], shows (put (.swr .always n none) (nums [1]) guest) (.swr .always n none)
      (vfQuiet n)) ∧
    (∀ n ∈ [(0x100 : BitVec 13), 0x103], shows (put (.swr .always n none) (nums [1]) guest) (.swr .always n none)
      fun c => vfQuiet n c && c.x.id.fn != 0) :=
  ⟨forall_shows (by decide), forall_shows (by decide), forall_shows (by decide), forall_shows (by decide),
    forall_shows (by decide), forall_shows (by decide)⟩

theorem test_witness_TlbinvAndScrubSlots :
    (∀ kind ∈ [TlbKind.addr, .vf, .all], shows (put (.tlbinv .always kind none none) (nums [2 ^ 48 + 1]))
      (.tlbinv .always kind none none) fun c => decide ((match kind with
        | .addr => (c.word 0).toNat / 2 ^ 48 % 32 | .vf => (c.word 0).toNat % 32 | .all => 0) ≤ 16)) ∧
    shows (put (.tlbinv .always .addr none none) (nums [17 * 2 ^ 48])) (.tlbinv .always .addr none none)
      (fun c => decide (16 < (c.word 0).toNat / 2 ^ 48 % 32)) ∧
    shows (put (.tlbinv .always .vf none none) (nums [31])) (.tlbinv .always .vf none none)
      (fun c => decide (16 < (c.word 0).toNat % 32)) ∧
    shows (put (.scrub .always none) []) (.scrub .always none) (fun c => c.s.scrub.isNone) :=
  ⟨forall_shows (by decide), shows_of_fits (by decide), shows_of_fits (by decide), shows_of_fits (by decide)⟩

/-- A faulted activity 9 of the physical function beside the running one. -/
def withFaulted (s : State) : State :=
  { s with acts := s.acts ++ [{ Act.fresh ⟨0, 9⟩ 0 0 1 0 with run := .faulted }] }

/-- A faulted activity 9 of function 1, in region 3, beside the running guest in region `g`. -/
def withFaultedGuest (g : Nat) (s : State) : State :=
  { s with acts := (s.acts.map fun y => { y with region := g }) ++
      [{ Act.fresh ⟨1, 9⟩ 3 0 1 0 with run := .faulted }] }

/-- Whether RESUME finds its target faulted, no member but a lead, and not reserved. -/
def resumable (c : Ctx) (target : Aid) : Bool :=
  (c.s.act target).any (fun y => y.run == .faulted && y.gang.isNone) && !c.s.resumeTaken target

theorem test_witness_KillqAndResumeSlots :
    (∀ l ∈ [(0 : Word), 0x0301, 0x11], shows (put (.killq .always none none) (nums [l])) (.killq .always none none)
      killqQuiet) ∧
    shows (put (.resume .always .retry none none) (nums [2 ^ 43])) (.resume .always .retry none none)
      (fun c => (c.word 0).toNat / 2 ^ 43 % 32 != 0) ∧
    shows (put (.resume .always .retry none none) (nums [17 * 2 ^ 32])) (.resume .always .retry none none)
      (fun c => decide (16 < (c.word 0).toNat / 2 ^ 32 % 32)) ∧
    shows (put (.resume .always .next none none) (nums [2 ^ 32 + 9]) guest) (.resume .always .next none none)
      (fun c => c.x.id.fn != 0 && (c.word 0).toNat / 2 ^ 32 % 32 == 1) ∧
    shows (put (.resume .always .next none none) (nums [9])) (.resume .always .next none none)
      (fun c => c.x.id.fn == 0 && (c.s.act ⟨0, 9⟩).isNone) ∧
    shows (withFaulted (put (.resume .always .kill none none) (nums [9]))) (.resume .always .kill none none)
      (fun c => c.x.id.fn == 0 && resumable c ⟨0, 9⟩) ∧
    shows (withFaultedGuest 0 (put (.resume .always .kill none none) (nums [9]) guest)) (.resume .always .kill none none)
      (fun c => c.x.id.fn != 0 && (c.word 0).toNat / 2 ^ 32 % 32 == 0 && resumable c ⟨1, 9⟩ &&
        !(c.s.fn 1).within 3 c.x.region) ∧
    shows ((withFaultedGuest 3 (put (.resume .always .kill none none) (nums [9]) guest)).modFn 1 fun f =>
        { f with regions := [{ (default : Region) with idx := 3 }] }) (.resume .always .kill none none)
      (fun c => c.x.id.fn != 0 && resumable c ⟨1, 9⟩ && (c.s.fn 1).within 3 c.x.region) :=
  ⟨forall_shows (by decide), shows_of_fits (by decide), shows_of_fits (by decide), shows_of_fits (by decide),
    shows_of_fits (by decide), shows_of_fits (by decide), shows_of_fits (by decide), shows_of_fits (by decide)⟩

/-- Whether a vector instruction of a type has its operands: no fragment that it must wait for. -/
def vecsOk (ty : ETy) (n : Nat) (c : Ctx) : Bool :=
  fragQuiet c && match c.vecs ty with | .ok vs => vs.length == n | .error _ => false

/-- A prefix word with mask register 1, rounding toward zero, zero policy 1 and saturation. -/
def prefixWord : Word32 := 0xFE4E0000

theorem test_witness_VectorArithmeticSlots :
    (∀ i ∈ [Instr.vadd .always .f32 none none, .vsub .always .f32 none none, .vmul .always .f32 none none,
        .vmin .always .f32 none none, .vmax .always .f32 none none],
      shows (put i (nums [1, 2])) i (vecsOk .f32 2)) ∧
    (∀ i ∈ [Instr.vadd .always .f32 none none, .vmax .always .f32 none none],
      shows (putAfter prefixWord i (nums [1, 2]) actor) i fun c => vecsOk .f32 2 c && c.pfx.isSome) ∧
    shows (put (.vfma .always .i8 none none) (nums [1, 2, 3])) (.vfma .always .i8 none none) (vecsOk .i8 3) :=
  ⟨forall_shows (by decide), forall_shows (by decide), shows_of_fits (by decide)⟩

theorem test_witness_VectorCompareLogicShiftSlots :
    (∀ ty ∈ [ETy.f32, .n64], shows (put (.vcmp .always ty .le none) (nums [1, 2])) (.vcmp .always ty .le none)
      (vecsOk ty 2)) ∧
    allSelected [.vlogic .always .i8 .and none, .vlogic .always .i8 .not none, .vlogic .always .f32 .select none,
      .vshift .always .i16 .sha false 15 none, .vshift .always .i16 .sha true 0 none] :=
  ⟨forall_shows (by decide), allSelected_of (by decide)⟩

theorem test_witness_VcvtSlot :
    (∀ q ∈ [(ETy.f32, ETy.bf16, (1 : BitVec 2)), (.bf16, .f32, 1), (.f32, .i32, 0), (.i8, .i64, 3)],
      shows (put (.vcvt .always q.1 q.2.1 q.2.2 none) (nums [1])) (.vcvt .always q.1 q.2.1 q.2.2 none) (vecsOk q.1 1)) :=
  forall_shows (by decide)

/-- What the checks of R319 answer for a vector load or store: the format, or none where a fault is raised. -/
def vFormat (store : Bool) (ty : ETy) (mode : VMode) (c : Ctx) : Option Nat :=
  match c.vCheck store ty mode (c.word 0) (c.toks.getD (if store then 2 else 1) (.scalar 0))
      ((upFrom 0 ty.lanes).filter (c.vPart ty)) with
  | .ok f => some f
  | .error _ => none

/-- `actor` with its banks in INT4. -/
def int4Actor : Act := { actor with fmts := Vector.replicate 16 10 }

theorem test_witness_VectorMemorySlots :
    (∀ mode ∈ [VMode.unit, .strided, .indexed, .bcast], shows (put (.vld .always 0 .f32 mode none) (nums [64, 8]))
      (.vld .always 0 .f32 mode none) fun c => vFormat false .f32 mode c == some 0 && c.x.bad.isEmpty) ∧
    (∀ mode ∈ [VMode.unit, .strided, .indexed], shows (put (.vst .always 0 .f32 mode) (nums [64, 8, 8]))
      (.vst .always 0 .f32 mode) fun c => vFormat true .f32 mode c == some 0) ∧
    shows (put (.vld .always 0 .f32 .unit none) (nums [49152])) (.vld .always 0 .f32 .unit none)
      (fun c => vFormat false .f32 .unit c == none) ∧
    shows (put (.vst .always 0 .f32 .unit) (nums [49100, 8])) (.vst .always 0 .f32 .unit)
      (fun c => vFormat true .f32 .unit c == none) ∧
    (∀ mode ∈ [VMode.strided, .indexed], shows (put (.vld .always 0 .f32 mode none) (nums [64, 8]) int4Actor)
      (.vld .always 0 .f32 mode none) fun c => vFormat false .f32 mode c == none) ∧
    (∀ mode ∈ [VMode.unit, .bcast], shows (put (.vld .always 0 .f32 mode none) (nums [64, 8]) int4Actor)
      (.vld .always 0 .f32 mode none) fun c => vFormat false .f32 mode c == some 10 && c.x.bad.isEmpty) ∧
    shows (put (.vst .always 0 .f32 .unit) (nums [64, 8]) int4Actor) (.vst .always 0 .f32 .unit)
      (fun c => vFormat true .f32 .unit c == some 10 && c.x.bad.isEmpty) :=
  ⟨forall_shows (by decide +kernel), forall_shows (by decide +kernel), shows_of_fits (by decide +kernel), shows_of_fits (by decide +kernel),
    forall_shows (by decide +kernel), forall_shows (by decide +kernel), shows_of_fits (by decide +kernel)⟩

/-- Lanes 0 and 1 of `actor` in Q4N banks whose superscale byte 3 is `sup` and whose block scale 0 is `b`. -/
def q4nState (strict : Bool) (b sup : Byte) : State :=
  (put (.vld .always 0 .q4n .unit none) (nums [24576])
      { actor with fmts := Vector.replicate 16 9, carrel := [(45056, b), (47619, sup)] }).modFn 0 fun f =>
    { f with regions := [{ (default : Region) with idx := 0, strict := strict }] }

/-- Whether a VLD of `q4nState` passes its checks, with every lane's codes under block scale `b` and superscale `sup`. -/
def q4nCase (strict : Bool) (b sup : Nat) (c : Ctx) : Bool :=
  vFormat false .q4n .unit c == some 9 && (c.s.fn c.x.id.fn).strict c.x.region == strict && c.x.bad.isEmpty &&
    c.vPart .q4n 0 && (c.byte false 0 45056).toNat == b &&
    leNat ((upFrom 47616 4).map (c.byte false 0)) == sup

/-- The Q4N clauses of VectorMemorySlots: good scales in a strict region, reserved ones outside one, and the two faults.
-/
theorem test_witness_VectorMemorySlots_q4n :
    (∀ q ∈ [(true, 5, (0x3F : Byte)), (false, 255, 0x3F), (true, 255, 0x3F), (true, 5, 0xBF)],
      shows (q4nState q.1 (BitVec.ofNat 8 q.2.1) q.2.2) (.vld .always 0 .q4n .unit none) fun c =>
        q4nCase q.1 q.2.1 (q.2.2.toNat * 2 ^ 24) c) ∧
    q4nBadB 255 = true ∧ q4nBadB 5 = false ∧ q4nBadS 0x3F000000 = false ∧ q4nBadS 0xBF000000 = true :=
  ⟨forall_shows (by decide +kernel), by decide +kernel⟩

/-- The data errors of VectorMemorySlots: byte 70 in lane 1 of a raw bank, byte 65 in lane 2 of an INT4 bank, a block
scale. -/
theorem test_witness_VectorMemorySlots_errors :
    shows (put (.vld .always 0 .f32 .unit none) (nums [64]) { actor with bad := [.carrel actor.id 70] })
      (.vld .always 0 .f32 .unit none) (fun c => vFormat false .f32 .unit c == some 0 && c.vPart .f32 1 &&
        c.badAt false 0 70 && clean c 64 6) ∧
    shows (put (.vld .always 0 .f32 .unit none) (nums [64]) { int4Actor with bad := [.carrel actor.id 65] })
      (.vld .always 0 .f32 .unit none) (fun c => vFormat false .f32 .unit c == some 10 && c.vPart .f32 2 &&
        c.badAt false 0 65 && clean c 64 1) ∧
    shows ((q4nState false 5 0x3F).modAct fetchAid fun y => { y with bad := [.carrel y.id 45056] })
      (.vld .always 0 .q4n .unit none) (fun c => vFormat false .q4n .unit c == some 9 && c.vPart .q4n 0 &&
        ([24576, 45056] ++ upFrom 47616 4).find? (c.badAt false 0) == some 45056) :=
  ⟨shows_of_fits (by decide +kernel), shows_of_fits (by decide +kernel), shows_of_fits (by decide +kernel)⟩

theorem test_witness_VredSlot :
    (∀ q ∈ [(ETy.i32, VRedFn.first), (.f32, .count), (.i8, .sum), (.n16, .and), (.f32, .max), (.bf16, .sum)],
      shows (put (.vred .always q.1 q.2 none) (nums [5])) (.vred .always q.1 q.2 none) (vecsOk q.1 1)) ∧
    (∀ ty ∈ [ETy.i32, .f16], shows (put (.vred .always ty .dot none) (nums [5, 6])) (.vred .always ty .dot none)
      (vecsOk ty 2)) :=
  ⟨forall_shows (by decide), forall_shows (by decide)⟩

theorem test_witness_VpermAndVspecSlots :
    allSelected [.vperm .always .i8 .perm 0 none, .vperm .always .f32 .bcast 0 none, .vperm .always .i32 .sup 15 none,
      .vperm .always .i32 .sdn 1 none, .vperm .always .bf16 .iota 0 none, .vperm .always .i32 .comp 0 none,
      .vperm .always .i32 .exp 0 none, .vperm .always .i8 .ext 63 none, .vspec .always .f32 .erf none,
      .vspec .always .bf16 .exp2 none] := allSelected_of (by decide)

/-- The context of a VADD that reads fragment 0 of tile `t` in a gang, as member `m` of fusion mode `mode`. -/
def fragCtx (t m : Nat) (mode : Fuse) : Ctx :=
  let p : Pfx := ⟨0, .rne, false, false, true, BitVec.ofNat 3 t, 1⟩
  ⟨{ State.reset with gangs := [{ gangWith [] with mode := mode }] }, { actor with gang := some (0, m) },
    testFlight, 1, .vadd .always .f32 none none, [.scalar 0], none, some p⟩

/-- `prefixWord`'s prefix, M1 holding a detected error. -/
def badMask : Act := { actor with bad := [.register actor.id .m 1] }

/-- FragmentOperand: a live tile that fits FP32 and does not fit INT32, a released tile, an upper quadrant; element (0,
17) of the tile with a detected error; a mask register with a detected error. -/
theorem test_witness_FragmentOperand :
    (let c := fragCtx 2 0 .sep
     let e : Ctx := { c with s := { c.s with acts := [{ c.x with bad := [.tile c.x.id 2 0 17] }] } }
     e.maskOk = .ok () ∧ e.badFragment ⟨0, .rne, false, false, true, 2, 1⟩ = some (0, 17)) ∧
    (∀ i ∈ [Instr.vlogic .always .f32 .and none, .vshift .always .i16 .sha true 0 none, .vperm .always .i32 .sdn 1 none,
        .vspec .always .f32 .erf none, .vadd .always .f32 none none, .vld .always 0 .f32 .unit none,
        .vst .always 0 .f32 .unit], shows (putAfter prefixWord i (nums [64, 64, 3]) badMask) i fun c =>
      (c.pfx.any fun p => p.mask != 0 && c.x.bad.contains (.register c.x.id .m p.mask.toNat)) && fragQuiet c) ∧
    (∀ q ∈ [(2, 0, Fuse.sep), (3, 0, .sep), (2, 8, .kfuse)],
      let c := fragCtx q.1 q.2.1 q.2.2
      (c.pfx.map (·.acc)) = some true ∧ (c.s.gangOf c.x).isSome = true ∧ c.maskOk = .ok () ∧
      c.badFragment ⟨0, .rne, false, false, true, BitVec.ofNat 3 q.1, 1⟩ = none ∧
      ((c.s.gangOf c.x).bind fun g => g.failedOn fun n => n == q.1) = none ∧ (c.fragment ⟨0, .rne, false, false, true,
        BitVec.ofNat 3 q.1, 1⟩ .f32).isSome = true) ∧
    (fragCtx 2 0 .sep).fragment ⟨0, .rne, false, false, true, 2, 1⟩ .i32 = none ∧
    (let c := fragCtx 2 0 .sep
     let e : Ctx := { c with s := { c.s with gangs := [gangWith [failedLoad]] } }
     e.maskOk = .ok () ∧ e.badFragment ⟨0, .rne, false, false, true, 2, 1⟩ = none ∧
       (e.s.gangOf e.x).bind (fun g => g.failedOn fun n => n == 2) = some failedLoad) :=
  ⟨by decide, forall_shows (by decide), by decide⟩

/-- The last clause of FragmentOperand: operands that raise a fault, the mask register of `badMask`. -/
theorem test_witness_FragmentOperand_faults :
    ∀ i ∈ [Instr.vadd .always .f32 none none, .vsub .always .f32 none none, .vmul .always .f32 none none,
        .vfma .always .f32 none none, .vmin .always .f32 none none, .vmax .always .f32 none none,
        .vcmp .always .f32 .lt none, .vred .always .f32 .sum none, .vcvt .always .f32 .f32 0 none],
      shows (putAfter prefixWord i (nums [64, 64, 3]) badMask) i fun c =>
        fragQuiet c && match c.vecs .f32 with | .ok _ => false | .error _ => true :=
  forall_shows (by decide)

theorem test_witness_DecodeOfEncode : isSlotInstr (.vst .ifFalse 31 .e5m2 .indexed) = true ∧
    wellFormed (.vst .ifFalse 31 .e5m2 .indexed) = true := by decide

theorem test_witness_EncodeOfDecode : decodeWord 0xF6030400 = .ok (.vst .always 1 .bf16 .indexed) := by decide

/-! ### Witnesses: steps, frames, blocks -/

/-- Another activity on core 0. -/
def atOther : Act := { actor with id := ⟨0, 9⟩, flight := none, place := some ⟨0, 2⟩, run := .waiting }

/-- The state in which a word is next, its tokens null instead of scalar. -/
def nullPut (i : Instr) : State :=
  put i ((dataOps i).map fun _ => .null)

/-- A placed word on a core whose clock the divider has stopped. -/
def stoppedState : State := (State.reset.placeWord 0x20443826).modCore 0 fun k => { k with divider := 0 }

/-- Whether a meaning answers a next state. -/
def answers (r : Res) : Bool := match r with | .next _ => true | _ => false

theorem next_of_answers {r : Res} (h : answers r = true) : ∃ t, r = .next t := by
  cases r with
  | next t => exact ⟨t, rfl⟩
  | fault _ => cases h
  | refused _ => cases h

/-- The placed word behind a GENI in slot 0 that has not fired. -/
def behindGeni : State := (State.reset.placeWord 0x20443826).modAct fetchAid fun y => { y with flight := y.flight.map fun f =>
  { f with words := f.words.set 0 (encode (.geni .always 5 none)), slots := f.slots.set 0 ⟨[], .notYet, [], .none⟩ } }

theorem test_witness_StepRunsTheInstruction_turn :
    (behindGeni.act fetchAid).any (fun x => x.flight.any fun f => (f.slot 0).status == .notYet &&
      f.instr 0 == some (.geni .always 5 none) && (f.needs 0 (.geni .always 5 none)).isEmpty && !f.fourth 0) = true ∧
    predReq (.geni .always 5 none) = none ∧ (∃ t, exec (.geni .always 5 none) (behindGeni.issuing fetchAid 0) = .next t) ∧
    behindGeni.outOfTurn fetchAid 1 = true ∧ (State.reset.placeWord 0x20443826).outOfTurn fetchAid 1 = false :=
  ⟨by decide +kernel, by decide, next_of_answers (by decide +kernel), by decide +kernel, by decide +kernel⟩

/-- Two activities share core 0, and activity 1 issued last: activity 0 comes next, and activity 1 waits while the GENI
of activity 0 can fire. -/
def twoIssue : State :=
  { behindGeni with
    acts := behindGeni.acts ++ [{ actFor (encode (.geni .always 6 none)) with id := ⟨0, 1⟩, place := some ⟨0, 1⟩ }]
    cores := [{ behindGeni.core 0 with last := some ⟨0, 1⟩ }] }

theorem test_witness_StepRunsTheInstruction_order :
    (twoIssue.core 0).last = some ⟨0, 1⟩ ∧ (State.reset.core 0).last = none ∧
    ((upFrom 0 Config.coreSlots).flatMap fun k =>
      (twoIssue.acts.filter fun x => x.place == some ⟨0, k⟩).map (·.id)) = [fetchAid] ++ ⟨0, 1⟩ :: [] ∧
    twoIssue.outOfTurn ⟨0, 1⟩ 1 = true ∧ twoIssue.outOfTurn fetchAid 0 = false ∧
    (twoIssue.act ⟨0, 1⟩).any (fun x => x.flight.any fun f => (f.instr 1).isSome) = true := by decide +kernel

theorem test_witness_StepRunsTheInstruction :
    ((State.reset.placeWord 0x20443826).vfNext = none ∧
      (State.reset.placeWord 0x20443826).agenda = [.slot fetchAid 1] ∧
      (State.reset.placeWord 0x20443826).act fetchAid = some (actFor 0x20443826) ∧
      (actFor 0x20443826).flight = some (flightFor 0x20443826) ∧ (flightFor 0x20443826).words[1]? = some 0x20443826 ∧
      decodeWord 0x20443826 = .ok (.add .ifTrue true (some ⟨7, .l⟩) (some ⟨9, .p⟩))) ∧
    (State.reset.placeWord 0x20443826).halted fetchAid = false ∧
    (stoppedState.vfNext = none ∧ stoppedState.agenda = [.slot fetchAid 1] ∧
      stoppedState.act fetchAid = some (actFor 0x20443826) ∧ stoppedState.halted fetchAid = true) ∧
    ({ State.reset with agenda := [.event .patrolScrub] } : State).vfNext = none ∧
    (({ State.reset with vfPending := [(.save, 3)] } : State).vfPending = (.save, 3) :: [] ∧ State.reset.vfBusy = none) ∧
    ({ State.reset with vfPending := [(.commit, 0)] } : State).scrubs (vfRecOf (State.reset.recBytes 0)) = false ∧
    ({ State.reset with vfPending := [(.save, 3)], vfBusy := some (.save, 2) } : State).vfNext = none := by decide +kernel

theorem test_witness_NullTokensFireNull :
    allSelected [.null .always none none] ∧
    (∀ b : Bool, (match (nullPut (.add .always false none none)).ctx (.add .always false none none) with
      | some c => c.fl.ready c.k c.i b
      | none => .wait) = .fireNull) ∧
    isSlotInstr (.add .always false none none) = true ∧
    ((testFlight.slot 1).status = .notYet ∧ testFlight.collided 1 = false ∧ (∀ sl ∈ testFlight.slots, sl.eff = .none) ∧
      ({ testFlight with slots := [⟨[(.l, 0, .scalar 1), (.l, 0, .scalar 2)], .notYet, [], .none⟩] } : Flight).collided 0 =
        true) ∧
    testFlight.data 1 (.test .ift .lt none none) = some [.scalar 1, .scalar 2] ∧
    predReq (.test .ift .lt none none) = some (some true) ∧ (testFlight.slot 1).arrived .p = some (.scalar 0) ∧
    (Token.scalar 0).truth = false ∧
    predReq (.add .always false none none) = none ∧ Token.null ∈ [Token.scalar 0, .null] ∧
    (SlotSt.arrived ⟨[(.p, 0, .null)], .notYet, [], .none⟩ .p) = some .null :=
  ⟨allSelected_of (by decide), by decide⟩

theorem test_witness_SlotFrame : isSlotInstr (.add .always false none none) = true ∧
    actsAtOnce (.add .always false none none) = false ∧
    ∃ t, exec (.add .always false none none) (put (.add .always false none none) (nums [1, 2])) = .next t :=
  ⟨by decide, by decide, next_of_answers (by decide)⟩

theorem test_witness_ReservingSlotFrame :
    ∀ i ∈ [Instr.palloc .always false 7 none, .spawn .always false false 0 1 none, .tlbinv .always .all none none,
      .scrub .always none], actsAtOnce i = true ∧ ∃ t, exec i (put i (nums [0])) = .next t :=
  fun i hi => ⟨List.all_eq_true.mp (by decide : ([Instr.palloc .always false 7 none, .spawn .always false false 0 1 none,
      .tlbinv .always .all none none, .scrub .always none].all actsAtOnce) = true) i hi,
    next_of_answers (List.all_eq_true.mp (by decide : ([Instr.palloc .always false 7 none,
      .spawn .always false false 0 1 none, .tlbinv .always .all none none, .scrub .always none].all fun i =>
        answers (exec i (put i (nums [0])))) = true) i hi)⟩

/-- A CENV on a full core, which spills an environment of another activity, and an XRD, beside a third activity. -/
def fullCore : State :=
  { put (.cenv .always none) (nums [64, 4]) with
    acts := (put (.cenv .always none) (nums [64, 4])).acts ++ [{ atOther with env := ⟨.store, 0, 0, 0⟩ }]
    cores := [{ Core.reset 0 with envs := (upFrom 0 256).map fun i => (i, ⟨9, 1, 4, [], [], 0, none, []⟩) }] }

theorem test_witness_ReservingSlotFrame_handles :
    actsAtOnce (.cenv .always none) = true ∧ actsAtOnce (.xrd .always .s none none) = true ∧
    fullCore.cur.map (·.1) = some fetchAid ∧ (⟨0, 9⟩ : Aid) ≠ fetchAid ∧ (fullCore.act ⟨0, 9⟩).isSome = true ∧
    (∃ t, exec (.cenv .always none) fullCore = .next t) ∧
    ∃ t, exec (.xrd .always .s none none) (putMet (.xrd .always .s none none) (nums [7])) = .next t :=
  ⟨by decide, by decide, by decide, by decide, by decide, next_of_answers (by decide +kernel), next_of_answers (by decide)⟩

theorem test_witness_MemoryStaysCanonical : State.reset.memOk = true ∧
    ∃ t, step { State.reset with agenda := [.event .patrolScrub] } = .next t :=
  ⟨by decide, next_of_answers (by decide)⟩

/-- The bytes of words that are not zero, as memory holds them. -/
def cellsOf (a : Nat) (ws : List Word32) : List Host.Cell :=
  ((upFrom a (4 * ws.length)).zip (ws.flatMap wordBytes)).filter fun c => c.2 != 0

/-- A block of kind 0 with two slots, a WR of S3 and a BR to itself, at 65536; one of kind 1 with trip register S2 at
65568; one of kind 0 at 65600; the header of one whose slots lie in an unmapped page at 131056. -/
def code : List Host.Cell :=
  cellsOf 65536 [0xB0200200, 0, 0, 0, encode (.wr .s 3), encode (.br .always 0 0), 0, 0,
    0xB0000040, 0, 0x10000000, 0, encode (.br .always 0 0), 0, 0, 0,
    0xB0000000, 0, 0, 0, encode (.br .always 0 0), 0, 0, 0] ++ cellsOf 131056 [0xB0000000, 0, 0, 0]

/-- An activity that stands at `a` with S2 = `n`, on core 0. -/
def atBlock (a : Nat) (n : Word) : Act :=
  { actor with id := ⟨0, 7⟩, resume := a, flight := none, s := (Vector.replicate 32 0).set 2 n }

/-- Its state: `code` lies in a shelf, its page is in the acre's translation cache. -/
def atCode (x : Act) : State :=
  { State.reset.modFn 0 fun f => { f with shelves := [⟨4, 1, 2, false, none, (0, 0), false, false⟩] } with
    acts := [x], mem := code, acres := [{ Acre.reset 0 with tlb := [⟨0, 1, 1, 1, false, false, []⟩, ⟨0, 2, 1, 1, false, false, [(1, false)]⟩] }] }

/-- An activity that stands at the repeating block, its trip register with a detected error. -/
def badTrip : Act := { atBlock 65568 3 with bad := [.register ⟨0, 7⟩ .s 2] }

/-- Whether an activity can begin its block. -/
def canBegin (s : State) (x : Act) : Bool :=
  s.act x.id == some x && memberOf x == 0 && (s.crew x).all Act.idle && s.fnRuns x.id.fn &&
    (s.crew x).all fun y => y.trap.isNone && !y.bad.contains (.context y.id) && !s.halted y.id

/-- BLOCK_START: a block outside every shelf, one whose slot does not decode, one of kind 0, a repeating one with trip
counts 3, 2^24 − 1, 0 and 2^24, outside and inside an iteration. -/
theorem test_witness_BlockStarts :
    (canBegin (atCode (atBlock 0 0)) (atBlock 0 0) = true ∧
      (atCode (atBlock 0 0)).enter 0 0 0 (atBlock 0 0).entry.way.1 false (atBlock 0 0).entry.way.2 =
        .error ⟨.translation1, 0, 0⟩) ∧
    (canBegin (atCode (atBlock 65600 0)) (atBlock 65600 0) = true ∧
      (atCode (atBlock 65600 0)).enter 0 0 65600 (atBlock 0 0).entry.way.1 false (atBlock 0 0).entry.way.2 =
        .ok [0xB0000000, 0, 0, 0] ∧
      (atCode (atBlock 65600 0)).fetchWords 0 0 65616 1 = .ok [encode (.br .always 0 0)] ∧
      decodeFault (newFlight 0 65600 [0xB0000000, 0, 0, 0] [encode (.br .always 0 0)] 0) true = none ∧
      kindRepeats (hdrKind [0xB0000000, 0, 0, 0]) = false) ∧
    (decodeFault (newFlight 0 65600 [0xB0000000, 0, 0, 0] [0x1A000000] 0) true).isSome = true ∧
    ((atCode (atBlock 65568 0)).enter 0 0 65568 (atBlock 0 0).entry.way.1 false (atBlock 0 0).entry.way.2 =
        .ok [0xB0000040, 0, 0x10000000, 0] ∧
      (atCode (atBlock 65568 0)).fetchWords 0 0 65584 1 = .ok [encode (.br .always 0 0)] ∧
      decodeFault (newFlight 0 65568 [0xB0000040, 0, 0x10000000, 0] [encode (.br .always 0 0)] 0) true = none ∧
      kindRepeats (hdrKind [0xB0000040, 0, 0x10000000, 0]) = true ∧ hdrTrip [0xB0000040, 0, 0x10000000, 0] = 2) ∧
    (canBegin (atCode (atBlock 65568 0)) (atBlock 65568 0) = true ∧ (atBlock 65568 0).rep = none ∧ (atBlock 65568 0).bad = []) ∧
    (canBegin (atCode badTrip) badTrip = true ∧ badTrip.rep = none ∧ badTrip.gang = none ∧
      badTrip.bad.contains (.register badTrip.id .s 2) = true) ∧
    (canBegin (atCode (atBlock 131056 0)) (atBlock 131056 0) = true ∧
      (atCode (atBlock 131056 0)).enter 0 0 131056 (atBlock 0 0).entry.way.1 false (atBlock 0 0).entry.way.2 =
        .ok [0xB0000000, 0, 0, 0] ∧
      ((atCode (atBlock 131056 0)).entryDone [atBlock 131056 0]).fetchWords 0 0 131072 1 = .error ⟨.translation1, 131072, 0⟩) ∧
    (canBegin (atCode (atBlock 65568 3)) (atBlock 65568 3) = true ∧ (atBlock 65568 3).rep = none) ∧
    (canBegin (atCode (atBlock 65568 0xFFFFFF)) (atBlock 65568 0xFFFFFF) = true ∧ (atBlock 65568 0xFFFFFF).rep = none) ∧
    (canBegin (atCode (atBlock 65568 0x1000000)) (atBlock 65568 0x1000000) = true ∧ (atBlock 65568 0x1000000).rep = none) ∧
    canBegin (atCode { atBlock 65568 0 with rep := some (3, 1) }) { atBlock 65568 0 with rep := some (3, 1) } = true ∧
    (atCode (atBlock 65568 0)).tick.2.exitCheck (atBlock 65568 0) 65600 .exit false = .ok () := by decide +kernel

/-- `code`'s first block after its WR has received `t` and both slots have fired. -/
def fired (t : Token) : Flight :=
  ⟨1, 65536, [0xB0200200, 0, 0, 0], [encode (.wr .s 3), encode (.br .always 0 0)],
    [⟨[(.l, 0, t)], .done, [], .write .s 3 t⟩, ⟨[], .done, [], .exit (.branch 65536)⟩], 0⟩

/-- An activity with that block in flight. -/
def ended : Act := { atBlock 65536 0 with flight := some (fired (.scalar 9)) }

/-- The same after only its WR has fired: no exit. -/
def endless : Act :=
  { ended with flight := some { fired (.scalar 9) with
      slots := [⟨[(.l, 0, .scalar 9)], .done, [], .write .s 3 (.scalar 9)⟩, ⟨[], .nulled, [], .none⟩] } }

theorem test_witness_CommitWritesRegistersAndCarrel :
    (atCode ended).act ended.id = some ended ∧ ended.gang = none ∧ ended.flight = some (fired (.scalar 9)) ∧
    ended.trap = none ∧ (fired (.scalar 9)).exits = [(1, .branch 65536)] ∧
    kindRepeats (hdrKind (fired (.scalar 9)).hdr) = false ∧ (fired (.scalar 9)).effAt 0 = .write .s 3 (.scalar 9) ∧
    (fired (.scalar 9)).effAt 1 = .exit (.branch 65536) ∧
    ((atCode ended).tryCommit [⟨0, ended, fired (.scalar 9)⟩]).isOk = true := by decide +kernel

/-- `fired` with other slots. -/
def flightOf (slots : List SlotSt) : Flight := { fired (.scalar 9) with slots := slots }

/-- `ended` with another effect of slot 0, a closure without an environment in C2 and one with an environment in C3. -/
def endedBy (e : Effect) : Act :=
  { ended with
    flight := some (flightOf [⟨[], .done, [], e⟩, ⟨[], .done, [], .exit (.branch 65536)⟩])
    c := ((Vector.replicate 8 Handle.none).set 2 ⟨.bare, 0, 0, 1026⟩).set 3 ⟨.store, 0, 0, 1026⟩ }

/-- Its state: that environment lies in the store of core 0. -/
def endedState (e : Effect) : State :=
  { atCode (endedBy e) with cores := [{ Core.reset 0 with envs := [(0, ⟨7, 1, 1, [0], [5], 0, none, []⟩)] }] }

/-- What the other effects of the statement leave: a write of C2 and C3, CDROP, SWR of %seed and of the live names. -/
theorem test_witness_CommitWritesRegistersAndCarrel_effects :
    (∀ e ∈ [Effect.write .c 2 (.handle Handle.none), .write .c 3 (.handle Handle.none), .cdrop 2, .swr 0x22 5, .swr 0x30 5,
        .swr 0x31 5, .swr 0x32 5, .swr 0x33 5, .none],
      (endedState e).act (endedBy e).id = some (endedBy e) ∧ ((endedBy e).flight.any fun f => f.effAt 0 == e) = true ∧
      (((endedState e).fn 0).shelves.all fun q => !q.unsealing) = true ∧
      ((endedState e).tryCommit [⟨0, endedBy e, (endedBy e).flight.getD (fired (.scalar 9))⟩]).isOk = true) ∧
    (match (endedState .none).tryCommit [⟨0, endedBy .none, (endedBy .none).flight.getD (fired (.scalar 9))⟩] with
      | .ok t => (t.core 0).envs.any fun p => p.2.reserver.isNone
      | .error _ => false) = true := by decide +kernel

/-- R80, R83: a WR of class C takes the handle of an environment that a lower CENV of its block has made, and the
environment has count 1. -/
theorem test_cenv_written :
    let h : Handle := ⟨.store, 0, 0, 1026⟩
    let f : Flight := { fired (.scalar 9) with
      words := encode (.cenv .always none) :: (fired (.scalar 9)).words
      slots := [⟨[], .done, [], .cenv h 1⟩, ⟨[], .done, [], .write .c 2 (.handle h)⟩, ⟨[], .done, [], .exit (.branch 65536)⟩] }
    let x : Act := { ended with flight := some f }
    let s : State := { atCode x with cores := [{ Core.reset 0 with
      envs := [(0, ⟨7, 0, 1, [0], [5], 0, some x.id, []⟩)] }] }
    (match s.tryCommit [⟨0, x, f⟩] with
      | .ok t => ((t.core 0).envs.map fun p => p.2.count) == [1]
      | .error _ => false) = true := by decide +kernel

/-- R85 (assumption log 66): a WR of class C of a handle that its activity does not hold, outside a meeting. -/
theorem test_handle_not_held :
    let e : Effect := .write .c 2 (.handle ⟨.store, 0, 0, 1026⟩)
    let x : Act := { endedBy e with c := Vector.replicate 8 Handle.none }
    let s : State := { endedState e with acts := [x] }
    (match s.tryCommit [⟨0, x, x.flight.getD (fired (.scalar 9))⟩] with
      | .ok _ => false
      | .error fs => fs.any fun f => f.2.2.cause == .meetingState) = true := by decide +kernel

/-- A block whose only effect is the exit `e`. -/
def exiting (e : Exit) : Flight := flightOf [⟨[], .done, [], .none⟩, ⟨[], .done, [], .exit e⟩]

/-- The same of the repeating block at 65568. -/
def exitingLoop (e : Exit) : Flight := { exiting e with addr := 65568, hdr := [0xB0000040, 0, 0x10000000, 0] }

/-- An activity with that block in flight, a CALL's frame on its stack, a closure in C3 and a sealed register. -/
def leaving (f : Flight) (i : Nat) : Act :=
  { atBlock 65536 0 with
    flight := some f, rep := some (3, i), stack := [⟨true, 65600, Handle.none, 0, none⟩]
    c := (Vector.replicate 8 Handle.none).set 3 ⟨.bare, 0, 0, 1026⟩
    l := (Vector.replicate 8 .empty).set 0 (.sealed 64 2 false 9 0) }

/-- Its state: blocks of the kinds 0, 1, 0, 2 and 4. -/
def leavingFrom (x : Act) : State :=
  { atCode x with
    mem := [(65536, [0xB0200200, 0, 0, 0]), (65568, [0xB0000040, 0, 0x10000000, 0]), (65600, [0xB0000000, 0, 0, 0]),
      (65664, [0xB0000080, 0, 0, 0]), (65728, [0xB0000100, 0, 0, 0])].flatMap fun b => cellsOf b.1 b.2 }

/-- A choice of C3 by lane 0 alone, and one that chooses nothing. -/
def picks (some_ : Bool) : Token := .vector 3 (if some_ then BitVec.allOnes 64 <<< 4 else BitVec.allOnes 64)

theorem test_witness_CommitWritesRegistersAndCarrel_exits :
    (∀ e ∈ [Exit.branch 65600, .indirect 65600, .call 65600, .ret, .retire, .apply 3, .vapply 0 (picks true) 65600,
        .wtany 1 65600, .wtall 1 65600, .wcnt 1 65600, .unseal 0 65600, .yield 65600, .sleep 1 65600, .gang .quad 65728,
        .meet 9 0 1 65600, .gather .add 9 0x100002 .null 1 65600, .part 65600, .hcall 9 65600],
      (exiting e).exits = [(1, e)]) ∧
    (let x := leaving (exiting .ret) 1
     let s := leavingFrom x
     let h := x.c.toList.getD 3 Handle.none
     x.gang = none ∧ s.act x.id = some x ∧ s.exitCheck x 65600 .exit false = .ok () ∧
      kindRepeats (hdrKind (exiting .ret).hdr) = false ∧ x.reg 0 = .sealed 64 2 false 9 x.id.fn ∧
      s.exitCheck x 65728 .exit true = .ok () ∧
      (s.push x.id ⟨true, fallThrough (exiting .ret), x.env, x.gen, none⟩).isOk = true ∧
      ((s.modAct x.id (Act.goTo 65600)).yieldsTo [x.id] [x.coreNum]) = false ∧
      x.stack = [⟨true, 65600, Handle.none, 0, none⟩] ∧
      ((s.setAct { (x.goTo 65600) with env := x.env, stack := [], gen := 0 }).reloadEnv x.id).isOk = true ∧
      x.regOk .c 3 = .ok () ∧ h.kind ≠ .empty ∧ s.stale x h = false ∧ s.badHeader x h = false ∧
      s.exitCheck x h.addr (.closure (s.envWords x h)) false = .ok () ∧
      (match s.push x.id ⟨false, fallThrough (exiting .ret), x.env, x.gen, none⟩ with
        | .ok u => (State.reloadEnv (u.modAct x.id fun o => { (o.newFrame.goTo h.addr) with env := h.asEnv }) x.id).isOk
        | .error _ => false) = true ∧
      (upFrom 0 8).filter (fun j => (x.choices 0 (picks false)).contains (some j)) = [] ∧
      (upFrom 0 8).filter (fun j => (x.choices 0 (picks true)).contains (some j)) = [3] ∧
      (match s.push x.id ⟨false, 0, x.env, x.gen, some ⟨65600, [(3, h)], x.choices 0 (picks true), 0, false⟩⟩ with
        | .ok u => (match u.reloadTurns x.id with
          | .ok v => (s.startTurn v x.id).isOk
          | .error _ => false)
        | .error _ => false) = true) ∧
    (∀ i ∈ [1, 2],
      let f := exitingLoop (.branch 65568)
      let x := leaving f i
      let s := leavingFrom x
      f.exits = [(1, .branch 65568)] ∧ s.act x.id = some x ∧ kindRepeats (hdrKind f.hdr) = true ∧ x.rep = some (3, i) ∧
        (s.enter x.id.fn x.acre 65568 .continue_ false 0).isOk = true ∧ fallThrough f = 65600) := by decide +kernel

/-- A slot that has fired RET. -/
def retSlot : SlotSt := ⟨[], .done, [], .exit .ret⟩

/-- BLOCK_COMMIT, BLOCK_FAULT, and each case of R217. -/
theorem test_witness_BlocksEnd :
    (((atCode ended).flying ended).map (fun l => l.map fun q => (q.m, q.x, q.fl)) = some [(0, ended, fired (.scalar 9))] ∧
      memberOf ended = 0 ∧
      (fired (.scalar 9)).quiet = true ∧ (atCode ended).halted ended.id = false ∧ (atCode ended).stopped = false ∧ (atCode ended).mayEnd 0 = true ∧
      (fired (.scalar 9)).faultCase = none ∧ divergence [⟨0, ended, fired (.scalar 9)⟩] = none ∧
      ((atCode ended).tryCommit [⟨0, ended, fired (.scalar 9)⟩]).isOk = true ∧
      (fired (.scalar 9)).readsRegions ended.hasFrame = false) ∧
    ((atCode endless).act endless.id = some endless ∧ endless.gang = none ∧ (atCode endless).halted endless.id = false ∧
      endless.flight.any (fun f => f.quiet && f.faultCase == some (4, 255, ⟨.missingExit, 0, 0⟩)) = true) ∧
    ((flightOf [⟨[(.l, 0, .scalar 1), (.l, 0, .scalar 2)], .done, [], .none⟩, retSlot]).slot 0).second = some .l ∧
    (retSlot.second = none ∧ (SlotSt.mk [] (.faulted ⟨.misalignment, 4, 0⟩) [] .none).second = none ∧
      ((flightOf [⟨[], .faulted ⟨.misalignment, 4, 0⟩, [], .none⟩, retSlot]).slot 0).status =
        .faulted ⟨.misalignment, 4, 0⟩) ∧
    (flightOf [retSlot, retSlot]).exits = [(0, .ret), (1, .ret)] ∧
    ((flightOf [⟨[], .notYet, [], .none⟩, retSlot]).exits = [(1, .ret)] ∧
      (flightOf [⟨[], .notYet, [], .none⟩, retSlot]).written = false) := by decide +kernel

/-- A PFREE that has fired, in a region whose entry fails its check code. -/
theorem test_witness_BlocksEnd_badEntry :
    let x := endedBy (.pfree 0)
    let s := (endedState (.pfree 0)).modFn 0 fun f => { f with regions := [{ (default : Region) with
      idx := 0, rstate := .open, envb := 10, bad := true }] }
    s.act x.id = some x ∧ x.gang = none ∧ (x.flight.any fun f => f.quiet && f.faultCase.isNone && f.readsRegions x.hasFrame) = true ∧
    s.halted x.id = false ∧ s.stopped = false ∧ s.mayEnd 0 = true ∧ (s.badEntry x).isSome = true ∧
    (s.tryCommit [⟨0, x, x.flight.getD (fired (.scalar 9))⟩]).isOk = true := by decide +kernel

/-- The same state with every entry of the region table of function 0 bad. -/
def badEntries (s : State) : State :=
  s.modFn 0 fun f => { f with regions := f.regions.map fun r => { r with bad := true } }

/-- A function 0 with an open root 0 whose domain has policy `policy` and a handler. -/
def withDomain (policy : Nat) (s : State) : State :=
  s.modFn 0 fun f => { f with regions := [{ (default : Region) with
    idx := 0, rstate := .open, policy := policy, handler := 8192, acreb := 10, slotb := 10, pageb := 100, share := 65536, rcount := 2,
    rfree := 1 }] }

theorem test_witness_TakingAFault :
    (let s := (atCode ended).modFn 0 fun f => { f with preempt := some ⟨0, .hypervisor, false, .stay⟩ }
     s.act ended.id = some ended ∧ ended.gang = none ∧ ended.meet = none ∧ s.preempting 0 = true) ∧
    (let s := withDomain 0 (atCode ended)
     ended.handler = none ∧ ((s.fn 0).owner 0).any (fun d => d.rstate != .killed && d.policy == 0 && d.handler != 0) = true ∧
      s.recordFree 0 0 = true ∧ s.badEntry ended = none ∧ (badEntries s).badEntry ended ≠ none ∧
      ((s.fn 0).region (s.fn 0).cfg.hcrgn).any (fun d => d.rstate == .open) = true ∧
      (((s.fn 0).chain (s.fn 0).cfg.hcrgn).all fun q => !q.bad) = true) ∧
    ((((atCode ended).fn 0).chain ((atCode ended).fn 0).cfg.hcrgn) = [] ∧
      ((atCode ended).fn 0).region ((atCode ended).fn 0).cfg.hcrgn = none) ∧
    (let s := withDomain 2 (atCode ended)
     ((s.fn 0).owner 0).any (fun d => d.rstate != .killed && d.policy == 2) = true ∧ s.badEntry ended = none) := by decide +kernel

/-! ### Witnesses: events -/

/-- A one-element CFILL of tag 3. -/
def fill (ch : Option Child) : Copy := ⟨.cfill, 3, 0, ⟨List.replicate 8 0⟩, [], 0, 0, [], none, ch⟩

/-- A waiting activity with a copy in flight. -/
def filler (ch : Option Child) : Act := { atBlock 65536 0 with copies := [fill ch] }

/-- A state of some activities. -/
def among (l : List Act) : State := { State.reset with acts := l }

/-- A matrix command to start, and one that has started. -/
def swapCmd (started : Bool) : MCmd := ⟨0, .mwswap, 4096, 3, [16], [], [], started, [], false, false, 0, false, false, [], false⟩

/-- An MSTREAM over a plane without a format: its start fails. -/
def streamCmd : MCmd := ⟨0, .mstream false true 0, 4096, 3, [16], [⟨[]⟩], [], false, [⟨0, [], 0⟩], false, false, 0, false, false, [], false⟩

/-- Member 0 of `gangWith`. -/
def member : Act := { Act.fresh ⟨0, 0⟩ 0 0 1 0 with gang := some (0, 0) }

/-- A state with the gang `gangWith cmds`. -/
def gangState (cmds : List MCmd) : State := { among [member] with gangs := [gangWith cmds] }

/-- The stage-1 tables of function 0 at intermediate pages 2 to 4, worked out from R120: tenant page 1 leads to
intermediate page `n`, or where `big` lies in the 2 MiB page at 200000h. -/
def stage1Cells (n : Byte) (big : Bool := false) : List Host.Cell :=
  [(0x20020002, 0x03), (0x20020007, 0x80), (0x20030002, if big then 0x20 else 0x04),
    (0x20030007, if big then 0xC0 else 0x80), (0x2004000A, n), (0x2004000F, 0xC0)]

/-- Function 0 with those tables. -/
def withTables (s : State) : State :=
  s.modFn 0 fun f => { f with stage1 := [⟨1, 1, false⟩], tables := [(0, 2), (2, 3), (16386, 4)] }

/-- Page 1 of function 0 is mapped by both stages. -/
def walkState (n : Byte) (big : Bool := false) : State :=
  { withTables State.reset with mem := tableCells ++ stage1Cells n big }

theorem test_witness_EngineEvents :
    ((among [filler none]).act ⟨0, 7⟩ = some (filler none) ∧ (filler none).copyOf 3 = some (fill none) ∧
      (among [filler none]).copyRuns (filler none) (fill none) = true) ∧
    ((among [filler (some ⟨64, none, 0, 0⟩)]).copyRuns (filler (some ⟨64, none, 0, 0⟩)) (fill (some ⟨64, none, 0, 0⟩)) = true) ∧
    ((walkState 1).s1Walk 0 0 (65536 / 65536) = .ok ⟨1, false, [2, 3, 4]⟩ ∧
      ((walkState 1).stage2Entry 0 1).isSome = true ∧
      (walkState 1).walk2 0 (1 * 65536) = some (0x20010000, false)) ∧
    (walkState 1 true).s1Walk 0 0 1 = .ok ⟨33, true, [2, 3]⟩ ∧
    (State.reset.walk1 0 0 1).isOk = false ∧
    ((walkState 100).walk1 0 0 1 = .ok 100 ∧ (walkState 100).walk2 0 (100 * 65536) = none) ∧
    ((gangState [swapCmd false]).act ⟨0, 0⟩ = some member ∧
      (gangState [swapCmd false]).gangOf member = some (gangWith [swapCmd false]) ∧
      (gangWith [swapCmd false]).cmd 0 = some (swapCmd false) ∧
      (gangState [swapCmd false]).matrixRuns (gangWith [swapCmd false]) (swapCmd false) = true ∧
      ((gangState [swapCmd false]).fn 0).preempt = none ∧ (gangWith [swapCmd false]).turnOf 0 = true ∧ (gangWith [swapCmd false]).startOk (swapCmd false) = true) ∧
    ((gangWith [swapCmd false, { swapCmd false with idx := 1 }]).cmd 1 = some { swapCmd false with idx := 1 } ∧
      swapCmd false ∈ (gangWith [swapCmd false, { swapCmd false with idx := 1 }]).cmds ∧ (swapCmd false).pending = true) ∧
    ((gangState [streamCmd]).matrixRuns (gangWith [streamCmd]) streamCmd = true ∧ (gangWith [streamCmd]).turnOf 0 = true ∧
      (gangWith [streamCmd]).startOk streamCmd = false) ∧
    ((gangState [swapCmd true]).matrixRuns (gangWith [swapCmd true]) (swapCmd true) = true ∧
      (gangWith [swapCmd true]).cmd 0 = some (swapCmd true)) := by decide +kernel

/-- A CBANK and an MWLOAD of an activity whose region's entry fails its check code. -/
theorem test_witness_EngineEvents_badEntry :
    let c : Copy := { fill none with kind := .cbank }
    let x : Act := { filler none with copies := [c] }
    let s := badEntries (withDomain 0 (among [x]))
    s.act ⟨0, 7⟩ = some x ∧ x.copyOf 3 = some c ∧ s.copyRuns x c = true ∧ (s.badEntry x).isSome = true ∧
    (let m : MCmd := { swapCmd true with kind := .mwload false }
     let t := badEntries (withDomain 0 (gangState [m]))
     t.matrixRuns (gangWith [m]) m = true ∧ (t.badEntry member).isSome = true ∧
      (t.captureAll (gangWith [m]) m).kind = .mwload false) := by decide +kernel

/-- Function 0 with its tables, its ring at intermediate page 16 with one record to take, and a host-held loan of page 1;
the image at page 1 and the record carry check codes worked out outside Lean. -/
def launchState (record : List Host.Cell) : State :=
  { (withTables State.reset).modFn 0 fun f => { f with
      cfg := { f.cfg with lqbase := 0x100000 }, prod := f.prod.set 0 1, hostLoans := [(1, 1, false)], pageu := 1 } with
    mem := tableCells ++ [(0x2001000C, 0x18), (0x2001000D, 0x01), (0x2001000E, 0x04), (0x20010014, 0x08),
      (0x20010060, 0x04), (0x2001007C, 0x02), (0x2001008C, 0x01), (0x200100F8, 0x3D), (0x200100F9, 0x38)] ++
      stage1Cells 1 ++ record }

/-- A record that passes every check: image at 65536, entry 65792, arguments 1 to 4, page 1 to loan register 0. -/
def goodRecord : List Host.Cell :=
  [(0x20100002, 0x01), (0x20100009, 0x01), (0x2010000A, 0x01), (0x20100010, 0x01), (0x20100018, 0x02), (0x20100020, 0x03),
    (0x20100028, 0x04), (0x20100042, 0x01), (0x20100047, 0x40), (0x20100048, 0x01), (0x201000F8, 0x1C), (0x201000F9, 0x3F)]

/-- The words of that record and of its image. -/
def goodBytes : List Byte :=
  ([0x10000, 0x10100, 1, 2, 3, 4, 0, 0, 0x4000000000010000, 1] ++ List.replicate 21 0 ++ [0x3F1C]).flatMap (leBytes 8)
/-- See `goodBytes`. -/
def imageBytes : List Byte :=
  ([0, 0x4011800000000, 0x800000000] ++ List.replicate 9 0 ++ [4, 0, 0, 0x200000000, 0, 0x100000000] ++
    List.replicate 13 0 ++ [0x383D]).flatMap (leBytes 8)

theorem image_read : (launchState goodRecord).vaRead 0 0x10000 256 = imageBytes :=
  (State.vaRead_mapped (p := 1) (o := 0) (ip := 1) (pa := 0x20010000) (by decide +kernel)
    (by decide +kernel) (by decide +kernel) (by omega)).trans (by decide +kernel)

/-- A record and an image whose check codes were worked out by hand pass the checks of R346. -/
theorem test_launch_status : (launchState goodRecord).ipaRead 0 0x100000 256 = goodBytes ∧
    (launchState goodRecord).launchStatus 0 goodBytes false = 0 := by
  refine ⟨(State.ipaRead_mapped (p := 16) (o := 0) (pa := 0x20100000) (by decide +kernel) (by decide +kernel)
    (by omega)).trans (by decide +kernel), ?_⟩
  have h : wordOf goodBytes 0 / 256 * 256 = 0x10000 := by decide +kernel
  simp only [State.launchStatus, h, image_read]
  decide +kernel

/-- A page that stage 2 does not map gives a record of zeros, which status 1 refuses. -/
theorem test_launch_refused : State.reset.ipaRead 0 0x40000000 256 = List.replicate 256 0 ∧
    State.reset.launchStatus 0 (List.replicate 256 0) false = 1 :=
  ⟨State.ipaRead_unmapped (p := 0x4000) (o := 0) (by decide +kernel) (by omega), by decide +kernel⟩

/-- A ready activity 7 with a record that passes its check. -/
def waiter : Act := ({ atBlock 65536 0 with run := .ready, place := none }).stamp

/-- What the unit of die 0 selects: whether its record and its region's entry are good, and whether it has a place. -/
def selected (s : State) : Option (Bool × Bool) :=
  (s.select 0).map fun q => ((s.badRead q.1).isNone, !(q.2.placesOnDie q.1 0).isEmpty)

/-- An activity on core 0, slot `k`, that waits since time 0. -/
def holder (k : Nat) : Act :=
  { atBlock 65536 0 with id := ⟨0, 20 + k⟩, run := .waiting, wkind := .wtall, place := some ⟨0, k⟩ }

/-- The lead-to-be of a quadrant gang. -/
def ganger : Act := ({ atBlock 65536 0 with run := .waiting, wkind := .gang, reshape := some .quad }).stamp

/-- Four waiting activities hold the slots of core 0 while another of a higher priority is ready. -/
def crowded : State := { withDomain 0 (among [holder 0, holder 1, holder 2, holder 3, { waiter with prio := 3 }]) with
  mem := tableCells }

/-- A gang reservation with `n` free records in its region. -/
def gangWaits (n : Nat) : State := (withDomain 0 (among [ganger])).modRegion 0 0 fun r => { r with rfree := n }

/-- The lead of a gang that waits to be placed again. -/
def savedLead : Act := ({ member with run := .ready, reshape := some .quad }).stamp

/-- Its state. -/
def gangReturns : State := { withDomain 0 (among [savedLead]) with gangs := [{ gangWith [] with site := none }] }

theorem test_witness_LaunchAndPlacement :
    (((launchState goodRecord).fn 0).cfg.en = true ∧ (launchState goodRecord).fnRuns 0 = true ∧
      (launchState goodRecord).locked = true ∧ 0 < ((launchState goodRecord).fn 0).cfg.lqcount ∧
      ((launchState goodRecord).fn 0).cons.getD 0 0 ≠ ((launchState goodRecord).fn 0).prod.getD 0 0) ∧
    ({ launchState [] with kills := [⟨.queue 0 0, [], [], none⟩] } : State).kills = [⟨.queue 0 0, [], [], none⟩] ∧
    selected (withDomain 0 (among [waiter])) = some (true, true) ∧
    (selected (badEntries (withDomain 0 (among [waiter])))).map (·.1) = some false ∧
    (selected (withDomain 0 (among [{ waiter with record := [] }]))).map (·.1) = some false ∧
    (recordOk waiter.record = true ∧ recordOk ({ waiter with record := [] } : Act).record = false) ∧
    (crowded.act ⟨0, 20⟩ = some (holder 0) ∧ crowded.wantsWriteBack (holder 0) = true ∧
      crowded.badEntry (holder 0) = none ∧ (crowded.writeBackAll ⟨0, 20⟩).isSome = true) ∧
    ((badEntries crowded).wantsWriteBack (holder 0) = true ∧ ((badEntries crowded).badEntry (holder 0)).isSome = true) ∧
    ((among [waiter]).act ⟨0, 7⟩ = some waiter ∧ waiter.run = .ready ∧ (among [waiter]).badEntry waiter = none ∧
      (badEntries (withDomain 0 (among [waiter]))).badEntry waiter ≠ none ∧ ganger.run = .waiting ∧ ganger.wkind = .gang ∧
      (gangWaits 5).badEntry ganger = none ∧ ({ ganger with wkind := .split, place := none } : Act).place = none ∧
      ∀ r ∈ ((launchState goodRecord).fn 0).regions, r.bad = false) ∧
    ((gangWaits 5).act ⟨0, 7⟩ = some ganger ∧ ganger.reshape = some .quad ∧
      ({ ganger with run := .waiting, wkind := .gang } : Act).wkind = .gang ∧ (gangWaits 5).gangOf ganger = none ∧
      (gangWaits 5).wantsSite ganger = true ∧ ((gangWaits 5).badRead ganger = none ∨ ganger.place.isSome = true) ∧
      ((gangWaits 5).chooseSite ganger .quad fun _ => ganger.banks).isSome = true ∧ ganger.trap = none ∧
      (let g : Act := { ganger with trap := some (5, 65536, 2) }
       let s := (withDomain 0 (among [g])).modRegion 0 0 fun r => { r with rfree := 5 }
       s.wantsSite g = true ∧ g.trap.isSome = true ∧ ((s.chooseSite g .quad fun _ => g.banks).any fun site =>
        (((s.formGang g .quad site).refreshEnvu 0).act ⟨0, 7⟩).isSome) = true) ∧
      (((gangWaits 5).fn 0).root 0).any (fun r => decide (sizeOfShape .quad - 1 ≤ r.rfree)) = true) ∧
    ((gangWaits 2).wantsSite ganger = true ∧
      (((gangWaits 2).fn 0).root 0).any (fun r => decide (sizeOfShape .quad - 1 ≤ r.rfree)) = false) ∧
    ((gangReturns.gangOf savedLead).isSome = true ∧ gangReturns.wantsSite savedLead = true ∧
      ((gangReturns.crew savedLead).all fun y => (gangReturns.badRead y).isNone) = true ∧
      (gangReturns.chooseSite savedLead .quad (gangReturns.crewBanks savedLead)).isSome = true) ∧
    ((badEntries gangReturns).wantsSite savedLead = true ∧ (badEntries gangReturns).crew savedLead = [savedLead] ∧
      savedLead.place = none ∧ ((badEntries gangReturns).badRead savedLead).isSome = true) := by decide +kernel

/-- A YIELD that gives way: activity 7 leaves core 0 to a ready one. -/
theorem test_witness_CommitWritesRegistersAndCarrel_yield :
    let x := leaving (exiting (.yield 65600)) 1
    let s := withDomain 0 { leavingFrom x with
      acts := [x, { waiter with id := ⟨0, 8⟩ }, holder 1, holder 2, holder 3], mem := tableCells }
    let u := s.modAct x.id (Act.goTo 65600)
    u.yieldsTo [x.id] [x.coreNum] = true ∧ x.trap = none ∧ x.inMeeting = false ∧ (u.writeBackAll x.id).isSome = true := by
  decide +kernel

/-- A retiring activity. -/
def leaver : Act := { atBlock 65536 0 with retiring := true }

/-- A retiring activity that holds a loan. -/
def loaned : Act := { leaver with l := (Vector.replicate 8 .empty).set 0 (.loan 64 2 false) }

/-- A retiring activity that still has to raise trap 5. -/
def trapper : Act := { leaver with trap := some (5, 65536, 2) }

/-- An activity that sleeps until time `n`. -/
def sleeper (n : Nat) : Act := { atBlock 65536 0 with run := .waiting, wkind := .sleep, wop := n, place := none }

/-- A tree of two regions: root 0, child 1, killed; `k` is the kill in progress. -/
def killing (k : KillTarget) (rs : List Nat) (e : Option Nat) : State :=
  { State.reset.modFn 0 fun f => { f with regions := [{ (default : Region) with idx := 0, rstate := .killed },
      { (default : Region) with idx := 1, parent := some 0, rstate := .killed }] } with kills := [⟨k, rs, [], e⟩] }

theorem test_witness_EndsOfActivities :
    ((among [leaver]).act ⟨0, 7⟩ = some leaver ∧ leaver.retiring = true ∧ leaver.saved = false ∧
      (among [leaver]).fnOn 0 = true ∧ (among [leaver]).crew leaver = [leaver] ∧ leaver.copies = [] ∧
      leaver.trap = none ∧ (among [leaver]).badEntry leaver = none) ∧
    ((badEntries (withDomain 0 (among [leaver]))).act ⟨0, 7⟩ = some leaver ∧
      (badEntries (withDomain 0 (among [leaver]))).fnOn 0 = true ∧
      ((badEntries (withDomain 0 (among [leaver]))).badEntry leaver).isSome = true) ∧
    ((among [trapper]).act ⟨0, 7⟩ = some trapper ∧ trapper.gang = none ∧ trapper.trap = some (5, 65536, 2) ∧
      trapper.copies = [] ∧ (among [trapper]).badEntry trapper = none) ∧
    ((∀ q ∈ ((among [loaned]).fn 0).shelves, q.unsealing = false) ∧ (among [loaned]).act ⟨0, 7⟩ = some loaned ∧
      (∀ r ∈ loaned.l.toList, r = .empty ∨ r = .loan 64 2 false) ∧ LReg.loan 64 2 false ∈ loaned.l.toList ∧
      loaned.place.isSome = true) ∧
    ((killing (.queue 0 3) [] none).kills.find? (fun y => y.target == .queue 0 3)).any (fun x => x.entry.isNone) = true ∧
    ((killing (.queue 0 3) [] none).killLanded ⟨.queue 0 3, [], [], none⟩ = true ∧
      ({ killing (.queue 0 3) [] none with msgs := [⟨4, .kill 0 9 ⟨0, 2⟩⟩] } : State).killLanded
        ⟨.queue 0 3, [], [⟨0, 2⟩], none⟩ = false) ∧
    ((killing (.tree 0 1) [1] none).kills.find? (fun y => y.target == .tree 0 1)).any (fun x => x.entry.isNone) = true ∧
    (((killing (.tree 0 1) [1] none).fn 0).region 1).any (fun r => r.parent == some 0) = true ∧
    (((killing (.tree 0 0) [0, 1] none).fn 0).region 0).any (fun r => r.parent.isNone) = true ∧
    ((killing (.tree 0 0) [0, 1] (some 4)).kills.find? (fun y => y.target == .tree 0 0)).any
      (fun x => x.entry == some 4) = true ∧
    ((among [sleeper 0]).act ⟨0, 7⟩ = some (sleeper 0) ∧ (sleeper 0).gang = none ∧ (sleeper 0).run = .waiting ∧
      (sleeper 0).wkind = .sleep ∧ (sleeper 0).wop ≤ (among [sleeper 0]).time ∧ (sleeper 0).trap = none ∧
      (sleeper 0).place = none) ∧
    (((withDomain 0 (among [])).fn 0).region 0).any (fun r => r.rstate == .open && r.parent.isNone &&
      (r.returned + r.issued) % 2 ^ 64 == r.issued) = true := by decide +kernel

/-- A party that waits in a meeting at a desk. -/
def party (n : Nat) (d : Option Nat) : Party := ⟨⟨0, n⟩, 0, d, 0, 0⟩

/-- The waiting activity of that party. -/
def waits (n : Nat) (k : WKind) : Act :=
  { atBlock 65536 0 with
    id := ⟨0, n⟩, run := .waiting, wkind := k, place := none,
    meet := some { meetingWith ⟨0, 0⟩ with begun := false } }

/-- A state with one message and some desks; parties 1, 2 and 3 exist. -/
def deskState (k : MsgKind) (ds : List Desk) : State :=
  { among [waits 1 .meet, waits 2 .meet, waits 3 .gather] with msgs := [⟨4, k⟩], desks := ds }

/-- The desk of key 9. -/
def deskOf (st : DeskSt) : Desk := ⟨0, 9, 0, false, [], (0, 0), st⟩

/-- What an arrival of party 1 at key 9 finds: the message, the route, and the desk after expiries. -/
def arrival (s : State) : Option (Option DeskSt) :=
  match s.msg 4, s.route 0 9 with
  | some _, .here 0 => if s.fnRuns 0 then some (((s.takeMsg 4).expireDesk 0 9).desk 0 9 |>.map (·.st)) else none
  | _, _ => none

/-- The arity word of a gathering of three parties with 64-bit unsigned lanes. -/
def three : Word := 0x100003

/-- Arrivals at no desk (in time, late, without a free key), at a desk with a first party, without one, of the other
kind. -/
theorem test_witness_DeskEvents :
    arrival (deskState (.meetArrival (party 1 none) 9) []) = some none ∧ (party 1 none).due 0 = false ∧
    (party 1 (some 0)).due 0 = true ∧
    (((deskState (.meetArrival (party 1 none) 9) []).takeMsg 4).newDesk 0 9 (waits 1 .meet)
      (.meeting (some (party 1 none)) [])).isSome = true ∧
    (((withDomain 0 (deskState (.meetArrival (party 1 none) 9) [])).takeMsg 4).newDesk 0 9 (waits 1 .meet)
      (.meeting (some (party 1 none)) [])).isSome = false ∧
    (((deskState (.meetArrival (party 1 none) 9) []).takeMsg 4).badEntry (waits 1 .meet) = none ∧
      ((withDomain 0 (deskState (.meetArrival (party 1 none) 9) [])).takeMsg 4).badEntry (waits 1 .meet) = none ∧
      (badEntries (withDomain 0 (deskState (.meetArrival (party 1 none) 9) []))).badEntry (waits 1 .meet) ≠ none) ∧
    arrival (deskState (.meetArrival (party 1 none) 9) [deskOf (.meeting (some (party 2 none)) [])]) =
      some (some (.meeting (some (party 2 none)) [])) ∧
    arrival (deskState (.meetArrival (party 1 none) 9) [deskOf (.meeting none [(party 2 none, party 3 none)])]) =
      some (some (.meeting none [(party 2 none, party 3 none)])) ∧
    arrival (deskState (.meetArrival (party 1 none) 9) [deskOf (.gathering 3 none)]) = some (some (.gathering 3 none)) ∧
    gatherOk .add three = true ∧ gatherOk .add 0x100001 = false ∧
    arrival (deskState (.gatherArrival (party 1 none) 9 three .add)
      [deskOf (.gathering 0 (some ⟨three, .add, [party 2 none, party 3 none]⟩))]) =
        some (some (.gathering 0 (some ⟨three, .add, [party 2 none, party 3 none]⟩))) ∧
    ([party 2 none, party 3 none].length + 1 = arityCount three ∧ [party 2 none].length + 1 ≠ arityCount three) ∧
    ((deskState (.kill 0 9 ⟨0, 2⟩) [deskOf (.meeting (some (party 2 (some 0))) [])]).desk 0 9 =
      some (deskOf (.meeting (some (party 2 (some 0))) [])) ∧ (party 2 (some 0)).due 0 = true) ∧
    firstDue 0 0 [party 2 none, party 3 (some 0)] = some (party 3 (some 0)) ∧
    firstDue 0 9 [party 2 (some 4), party 3 (some 2)] = some (party 3 (some 2)) ∧ (party 3 (some 2)).id ≠ ⟨0, 2⟩ ∧
    (∀ q ∈ [party 2 (some 4), party 3 (some 2)], q.id.fn < 32 ∧ q.id.serial < 2 ^ 32) ∧
    (((deskState (.kill 0 9 ⟨0, 2⟩) [deskOf (.meeting (some (party 2 none)) [])]).takeMsg 4).expireDesk 0 9).desk 0 9 =
      some (deskOf (.meeting (some (party 2 none)) [])) ∧
    (((deskState (.kill 0 9 ⟨0, 2⟩) [deskOf (.meeting none [(party 2 none, party 3 none)])]).takeMsg 4).expireDesk 0 9).desk
      0 9 = some (deskOf (.meeting none [(party 2 none, party 3 none)])) ∧
    (((deskState (.kill 0 9 ⟨0, 2⟩) [deskOf (.gathering 1 (some ⟨three, .add, [party 2 none]⟩))]).takeMsg 4).expireDesk 0
      9).desk 0 9 = some (deskOf (.gathering 1 (some ⟨three, .add, [party 2 none]⟩))) := by decide +kernel

/-- Party 2 waits on core 0 for a meeting under key 9. -/
def resident : Act := { waits 2 .meet with place := some ⟨0, 1⟩, wop := keyDigest 0 9 }

/-- Its state: party 1 arrives where party 2 waits. -/
def metState : State :=
  { deskState (.meetArrival (party 1 none) 9) [deskOf (.meeting (some (party 2 none)) [])] with
    acts := [waits 1 .meet, resident] }

theorem test_witness_DeskEvents_waits : arrival metState = some (some (.meeting (some (party 2 none)) [])) ∧
    ((metState.takeMsg 4).expireDesk 0 9).stillWaits (party 2 none) 9 = true := by
  refine ⟨by decide +kernel, ?_⟩
  have h : ((metState.takeMsg 4).expireDesk 0 9).act (party 2 none).id = some resident := rfl
  unfold State.stillWaits
  rw [h]
  simp [resident, waits, party]

theorem test_witness_GatheringResult :
    (∀ u ∈ [(3 : Nat), 5], u < 2 ^ 64 ∧ u < 2 ^ gatherWidth 5) ∧ [(3 : Nat), 5] ≠ [] ∧ arityType 0x800003 = 8 ∧
    arityType three < 5 ∧ gatherWidth (arityType three) = 64 ∧
    gatherFmt 2 = some fp32 ∧ fp32.read 0x7FC00000 = .nan ∧ fp32.read 0x7F800000 = .inf false ∧
    fp32.read 0xFF800000 = .inf true ∧ fp32.read 0x3F800000 = .fin false 8388608 8388608 ∧
    (fp32.read 0x80000000 = .fin true 0 (2 ^ 149) ∧ fp32.read 0 ≠ .nan) ∧
    (arityType 0x700003 ≠ 8 ∧ 31 < gatherLanes (arityType 0x700003)) := by decide +kernel

/-- A pair at the desk of key 9, and the state in which its meeting has a place. -/
def pairState : State := deskState (.meetArrival (party 1 none) 0) [deskOf (.meeting none [(party 1 none, party 2 none)])]

/-- A meeting of parties 1 and 2 about to begin; party 1 stands on core 0. -/
def travelState : State :=
  { among [{ waits 1 .meet with place := some ⟨0, 0⟩ }, waits 2 .meet] with
    meetings := [⟨6, ⟨0, 1⟩, ⟨0, 2⟩, 0, false⟩] }

/-- A party whose PART waits, and its partner. -/
def parter : Act :=
  { atBlock 65536 0 with id := ⟨0, 1⟩, run := .waiting, wkind := .part, meet := some (meetingWith ⟨0, 5⟩) }

/-- A waiting party with a record that passes its check. -/
def stamped (n : Nat) : Act := (waits n .meet).stamp

theorem test_witness_MeetingEvents :
    (∀ l ∈ [[stamped 1, stamped 2], [waits 1 .meet, stamped 2], [stamped 1, waits 2 .meet]],
      let s : State := { pairState with acts := l }
      l.all Act.lugQuiet = true ∧ (s.meetingCore (l.getD 0 default) (l.getD 1 default) 0).isSome = true ∧
      (l.all fun x => x.place.isNone) = true) ∧
    (pairState.badRead (stamped 1) = none ∧ pairState.badRead (stamped 2) = none ∧
      (pairState.badRead (waits 1 .meet)).isSome = true ∧ (pairState.badRead (waits 2 .meet)).isSome = true) ∧
    (pairState.desk 0 9 = some (deskOf (.meeting none [(party 1 none, party 2 none)])) ∧
      pairState.act ⟨0, 1⟩ = some (waits 1 .meet) ∧ pairState.act ⟨0, 2⟩ = some (waits 2 .meet) ∧
      pairState.fnRuns 0 = true ∧ (pairState.meetingCore (waits 1 .meet) (waits 2 .meet) 0).isSome = true) ∧
    (travelState.meetings.find? (fun q => q.num == 6 && !q.begun) = some ⟨6, ⟨0, 1⟩, ⟨0, 2⟩, 0, false⟩ ∧
      travelState.fnOn 0 = true ∧ travelState.stopped = false) ∧
    ((deskState (.landing ⟨0, 1⟩ 0 2 none) []).msg 4 = some (.landing ⟨0, 1⟩ 0 2 none) ∧
      (deskState (.landing ⟨0, 1⟩ 0 2 none) []).act ⟨0, 1⟩ = some (waits 1 .meet) ∧ (waits 1 .meet).saved = false) ∧
    (travelState.act ⟨0, 1⟩ = some { waits 1 .meet with place := some ⟨0, 0⟩ } ∧ (waits 1 .meet).gang = none ∧
      (waits 1 .meet).run = .waiting ∧ (waits 1 .meet).trap = none ∧ (waits 1 .meet).env.kind ≠ .spilled) ∧
    ((among [parter, other]).act ⟨0, 1⟩ = some parter ∧ parter.meet = some (meetingWith ⟨0, 5⟩) ∧
      parter.wkind = .part ∧ parter.run = .waiting ∧ (meetingWith ⟨0, 5⟩).parting = none ∧
      (among [parter, other]).fnRuns 0 = true) := by decide +kernel

/-- Function `v` with what `g` sets. -/
def withFn (v : Nat) (g : Func → Func) (s : State) : State := s.modFn v g

/-- Function 1 enabled and running in slice group 2 with slices of 1000 µs, function 2 its parked fellow with a record to
launch when `work`. -/
def grouped (work : Bool) : State :=
  withFn 2 (fun f => { f with
    cfg := { f.cfg with en := true, group := 2, slice := 1000, lqcount := 1 }, state := .parked,
    prod := if work then f.prod.set 0 1 else f.prod }) <|
  withFn 1 (fun f => { f with
    cfg := { f.cfg with en := true, group := 2, slice := 1000 }, state := .running, sliceLen := 1000000 }) State.reset

/-- Function 0 in a pre-emption. -/
def preempted (closed : Bool) (goal : PreGoal) : State :=
  withFn 0 (fun f => { f with preempt := some ⟨0, .hypervisor, closed, goal⟩ }) State.reset

/-- A schedule table at 4000h whose entry 0 is enabled with policy `pol`, function 1, period 65536 ns and next launch at
`next`; bit 0 of its state is `busy`. -/
def scheduled (pol busy next : BitVec 8) (on : List Sched) : State :=
  { withFn 0 (fun f => { f with cfg := { f.cfg with lstab := 0x4000 } }) State.reset with
    mem := ([(0x400A, 1), (0x401F, 0x81 ||| (pol <<< (5 : Nat)))] : List Host.Cell) ++
      (if busy = 0 then [] else [(0x4020, busy)]) ++ (if next = 0 then [] else [(0x4030, next)])
    sched := on }

theorem test_witness_PreemptionEvents :
    ((State.reset.fn 0).state = .running ∧ (State.reset.fn 0).preempt = none ∧ State.reset.vfBusy = none) ∧
    (((preempted false .stay).fn 0).preempt = some ⟨0, .hypervisor, false, .stay⟩ ∧
      0 + 4000 ≤ ({ preempted false .stay with time := 4000 } : State).time) ∧
    ((preempted true .stay).atBoundary 0 = true ∧ (preempted true .stay).stopped = false) ∧
    ((grouped true).groupBusy 2 = false ∧ (grouped true).runningOf 2 = some 1 ∧ ((grouped true).fn 1).preempt = none ∧
      (grouped true).time < ((grouped true).fn 1).sliceFrom + ((grouped true).fn 1).sliceLen) ∧
    (((grouped true).fn 1).sliceFrom + ((grouped true).fn 1).sliceLen ≤
        ({ grouped true with time := 1000000 } : State).time ∧
      ({ grouped true with time := 1000000 } : State).nextMember 2 1 = some 2 ∧
      ({ grouped false with time := 1000000 } : State).nextMember 2 1 = none) ∧
    (bit ((scheduled 0 0 0 []).schedGet 0 0x18) 63 = true ∧ bits ((scheduled 0 0 0 []).schedGet 0 0x18) 62 61 = 0 ∧
      bits ((scheduled 0 0 0 []).schedGet 0 0x18) 60 56 = 1 ∧ (scheduled 0 0 0 []).schedGet 0 0x08 = 65536 ∧
      (scheduled 0 0 0 []).sched.find? (fun x => x.entry == 0) = none ∧ (scheduled 0 0 0 []).locked = true) ∧
    ((scheduled 1 0 5 [⟨0, true, []⟩]).sched.find? (fun x => x.entry == 0) = some ⟨0, true, []⟩ ∧
      (scheduled 1 0 5 [⟨0, true, []⟩]).time < (scheduled 1 0 5 [⟨0, true, []⟩]).schedGet 0 0x30 ∧
      bits ((scheduled 1 0 5 [⟨0, true, []⟩]).schedGet 0 0x18) 62 61 = 1) ∧
    ((scheduled 0 0 0 [⟨0, true, []⟩]).schedGet 0 0x30 ≤ (scheduled 0 0 0 [⟨0, true, []⟩]).time ∧
      bit ((scheduled 0 0 0 [⟨0, true, []⟩]).schedGet 0 0x20) 0 = false ∧
      bit ((scheduled 0 1 0 [⟨0, true, []⟩]).schedGet 0 0x20) 0 = true ∧
      (scheduled 0 1 0 [⟨0, true, []⟩]).schedGet 0 0x30 = 0) := by decide +kernel

/-- A state whose next operation of the %vf group is `op` on function 1, the record of which memory holds. -/
def recordState (op : VfOp) (record : List Host.Cell) : State :=
  { State.reset with vfPending := [(op, 1)], mem := record }

/-- A record of function 1 that passes every check: quadrant 4, channel 2, one queue, key slot 1; its check code was
worked out outside Lean. -/
def goodVf : List Host.Cell :=
  [(0x20000200, 0x10), (0x20000288, 0x04), (0x20000298, 0x01), (0x200002A4, 0x10), (0x200002AC, 0x01), (0x200002AE, 0x01),
    (0x200002CC, 0x01), (0x200002EF, 0x80), (0x200003F8, 0xF3), (0x200003F9, 0x1E)]

/-- The same record with en 0, which passes every check too (R389). -/
def offVf : List Host.Cell :=
  [(0x20000200, 0x10), (0x20000288, 0x04), (0x20000298, 0x01), (0x200002A4, 0x10), (0x200002AC, 0x01), (0x200002AE, 0x01),
    (0x200002CC, 0x01), (0x200003F8, 0x69), (0x200003F9, 0x61)]

/-- Function 1 enabled, with a save area of `pages` pages. -/
def enabled (pages : Nat) (s : State) : State :=
  withFn 1 (fun f => { f with cfg := { f.cfg with en := true, quad := [4], chan := [2], savep := pages }, state := .running }) s

/-- The same state with its operation taken. -/
def taken (s : State) : State := { s with vfPending := [] }

theorem crc_append (w p c : Nat) (a b : List Byte) : crc w p c (a ++ b) = crc w p (crc w p c a) b := by
  induction a generalizing c with
  | nil => rfl
  | cons x xs ih => exact ih _

theorem crc16_two (l : List Byte) (k m n : Nat) (h : crc 16 0x1021 0xFFFF (l.take k) = m)
    (h2 : crc 16 0x1021 m (l.drop k) = n) : crc16 l = n := by
  rw [crc16, ← List.take_append_drop k l, crc_append, h, h2]

/-- Function 1 enabled and its record turned off. -/
def turningOff : State :=
  withFn 1 (fun f => { f with cfg := { f.cfg with kslot := 1 } }) (enabled 0 (recordState .commit offVf))

theorem goodVf_crc : crc16 (vfBody ((taken (recordState .commit goodVf)).recBytes 1)) = 0x1EF3 :=
  crc16_two _ 252 0xf65c _ (by decide +kernel) (by decide +kernel)

theorem offVf_crc : crc16 (vfBody ((taken (recordState .commit offVf)).recBytes 1)) = 0x6169 :=
  crc16_two _ 252 0x43fc _ (by decide +kernel) (by decide +kernel)

theorem turningOff_crc : crc16 (vfBody ((taken turningOff).recBytes 1)) = 0x6169 :=
  crc16_two _ 252 0x43fc _ (by decide +kernel) (by decide +kernel)

theorem emptyVf_crc : crc16 (vfBody ((taken (recordState .commit [])).recBytes 1)) = 0x5251 :=
  crc16_two _ 252 0x9116 _ (by decide +kernel) (by decide +kernel)

theorem test_witness_FunctionRecordEvents_heads :
    (recordState .commit goodVf).vfHead .commit 1 = some (taken (recordState .commit goodVf)) ∧
    (recordState .commit offVf).vfHead .commit 1 = some (taken (recordState .commit offVf)) ∧
    turningOff.vfHead .commit 1 = some (taken turningOff) ∧
    (recordState .commit []).vfHead .commit 1 = some (taken (recordState .commit [])) :=
  ⟨rfl, rfl, rfl, rfl⟩

theorem test_witness_FunctionRecordEvents_commit :
    ((taken (recordState .commit goodVf)).commitStatus 1 = 0 ∧
      (vfRecOf ((taken (recordState .commit goodVf)).recBytes 1)).en = true ∧
      ((taken (recordState .commit goodVf)).fn 1).cfg.en = false) ∧
    ((taken (recordState .commit offVf)).commitStatus 1 = 0 ∧
      (vfRecOf ((taken (recordState .commit offVf)).recBytes 1)).en = false ∧
      ((taken (recordState .commit offVf)).fn 1).cfg.en = false) ∧
    ((taken turningOff).commitStatus 1 = 0 ∧ (vfRecOf ((taken turningOff).recBytes 1)).en = false ∧
      ((taken turningOff).fn 1).cfg.en = true) ∧
    (taken (recordState .commit [])).commitStatus 1 = 3 := by
  refine ⟨⟨?_, ?_⟩, ⟨?_, ?_⟩, ⟨?_, ?_⟩, ?_⟩
  · simp only [State.commitStatus, State.vfFieldsOk, goodVf_crc]; decide +kernel
  · decide +kernel
  · simp only [State.commitStatus, State.vfFieldsOk, offVf_crc]; decide +kernel
  · decide +kernel
  · simp only [State.commitStatus, State.vfFieldsOk, turningOff_crc]; decide +kernel
  · decide +kernel
  · simp only [State.commitStatus, State.vfFieldsOk, emptyVf_crc]; decide +kernel

/-- Function 1 as `turningOff` has it, with what `g` sets, and its record committed again: `goodVf`, or with `moved` the
record with quadrant 5 and a save area of 33 pages, whose check code was worked out outside Lean. -/
def again (moved : Bool) (g : Func → Func) : State :=
  withFn 1 (fun f => g { f with cfg := { f.cfg with kslot := 1 } }) (enabled 0 (recordState .commit (if moved then
    [(0x20000200, 0x20), (0x20000288, 0x04), (0x20000298, 0x01), (0x200002A4, 0x10), (0x200002AC, 0x01), (0x200002AE, 0x01),
      (0x200002CC, 0x01), (0x200002DC, 0x21), (0x200002EF, 0x80), (0x200003F8, 0xF8), (0x200003F9, 0x08)] else goodVf)))

theorem again_crc : crc16 (vfBody ((taken (again false id)).recBytes 1)) = 0x1EF3 :=
  crc16_two _ 252 0xf65c _ (by decide +kernel) (by decide +kernel)

theorem moved_crc : crc16 (vfBody ((taken (again true id)).recBytes 1)) = 0x08F8 :=
  crc16_two _ 252 0xac05 _ (by decide +kernel) (by decide +kernel)

/-- Function 1 parked with an image that its new record has no room for. -/
def crammed (f : Func) : Func :=
  { f with state := .parked, image := 10, regions := [{ (default : Region) with idx := 3, rstate := .open }] }

/-- Commits of an enabled function: the same quadrants; other ones while it runs, while it is parked, and parked with an
image that does not fit. -/
theorem test_witness_FunctionRecordEvents_again :
    ((again false id).vfHead .commit 1 = some (taken (again false id)) ∧ (taken (again false id)).commitStatus 1 = 0 ∧
      ((taken (again false id)).fn 1).cfg.en = true ∧
      ((taken (again false id)).fn 1).cfg.quad = (vfRecOf ((taken (again false id)).recBytes 1)).quad) ∧
    ((again true id).vfHead .commit 1 = some (taken (again true id)) ∧ (taken (again true id)).commitStatus 1 = 0 ∧
      ((taken (again true id)).fn 1).cfg.quad ≠ (vfRecOf ((taken (again true id)).recBytes 1)).quad ∧
      ((taken (again true id)).fn 1).state ≠ .parked ∧
      (taken (again true id)).scrubs (vfRecOf ((taken (again true id)).recBytes 1)) = false) ∧
    (let u (g : Func → Func) : State := withFn 1 g (taken (again true id))
     let r := vfRecOf ((taken (again true id)).recBytes 1)
     ((u fun f => { f with state := .parked }).reshapeParked 1 r).isSome = true ∧
      (({ u crammed with images := [([], { (default : Saved) with fn := 1 })] } : State).reshapeParked 1 r).isNone =
        true) := by
  refine ⟨⟨rfl, ?_, by decide +kernel, by decide +kernel⟩, ⟨rfl, ?_, by decide +kernel, by decide +kernel, by decide +kernel⟩,
    by decide +kernel⟩
  · simp only [State.commitStatus, State.vfFieldsOk, again_crc]; decide +kernel
  · simp only [State.commitStatus, State.vfFieldsOk, moved_crc]; decide +kernel

/-- A commit of function 1 in progress towards the record `r`. -/
def committing (r : VfRec) : State :=
  { withFn 1 (fun f => { f with next := some r, state := .changing }) (enabled 0 State.reset) with vfBusy := some (.commit, 1) }

/-- Function 1 held off the part, its image at address 0 with its length, check code and stage-2 table. -/
def heldState : State :=
  { withFn 1 (fun f => { f with held := true, state := .parked }) (enabled 16 (recordState .restore [])) with
    mem := [(0, 10), (8, 0x42), (9, 0xA0)] }

/-- The same with a kept logical state of function 1, whose fields `g` sets. -/
def heldWith (g : Func → Func) : State :=
  { withFn 1 (fun f => g { f with image := 10 }) heldState with images := [([], { (default : Saved) with fn := 1 })] }

/-- Function 1 held in group 2, function 2 its fellow in state `st`. -/
def heldGrouped (st : FState) : State :=
  withFn 2 (fun f => { f with cfg := { f.cfg with en := true, group := 2 }, state := st })
    (heldWith fun f => { f with cfg := { f.cfg with group := 2 } })

/-- VF_RESTORE: a wrong check code, too many pages, no group, a group with and without a running member; the four ways
of NOCAPACITY that the statement names. -/
theorem test_witness_FunctionRecordEvents_restore :
    ((enabled 0 (recordState .restore [])).vfHead .restore 1).any (fun t =>
      !(withFn 1 (fun f => { f with held := true }) t).imageOk ((t.fn 1).cfg.save)) = true ∧
    ((heldWith fun f => { f with pageu := 5 }).vfHead .restore 1).any (fun t => t.imageOk (t.fn 1).cfg.save &&
      t.noCapacity 1 (t.fn 1).cfg.save) = true ∧
    ((heldWith id).vfHead .restore 1).any (fun t => (t.fn 1).cfg.en && (t.fn 1).held &&
      t.imageOk (t.fn 1).cfg.save && !t.noCapacity 1 (t.fn 1).cfg.save && (t.fn 1).cfg.group == 0) = true ∧
    (∀ st ∈ [FState.running, .parked], ((heldGrouped st).vfHead .restore 1).any (fun t =>
      t.imageOk (t.fn 1).cfg.save && !t.noCapacity 1 (t.fn 1).cfg.save && (t.fn 1).cfg.group != 0 &&
      ((t.groupMembers 2).filter (· != 1) == [2]) && (t.fn 2).state == st) = true) ∧
    ((heldWith fun f => { f with regions := [{ (default : Region) with idx := 3, rstate := .open }] }).imageAt 1 0).held.regions.any
      (fun r => decide (((heldWith id).fn 1).cfg.rtcount < r.idx + 1)) = true ∧
    ((heldWith id).fn 1).cfg.pageb < ((heldWith fun f => { f with pageu := 5 }).imageAt 1 0).held.pageu ∧
    ((({ heldWith id with
        acts := [{ actor with id := ⟨1, 7⟩, saved := true }], gangs := [{ gangWith [] with fn := 1, shape := .acre, members := [7] }] } :
      State).imageAt 1 0).gangs.any fun g => ((heldWith id).sites 1 g.shape).isEmpty) = true ∧
    (((heldWith fun f => { f with stage1 := [⟨1, 1, false⟩] }).imageAt 1 0).held.stage1.any fun p =>
      ((heldWith id).walk2 1 (p.ipa * 65536)).isNone) = true := by decide +kernel

/-- The commit of `goodVf` while a SCRUB clears quadrant 4; an image that restores. -/
def scrubbed : State := { recordState .commit goodVf with scrub := some ([4], fetchAid, 1) }

theorem test_witness_FunctionRecordEvents_scrub :
    scrubbed.vfHead .commit 1 = some (taken scrubbed) ∧ (taken scrubbed).commitStatus 1 = 0 ∧
    (vfRecOf ((taken scrubbed).recBytes 1)).en = true ∧ (taken scrubbed).scrubs (vfRecOf ((taken scrubbed).recBytes 1)) = true ∧
    (taken (recordState .commit goodVf)).scrubs (vfRecOf ((taken (recordState .commit goodVf)).recBytes 1)) = false := by
  refine ⟨rfl, ?_, by decide +kernel, by decide +kernel, by decide +kernel⟩
  have h : crc16 (vfBody ((taken scrubbed).recBytes 1)) = 0x1EF3 := goodVf_crc
  simp only [State.commitStatus, State.vfFieldsOk, h]; decide +kernel

theorem test_witness_FunctionRecordEvents :
    ((committing VfRec.off).vfBusy = some (.commit, 1) ∧ ((committing VfRec.off).fn 1).preempt = none ∧
      (committing VfRec.off).killing 1 = false ∧ ((committing VfRec.off).fn 1).next = some VfRec.off ∧
      VfRec.off.en = false) ∧
    (((committing VfRec.factory).fn 1).next = some VfRec.factory ∧ VfRec.factory.en = true ∧ VfRec.factory.group = 0 ∧
      1 < (committing VfRec.factory).funcs.length ∧ ((committing VfRec.factory).fn 1).state = .changing ∧
      ((committing VfRec.factory).fn 1).held = false) ∧
    ((recordState .save []).vfHead .save 1).any (fun t => !(t.fn 1).cfg.en) = true ∧
    ((enabled 0 (recordState .save [])).vfHead .save 1).any (fun t => (t.fn 1).cfg.en && !(t.fn 1).held &&
      !(t.fn 1).cfg.saveRoom) = true ∧
    ((enabled 64 (recordState .save [])).vfHead .save 1).any (fun t => (t.fn 1).cfg.en && !(t.fn 1).held &&
      (t.fn 1).cfg.saveRoom && (t.fn 1).state == .running && (t.fn 1).preempt.isNone) = true ∧
    ((withFn 1 (fun f => { f with state := .parked }) (enabled 64 (recordState .save []))).vfHead .save 1).any
      (fun t => (t.fn 1).cfg.saveRoom && (t.fn 1).state != .running) = true ∧
    ((enabled 0 (recordState .restore [])).vfHead .restore 1).any (fun t => !(t.fn 1).held) = true ∧
    (let s := { withFn 1 (fun f => { f with next := none }) (committing VfRec.off) with vfBusy := some (.commit, 1) }
     (s.fn 1).next = none ∧ (s.fn 1).preempt = none ∧ s.killing 1 = false) ∧
    ({ among [{ actor with flight := some (flightOf [⟨[], .notYet, [], .none⟩, ⟨[], .pending, [], .none⟩]) }] with
      scrub := some ([4], fetchAid, 1) } : State).scrub = some ([4], fetchAid, 1) := by decide +kernel

/-- A host that may use the window of function 0. -/
def host : HostReq := ⟨3, 0⟩

/-- Function 0 with that host and a host-held loan of page 1. -/
def hosted : State :=
  withFn 0 (fun f => { f with
    cfg := { f.cfg with h0v := true, h0 := 3 }, hostLoans := [(1, 1, false)], pageu := 1 })
    { withTables State.reset with mem := tableCells ++ stage1Cells 1 }

theorem test_witness_HostWindowEvents :
    (hosted.hostOk host = true ∧ 0 < (hosted.fn 0).cfg.lqcount ∧
      (64 % 2 ^ 32 + 2 ^ 32 - (hosted.fn 0).cons.getD 0 0) % 2 ^ 32 ≤ 64 ∧
      64 < (65 % 2 ^ 32 + 2 ^ 32 - (hosted.fn 0).cons.getD 0 0) % 2 ^ 32) ∧
    hosted.hostOk ⟨4, 0⟩ = false ∧ hosted.hostOk ⟨3, 1⟩ = false ∧
    (bits 0x1000000000000001 63 60 ≠ 2 ∧ bits 0x2000000000010000 63 60 = 2) ∧
    (0 < hosted.funcs.length ∧ bits 0x1000000001000000 23 0 = 0 ∧ bits 0x1000000000000001 23 0 ≠ 0 ∧
      bits 0x1000000000000001 47 24 = 0 ∧
      256 ≤ ((withFn 0 (fun f => { f with hostLoans := List.replicate 256 (1, 1, false) }) hosted).fn 0).hostLoans.length ∧
      (hosted.fn 0).hostLoans.find? (fun l => l.1 == bits 0x2000000000020000 47 16) = none ∧
      (hosted.fn 0).hostLoans.find? (fun l => l.1 == bits 0x2000000000010000 47 16) = some (1, 1, false) ∧
      bit 0x2000000000010000 56 = false ∧ bits 0x2000000000010000 15 0 = 0) ∧
    (hosted.winWrite 0 0x208 (List.replicate 8 0)).isNone = true ∧
    (hosted.winWrite 0 0x200 (List.replicate 8 0)).isSome = true ∧
    (hosted.apertureKeys 0 65536 8).isSome = true ∧ (hosted.fn 0).inHostLoan 65536 8 = true ∧
    (hosted.winRead 0 0x210 8).isSome = true ∧ (hosted.winRead 0 0x200 8).isNone = true := by decide +kernel

/-- A flit of zeros with sequence number `seq` and its check code (R411), worked out outside Lean. -/
def flitOf (seq : BitVec 8) (good : BitVec 8) : List Byte :=
  List.replicate 248 (0 : Byte) ++ ([0xA2, 0x21, 0x4C, good, 0, 0, seq <<< (4 : Nat), seq >>> (4 : Nat)] : List Byte)

/-- Link 0 with one flit in its replay buffer. -/
def linked (l : Link) : State := { State.reset with links := l :: List.replicate 23 Link.reset }

/-- A link whose flit 7 waits for its acknowledgement. -/
def busyLink (k : Nat) : Link := { Link.reset with buffer := [(7, [])], replays := k, replayOf := 7 }

/-- Page 3 of function 0 leads to page `pa` of the CXL tier, as the acre's translation cache says. -/
def cxlState (pa : Nat) : State :=
  { State.reset with acres := [{ Acre.reset 0 with
      tlb := [⟨0, 1, 3, 3, true, false, []⟩, ⟨0, 2, 3, pa, true, false, [(3, false)]⟩] }] }

theorem test_witness_FabricEvents :
    (State.reset.link 0 = some Link.reset ∧ Link.reset.up = true ∧ Link.reset.training = false ∧
      (flitOf 0 0xDC).length = 256 ∧
      crc32 ((flitOf 0 0xDC).take 248) = bits (leNat ((flitOf 0 0xDC).drop 248)) 31 0 ∧
      bits (leNat ((flitOf 0 0xDC).drop 248)) 63 52 = Link.reset.rxNext ∧
      bits (leNat ((flitOf 1 0xDC).drop 248)) 63 52 ≠ Link.reset.rxNext ∧
      crc32 ((flitOf 0 0xDD).take 248) ≠ bits (leNat ((flitOf 0 0xDD).drop 248)) 31 0) ∧
    ((linked (busyLink 0)).link 0 = some (busyLink 0) ∧ (busyLink 0).buffer.findIdx? (fun f => f.1 == 7) = some 0 ∧
      (busyLink 6).replays + 1 < 8 ∧ 8 ≤ (busyLink 7).replays + 1) ∧
    (State.reset.sec.recovery = false ∧
      (Link.reset.retrains.filter fun t => decide (State.reset.time < t + 1000000)).length < 15 ∧ Link.reset.lanes ≤ 4) ∧
    ((linked { Link.reset with training := true, limit := 2 }).link 0).any (fun l => l.up && l.training &&
      decide (1 ≤ l.limit)) = true ∧
    (({ State.reset with kept := [⟨1, 5, 2, 0, 0, none, []⟩], time := 20000 } : State).kept.find?
      (fun k => k.dst == 1 && k.seq == 5) = some ⟨1, 5, 2, 0, 0, none, []⟩ ∧ Link.reset.buffer.length < 128 ∧ Link.reset.queue = [] ∧
      ({ Link.reset with training := true } : Link).training = true) ∧
    ({ State.reset with locked := false } : State).locked = false ∧ State.reset.locked = true ∧
    (Config.cxlPort 1 % 4 < State.reset.ports.length ∧
      (cxlState 1).translate 0 0 (3 * 65536) = .ok 65536 true (3 * 65536)) ∧
    ((cxlState (2 ^ 27)).translate 0 0 (3 * 65536) = .ok (2 ^ 43) true (3 * 65536)) :=
  ⟨by decide +kernel, by decide +kernel, by decide +kernel, by decide +kernel, by decide +kernel, by decide +kernel,
    by decide +kernel, ⟨Nat.mod_lt _ (by decide), by decide +kernel⟩, by decide +kernel⟩

/-- A flit of type `t` from device 5 to device `dst`, sequence number 3, the last of its message. -/
def headed (t dst : Nat) : List Byte := flitBytes (flitHeader t 5 dst 0 3 0 true) [] 0 0

/-- Headers: a wrong check code, a null flit, a message that is being dropped, one for another device; retrains of a link
that has none or 15 behind it, a shed to two lanes, a shed of the last. -/
theorem test_witness_FabricEvents_headers :
    flitHeaderOk (flitOf 0 0xDC) = false ∧
    (∀ t ∈ [0, 2], flitHeaderOk (headed t 0) = true ∧ headerBits (headed t 0) 127 124 = t ∧
      (headerBits (headed t 0) 123 115, headerBits (headed t 0) 100 77) = (5, 3)) ∧
    (flitHeaderOk (headed 2 7) = true ∧ (5, 3) ∉ Link.reset.drops ∧ State.reset.headerChecks (headed 2 7) = false ∧
      2 ∉ Link.reset.blind ∧ (5, 3) ∉ Link.reset.opened ∧ 2 ∈ ({ Link.reset with blind := [2] } : Link).blind) ∧
    (Link.reset.lanes ≤ 4 ∧ 15 ≤ ((List.replicate 15 0).filter fun t => decide (State.reset.time < t + 1000000)).length) ∧
    (0 < 2 ∧ 2 < Link.reset.lanes ∧ 0 < Link.reset.lanes) := by decide +kernel

/-- Page 2001h is being retired onto the spare page C000h. -/
def retiringState (mem : List Host.Cell) : State :=
  { State.reset with mem := mem, retiring := [(0x2001, 0xC000, 0)] }

/-- Function 0 on quadrant 0 alone; the targets of its cores without any demand. -/
theorem test_witness_PowerAndErrorEvents_targets :
    let s := withFn 0 (fun f => { f with cfg := { f.cfg with quad := [0] } }) State.reset
    s.coreTargets [] = [(0, 0, 8), (1, 0, 8), (2, 0, 8), (3, 0, 8)] ∧ (∀ p ∈ s.coreTargets [], p.1 ≠ 20) := by
  decide +kernel

theorem test_witness_PowerAndErrorEvents :
    (State.reset.onCore 20 = [] ∧ (State.reset.core 20).gated = false ∧
      (State.reset.core 20).idleFrom + 50000 ≤ ({ State.reset with time := 50000 } : State).time ∧
      State.reset.enabledAcres.contains (acreOf 20) = true) ∧
    ((State.reset.acre 5).lastDroop = none ∧
      ({ State.reset with acres := [{ Acre.reset 5 with lastDroop := some 3, drooping := true }] } : State).acre 5 =
        { Acre.reset 5 with lastDroop := some 3, drooping := true }) ∧
    (({ State.reset with acres := [{ Acre.reset 5 with throttled := true }] } : State).acre 5).throttled = true ∧
    (({ State.reset with acres := [{ Acre.reset 5 with steps := 5 }] } : State).acre 5).steps ≠ 0 ∧
    State.reset.rings.length = 6 ∧ (State.reset.rings.getD 5 Ring.reset).frozen = false ∧
    (among [actor]).act fetchAid = some actor ∧
    (({ State.reset with acres := [{ Acre.reset 5 with phases := [1] }] } : State).acre 5).phases.any (fun q => q != 2) =
      true ∧
    State.reset.sec.recovery = false ∧
    ((retiringState []).retiring.find? (fun e => e.1 == 0x2001) = some (0x2001, 0xC000, 0) ∧
      (retiringState []).mapper 0x2001 = none) ∧
    (retiringState tableCells).mapper 0x2001 = some (0, 1) := by decide +kernel

/-- A security processor in recovery. -/
def recovering : State := { State.reset with sec := { State.reset.sec with recovery := true } }

/-- Function 1 enabled with a report whose measurements are accepted. -/
def attested : State :=
  { enabled 0 State.reset with sec := { State.reset.sec with accepted := [List.replicate 32 1] } }

/-- A report with a measurement that is accepted. -/
def attestation : Report := ⟨List.replicate 32 0, [List.replicate 32 1], List.replicate 32 0, [], []⟩

/-- KEY_EXPORT: whichever way the free value of R429 turns out, one of its two clauses applies. -/
theorem test_witness_KeyExport : attested.sec.recovery = false ∧ 1 ≤ 1 ∧ (attested.fn 1).cfg.en = true ∧
    (∃ m, attestation.measure = [m] ∧ m.length = 32 ∧ m ∈ attested.sec.accepted) ∧
    attestation.nonce.length = 32 ∧ attestation.records.length = 32 ∧
    (∃ m ∈ ({ attestation with measure := [[]] } : Report).measure, m ∉ attested.sec.accepted) ∧
    ∀ r : Report, Config.slhVerify attested.sec.identity (r.nonce ++ r.measure.flatten ++ r.records ++ r.kemKey) r.sig = true ∨
      Config.slhVerify attested.sec.identity (r.nonce ++ r.measure.flatten ++ r.records ++ r.kemKey) r.sig = false :=
  ⟨by decide, by decide, by decide, ⟨_, rfl, by decide, by decide⟩, by decide, by decide, by decide, fun _ => by cases Config.slhVerify _ _ _ <;> simp⟩

/-- Security after a cold reset has begun. -/
def starting (c : Sec) : Sec := { c with imports := [], measure := measure0, recovery := false }

/-- A record 0 that passes every check; its check code was worked out outside Lean. -/
def record0 : List Byte :=
  ((((((List.replicate 512 (0 : Byte)).set 0 1).set 0x88 1).set 0x98 1).set 0xCC 1).set 0xEF 0x80 |>.set 0x1F8 0x2E).set 0x1F9 0xDF

/-- The state in which bring-up looks at its record: `record0`, or none. -/
def booting (record : List Byte) : State :=
  State.physWrite 0 { State.reset with funcs := List.replicate 17 Func.off, vfbase := 0x20000000 } 0x20000000 (record.take 512)

/-- The same state with its memory written out. -/
def booted : State :=
  { State.reset with
    funcs := List.replicate 17 Func.off, vfbase := 0x20000000
    mem := [(0x20000000, 0x01), (0x20000088, 0x01), (0x20000098, 0x01), (0x200000CC, 0x01), (0x200000EF, 0x80),
      (0x200001F8, 0x2E), (0x200001F9, 0xDF)] }

set_option maxRecDepth 20000 in
theorem booting_eq : booting record0 = booted := by decide +kernel

theorem booted_crc : crc16 (vfBody (booted.recBytes 0)) = 0xDF2E :=
  crc16_two _ 252 0x5ce9 _ (by decide +kernel) (by decide +kernel)

/-- Bring-up: a record that commits, one that does not, steps 6 and 7 failing. -/
theorem test_witness_BootAndSecurityEvents_bringUp : (booting record0).commitStatus 0 = 0 ∧
    (booting []).commitStatus 0 ≠ 0 ∧ (⟨0, [], 0, some 6⟩ : BootCfg).failed = some 6 ∧
    (⟨0, [], 0, some 7⟩ : BootCfg).failed = some 7 ∧ (∀ k, (⟨0, [], 0, some 8⟩ : BootCfg).failed = some k → 7 < k) := by
  refine ⟨?_, by decide +kernel, rfl, rfl, fun k h => ?_⟩
  · rw [booting_eq]; simp only [State.commitStatus, State.vfFieldsOk, booted_crc]; decide +kernel
  · cases h; decide

/-- Resets and firmware: no firmware and a fuse that does not exist fail; of one stage, whichever way the free value of
R429 turns out, either the first clause applies or the second. -/
theorem test_witness_BootAndSecurityEvents :
    Sec.verify (starting State.reset.sec) State.reset.sec.firmware measure0 = (false, measure0) ∧
    Sec.verify (starting State.reset.sec) [⟨[], [], 4⟩] measure0 = (false, measure0) ∧
    (∃ m, Sec.verify (starting State.reset.sec) [⟨[], [], 0⟩] measure0 = (true, m) ∨
      Sec.verify (starting State.reset.sec) [⟨[], [], 0⟩] measure0 = (false, m)) ∧
    State.reset.sec.recovery = false ∧ recovering.sec.recovery = true ∧
    (⟨0, [], 0, none⟩ : BootCfg).failed = none ∧ (⟨0, [], 0, some 1⟩ : BootCfg).failed = some 1 ∧
    (List.replicate 32 (0 : Byte)).length = 32 ∧
    (∀ f ∈ State.reset.funcs, f.cfg.en = true → f.cfg.kslot ≠ 1) ∧
    State.reset.rings[5]? = some Ring.reset :=
  ⟨by decide +kernel, by decide +kernel,
    ⟨(Sec.verify (starting State.reset.sec) [⟨[], [], 0⟩] measure0).2, by
      rcases h : Sec.verify (starting State.reset.sec) [⟨[], [], 0⟩] measure0 with ⟨b, m⟩
      cases b <;> simp⟩,
    by decide +kernel, by decide +kernel, by decide +kernel, by decide +kernel, by decide +kernel, by decide +kernel,
    by decide +kernel⟩

/-! ### Values from the tables of the spec -/

/-- The table of R260 and the w32 case below it. -/
theorem test_div_rem :
    aluDivRem .s64 7 0xFFFFFFFFFFFFFFFE = (0xFFFFFFFFFFFFFFFD, 1) ∧ aluDivRem .n64 7 0xFFFFFFFFFFFFFFFE = (0, 7) ∧
    aluDivRem .s64 0xFFFFFFFFFFFFFFF9 2 = (0xFFFFFFFFFFFFFFFD, 0xFFFFFFFFFFFFFFFF) ∧
    aluDivRem .n64 0xFFFFFFFFFFFFFFF9 2 = (0x7FFFFFFFFFFFFFFC, 1) ∧
    aluDivRem .s64 5 0 = (0xFFFFFFFFFFFFFFFF, 5) ∧
    aluDivRem .s64 0x8000000000000000 0xFFFFFFFFFFFFFFFF = (0x8000000000000000, 0) ∧
    aluDivRem .s32 0x180000000 0xFFFFFFFF = (0xFFFFFFFF80000000, 0) ∧
    aluDivRem .n32 0x180000000 0xFFFFFFFF = (0, 0xFFFFFFFF80000000) := by decide +kernel

/-- The examples of R265 and R267. -/
theorem test_bit_field : aluBfx false false 0x0000ABCD0000F300 0x0708 = 0xF3 ∧
    aluBfx false true 0x0000ABCD0000F300 0x0708 = 0xFFFFFFFFFFFFFFF3 ∧
    aluCnt true .brev 0x0000000000112233 = 0x33221100 := by decide +kernel

/-- The table of R273, and its zero differences and quotients. -/
theorem test_float_rounding :
    let sum (r : Rnd) (a b : Nat) : Nat := fp32.round r false 0 (Machine.Num.add r (fp32.read a) (fp32.read b))
    let quot (a b : Nat) : Nat := fp32.round .rne false 0 (Machine.Num.div (fp32.read a) (fp32.read b))
    [Rnd.rne, .rtz, .rdn, .rup, .rna].map (fun r => sum r 0x3F800000 0x33800000) =
      [0x3F800000, 0x3F800000, 0x3F800000, 0x3F800001, 0x3F800001] ∧
    [Rnd.rne, .rtz, .rdn, .rup, .rna].map (fun r => sum r 0xBF800000 0xB3800000) =
      [0xBF800000, 0xBF800000, 0xBF800001, 0xBF800000, 0xBF800001] ∧
    sum .rne 0x3F800000 0xBF800000 = 0 ∧ sum .rdn 0x3F800000 0xBF800000 = 0x80000000 ∧
    quot 0x3F800000 0 = 0x7F800000 ∧ quot 0x3F800000 0x80000000 = 0xFF800000 ∧ quot 0 0 = 0x7FC00000 ∧
    quot 0x80000000 0x40A00000 = 0x80000000 := by decide +kernel

/-- The table of R276. -/
theorem test_fcvt : fcvtBits .f32bf16 0x3F80C000 = 0x3F81 ∧ fcvtBits .f32bf16 0x3F808000 = 0x3F80 ∧
    fcvtBits .f32f16 0x477FF000 = 0x7C00 ∧ fcvtBits .f16f32 0x0001 = 0x33800000 ∧
    fcvtBits .f32i64 0xC0490FDB = 0xFFFFFFFFFFFFFFFD ∧ fcvtBits .f32i64 0x7F800000 = 0x7FFFFFFFFFFFFFFF ∧
    fcvtBits .f32n64 0xBF800000 = 0 ∧ fcvtBits .i64f32 16777217 = 0x4B800000 ∧
    fcvtBits .f32f64 0x7FC00001 = 0x7FF8000000000000 := by decide +kernel

/-- The table of E4M3 overflow in 11_numbers_notes.md (R157, R161). -/
theorem test_e4m3_overflow :
    let at_ (r : Rnd) (sat : Bool) (i : Int) : Nat := e4m3.round r sat 0 (Machine.Num.ofInt i)
    at_ .rne false 460 = 0x7E ∧ at_ .rne false 464 = 0x7E ∧ at_ .rne false 470 = 0x7F ∧ at_ .rne true 470 = 0x7E ∧
    at_ .rtz false 470 = 0x7E ∧ at_ .rne false (-470) = 0x7F ∧ at_ .rne true (-470) = 0xFE ∧
    e4m3.round .rne false 0 (fp32.read 0x7F800000) = 0x7F ∧ e4m3.round .rne true 0 (fp32.read 0x7F800000) = 0x7E ∧
    e4m3.round .rne true 0 .nan = 0x7F := by decide +kernel

/-- The stochastic step of 11_numbers_notes.md (R158): the generator, its draw and the lane it rounds up. -/
theorem test_stochastic_step : seedAdvance 1 0x000000015A5A5A5A = 0x5639217AF5EF386E ∧
    bf16.round .rs false (seedRho (seedAdvance 1 0x000000015A5A5A5A)) (fp32.read 0x3F80C000) = 0x3F81 := by
  decide +kernel

/-- The three sums of 11_numbers_notes.md (R172): a term that changes its group can change the result. -/
theorem test_group_sums :
    let one (i : Int) : Machine.Num × Machine.Num := (Machine.Num.ofInt 1, Machine.Num.ofInt i)
    let sum (gs : List (List Int)) : Nat := accGroups 0 (gs.map fun g => g.map one)
    sum [[16777216, 1, 0, 0], [1, 0, 0, 0]] = 0x4B800000 ∧ sum [[16777216, 1, 1, 0], [0, 0, 0, 0]] = 0x4B800001 ∧
    sum [[1, 1, 0, 0], [16777216, 0, 0, 0]] = 0x4B800001 := by decide +kernel

/-- The superblock of 11_numbers_notes.md (R100, R163, R166): two elements of block 0 and one of block 1. -/
theorem test_q4n_superblock :
    let b0 := q4nBlock (2, 1) ([0x40000000, 0xBF800000, 0x3E99999A, 0].map q4nIn)
    let b1 := q4nBlock (2, 1) ([0x3F000000, 0].map q4nIn)
    b0 = (254, [15, 2, 9, 7]) ∧ b1 = (64, [15, 7]) ∧
    q4nDecode 15 254 0x40000000 = 0x40000000 ∧ q4nDecode 2 254 0x40000000 = 0xBF880000 ∧
    q4nDecode 9 254 0x40000000 = 0x3EB00000 ∧ q4nDecode 15 64 0x40000000 = 0x3F010204 := by decide +kernel

/-- The check value of a CRC-32 with the parameters of R411, over the bytes of 123456789. -/
theorem test_crc32 : crc32 ((upFrom 0x31 9).map (BitVec.ofNat 8 ·)) = 0x0376E6E7 := by decide +kernel

end Sys2Proof.Tests
end

section
/-! PROOF. The exact values of floating-point gatherings (R63, R64, R154, R155): sums, least and greatest values. -/
namespace Sys2Proof.Machine.Meetings

/-! ### Folds that select -/

/-- A fold of an operation that answers whichever of its arguments has the smaller key answers a member of its list whose
key is least. -/
theorem foldl_selects {α κ : Type} [Preorder κ] {key : α → κ} {P : α → Prop} {op : α → α → α}
    (hop : ∀ a b, P a → P b → (op a b = a ∧ key a ≤ key b) ∨ (op a b = b ∧ key b ≤ key a)) :
    ∀ (l : List α) (a : α), (∀ x ∈ a :: l, P x) →
      l.foldl op a ∈ a :: l ∧ ∀ x ∈ a :: l, key (l.foldl op a) ≤ key x
  | [], a, _ => by simp
  | b :: l, a, hP => by
    obtain ⟨ha, hb, hl⟩ : P a ∧ P b ∧ ∀ x ∈ l, P x := by simpa using hP
    have ih := fun c hc => foldl_selects hop l c (List.forall_mem_cons.2 ⟨hc, hl⟩)
    rw [List.foldl_cons]
    rcases hop a b ha hb with ⟨h, hab⟩ | ⟨h, hba⟩
    · obtain ⟨hm, hle⟩ := ih a ha
      rw [h]
      refine ⟨by rcases List.mem_cons.1 hm with h | h <;> simp [h], ?_⟩
      obtain ⟨hla, hll⟩ := List.forall_mem_cons.1 hle
      exact List.forall_mem_cons.2 ⟨hla, List.forall_mem_cons.2 ⟨hla.trans hab, hll⟩⟩
    · obtain ⟨hm, hle⟩ := ih b hb
      rw [h]
      refine ⟨List.mem_cons_of_mem _ hm, List.forall_mem_cons.2 ⟨?_, hle⟩⟩
      exact ((List.forall_mem_cons.1 hle).1).trans hba

/-- The same from the head of the list on, as the model's folds begin. -/
theorem foldl_head_selects {α κ : Type} [Preorder κ] {key : α → κ} {P : α → Prop} {op : α → α → α}
    (hop : ∀ a b, P a → P b → (op a b = a ∧ key a ≤ key b) ∨ (op a b = b ∧ key b ≤ key a)) {l : List α} {a : α}
    (hP : ∀ x ∈ a :: l, P x) :
    (a :: l).foldl op a ∈ a :: l ∧ ∀ x ∈ a :: l, key ((a :: l).foldl op a) ≤ key x := by
  obtain ⟨hm, hle⟩ := foldl_selects hop (a :: l) a (List.forall_mem_cons.2 ⟨hP a List.mem_cons_self, hP⟩)
  exact ⟨(List.mem_cons.1 hm).elim (fun e => e.symm ▸ List.mem_cons_self) id, (List.forall_mem_cons.1 hle).2⟩

/-! ### The order of exact values -/

/-- The rational that a finite value stands for; 0 for the others. -/
def Num.value : Num → ℚ
  | .fin s n d => (if s then -1 else 1) * n / d
  | _ => 0

/-- A value that can be compared: no NaN, and a fraction with a positive denominator. -/
def Num.Proper : Num → Prop
  | .nan => False
  | .inf _ => True
  | .fin _ _ d => 0 < d

/-- Where a value lies on the extended line: before, among or after the rationals. -/
def Num.place : Num → ℤ
  | .inf s => if s then -1 else 1
  | _ => 0

/-- The magnitude of a value on the extended line, zeros alike. -/
def Num.point (x : Num) : ℤ ×ₗ ℚ := toLex (Num.place x, Num.value x)

/-- The order of R155, -0 below +0. -/
def Num.key (x : Num) : (ℤ ×ₗ ℚ) ×ₗ Bool := toLex (Num.point x, !x.isNeg)

/-- The signed numerators of two fractions over a common denominator are ordered as the fractions. -/
theorem value_lt_iff {s t : Bool} {n d m e : ℕ} (hd : 0 < d) (he : 0 < e) :
    Num.value (.fin s n d) < Num.value (.fin t m e) ↔
      (if s then -(n : Int) else n) * e < (if t then -(m : Int) else m) * d := by
  have hd' : (0 : ℚ) < d := by exact_mod_cast hd
  have he' : (0 : ℚ) < e := by exact_mod_cast he
  simp only [Num.value]
  rw [div_lt_div_iff₀ hd' he']
  cases s <;> cases t <;> simp <;> norm_cast

/-- The model's comparison is that of the extended line. -/
theorem cmp_eq_compare {x y : Num} (hx : Num.Proper x) (hy : Num.Proper y) :
    x.cmp y = some (compare (Num.point x) (Num.point y)) := by
  have hcompare : ∀ p q : ℤ ×ₗ ℚ, compare p q = if p < q then .lt else if q < p then .gt else .eq := by
    intro p q
    split
    · exact compare_lt_iff_lt.2 ‹_›
    · split
      · exact compare_gt_iff_gt.2 ‹_›
      · exact compare_eq_iff_eq.2 (le_antisymm (not_lt.1 ‹_›) (not_lt.1 ‹_›))
  rw [hcompare]
  match x, y, hx, hy with
  | .inf s, .inf t, _, _ => cases s <;> cases t <;> simp [Num.cmp, Num.point, Num.place, Num.value, Prod.Lex.toLex_lt_toLex]
  | .inf s, .fin t m e, _, _ => cases s <;> simp [Num.cmp, Num.point, Num.place, Prod.Lex.toLex_lt_toLex]
  | .fin s n d, .inf t, _, _ => cases t <;> simp [Num.cmp, Num.point, Num.place, Prod.Lex.toLex_lt_toLex]
  | .fin s n d, .fin t m e, hd, he =>
    simp only [Num.cmp, Num.point, Num.place, Prod.Lex.toLex_lt_toLex, value_lt_iff hd he, value_lt_iff he hd,
      lt_irrefl, false_or, true_and]

/-- A key no greater is what R64 asks of a least value. -/
theorem cmp_of_key_le {x y : Num} (hx : Num.Proper x) (hy : Num.Proper y) (h : Num.key x ≤ Num.key y) :
    x.cmp y ≠ some .gt ∧ (x.cmp y = some .eq → y.isNeg = true → x.isNeg = true) := by
  rw [cmp_eq_compare hx hy]
  obtain ⟨hle, hneg⟩ := Prod.Lex.toLex_le_toLex'.1 h
  refine ⟨fun hgt => not_lt.2 hle (compare_gt_iff_gt.1 (Option.some.inj hgt)), fun heq hy => ?_⟩
  have := hneg (compare_eq_iff_eq.1 (Option.some.inj heq))
  revert this
  cases x.isNeg <;> simp [hy]

/-- A key no less is what R64 asks of a greatest value. -/
theorem cmp_of_key_ge {x y : Num} (hx : Num.Proper x) (hy : Num.Proper y) (h : Num.key y ≤ Num.key x) :
    x.cmp y ≠ some .lt ∧ (x.cmp y = some .eq → x.isNeg = true → y.isNeg = true) := by
  rw [cmp_eq_compare hx hy]
  obtain ⟨hle, hneg⟩ := Prod.Lex.toLex_le_toLex'.1 h
  refine ⟨fun hlt => not_lt.2 hle (compare_lt_iff_lt.1 (Option.some.inj hlt)), fun heq hx => ?_⟩
  have := hneg (compare_eq_iff_eq.1 (Option.some.inj heq)).symm
  revert this
  cases y.isNeg <;> simp [hx]

/-- The smaller of two values is the one whose key is smaller. -/
theorem min_selects {x y : Num} (hx : Num.Proper x) (hy : Num.Proper y) :
    (x.min y = x ∧ Num.key x ≤ Num.key y) ∨ (x.min y = y ∧ Num.key y ≤ Num.key x) := by
  unfold Num.min
  rw [cmp_eq_compare hx hy]
  rcases lt_trichotomy (Num.point x) (Num.point y) with h | h | h
  · rw [compare_lt_iff_lt.2 h]
    exact .inl ⟨rfl, Prod.Lex.toLex_le_toLex.2 (.inl h)⟩
  · rw [compare_eq_iff_eq.2 h]
    simp only [Num.key, Prod.Lex.toLex_le_toLex', h, le_refl, true_and, true_implies]
    cases x.isNeg <;> simp
  · rw [compare_gt_iff_gt.2 h]
    exact .inr ⟨rfl, Prod.Lex.toLex_le_toLex.2 (.inl h)⟩

/-- The larger of two values is the one whose key is larger. -/
theorem max_selects {x y : Num} (hx : Num.Proper x) (hy : Num.Proper y) :
    (x.max y = x ∧ Num.key y ≤ Num.key x) ∨ (x.max y = y ∧ Num.key x ≤ Num.key y) := by
  unfold Num.max
  rw [cmp_eq_compare hx hy]
  rcases lt_trichotomy (Num.point x) (Num.point y) with h | h | h
  · rw [compare_lt_iff_lt.2 h]
    exact .inr ⟨rfl, Prod.Lex.toLex_le_toLex.2 (.inl h)⟩
  · rw [compare_eq_iff_eq.2 h]
    simp only [Num.key, Prod.Lex.toLex_le_toLex', h, le_refl, true_and, true_implies]
    cases x.isNeg <;> simp
  · rw [compare_gt_iff_gt.2 h]
    exact .inl ⟨rfl, Prod.Lex.toLex_le_toLex.2 (.inl h)⟩

/-! ### NaN -/

/-- An operation that a NaN on either side makes a NaN gives a NaN on a list that holds one. -/
theorem foldl_nan {op : Num → Num → Num} (hl : ∀ x, op .nan x = .nan) (hr : ∀ x, op x .nan = .nan) :
    ∀ (l : List Num) (a : Num), .nan ∈ a :: l → l.foldl op a = .nan
  | [], a, h => (List.mem_singleton.1 h).symm
  | b :: l, a, h => by
    refine foldl_nan hl hr l (op a b) ?_
    rcases List.mem_cons.1 h with rfl | h
    · simp [hl]
    rcases List.mem_cons.1 h with rfl | h
    · simp [hr]
    · exact List.mem_cons_of_mem _ h

@[simp] theorem add_nan_left (r : Rnd) (x : Num) : Num.add r .nan x = .nan := rfl
@[simp] theorem add_nan_right (r : Rnd) (x : Num) : Num.add r x .nan = .nan := by cases x <;> rfl
@[simp] theorem min_nan_left (x : Num) : Num.min .nan x = .nan := rfl
@[simp] theorem min_nan_right (x : Num) : Num.min x .nan = .nan := by cases x <;> rfl
@[simp] theorem max_nan_left (x : Num) : Num.max .nan x = .nan := rfl
@[simp] theorem max_nan_right (x : Num) : Num.max x .nan = .nan := by cases x <;> rfl

/-! ### Exact sums -/

/-- An infinity among two terms is their sum, unless that is a NaN. -/
theorem add_of_inf {r : Rnd} {s : Bool} {x y : Num} (h : x = .inf s ∨ y = .inf s) :
    Num.add r x y = .nan ∨ Num.add r x y = .inf s := by
  rcases h with rfl | rfl
  · cases y with
    | nan => exact .inl rfl
    | inf t => cases s <;> cases t <;> simp [Num.add]
    | fin t m e => exact .inr rfl
  · cases x with
    | nan => exact .inl rfl
    | inf t => cases s <;> cases t <;> simp [Num.add]
    | fin t m e => exact .inr rfl

/-- A list with an infinity has that infinity or a NaN as its sum. -/
theorem sum_of_inf {s : Bool} : ∀ (l : List Num) (a : Num), .inf s ∈ a :: l →
    l.foldl (Num.add .rne) a = .nan ∨ l.foldl (Num.add .rne) a = .inf s
  | [], a, h => .inr (List.mem_singleton.1 h).symm
  | b :: l, a, h => by
    have hfold : .nan ∈ Num.add .rne a b :: l → (b :: l).foldl (Num.add .rne) a = .nan :=
      foldl_nan (add_nan_left _) (add_nan_right _) l _
    have hab (h : a = .inf s ∨ b = .inf s) := add_of_inf (r := .rne) h
    rcases List.mem_cons.1 h with h | h
    · rcases hab (.inl h.symm) with e | e
      · exact .inl (hfold (by simp [e]))
      · exact sum_of_inf l _ (by simp [e])
    rcases List.mem_cons.1 h with h | h
    · rcases hab (.inr h.symm) with e | e
      · exact .inl (hfold (by simp [e]))
      · exact sum_of_inf l _ (by simp [e])
    · exact sum_of_inf l _ (List.mem_cons_of_mem _ h)

/-- Opposite infinities sum to a NaN. -/
theorem sum_opposite {l : List Num} {a : Num} (ht : .inf true ∈ a :: l) (hf : .inf false ∈ a :: l) :
    l.foldl (Num.add .rne) a = .nan := by
  rcases sum_of_inf l a ht with h | h
  · exact h
  · rcases sum_of_inf l a hf with h' | h'
    · exact h'
    · simp [h] at h'

/-- A list without a NaN and without one of the infinities has no NaN as its sum. -/
theorem sum_ne_nan {t : Bool} : ∀ (l : List Num) (a : Num), (∀ x ∈ a :: l, x ≠ .nan ∧ x ≠ .inf t) →
    l.foldl (Num.add .rne) a ≠ .nan
  | [], a, h => (h a (by simp)).1
  | b :: l, a, h => by
    obtain ⟨ha, hb, hl⟩ := by simpa only [List.forall_mem_cons] using h
    refine sum_ne_nan (t := t) l _ (List.forall_mem_cons.2 ⟨?_, hl⟩)
    match a, b, ha, hb with
    | .inf s, .inf u, ha, hb => cases s <;> cases u <;> cases t <;> simp_all [Num.add]
    | .inf s, .fin u m e, ha, hb => simpa [Num.add] using ha
    | .fin s n d, .inf u, ha, hb => simpa [Num.add] using hb
    | .fin s n d, .fin u m e, ha, hb =>
      simp only [Num.add]
      split
      · simp
      · split
        · simp
        · split <;> simp

/-- The sum of two fractions: a fraction of the sum of their values, minus zero only where both are. -/
theorem add_fin {s t : Bool} {n d m e : ℕ} (hd : 0 < d) (he : 0 < e) :
    ∃ u k c, Num.add .rne (.fin s n d) (.fin t m e) = .fin u k c ∧ 0 < c ∧
      Num.value (.fin u k c) = Num.value (.fin s n d) + Num.value (.fin t m e) ∧
      ((u = true ∧ k = 0) ↔ (s = true ∧ n = 0) ∧ (t = true ∧ m = 0)) := by
  have hd' : (d : ℚ) ≠ 0 := by exact_mod_cast hd.ne'
  have he' : (e : ℚ) ≠ 0 := by exact_mod_cast he.ne'
  have hde : 0 < d * e := Nat.mul_pos hd he
  simp only [Num.add]
  by_cases hst : s = t
  · subst hst
    refine ⟨s, n * e + m * d, d * e, by simp, hde, ?_, ?_⟩
    · simp only [Num.value]; push_cast; field_simp
    · simp only [Nat.add_eq_zero_iff, Nat.mul_eq_zero, hd.ne', he.ne', or_false]; tauto
  · have hs : s = !t := by cases s <;> cases t <;> simp_all
    subst hs
    rcases lt_trichotomy (n * e) (m * d) with h | h | h
    · refine ⟨t, m * d - n * e, d * e, by simp [h, not_lt.2 h.le], hde, ?_, ?_⟩
      · simp only [Num.value]; rw [Nat.cast_sub h.le]; push_cast
        cases t <;> simp <;> field_simp <;> ring
      · have : m ≠ 0 := by rintro rfl; simp at h
        constructor
        · rintro ⟨-, h0⟩; omega
        · rintro ⟨-, -, h0⟩; exact absurd h0 this
    · refine ⟨false, 0, 1, by simp [h], one_pos, ?_, ?_⟩
      · have h' : (n : ℚ) * e = m * d := by exact_mod_cast h
        simp only [Num.value]
        cases t <;> simp <;> field_simp <;> linarith
      · cases t <;> simp
    · refine ⟨!t, n * e - m * d, d * e, by simp [h], hde, ?_, ?_⟩
      · simp only [Num.value]; rw [Nat.cast_sub h.le]; push_cast
        cases t <;> simp <;> field_simp <;> ring
      · have : n ≠ 0 := by rintro rfl; simp at h
        constructor
        · rintro ⟨-, h0⟩; omega
        · rintro ⟨⟨-, h0⟩, -⟩; exact absurd h0 this

/-- A finite value with a positive denominator. -/
def Num.Finite (x : Num) : Prop := ∃ s n d, x = .fin s n d ∧ 0 < d

/-- Minus zero. -/
def Num.MinusZero (x : Num) : Prop := ∃ e, x = .fin true 0 e

/-- The sum of a list of fractions: a fraction of the sum of their values, minus zero only where all are. -/
theorem sum_fin : ∀ (l : List Num) (a : Num), (∀ x ∈ a :: l, Num.Finite x) →
    ∃ s n d, l.foldl (Num.add .rne) a = .fin s n d ∧ 0 < d ∧
      Num.value (.fin s n d) = ((a :: l).map Num.value).sum ∧
      ((s = true ∧ n = 0) ↔ ∀ x ∈ a :: l, Num.MinusZero x)
  | [], a, h => by
    obtain ⟨s, n, d, rfl, hd⟩ := h a (by simp)
    refine ⟨s, n, d, rfl, hd, by simp, ?_⟩
    simp only [List.mem_singleton, forall_eq, Num.MinusZero, Num.fin.injEq]
    exact ⟨fun ⟨h1, h2⟩ => ⟨d, h1, h2, rfl⟩, fun ⟨_, h1, h2, _⟩ => ⟨h1, h2⟩⟩
  | b :: l, a, h => by
    obtain ⟨⟨s, n, d, rfl, hd⟩, ⟨t, m, e, rfl, he⟩, hl⟩ := by simpa only [List.forall_mem_cons] using h
    obtain ⟨u, k, c, hadd, hc, hval, hzero⟩ := add_fin (s := s) (t := t) (n := n) (m := m) hd he
    obtain ⟨s', n', d', hsum, hd', hval', hzero'⟩ :=
      sum_fin l (.fin u k c) (List.forall_mem_cons.2 ⟨⟨u, k, c, rfl, hc⟩, hl⟩)
    refine ⟨s', n', d', by rw [List.foldl_cons, hadd, hsum], hd', ?_, ?_⟩
    · rw [hval', List.map_cons, List.sum_cons, hval, List.map_cons, List.map_cons, List.sum_cons, List.sum_cons, add_assoc]
    · have hz {s : Bool} {n d : ℕ} : Num.MinusZero (.fin s n d) ↔ s = true ∧ n = 0 := by simp [Num.MinusZero]
      rw [hzero', List.forall_mem_cons, List.forall_mem_cons, List.forall_mem_cons, hz, hz, hz, hzero, and_assoc]

/-! ### What the bits of a format hold -/

/-- A fraction that the bits of a format hold has a positive denominator. -/
theorem read_fin_den {f : FFmt} {v : ℕ} {s : Bool} {n d : ℕ} (h : f.read v = .fin s n d) : 0 < d := by
  have hscale (a : ℕ) (k : Int) : 0 < (scale2 a 1 k).2 := by unfold scale2; split <;> simp
  unfold FFmt.read at h
  dsimp only at h
  split at h
  · split at h <;> simp at h
  · split at h
    · simp at h
    · simp only [Num.fin.injEq] at h
      rw [← h.2.2]
      exact hscale _ _

/-- The value that the bits of a format hold can be compared, unless it is a NaN. -/
theorem read_proper {f : FFmt} {v : ℕ} (h : f.read v ≠ .nan) : Num.Proper (f.read v) := by
  cases hv : f.read v with
  | nan => exact absurd hv h
  | inf s => trivial
  | fin s n d => exact read_fin_den hv

end Sys2Proof.Machine.Meetings
end

section
/-! PROOF. The lanes of a gathering's result (R63, R64). -/
namespace Sys2Proof.Machine.Meetings

/-! ### Bits of folds -/

/-- Bit `j` of a conjunction. -/
theorem testBit_foldl_and (j : ℕ) : ∀ (vs : List ℕ) (a : ℕ),
    (vs.foldl (· &&& ·) a).testBit j = (a.testBit j && vs.all (·.testBit j))
  | [], a => by simp
  | v :: vs, a => by rw [List.foldl_cons, testBit_foldl_and j vs, Nat.testBit_and, List.all_cons, Bool.and_assoc]

/-- Bit `j` of a disjunction. -/
theorem testBit_foldl_or (j : ℕ) : ∀ (vs : List ℕ) (a : ℕ),
    (vs.foldl (· ||| ·) a).testBit j = (a.testBit j || vs.any (·.testBit j))
  | [], a => by simp
  | v :: vs, a => by rw [List.foldl_cons, testBit_foldl_or j vs, Nat.testBit_or, List.any_cons, Bool.or_assoc]

/-- Bit `j` of an exclusive disjunction: whether an odd number of the terms have it. -/
theorem testBit_foldl_xor (j : ℕ) : ∀ (vs : List ℕ) (a : ℕ),
    (vs.foldl (· ^^^ ·) a).testBit j = decide (((a :: vs).filter (·.testBit j)).length % 2 = 1)
  | [], a => by cases ha : a.testBit j <;> simp [ha]
  | v :: vs, a => by
    rw [List.foldl_cons, testBit_foldl_xor j vs]
    cases ha : a.testBit j <;> cases hv : v.testBit j <;> simp [ha, hv, Nat.add_assoc]

/-! ### One lane of integers -/

/-- The integer element types have no floating-point format. -/
theorem gatherFmt_int {ty : ℕ} (h : ty = 0 ∨ ty = 1 ∨ ty = 5) : gatherFmt ty = none := by
  rcases h with rfl | rfl | rfl <;> rfl

section
variable {ty : ℕ} (h : gatherFmt ty = none)
include h

theorem gatherLane_add_int (vs : List ℕ) : gatherLane .add ty vs = vs.sum % 2 ^ gatherWidth ty := by
  simp only [gatherLane, h]

/-- The least of integers of the lane width, as the type reads them. -/
theorem gatherLane_min_int {v : ℕ} {vs : List ℕ} (hw : ∀ u ∈ v :: vs, u < 2 ^ gatherWidth ty) :
    let int := bitsInt (ty != 1) (gatherWidth ty)
    gatherLane .min ty (v :: vs) ∈ v :: vs ∧ ∀ u ∈ v :: vs, int (gatherLane .min ty (v :: vs)) ≤ int u := by
  intro int
  obtain ⟨hm, hle⟩ := foldl_head_selects (key := int) (P := fun _ => True) (l := vs) (a := v)
    (op := fun a b => if decide (int a ≤ int b) then a else b)
    (fun a b _ _ => by by_cases hab : int a ≤ int b <;> simp [hab, le_of_not_ge]) fun _ _ => trivial
  have heq : gatherLane .min ty (v :: vs) = (v :: vs).foldl (fun a b => if decide (int a ≤ int b) then a else b) v := by
    simp only [gatherLane, h, List.headD_cons]
    exact Nat.mod_eq_of_lt (hw _ hm)
  rw [heq]
  exact ⟨hm, hle⟩

/-- The greatest of integers of the lane width, as the type reads them. -/
theorem gatherLane_max_int {v : ℕ} {vs : List ℕ} (hw : ∀ u ∈ v :: vs, u < 2 ^ gatherWidth ty) :
    let int := bitsInt (ty != 1) (gatherWidth ty)
    gatherLane .max ty (v :: vs) ∈ v :: vs ∧ ∀ u ∈ v :: vs, int u ≤ int (gatherLane .max ty (v :: vs)) := by
  intro int
  obtain ⟨hm, hle⟩ := foldl_head_selects (key := fun u => OrderDual.toDual (int u)) (P := fun _ => True) (l := vs)
    (a := v) (op := fun a b => if decide (int a ≤ int b) then b else a)
    (fun a b _ _ => by by_cases hab : int a ≤ int b <;> simp [hab, le_of_not_ge]) fun _ _ => trivial
  have heq : gatherLane .max ty (v :: vs) = (v :: vs).foldl (fun a b => if decide (int a ≤ int b) then b else a) v := by
    simp only [gatherLane, h, List.headD_cons]
    exact Nat.mod_eq_of_lt (hw _ hm)
  rw [heq]
  exact ⟨hm, hle⟩

theorem gatherLane_and_int {vs : List ℕ} (hvs : vs ≠ []) {j : ℕ} (hj : j < gatherWidth ty) :
    (gatherLane .and ty vs).testBit j = vs.all (·.testBit j) := by
  obtain ⟨v, vs, rfl⟩ := List.exists_cons_of_ne_nil hvs
  simp only [gatherLane, h, List.headD_cons, Nat.testBit_mod_two_pow, hj, decide_true, Bool.true_and, testBit_foldl_and,
    List.all_cons, Bool.and_self_left]

theorem gatherLane_or_int (vs : List ℕ) {j : ℕ} (hj : j < gatherWidth ty) :
    (gatherLane .or ty vs).testBit j = vs.any (·.testBit j) := by
  cases vs with
  | nil => simp [gatherLane, h]
  | cons v vs =>
    simp only [gatherLane, h, List.headD_cons, Nat.testBit_mod_two_pow, hj, decide_true, Bool.true_and, testBit_foldl_or,
      List.any_cons, Bool.or_self_left]

theorem gatherLane_xor_int (vs : List ℕ) {j : ℕ} (hj : j < gatherWidth ty) :
    (gatherLane .xor ty vs).testBit j = decide ((vs.filter (·.testBit j)).length % 2 = 1) := by
  cases vs with
  | nil => simp [gatherLane, h]
  | cons v vs =>
    simp only [gatherLane, h, List.headD_cons, List.drop_succ_cons, List.drop_zero, Nat.testBit_mod_two_pow, hj,
      decide_true, Bool.true_and, testBit_foldl_xor]

end

/-- A number of the lane width is its own unsigned reading. -/
theorem bitsInt_unsigned {w u : ℕ} (h : u < 2 ^ w) : bitsInt false w u = u := by
  simp [bitsInt, Nat.mod_eq_of_lt h]

/-! ### One lane of floating-point numbers -/

/-- The formats of gatherings. -/
theorem gatherFmt_cases {ty : ℕ} {f : FFmt} (h : gatherFmt ty = some f) : f = fp32 ∨ f = bf16 ∨ f = fp64 := by
  unfold gatherFmt at h
  split at h <;> cases h <;> simp

section
variable {ty : ℕ} {f : FFmt} (h : gatherFmt ty = some f)
include h

/-- The formats of gatherings have infinities. -/
theorem gatherFmt_inf : f.inf = true := by
  rcases gatherFmt_cases h with rfl | rfl | rfl <;> rfl

/-- A format fills its lanes. -/
theorem gatherFmt_width : f.width = gatherWidth ty := by
  unfold gatherFmt at h
  split at h <;> cases h <;> rfl

/-- A lane's sum is the sum of the values, rounded. -/
theorem gatherLane_add_float (v : ℕ) (vs : List ℕ) :
    gatherLane .add ty (v :: vs) = f.round .rne false 0 ((vs.map f.read).foldl (Num.add .rne) (f.read v)) := by
  simp only [gatherLane, h, List.map_cons, List.headD_cons, List.drop_succ_cons, List.drop_zero]

theorem gatherLane_min_float (v : ℕ) (vs : List ℕ) :
    gatherLane .min ty (v :: vs) = f.round .rne false 0 (((v :: vs).map f.read).foldl Num.min (f.read v)) := by
  simp only [gatherLane, h, List.map_cons, List.headD_cons]

theorem gatherLane_max_float (v : ℕ) (vs : List ℕ) :
    gatherLane .max ty (v :: vs) = f.round .rne false 0 (((v :: vs).map f.read).foldl Num.max (f.read v)) := by
  simp only [gatherLane, h, List.map_cons, List.headD_cons]

/-- A NaN among the contributions makes the sum, the least and the greatest the canonical NaN. -/
theorem gatherLane_nan {vs : List ℕ} (hn : ∃ v ∈ vs, f.read v = .nan) :
    gatherLane .add ty vs = f.nan ∧ gatherLane .min ty vs = f.nan ∧ gatherLane .max ty vs = f.nan := by
  obtain ⟨u, hu, hn⟩ := hn
  obtain ⟨v, vs, rfl⟩ := List.exists_cons_of_ne_nil (List.ne_nil_of_mem hu)
  have hm : Num.nan ∈ (v :: vs).map f.read := List.mem_map.2 ⟨u, hu, hn⟩
  rw [gatherLane_add_float h, gatherLane_min_float h, gatherLane_max_float h,
    foldl_nan (add_nan_left _) (add_nan_right _) _ _ hm,
    foldl_nan min_nan_left min_nan_right _ _ (List.mem_cons_of_mem _ hm),
    foldl_nan max_nan_left max_nan_right _ _ (List.mem_cons_of_mem _ hm)]
  exact ⟨rfl, rfl, rfl⟩

/-- Opposite infinities among the contributions make the sum the canonical NaN. -/
theorem gatherLane_add_opposite {vs : List ℕ} (ht : ∃ v ∈ vs, f.read v = .inf true) (hf : ∃ v ∈ vs, f.read v = .inf false) :
    gatherLane .add ty vs = f.nan := by
  obtain ⟨u, hu, ht⟩ := ht
  obtain ⟨u', hu', hf⟩ := hf
  obtain ⟨v, vs, rfl⟩ := List.exists_cons_of_ne_nil (List.ne_nil_of_mem hu)
  rw [gatherLane_add_float h, sum_opposite (List.mem_map.2 ⟨u, hu, ht⟩) (List.mem_map.2 ⟨u', hu', hf⟩)]
  rfl

/-- An infinity of one sign alone is the sum. -/
theorem gatherLane_add_inf {vs : List ℕ} {s : Bool} (hs : ∃ v ∈ vs, f.read v = .inf s)
    (hn : ∀ v ∈ vs, f.read v ≠ .nan ∧ f.read v ≠ .inf (!s)) : gatherLane .add ty vs = f.infBits s := by
  obtain ⟨u, hu, hs⟩ := hs
  obtain ⟨v, vs, rfl⟩ := List.exists_cons_of_ne_nil (List.ne_nil_of_mem hu)
  have hne : (vs.map f.read).foldl (Num.add .rne) (f.read v) ≠ .nan :=
    sum_ne_nan (t := !s) _ _ (List.forall_mem_map.2 hn : ∀ x ∈ (v :: vs).map f.read, _)
  rw [gatherLane_add_float h, (sum_of_inf _ _ (List.mem_map.2 ⟨u, hu, hs⟩)).resolve_left hne]
  simp [FFmt.round, gatherFmt_inf h]

/-- The sum of finite contributions is their exact sum rounded once. -/
theorem gatherLane_add_finite {vs : List ℕ} (hvs : vs ≠ []) (hfin : ∀ v ∈ vs, ∃ s n d, f.read v = .fin s n d) :
    ∃ (s : Bool) (n d : ℕ), 0 < d ∧ (if s then -1 else 1) * (n : ℚ) / d = (vs.map fun v => Num.value (f.read v)).sum ∧
      gatherLane .add ty vs = f.round .rne false 0 (.fin s n d) ∧
      (n = 0 → (s = true ↔ ∀ v ∈ vs, ∃ e, f.read v = .fin true 0 e)) := by
  obtain ⟨v, vs, rfl⟩ := List.exists_cons_of_ne_nil hvs
  have hf : ∀ x ∈ (v :: vs).map f.read, Num.Finite x := by
    refine List.forall_mem_map.2 fun u hu => ?_
    obtain ⟨s, n, d, e⟩ := hfin u hu
    exact ⟨s, n, d, e, read_fin_den e⟩
  obtain ⟨s, n, d, hsum, hd, hval, hzero⟩ := sum_fin _ _ hf
  refine ⟨s, n, d, hd, ?_, by rw [gatherLane_add_float h, hsum], fun hn => ?_⟩
  · simpa [Num.value, Function.comp_def] using hval
  · rw [← List.map_cons, List.forall_mem_map] at hzero
    simp only [hn, and_true] at hzero
    exact hzero

/-- The least of contributions without a NaN. -/
theorem gatherLane_min_proper {vs : List ℕ} (hvs : vs ≠ []) (hn : ∀ v ∈ vs, f.read v ≠ .nan) :
    ∃ v ∈ vs, gatherLane .min ty vs = f.round .rne false 0 (f.read v) ∧ ∀ u ∈ vs,
      (f.read v).cmp (f.read u) ≠ some .gt ∧
      ((f.read v).cmp (f.read u) = some .eq → (f.read u).isNeg = true → (f.read v).isNeg = true) := by
  obtain ⟨v, vs, rfl⟩ := List.exists_cons_of_ne_nil hvs
  have hp : ∀ x ∈ (v :: vs).map f.read, Num.Proper x := List.forall_mem_map.2 fun u hu => read_proper (hn u hu)
  obtain ⟨hm, hle⟩ := foldl_head_selects (fun _ _ => min_selects) hp
  rw [← List.map_cons] at hm hle
  obtain ⟨w, hw, hwv⟩ := List.mem_map.1 hm
  refine ⟨w, hw, by rw [gatherLane_min_float h, hwv], fun u hu => ?_⟩
  have hu' := List.mem_map_of_mem (f := f.read) hu
  rw [hwv]
  exact cmp_of_key_le (hp _ hm) (hp _ hu') (hle _ hu')

/-- The greatest of contributions without a NaN. -/
theorem gatherLane_max_proper {vs : List ℕ} (hvs : vs ≠ []) (hn : ∀ v ∈ vs, f.read v ≠ .nan) :
    ∃ v ∈ vs, gatherLane .max ty vs = f.round .rne false 0 (f.read v) ∧ ∀ u ∈ vs,
      (f.read v).cmp (f.read u) ≠ some .lt ∧
      ((f.read v).cmp (f.read u) = some .eq → (f.read v).isNeg = true → (f.read u).isNeg = true) := by
  obtain ⟨v, vs, rfl⟩ := List.exists_cons_of_ne_nil hvs
  have hp : ∀ x ∈ (v :: vs).map f.read, Num.Proper x := List.forall_mem_map.2 fun u hu => read_proper (hn u hu)
  obtain ⟨hm, hle⟩ := foldl_head_selects (key := fun x => OrderDual.toDual (Num.key x)) (fun _ _ => max_selects) hp
  rw [← List.map_cons] at hm hle
  obtain ⟨w, hw, hwv⟩ := List.mem_map.1 hm
  refine ⟨w, hw, by rw [gatherLane_max_float h, hwv], fun u hu => ?_⟩
  have hu' := List.mem_map_of_mem (f := f.read) hu
  rw [hwv]
  exact cmp_of_key_ge (hp _ hm) (hp _ hu') (hle _ hu')

end

/-! ### All lanes -/

/-- The bits of a rounded value fill at most the format's width. -/
theorem round_lt {f : FFmt} (hinf : f.emax * 2 ^ f.fbits < 2 ^ (f.ebits + f.fbits))
    (hnan : f.nan < 2 ^ (f.ebits + f.fbits)) (hmax : f.maxFin < 2 ^ (f.ebits + f.fbits)) (r : Rnd) (sat : Bool)
    (rho : ℕ) (x : Num) : f.round r sat rho x < 2 ^ f.width := by
  have hw : 2 ^ f.width = 2 ^ (f.ebits + f.fbits) + 2 ^ (f.ebits + f.fbits) := by rw [FFmt.width, pow_succ]; omega
  have hsign (s : Bool) : f.sign s ≤ 2 ^ (f.ebits + f.fbits) := by cases s <;> simp [FFmt.sign]
  have hover (s : Bool) : f.overflow r sat s < 2 ^ f.width := by
    have := hsign s; have := hsign true
    unfold FFmt.overflow FFmt.infBits
    split
    · omega
    · split
      · omega
      · split <;> omega
  unfold FFmt.round
  split
  · omega
  · next s =>
    have := hsign s
    unfold FFmt.infBits
    split
    · omega
    · split <;> omega
  · next s n d =>
    have := hsign s
    have hclip (m : ℕ) : (if m > f.maxFin then f.overflow r sat s else m + f.sign s) < 2 ^ f.width := by
      split
      · exact hover s
      · omega
    split
    · omega
    · exact hclip _

/-- A lane's result fits the lane. -/
theorem gatherLane_lt (op : GOp) (ty : ℕ) (vs : List ℕ) : gatherLane op ty vs < 2 ^ gatherWidth ty := by
  unfold gatherLane
  cases h : gatherFmt ty with
  | none => exact Nat.mod_lt _ (Nat.two_pow_pos _)
  | some f =>
    rw [← gatherFmt_width h]
    rcases gatherFmt_cases h with rfl | rfl | rfl <;>
      exact round_lt (by decide) (by decide) (by decide) _ _ _ _

/-- Numbers shifted to their lanes and added up are the digits of their sum. -/
theorem sum_lanes (g : ℕ → ℕ) (w : ℕ) : ∀ n a, ((upFrom a n).map fun k => g k * 2 ^ (w * k)).sum =
    2 ^ (w * a) * Nat.ofDigits (2 ^ w) ((upFrom a n).map g)
  | 0, a => by simp [upFrom]
  | n + 1, a => by
    rw [upFrom, List.map_cons, List.sum_cons, sum_lanes g w n (a + 1), List.map_cons, Nat.ofDigits_cons, Nat.mul_add w,
      pow_add]
    ring

/-- What the parties contribute to a lane of an element type. -/
def laneInputs (ty : ℕ) (ps : List Party) (k : ℕ) : List ℕ :=
  ps.map fun p => p.contrib.toNat / 2 ^ (gatherWidth ty * k) % 2 ^ gatherWidth ty

/-- The result of a round of a lane type, as a number whose digits are its lanes. -/
theorem gatherResult_digits {op : GOp} {a : Word} {ps : List Party} (h : arityType a ≠ 8) :
    gatherResult op a ps = Nat.ofDigits (2 ^ gatherWidth (arityType a)) ((upFrom 0 (gatherLanes (arityType a))).map
      fun k => gatherLane op (arityType a) (laneInputs (arityType a) ps k)) := by
  simp only [gatherResult, h, if_false, sum_lanes, Nat.mul_zero, pow_zero, Nat.one_mul, laneInputs]

/-- A run of numbers is the library's. -/
theorem upFrom_eq_range' : ∀ n a, upFrom a n = List.range' a n
  | 0, _ => rfl
  | n + 1, a => by rw [upFrom, upFrom_eq_range' n, List.range'_succ]

/-- Digit `k` of a number whose digits are given. -/
theorem ofDigits_digit {b : ℕ} (hb : 0 < b) {g : ℕ → ℕ} (hg : ∀ k, g k < b) {n k : ℕ} (hk : k < n) :
    Nat.ofDigits b ((upFrom 0 n).map g) / b ^ k % b = g k := by
  have hl : ∀ x ∈ (upFrom 0 n).map g, x < b := List.forall_mem_map.2 fun k _ => hg k
  have hget : ((upFrom 0 n).map g)[k]? = some (g k) := by simp [upFrom_eq_range', hk]
  rw [Nat.ofDigits_div_pow_eq_ofDigits_drop k hb _ hl, Nat.ofDigits_mod_eq_head!, List.head!_eq_head?_getD,
    List.head?_drop, hget, Option.getD_some, Nat.mod_eq_of_lt (hg k)]

/-- Every lane of a result, and that it ends at its last lane. -/
theorem gatherResult_lane (op : GOp) (a : Word) (ps : List Party) {k : ℕ} (h : arityType a ≠ 8)
    (hk : k < gatherLanes (arityType a)) :
    gatherResult op a ps / 2 ^ (gatherWidth (arityType a) * k) % 2 ^ gatherWidth (arityType a) =
      gatherLane op (arityType a) (laneInputs (arityType a) ps k) ∧
    gatherResult op a ps < 2 ^ (gatherWidth (arityType a) * gatherLanes (arityType a)) := by
  have hw : 1 < 2 ^ gatherWidth (arityType a) :=
    Nat.one_lt_two_pow (by unfold gatherWidth; split <;> decide)
  have hlane (k : ℕ) := gatherLane_lt op (arityType a) (laneInputs (arityType a) ps k)
  rw [gatherResult_digits h, pow_mul, pow_mul]
  refine ⟨ofDigits_digit (Nat.two_pow_pos _) hlane hk, ?_⟩
  have hlt := Nat.ofDigits_lt_base_pow_length hw (List.forall_mem_map.2 fun k
    (_ : k ∈ upFrom 0 (gatherLanes (arityType a))) => hlane k)
  rwa [List.length_map, upFrom_length] at hlt

/-- The result of a 64-bit scalar type. -/
theorem gatherResult_scalar (op : GOp) (a : Word) (ps : List Party) (h : arityType a < 5)
    (hw : gatherWidth (arityType a) = 64) :
    gatherResult op a ps = gatherLane op (arityType a) (ps.map fun p => p.contrib.toNat % 2 ^ 64) := by
  have hl : gatherLanes (arityType a) = 1 := by unfold gatherLanes; split <;> omega
  rw [gatherResult_digits (by omega), hl, hw]
  simp [upFrom, laneInputs, hw]

/-- Settles O53: each operation lane by lane, the lanes as the digits of the result. -/
theorem gatheringResult : Obligations.GatheringResult := by
  have hsum : ∀ ty (vs : List ℕ), gatherFmt ty = none → gatherLane .add ty vs = vs.sum % 2 ^ gatherWidth ty :=
    fun ty vs h => gatherLane_add_int h vs
  refine ⟨fun vs => ⟨hsum 1 vs rfl, hsum 0 vs rfl, hsum 5 vs rfl⟩, fun v vs hw => ?_, fun ty v vs hty hw => ?_,
    fun ty vs hty j hj => ?_, fun ty f vs hf hvs => ?_, fun op a ps k h hk => gatherResult_lane op a ps h hk,
    fun op a ps h => by simp [gatherResult, h], gatherResult_scalar⟩
  · obtain ⟨hmin, hle⟩ := gatherLane_min_int (ty := 1) rfl hw
    obtain ⟨hmax, hge⟩ := gatherLane_max_int (ty := 1) rfl hw
    have hint : ∀ u ∈ v :: vs, bitsInt false 64 u = u := fun u hu => bitsInt_unsigned (hw u hu)
    refine ⟨hmin, fun u hu => ?_, hmax, fun u hu => ?_⟩
    · have := hle u hu
      rwa [bne_self_eq_false, show gatherWidth 1 = 64 from rfl, hint u hu, hint _ hmin, Nat.cast_le] at this
    · have := hge u hu
      rwa [bne_self_eq_false, show gatherWidth 1 = 64 from rfl, hint u hu, hint _ hmax, Nat.cast_le] at this
  · have hfmt : gatherFmt ty = none := gatherFmt_int (by omega)
    have hsigned : (ty != 1) = true := by rcases hty with rfl | rfl <;> rfl
    obtain ⟨hmin, hle⟩ := gatherLane_min_int hfmt hw
    obtain ⟨hmax, hge⟩ := gatherLane_max_int hfmt hw
    rw [hsigned] at hle hge
    exact ⟨hmin, hle, hmax, hge⟩
  · have hfmt := gatherFmt_int hty
    exact ⟨fun hvs => gatherLane_and_int hfmt hvs hj, gatherLane_or_int hfmt vs hj, gatherLane_xor_int hfmt vs hj⟩
  · exact ⟨gatherLane_nan hf, gatherLane_add_opposite hf, fun s => gatherLane_add_inf hf, gatherLane_add_finite hf hvs,
      fun hn => ⟨gatherLane_min_proper hf hvs hn, gatherLane_max_proper hf hvs hn⟩⟩

end Sys2Proof.Machine.Meetings
end

section
/-! PROOF. The faults of carrel accesses (R49, R50, R280, R362) and of the slots that end or join a meeting (R298 to R303,
R332). -/
namespace Sys2Proof.Machine.Meetings

/-! ### The meanings of the slots -/

section
variable (pm : Pm) (ex : BitVec 3) (off : BitVec 16) (lsid : BitVec 5) (ty : Ty) (imm : BitVec 5) (t1 : Tgt) (s : State)

theorem exec_ld : exec (.ld pm lsid ty imm t1) s = execLd pm lsid ty imm t1 s := by rfl
theorem exec_st : exec (.st pm lsid ty imm) s = execSt pm lsid ty imm s := by rfl
theorem exec_pld : exec (.pld pm lsid ty imm t1) s = execPld pm lsid ty imm t1 s := by rfl
theorem exec_pst : exec (.pst pm lsid ty imm) s = execPst pm lsid ty imm s := by rfl
theorem exec_retire : exec (.retire pm ex) s = execRetire pm ex s := by rfl
theorem exec_gang (shape : Shape) : exec (.gang pm ex shape off) s = execGang pm ex shape off s := by rfl
theorem exec_meet : exec (.meet pm ex off) s = execMeet pm ex off s := by rfl
theorem exec_gather (op : GOp) : exec (.gather pm ex op off) s = execGather pm ex op off s := by rfl
theorem exec_part : exec (.part pm ex off) s = execPart pm ex off s := by rfl
theorem exec_hcall : exec (.hcall pm ex off) s = execHcall pm ex off s := by rfl

end

/-! ### Carrel accesses -/

/-- A selected slot reads the state in which it is selected. -/
theorem selected_state {s : State} {i : Instr} {c : Ctx} (h : Selected s i c) : c.s = s := by
  obtain ⟨-, -, -, -, -, hs, -, -, -⟩ := State.ctx_spec h.ctx
  exact hs

/-- What a firing slot sees: the context with the selection cleared. -/
def Ctx.cleared (c : Ctx) (s : State) : Ctx := { c with s := { s with cur := none } }

section
variable {s : State} {c : Ctx} {pm : Pm} {lsid : BitVec 5} {ty : Ty} {imm : BitVec 5} {t1 : Tgt} {e : Flt}

/-- LD whose load raises a fault keeps it. -/
theorem ld_fault (h : Selected s (.ld pm lsid ty imm t1) c)
    (he : (Ctx.cleared c s).load false lsid.toNat ty (lsAddr (c.word 0) imm (Ty.size ty)) = .error e) :
    exec (.ld pm lsid ty imm t1) s = .next (s.slotFault c e) := by
  rw [exec_ld]
  exact fireSlot_error (cond := always) h rfl he

/-- PLD whose load raises a fault keeps it. -/
theorem pld_fault (h : Selected s (.pld pm lsid ty imm t1) c)
    (he : (Ctx.cleared c s).load true lsid.toNat ty (lsAddr (c.word 0) imm (Ty.size ty)) = .error e) :
    exec (.pld pm lsid ty imm t1) s = .next (s.slotFault c e) := by
  rw [exec_pld]
  exact fireSlot_error (cond := always) h rfl he

/-- ST whose store raises a fault keeps it. -/
theorem st_fault (h : Selected s (.st pm lsid ty imm) c)
    (he : (Ctx.cleared c s).store false ty (lsAddr (c.word 0) imm (Ty.size ty)) (c.word 1) = .error e) :
    exec (.st pm lsid ty imm) s = .next (s.slotFault c e) := by
  rw [exec_st]
  exact fireSlot_error (cond := always) h rfl he

/-- PST whose store raises a fault keeps it. -/
theorem pst_fault (h : Selected s (.pst pm lsid ty imm) c)
    (he : (Ctx.cleared c s).store true ty (lsAddr (c.word 0) imm (Ty.size ty)) (c.word 1) = .error e) :
    exec (.pst pm lsid ty imm) s = .next (s.slotFault c e) := by
  rw [exec_pst]
  exact fireSlot_error (cond := always) h rfl he

end

section
variable {c : Ctx} {store : Bool} {a size f : ℕ}

/-- The checks of an access of the own carrel end in carrel-rights outside the banks held. -/
theorem check_own_rights (h : c.x.holds a size = false) :
    c.check false store a size = .error (fltA .carrelRights a) := by
  rw [Ctx.check_own, h]; rfl

/-- Inside the banks held they are those of the bank. -/
theorem check_own_bank (h : c.x.holds a size = true) :
    c.check false store a size = formatAt (a / 24576) (c.x.fmt (a / 24576)) a size := by
  rw [Ctx.check_own, h]; rfl

variable {y : Act} {m : MeetSt}

/-- The checks of an access of partner space end in carrel-rights past the luggage and, for a store, where it is
read-only. -/
theorem check_partner_rights (hp : c.s.partner c.x = some (y, m))
    (h : m.lugCount * 24576 ≤ a ∨ (store = true ∧ m.lugRo = true)) :
    c.check true store a size = .error (fltA .carrelRights a) := by
  rw [Ctx.check_partner hp, if_pos h]

/-- Inside luggage that may be accessed they are those of the bank. -/
theorem check_partner_bank (hp : c.s.partner c.x = some (y, m)) (h : a < m.lugCount * 24576)
    (hro : store = true → m.lugRo = false) :
    c.check true store a size = formatAt (m.lugFirst + a / 24576) (y.fmt (m.lugFirst + a / 24576)) a size := by
  rw [Ctx.check_partner hp, if_neg]
  rintro (hle | ⟨hs, hr⟩)
  · omega
  · simp [hro hs] at hr

end

/-- A load whose bank gives it a format raises a data error at the first byte with a detected error. -/
theorem load_dirty {c : Ctx} {partner : Bool} {lsid a f b : ℕ} {ty : Ty}
    (hc : c.check partner false a (Ty.size ty) = .ok f) (h1 : a ≤ b)
    (h2 : b < a + if f = 0 then Ty.size ty else fmtSize f) (hb : c.badAt partner lsid b = true)
    (hclean : ∀ o, a ≤ o → o < b → c.badAt partner lsid o = false) :
    c.load partner lsid ty a = .error (fltA .dataError b) :=
  Ctx.load_bad hc (Ctx.badByte_some h1 h2 hb hclean)

/-- Settles O11: the checks of an access, one after the other, and then the first byte with a detected error. -/
theorem carrelAccessFaults : Obligations.CarrelAccessFaults := by
  refine ⟨fun s c pm lsid ty imm t1 h => ?_, fun s c pm lsid ty imm h => ?_, fun s c pm lsid ty imm t1 h hp => ?_,
    fun s c pm lsid ty imm t1 y m h hp => ?_, fun s c pm lsid ty imm h hp => ?_, fun s c pm lsid ty imm y m h hp => ?_⟩
  · obtain rfl := selected_state h
    intro size a f n
    refine ⟨fun hh => ?_, fun hh hf => ?_, fun hh h8 ha => ?_, fun b hh h8 ha h1 h2 hb hclean => ?_⟩
    · exact ld_fault h (Ctx.load_error (check_own_rights hh))
    · exact ld_fault h (Ctx.load_error ((check_own_bank hh).trans (formatAt_format rfl hf)))
    · exact ld_fault h (Ctx.load_error ((check_own_bank hh).trans (formatAt_align rfl h8 ha)))
    · exact ld_fault h (load_dirty ((check_own_bank hh).trans (formatAt_ok rfl h8 ha)) h1 h2 hb hclean)
  · obtain rfl := selected_state h
    intro size a f n
    refine ⟨fun hh => ?_, fun hh hf => ?_, fun hh h8 ha => ?_⟩
    · exact st_fault h (Ctx.store_error (check_own_rights hh))
    · exact st_fault h (Ctx.store_error ((check_own_bank hh).trans (formatAt_format rfl hf)))
    · exact st_fault h (Ctx.store_error ((check_own_bank hh).trans (formatAt_align rfl h8 ha)))
  · exact pld_fault h (Ctx.load_error (Ctx.check_alone hp))
  · obtain rfl := selected_state h
    intro size a bank f n
    refine ⟨fun hh => ?_, fun hh hf => ?_, fun hh h8 ha => ?_, fun b hh h8 ha h1 h2 hb hclean => ?_⟩
    · exact pld_fault h (Ctx.load_error (check_partner_rights hp (.inl hh)))
    · exact pld_fault h (Ctx.load_error ((check_partner_bank hp hh (by simp)).trans (formatAt_format rfl hf)))
    · exact pld_fault h (Ctx.load_error ((check_partner_bank hp hh (by simp)).trans (formatAt_align rfl h8 ha)))
    · exact pld_fault h (load_dirty ((check_partner_bank hp hh (by simp)).trans (formatAt_ok rfl h8 ha)) h1 h2 hb hclean)
  · exact pst_fault h (Ctx.store_error (Ctx.check_alone hp))
  · intro size a bank f n
    refine ⟨fun hh => ?_, fun hh hro hf => ?_, fun hh hro h8 ha => ?_⟩
    · exact pst_fault h (Ctx.store_error (check_partner_rights hp (hh.imp_right fun hro => ⟨rfl, hro⟩)))
    · exact pst_fault h (Ctx.store_error ((check_partner_bank hp hh fun _ => hro).trans (formatAt_format rfl hf)))
    · exact pst_fault h (Ctx.store_error ((check_partner_bank hp hh fun _ => hro).trans (formatAt_align rfl h8 ha)))

/-! ### Slots of meetings -/

/-- Inside a meeting the check of R56 raises meeting-state, whatever follows it. -/
theorem outside_met {c : Ctx} (h : c.x.inMeeting = true) (f : Unit → Except Flt FOut) :
    (c.outside >>= f) = .error (flt .meetingState) := by
  simp only [Ctx.outside, h]; rfl

/-- Outside one what follows decides. -/
theorem outside_alone {c : Ctx} (h : c.x.inMeeting = false) (f : Unit → Except Flt FOut) : (c.outside >>= f) = f () := by
  simp only [Ctx.outside, h]; rfl

/-- A register with a detected error raises a data error at its offset (R362). -/
theorem regOk_bad {x : Act} {cls : Cls} {n : ℕ} (h : x.bad.contains (.register x.id cls n) = true) :
    x.regOk cls n = .error (fltA .dataError (regOffset cls n)) := by
  simp only [Act.regOk, h, if_true]

/-- A descriptor of more than four banks, with a bit above its fields, or past the 16 banks or those held, fails R47. -/
theorem lugOk_false {x : Act} {d : Word} (h : 4 < d.toNat / 16 % 8 ∨ 2 ^ 8 ≤ d.toNat ∨ (0 < d.toNat / 16 % 8 ∧
    (16 < d.toNat % 16 + d.toNat / 16 % 8 ∨ x.banks < d.toNat % 16 + d.toNat / 16 % 8))) : x.lugOk d = false := by
  rw [Bool.eq_false_iff]
  simp only [Act.lugOk, lugFields, bits, ne_eq, Bool.and_eq_true, Bool.or_eq_true, beq_iff_eq]
  norm_num
  omega

/-- Settles O20: the checks of each exit in their order. -/
theorem activityFaults : Obligations.ActivityFaults := by
  refine ⟨fun s c pm ex h hm => ?_, fun s c pm ex shape off h hm => ?_, fun s c pm ex shape off h hm hst => ?_,
    fun s c pm ex off h hq hm => ?_, fun s c pm ex off h hq hm hl => ?_, fun s c pm ex op off h hm => ?_,
    fun s c pm ex op off h hm hb => ?_, fun s c pm ex off h hq hm => ?_, fun s c pm ex off h hm => ?_,
    fun s c pm ex off h hm hf => ?_⟩
  · rw [exec_retire]
    exact fireSlot_error (cond := always) h rfl (outside_met hm _)
  · rw [exec_gang]
    exact fireSlot_error (cond := always) h rfl (outside_met hm _)
  · rw [exec_gang]
    exact fireSlot_error (cond := always) h rfl
      ((outside_alone hm _).trans (if_pos (mt List.length_eq_zero_iff.1 hst)))
  · rw [exec_meet]
    exact fireSlot_error (cond := meetQuiet) h hq (outside_met hm _)
  · rw [exec_meet]
    have hbad : (!c.x.lugOk (c.word 1)) = true := by rw [lugOk_false hl]; rfl
    exact fireSlot_error (cond := meetQuiet) h hq ((outside_alone hm _).trans (if_pos hbad))
  · rw [exec_gather]
    exact fireSlot_error (cond := always) h rfl (outside_met hm _)
  · rw [exec_gather]
    refine fireSlot_error (cond := always) h rfl ((outside_alone hm _).trans ?_)
    rw [regOk_bad hb]
    rfl
  · rw [exec_part]
    have hout : (!c.x.inMeeting) = true := by rw [hm]; rfl
    exact fireSlot_error (cond := partQuiet) h hq (if_pos hout)
  · rw [exec_hcall]
    exact fireSlot_error (cond := always) h rfl (outside_met hm _)
  · rw [exec_hcall]
    have hhyp : c.x.hyper = true := by simp [Act.hyper, hf]
    exact fireSlot_error (cond := always) h rfl ((outside_alone hm _).trans (if_pos hhyp))

end Sys2Proof.Machine.Meetings
end

section
/-! PROOF. Requests of the host window (R72, R342, R407 to R409). -/
namespace Sys2Proof.Machine.Meetings

/-! ### The meanings of the events -/

section
variable (h : HostReq) (s : State)

theorem exec_doorbell (q value : ℕ) : exec (.doorbell h q value) s = execDoorbell h q value s := by rfl
theorem exec_loanAllocate (w : Word) : exec (.loanAllocate h w) s = execLoanAllocate h w s := by rfl
theorem exec_loanFree (w : Word) : exec (.loanFree h w) s = execLoanFree h w s := by rfl
theorem exec_podCatalogueWrite (e : ℕ) (w : Word) :
    exec (.podCatalogueWrite h e w) s = execPodCatalogueWrite h e w s := by rfl
theorem exec_hostWindowWrite (off : ℕ) (data : List Byte) :
    exec (.hostWindowWrite h off data) s = execHostWindowWrite h off data s := by rfl
theorem exec_hostWindowRead (off n : ℕ) : exec (.hostWindowRead h off n) s = execHostWindowRead h off n s := by rfl

end

/-! ### What a write request does -/

/-- A request that is let through and performed is completed. -/
theorem wrote_performed {s t : State} {h : HostReq} (hok : s.hostOk h = true) :
    s.wrote h (some t) = t.complete h true [] := by
  simp only [State.wrote, hok, if_true]

/-- A request that is not let through, or that a check refuses, gets an error completion. -/
theorem wrote_refused {s : State} {h : HostReq} {r : Option State} (hr : s.hostOk h = false ∨ r = none) :
    s.wrote h r = s.complete h false [] := by
  have : (if s.hostOk h then r else none) = none := by
    rcases hr with hr | rfl
    · simp [hr]
    · simp
  simp only [State.wrote, this]

/-- A doorbell of a queue that leaves at most 64 records open sets its producer index (R342). -/
theorem ringBell_some {s : State} {v q value : ℕ} (hq : q < (s.fn v).cfg.lqcount)
    (hv : (value % 2 ^ 32 + 2 ^ 32 - (s.fn v).cons.getD q 0) % 2 ^ 32 ≤ 64) :
    s.ringBell v q value = some (s.modFn v fun f => { f with prod := f.prod.set q (value % 2 ^ 32) }) := by
  rw [State.ringBell, if_neg]
  omega

/-- Any other is refused. -/
theorem ringBell_none {s : State} {v q value : ℕ} (h : (s.fn v).cfg.lqcount ≤ q ∨
    64 < (value % 2 ^ 32 + 2 ^ 32 - (s.fn v).cons.getD q 0) % 2 ^ 32) : s.ringBell v q value = none := by
  rw [State.ringBell, if_pos h]

/-- A pod catalogue entry 1 to 511 is written (R72). -/
theorem podWrite_some {s : State} {v e val : ℕ} (h1 : 1 ≤ e) (h2 : e ≤ 511) :
    s.podWrite v e val = some (State.ipaWrite v s ((s.fn v).cfg.podcat + 8 * e) (leBytes 8 val)) := by
  rw [State.podWrite, if_neg]
  omega

/-! ### The loan command word (R408) -/

/-- A command whose op is not free allocates, or is refused with result 4 for a reserved bit or an unknown op. -/
theorem loanCommand_allocate {s : State} {v w : ℕ} (h : bits w 63 60 ≠ 2) : s.loanCommand v w =
    if bits w 59 57 ≠ 0 ∨ bits w 55 48 ≠ 0 ∨ bits w 63 60 ≠ 1 then s.loanResult v 4 0 else s.loanAlloc v w := by
  unfold State.loanCommand
  by_cases hr : bits w 59 57 ≠ 0 ∨ bits w 55 48 ≠ 0
  · rw [if_pos hr, if_pos (by tauto)]
  · rw [if_neg hr]
    split
    · next h1 => rw [if_neg (by tauto)]
    · next h2 => exact absurd h2 h
    · next h1 _ => rw [if_pos (.inr (.inr h1))]

/-- A command whose op is free frees, or is refused with result 4 for a reserved bit. -/
theorem loanCommand_free {s : State} {v w : ℕ} (h : bits w 63 60 = 2) : s.loanCommand v w =
    if bits w 59 57 ≠ 0 ∨ bits w 55 48 ≠ 0 then s.loanResult v 4 0 else s.loanDrop v w := by
  unfold State.loanCommand
  rw [h]
  rfl

/-! ### What freeing a range leaves alone -/

/-- A function's pages in use and host-held loans are the same in two states. -/
def SameLoans (v : ℕ) (s t : State) : Prop :=
  t.funcs.length = s.funcs.length ∧ (t.fn v).pageu = (s.fn v).pageu ∧ (t.fn v).hostLoans = (s.fn v).hostLoans

theorem SameLoans.trans {v : ℕ} {s t u : State} (h1 : SameLoans v s t) (h2 : SameLoans v t u) : SameLoans v s u :=
  ⟨h2.1.trans h1.1, h2.2.1.trans h1.2.1, h2.2.2.trans h1.2.2⟩

/-- A change outside the functions keeps them. -/
theorem SameLoans.of_funcs {v : ℕ} {s t : State} (h : t.funcs = s.funcs) : SameLoans v s t := by
  simp only [SameLoans, State.fn, h, and_self]

/-- A change of a function's other fields keeps them. -/
theorem SameLoans.modFn {v : ℕ} {s : State} {g : Func → Func}
    (hg : ∀ f, (g f).pageu = f.pageu ∧ (g f).hostLoans = f.hostLoans) : SameLoans v s (s.modFn v g) := by
  refine ⟨State.modFn_funcs_length s v g, ?_⟩
  rcases Nat.lt_or_ge v s.funcs.length with h | h
  · rw [State.fn_modFn h]; exact hg _
  · rw [State.modFn, State.fn_setFn_absent h]; exact ⟨rfl, rfl⟩

/-- A fold of changes outside the functions is one. -/
theorem foldl_funcs {α : Type} {f : State → α → State} (h : ∀ s a, (f s a).funcs = s.funcs) :
    ∀ (l : List α) (s : State), (l.foldl f s).funcs = s.funcs
  | [], _ => rfl
  | a :: l, s => (foldl_funcs h l (f s a)).trans (h s a)

@[simp] theorem zeroIpa_funcs (s : State) (v ip : ℕ) : (s.zeroIpa v ip).funcs = s.funcs := by
  unfold State.zeroIpa; split <;> rfl

theorem ipaWrite_funcs (v : ℕ) : ∀ (bs : List Byte) (s : State) (ipa : ℕ), (State.ipaWrite v s ipa bs).funcs = s.funcs
  | [], _, _ => rfl
  | b :: bs, s, ipa => by
    rw [State.ipaWrite, ipaWrite_funcs v bs]
    split
    · rfl
    · split <;> rfl

theorem retable_sameLoans (v : ℕ) (s : State) : SameLoans v s (s.retable v) := by
  unfold State.retable
  dsimp only
  split
  · exact .modFn fun _ => ⟨rfl, rfl⟩
  · refine .trans (.modFn ?_) (.modFn ?_) <;> exact fun _ => ⟨rfl, rfl⟩

theorem mapStage1_sameLoans (v : ℕ) (s : State) (g : List S1Page → List S1Page) : SameLoans v s (s.mapStage1 v g) := by
  have h1 : SameLoans v s ((s.modFn v fun f => { f with stage1 := g f.stage1 }).retable v) :=
    .trans (.modFn (by exact fun _ => ⟨rfl, rfl⟩)) (retable_sameLoans v _)
  unfold State.mapStage1
  refine h1.trans (.of_funcs ?_)
  dsimp only
  rw [foldl_funcs fun t e => ipaWrite_funcs v _ t _, foldl_funcs fun t n => zeroIpa_funcs t v _]

theorem freeRange_sameLoans (v base n : ℕ) (s : State) : SameLoans v s (s.freeRange v base n) := by
  unfold State.freeRange
  refine .trans (.of_funcs ?_) (.trans (mapStage1_sameLoans v _ _) (.of_funcs rfl))
  exact foldl_funcs (fun t e => zeroIpa_funcs t v _) _ _

/-! ### The loan result word -/

/-- Setting the result word changes nothing else of the function. -/
theorem fn_loanResult {s : State} {v : ℕ} (hv : v < s.funcs.length) (status base : ℕ) :
    (s.loanResult v status base).fn v =
      { s.fn v with loanRes := BitVec.ofNat 64 (status * 2 ^ 60 + base * 65536) } := State.fn_modFn hv

/-- The result word of a command that allocates nothing. -/
theorem loanRes_loanResult {s : State} {v : ℕ} (hv : v < s.funcs.length) (status : ℕ) :
    ((s.loanResult v status 0).fn v).loanRes = BitVec.ofNat 64 (status * 2 ^ 60) := by
  rw [fn_loanResult hv]
  simp only [Nat.zero_mul, Nat.add_zero]

/-- A loan of no page, or with a bit of its base, is refused with result 4. -/
theorem loanAlloc_malformed {s : State} {v w : ℕ} (h : bits w 23 0 = 0 ∨ bits w 47 24 ≠ 0) :
    s.loanAlloc v w = s.loanResult v 4 0 := by
  rw [State.loanAlloc, if_pos h]

/-- A loan beyond the 256 of a function is refused with result 5. -/
theorem loanAlloc_full {s : State} {v w : ℕ} (h1 : bits w 23 0 ≠ 0) (h2 : bits w 47 24 = 0)
    (h3 : 256 ≤ (s.fn v).hostLoans.length) : s.loanAlloc v w = s.loanResult v 5 0 := by
  rw [State.loanAlloc, if_neg (by tauto), if_pos h3]

/-- Freeing at a base where no loan begins is refused with result 4. -/
theorem loanDrop_absent {s : State} {v w : ℕ} (h : (s.fn v).hostLoans.find? (fun l => l.1 == bits w 47 16) = none) :
    s.loanDrop v w = s.loanResult v 4 0 := by
  simp only [State.loanDrop, h]

/-- Freeing a loan takes it and its pages from the function and answers 0. -/
theorem loanDrop_frees {s : State} {v w : ℕ} {l : ℕ × ℕ × Bool} (hv : v < s.funcs.length)
    (h : (s.fn v).hostLoans.find? (fun l => l.1 == bits w 47 16) = some l) (hb : bit w 56 = false) (hz : bits w 15 0 = 0) :
    ((s.loanDrop v w).fn v).loanRes = 0 ∧
    ((s.loanDrop v w).fn v).hostLoans = (s.fn v).hostLoans.filter (fun m => m.1 != l.1) ∧
    ((s.loanDrop v w).fn v).pageu = (s.fn v).pageu - l.2.1 := by
  obtain ⟨hlen, hpage, hloans⟩ := freeRange_sameLoans v l.1 l.2.1 s
  have hv' : v < (s.freeRange v l.1 l.2.1).funcs.length := hlen ▸ hv
  have heq : s.loanDrop v w = ((s.freeRange v l.1 l.2.1).modFn v fun f => { f with
      pageu := f.pageu - l.2.1, hostLoans := f.hostLoans.filter fun m => m.1 != l.1 }).loanResult v 0 0 := by
    simp [State.loanDrop, h, hb, hz]
  rw [heq, fn_loanResult (by rwa [State.modFn_funcs_length]), State.fn_modFn hv', hpage, hloans]
  exact ⟨rfl, rfl, rfl⟩

/-! ### The parts of the window (R407) -/

/-- The registers from 200h to 220h, for an access of 8 bytes. -/
theorem winPart_registers (f : Func) : f.winPart 0x200 8 = .command ∧ f.winPart 0x208 8 = .result ∧
    f.winPart 0x210 8 = .pageu ∧ f.winPart 0x218 8 = .pageb ∧ f.winPart 0x220 8 = .loans := by
  simp [Func.winPart]

/-- The doorbells below 200h. -/
theorem winPart_bell {f : Func} {q : ℕ} (hq : q < f.cfg.lqcount) (h64 : q < 64) : f.winPart (8 * q) 8 = .bell q := by
  have h1 : ¬ 2 ^ 48 ≤ 8 * q := by omega
  have h2 : ¬ 0x200000 ≤ 8 * q := by omega
  have h3 : ¬ 0x100000 ≤ 8 * q := by omega
  have h4 : 8 * q < 0x200 := by omega
  have hword : (!((8 : ℕ) == 8 && 8 * q % 8 == 0)) = false := by simp
  have hdiv : 8 * q / 8 = q := by omega
  rw [Func.winPart]
  dsimp only
  rw [if_neg h1, if_neg h2, if_neg h3, hword, if_neg Bool.false_ne_true, if_pos h4, hdiv, if_pos hq]

/-- The data aperture: 8 bytes at an aligned address inside a host-held loan. -/
theorem winPart_data {f : Func} {va : ℕ} (hva : va < 2 ^ 48) (ha : va % 256 = 0) (hin : f.inHostLoan va 8 = true) :
    f.winPart (2 ^ 48 + va) 8 = .data va := by
  have h1 : va / 256 = (va + 8 - 1) / 256 := by omega
  rw [Func.winPart]
  dsimp only
  rw [if_pos (Nat.le_add_right _ _), Nat.add_sub_cancel_left, if_pos ⟨hva, rfl, le_refl 8, by decide, h1, hin⟩]

/-- Settles O57: each event through the part of the window that it names; what freeing a range leaves alone gives the
result of LOAN_FREE. -/
theorem hostWindowEvents : Obligations.HostWindowEvents := by
  refine ⟨fun s h q value hok hq hv => ?_, fun s h q value hr => ?_, fun s h w hok hop => ?_, fun s h w hok hop => ?_,
    fun s v w hv => ⟨fun hm => ?_, fun h1 h2 h3 => ?_, fun hn => ?_, fun l hl hb hz => loanDrop_frees hv hl hb hz⟩,
    fun s h e value hok h1 h2 => ?_, fun s h off data hok => ⟨fun hn => ?_, fun t ht => ?_⟩,
    fun s v data hd => ?_, fun s h off n bs hok hr => ?_, fun s h off n hr => ?_, fun s v => ?_⟩
  · rw [exec_doorbell, execDoorbell, ringBell_some hq hv, wrote_performed hok]
  · rw [exec_doorbell, execDoorbell, wrote_refused (hr.imp_right ringBell_none)]
  · rw [exec_loanAllocate, execLoanAllocate, if_neg hop, wrote_performed hok, loanCommand_allocate hop]
  · rw [exec_loanFree, execLoanFree, if_pos hop, wrote_performed hok, loanCommand_free hop]
  · rw [loanAlloc_malformed hm, loanRes_loanResult hv]
  · rw [loanAlloc_full h1 h2 h3, loanRes_loanResult hv]
  · rw [loanDrop_absent hn, loanRes_loanResult hv]
  · rw [exec_podCatalogueWrite, execPodCatalogueWrite, podWrite_some h1 h2, wrote_performed hok]
  · rw [exec_hostWindowWrite, execHostWindowWrite, wrote_refused (.inr hn)]
  · rw [exec_hostWindowWrite, execHostWindowWrite, ht, wrote_performed hok]
  · obtain ⟨h200, h208, h210, h218, -⟩ := winPart_registers (s.fn v)
    refine ⟨fun q hq h64 => ?_, ?_, ?_, ?_, ?_, fun va hva ha hin ks hks => ?_⟩
    · simp only [State.winWrite, hd, winPart_bell hq h64]
    · simp only [State.winWrite, hd, h200]
    · simp only [State.winWrite, hd, h208]
    · simp only [State.winWrite, hd, h210]
    · simp only [State.winWrite, hd, h218]
    · simp only [State.winWrite, hd, winPart_data hva ha hin, hks, Option.map_some]
  · rw [exec_hostWindowRead, execHostWindowRead]
    simp only [hok, if_true, hr]
  · have hnone : (if s.hostOk h then s.winRead h.fn off n else none) = none := by
      rcases hr with hr | hr
      · simp [hr]
      · simp [hr]
    rw [exec_hostWindowRead, execHostWindowRead]
    simp only [hnone]
  · obtain ⟨h200, h208, h210, h218, h220⟩ := winPart_registers (s.fn v)
    simp only [State.winRead, h200, h208, h210, h218, h220, and_self]

end Sys2Proof.Machine.Meetings
end

section
/-! PROOF. XRD of a spilled handle whose holder is the executing activity itself (R51, R87, R304). -/
namespace Sys2Proof.Machine.Meetings

/-- XRD of class C without targets. -/
def ownXrd : Instr := .xrd .always .c none none

/-- The handle of the environment at position 0 of a spill frame. -/
def spilledHandle : Handle := ⟨.spilled, 0, 0, 0⟩

/-- A block in flight whose slot 0 has received a spilled handle, and whose slot 1 holds the XRD with register number 7. -/
def ownFlight : Flight :=
  ⟨0, 4096, [], [0x0603FFFF, encode ownXrd],
    [⟨[(.r, 0, .handle spilledHandle)], .done, [], .none⟩, ⟨[(.l, 0, .scalar 7)], .notYet, [], .none⟩], 0⟩

/-- An activity whose meeting names itself as the partner; its snapshot holds the spilled handle in C7, and its frame the
environment. -/
def ownParty : Act :=
  { Act.fresh ⟨0, 0⟩ 0 0 1 Config.noHint with
    run := .running, place := some ⟨0, 0⟩, flight := some ownFlight, frameEnv := [⟨0, 1, 1, [0], [7], 0, none, []⟩]
    meet := some ⟨⟨0, 0⟩, true, 0, 1, false, true, .present, none, ⟨Vector.replicate 32 0, Vector.replicate 32 0,
      Vector.replicate 8 0, Vector.replicate 8 spilledHandle, []⟩⟩ }

/-- That activity alone, its XRD selected. -/
def ownState : State := { State.reset with acts := [ownParty], cur := some (⟨0, 0⟩, 1) }

/-- What the XRD sees. -/
def ownCtx : Ctx := ⟨ownState, ownParty, ownFlight, 1, ownXrd, [.scalar 7], none, none⟩

/-- The state in which the environment has been reloaded. -/
def ownReloaded : State := (({ ownState with cur := none } : State).reload ⟨0, 0⟩ 0).getD ownState

/-- The activity after the reload, and its side of the meeting. -/
def ownAfter : Act := (ownReloaded.act ⟨0, 0⟩).getD default
def ownMeeting : MeetSt := ownAfter.meet.getD default

/-- The handle that the XRD sends. -/
def ownHandle : Handle := ownMeeting.snap.c.toList.getD 7 Handle.none

/-- The tokens that slot 0 of the activity's block holds. -/
def slotZero (s : State) : List Token :=
  match (s.act ⟨0, 0⟩).bind (·.flight) with
  | some f => (f.slot 0).ins.map (·.2.2)
  | none => []

/-- The XRD is selected, reaches its own snapshot, and its environment can be reloaded. -/
theorem ownSelected : Selected ownState ownXrd ownCtx := ⟨by rfl, by decide +kernel⟩

theorem ownPartner : ownState.partner ownCtx.x = some (ownParty, ownParty.meet.getD default) := by decide +kernel

theorem ownReload : ({ ownState with cur := none } : State).reload ⟨0, 0⟩ 0 = some ownReloaded := by decide +kernel

/-- The tokens of slot 0 after a step; none where the step stops. -/
def slotZeroAfter : Host.Outcome State Fault Refusal → List Token
  | .next t => slotZero t
  | _ => []

/-- XRD keeps the token as the reload has renamed it (R75). -/
theorem slotZero_exec : slotZeroAfter (exec ownXrd ownState) = [.handle ⟨.store, 0, 0, 0⟩] := by decide +kernel

/-- The state that the statement names holds the token as it was before the reload. -/
theorem slotZero_sends :
    slotZero (ownReloaded.sends ownCtx (.handle ownHandle) (.handle ownHandle)) = [.handle spilledHandle] := by
  decide +kernel

/-- Refutes O21: the state that the statement names puts the executing block back as it was before the reload. An activity
whose meeting names itself as the partner, which the statement does not exclude, holds in another slot of its block a
token of the handle that XRD reloads; the reload renames it (R75), and the firing keeps the renamed token. -/
theorem not_xrdSlot : ¬ Obligations.XrdSlot := by
  intro h
  obtain ⟨-, hmet⟩ := h ownState ownCtx .always .c none none ownSelected
  obtain ⟨-, hread, -⟩ := hmet _ _ ownPartner
  obtain ⟨-, -, -, -, hspilled⟩ := hread (fun _ => by decide) (by decide +kernel)
  obtain ⟨-, hreload⟩ := hspilled rfl (by decide +kernel)
  have hexec : exec ownXrd ownState = .next (ownReloaded.sends ownCtx (.handle ownHandle) (.handle ownHandle)) :=
    hreload ownReloaded ownAfter ownMeeting ownReload (by decide +kernel) (by decide +kernel)
  have hslot := congrArg slotZeroAfter hexec
  exact absurd (slotZero_exec.symm.trans (hslot.trans slotZero_sends)) (by decide)

end Sys2Proof.Machine.Meetings
end

section
/-! PROOF. Tag masks, bank formats and matrix commands (R165, R184, R193, R286 to R289, R323, R325). -/
namespace Sys2Proof.Machine.Numbers
open Sys2Proof.Machine.Meetings

/-! ### The meanings of the slots -/

section
variable (pm : Pm) (ex : BitVec 3) (off : BitVec 19) (clr sp zb ow i32 : Bool) (bank fmt : BitVec 4) (mode : Fuse)
  (t : BitVec 3) (mask : BitVec 8) (t1 t2 : Tgt) (s : State)

theorem exec_wtany : exec (.wtany pm ex off) s = execWtany pm ex off s := by rfl
theorem exec_wtall : exec (.wtall pm ex off) s = execWtall pm ex off s := by rfl
theorem exec_wcnt : exec (.wcnt pm ex off) s = execWcnt pm ex off s := by rfl
theorem exec_tagff : exec (.tagff pm clr t1 t2) s = execTagff pm clr t1 t2 s := by rfl
theorem exec_tagclr : exec (.tagclr pm t1 t2) s = execTagclr pm t1 t2 s := by rfl
theorem exec_bfmt : exec (.bfmt pm bank fmt t1) s = execBfmt pm bank fmt t1 s := by rfl
theorem exec_mfuse : exec (.mfuse pm mode t1) s = execMfuse pm mode t1 s := by rfl
theorem exec_mwload : exec (.mwload pm sp t1) s = execMwload pm sp t1 s := by rfl
theorem exec_mwswap : exec (.mwswap pm t1) s = execMwswap pm t1 s := by rfl
theorem exec_mstream : exec (.mstream pm zb ow t t1) s = execMstream pm zb ow t t1 s := by rfl
theorem exec_mstore : exec (.mstore pm t t1) s = execMstore pm t t1 s := by rfl
theorem exec_mrel : exec (.mrel pm mask t1) s = execMrel pm mask t1 s := by rfl
theorem exec_mldacc : exec (.mldacc pm i32 t t1) s = execMldacc pm i32 t t1 s := by rfl

end

/-! ### What follows a check -/

/-- A meaning whose first part answers goes on with the answer. -/
theorem ok_bind {α β : Type} {x : Except Flt α} {a : α} {f : α → Except Flt β} (h : x = .ok a) : (x >>= f) = f a := by
  rw [h]; rfl

/-- One whose first part raises a fault raises it. -/
theorem error_bind {α β : Type} {x : Except Flt α} {e : Flt} {f : α → Except Flt β} (h : x = .error e) :
    (x >>= f) = .error e := by
  rw [h]; rfl

/-! ### Tag masks -/

/-- The first number below `n` with a property, or `n`. -/
theorem find_upFrom_getD (p : ℕ → Bool) (n : ℕ) :
    ((upFrom 0 n).find? p).getD n ≤ n ∧ (∀ i < ((upFrom 0 n).find? p).getD n, p i = false) ∧
      (((upFrom 0 n).find? p).getD n < n → p (((upFrom 0 n).find? p).getD n) = true) := by
  rw [upFrom_eq_range', ← List.range_eq_range']
  cases h : (List.range n).find? p with
  | none =>
    have hp := List.find?_range_eq_none.1 h
    exact ⟨le_rfl, fun i hi => by simpa using hp i hi, fun hlt => absurd hlt (lt_irrefl n)⟩
  | some j =>
    obtain ⟨hj, hmem, hlow⟩ := List.find?_range_eq_some.1 h
    exact ⟨(List.mem_range.1 hmem).le, fun i hi => by simpa using hlow i hi, fun _ => hj⟩

section
variable {c : Ctx}

/-- The CBANK rule of R286 holds where no CBANK in progress has a masked tag. -/
theorem bankQuiet_of (h : ∀ p ∈ c.x.copies, p.kind = .cbank → (c.word 0).getLsbD p.tag = false) : bankQuiet c = true := by
  simp only [bankQuiet, noBank, List.all_eq_true]
  intro p hp
  by_cases hk : p.kind = .cbank
  · simp [h p hp hk]
  · simp [hk]

/-- No masked tag has met a reserved code. -/
theorem strictTags_none (h : ∀ r ∈ c.x.strict, (c.word 0).getLsbD r.tag = false) : c.strictTags = .ok () := by
  have hnone : (c.x.strict.find? fun r => (c.word 0).getLsbD r.tag) = none :=
    List.find?_eq_none.2 fun r hr => by simp [h r hr]
  rw [Ctx.strictTags, hnone]

/-- The first kept report of a masked tag is raised. -/
theorem strictTags_some {r : StrictHit} {before after : List StrictHit} (hs : c.x.strict = before ++ r :: after)
    (hb : ∀ g ∈ before, (c.word 0).getLsbD g.tag = false) (hr : (c.word 0).getLsbD r.tag = true) :
    c.strictTags = .error ⟨.strictCode, BitVec.ofNat 64 r.off, r.val⟩ := by
  have hsome : (c.x.strict.find? fun g => (c.word 0).getLsbD g.tag) = some r :=
    List.find?_eq_some_iff_append.2 ⟨hr, before, after, hs, fun g hg => by simp [hb g hg]⟩
  rw [Ctx.strictTags, hsome]

end

/-- What TAGFF finds (R287): the lowest masked done tag, or 64. -/
theorem findDone_spec (x : Act) (mask : Word) :
    x.findDone mask ≤ 64 ∧
      (∀ i < x.findDone mask, (mask.getLsbD i && (x.tags.getLsbD i || x.tagerr.getLsbD i)) = false) ∧
      (x.findDone mask < 64 → (mask.getLsbD (x.findDone mask) &&
        (x.tags.getLsbD (x.findDone mask) || x.tagerr.getLsbD (x.findDone mask))) = true) := by
  have h := find_upFrom_getD (fun j => (mask &&& (x.tags ||| x.tagerr)).getLsbD j) 64
  simpa only [Act.findDone, BitVec.getLsbD_and, BitVec.getLsbD_or] using h

/-- With .clr TAGFF frees the tag that it found. -/
theorem tagff_effect (clr : Bool) (j : ℕ) :
    (if clr = true ∧ j < 64 then Effect.tagClear (BitVec.ofNat 64 (2 ^ j)) else .none) =
      if (clr && decide (j < 64)) = true then .tagClear (BitVec.ofNat 64 (2 ^ j)) else .none := by
  simp only [Bool.and_eq_true, decide_eq_true_eq]

/-- Settles O15: the CBANK rule, then the report of a masked tag, then what the slot sends and records. -/
theorem tagAndFormatSlots : Obligations.TagAndFormatSlots := by
  refine ⟨fun s c pm ex off h hq hs => ?_, fun s c pm ex off h hq hs => ?_, fun s c pm ex off h => ?_,
    fun s c pm clr t1 t2 h hq hs => ⟨c.x.findDone (c.word 0), findDone_spec _ _, ?_⟩,
    fun s c pm ex off r before after h hq hs hb hr => ?_, fun s c pm ex off r before after h hq hs hb hr => ?_,
    fun s c pm clr t1 t2 r before after h hq hs hb hr => ?_, fun s c pm t1 t2 h => ?_,
    fun s c pm bank fmt t1 h hf hb => ?_, fun s c pm bank fmt t1 h hf => ?_, fun s c pm bank fmt t1 h hf hb => ?_⟩
  · rw [exec_wtany]
    exact fireSlot_ok h (bankQuiet_of hq) (ok_bind (strictTags_none hs))
  · rw [exec_wtall]
    exact fireSlot_ok h (bankQuiet_of hq) (ok_bind (strictTags_none hs))
  · rw [exec_wcnt]
    exact fireSlot_ok (cond := always) h rfl rfl
  · rw [exec_tagff, tagff_effect]
    exact fireSlot_ok h (bankQuiet_of hq) (ok_bind (strictTags_none hs))
  · rw [exec_wtany]
    exact fireSlot_error h (bankQuiet_of hq) (error_bind (strictTags_some hs hb hr))
  · rw [exec_wtall]
    exact fireSlot_error h (bankQuiet_of hq) (error_bind (strictTags_some hs hb hr))
  · rw [exec_tagff]
    exact fireSlot_error h (bankQuiet_of hq) (error_bind (strictTags_some hs hb hr))
  · rw [exec_tagclr]
    exact fireSlot_ok (cond := always) h rfl rfl
  · rw [exec_bfmt]
    exact fireSlot_ok (cond := always) h rfl ((if_neg (by omega)).trans (if_neg (by simp [hb])))
  · rw [exec_bfmt]
    exact fireSlot_error (cond := always) h rfl (if_pos hf)
  · rw [exec_bfmt]
    exact fireSlot_error (cond := always) h rfl ((if_neg (by omega)).trans (if_pos (by simp [hb])))

/-! ### Matrix commands -/

/-- What MWAIT answers (R193, R325): the report of a failed command that would have written a masked tile, else 0. -/
def mwaitAnswer (c : Ctx) : Except Flt FOut :=
  match (c.s.gangOf c.x).bind fun g => g.failedOn fun t => (c.word 0).getLsbD t with
  | some m => .error (m.report (memberOf c.x))
  | none => c.scalar 0

theorem exec_mwait (pm : Pm) (t1 t2 : Tgt) (s : State) :
    exec (.mwait pm t1 t2) s = fireSlot s (.mwait pm t1 t2) tilesQuiet mwaitAnswer := by rfl

section
variable {c : Ctx} {k : MKind} {off : Option ℕ}

/-- A matrix command that depends on nothing unreported sends 0 and is recorded. -/
theorem matrix_ok (h : c.dependent (c.newCmd k) = .ok ()) :
    c.matrix k off = .ok (c.sendEff (.scalar 0) (.matrix k off)) :=
  ok_bind h

/-- One that does takes the fault of the report. -/
theorem matrix_error {e : Flt} (h : c.dependent (c.newCmd k) = .error e) : c.matrix k off = .error e :=
  error_bind h

/-- MWAIT sends 0 where no failed command of the gang would have written a masked tile (R193). -/
theorem mwait_ok (h : ∀ g, c.s.gangOf c.x = some g → g.failedOn (fun t => (c.word 0).getLsbD t) = none) :
    mwaitAnswer c = .ok (c.send (.scalar 0)) := by
  rw [mwaitAnswer]
  cases hg : c.s.gangOf c.x with
  | none => rfl
  | some g => rw [Option.bind_some, h g hg]; rfl

/-- It reports one that would have (R184). -/
theorem mwait_error {g : Gang} {m : MCmd} (hg : c.s.gangOf c.x = some g)
    (hm : g.failedOn (fun t => (c.word 0).getLsbD t) = some m) : mwaitAnswer c = .error (m.report (memberOf c.x)) := by
  rw [mwaitAnswer, hg, Option.bind_some, hm]

end

/-- Settles O25: the report that the command depends on, or its record. -/
theorem matrixSlots : Obligations.MatrixSlots := by
  refine ⟨fun s c pm mode t1 h hq hd => ?_, fun s c pm sp t1 h hq hd => ?_, fun s c pm t1 h hq hd => ?_,
    fun s c pm zb ow t t1 h hq hd => ?_, fun s c pm t t1 h hd => ?_, fun s c pm mask t1 h hd => ?_,
    fun s c pm i32 t t1 h hd => ?_, fun s c e pm mode t1 h hq hd => ?_, fun s c e pm sp t1 h hq hd => ?_,
    fun s c e pm t1 h hq hd => ?_, fun s c e pm zb ow t t1 h hq hd => ?_, fun s c e pm t t1 h hd => ?_,
    fun s c e pm mask t1 h hd => ?_, fun s c e pm i32 t t1 h hd => ?_, fun s c pm t1 t2 h hq hf => ?_,
    fun s c pm t1 t2 g m h hq hg hm => ?_⟩ <;> obtain rfl := selected_state h
  · rw [exec_mfuse]
    exact fireSlot_ok h hq (matrix_ok hd)
  · rw [exec_mwload]
    exact fireSlot_ok h hq (matrix_ok hd)
  · rw [exec_mwswap]
    exact fireSlot_ok h hq (matrix_ok hd)
  · rw [exec_mstream]
    exact fireSlot_ok h hq (matrix_ok hd)
  · rw [exec_mstore]
    exact fireSlot_ok (cond := always) h rfl (matrix_ok hd)
  · rw [exec_mrel]
    exact fireSlot_ok (cond := always) h rfl (matrix_ok hd)
  · rw [exec_mldacc]
    exact fireSlot_ok (cond := always) h rfl (matrix_ok hd)
  · rw [exec_mfuse]
    exact fireSlot_error h hq (matrix_error hd)
  · rw [exec_mwload]
    exact fireSlot_error h hq (matrix_error hd)
  · rw [exec_mwswap]
    exact fireSlot_error h hq (matrix_error hd)
  · rw [exec_mstream]
    exact fireSlot_error h hq (matrix_error hd)
  · rw [exec_mstore]
    exact fireSlot_error (cond := always) h rfl (matrix_error hd)
  · rw [exec_mrel]
    exact fireSlot_error (cond := always) h rfl (matrix_error hd)
  · rw [exec_mldacc]
    exact fireSlot_error (cond := always) h rfl (matrix_error hd)
  · rw [exec_mwait]
    exact fireSlot_ok h hq (mwait_ok hf)
  · rw [exec_mwait]
    exact fireSlot_error h hq (mwait_error hg hm)

end Sys2Proof.Machine.Numbers
end

section
/-! PROOF. Conversions, reductions, permutations and special functions of vector lanes (R169, R170, R175 to R177, R317, R320
to R322). -/
namespace Sys2Proof.Machine.Numbers
open Sys2Proof.Machine.Meetings

/-! ### The meanings of the slots -/

section
variable (pm : Pm) (ty src dst : ETy) (part : BitVec 2) (red : VRedFn) (fn : VPermFn) (spec : Spec) (sh : BitVec 6)
  (t1 : Tgt) (s : State)

theorem exec_vcvt : exec (.vcvt pm src dst part t1) s = execVcvt pm src dst part t1 s := by rfl
theorem exec_vred : exec (.vred pm ty red t1) s = execVred pm ty red t1 s := by rfl
theorem exec_vperm : exec (.vperm pm ty fn sh t1) s = execVperm pm ty fn sh t1 s := by rfl
theorem exec_vspec : exec (.vspec pm ty spec t1) s = execVspec pm ty spec t1 s := by rfl

end

/-! ### Operands and participating lanes -/

section
variable {c : Ctx} {ty : ETy}

/-- An instruction whose mask register is good sends its result. -/
theorem maskOk_map {f : Unit → FOut} (h : c.maskOk = .ok ()) : c.maskOk.map f = .ok (f ()) := by
  rw [h]; rfl

/-- A lane of a single operand takes part where its mask bit is set and it carries no lane null (R199). -/
theorem part_one (l : Token) (k : ℕ) : c.part ty [l] k = (c.maskBit k && !nullLane ty l.nulls k) := by
  simp [Ctx.part]

/-- A lane of VRED: the right operand counts in a dot product only. -/
theorem part_red (fn : VRedFn) (l r : Token) (k : ℕ) :
    c.part ty (if fn == .dot then [l, r] else [l]) k =
      (c.maskBit k && !nullLane ty l.nulls k && (fn != .dot || !nullLane ty r.nulls k)) := by
  cases hfn : fn == .dot <;> simp [Ctx.part, bne, hfn, Bool.and_assoc]

end

/-! ### Conversion -/

/-- Settles O31: the lanes of the model's conversion are those of the statement. -/
theorem vcvtSlot : Obligations.VcvtSlot := by
  intro s c pm src dst part t1 vs h hq hv
  obtain rfl := selected_state h
  rw [exec_vcvt]
  exact fireSlot_ok h hq (ok_bind hv)

/-! ### Reductions -/

/-- Settles O33: the lanes that take part, then each function of its own. -/
theorem vredSlot : Obligations.VredSlot := by
  intro s c pm ty fn t1 vs h hq hv l r live hit
  obtain rfl := selected_state h
  have hlive : live = c.part ty (if fn == .dot then [l, r] else [l]) := funext fun k => (part_red fn l r k).symm
  have hvecs (f : List Token → Except Flt FOut) : ((Ctx.cleared c c.s).vecs ty >>= f) = f vs := ok_bind hv
  refine ⟨?_, ?_, ?_, ?_⟩
  · rintro rfl
    refine ⟨((upFrom 0 ty.lanes).find? hit).getD ty.lanes, ?_, find_upFrom_getD hit ty.lanes⟩
    rw [exec_vred]
    simp only [hit, hlive]
    exact fireSlot_ok h hq (hvecs _)
  · rintro rfl
    rw [exec_vred, List.range_eq_range', ← upFrom_eq_range']
    simp only [hit, hlive]
    exact fireSlot_ok h hq (hvecs _)
  · intro hf hc hty
    rw [exec_vred]
    simp only [hlive]
    match fn, hf, hc with
    | .sum, _, _ | .min, _, _ | .max, _, _ | .and, _, _ | .or, _, _ | .dot, _, _ =>
      exact fireSlot_ok h hq ((hvecs _).trans (if_pos hty))
  · intro hf hc hty
    rw [exec_vred]
    simp only [hlive]
    have hty' : ¬ ty.isInt = true := by simp [hty]
    match fn, hf, hc with
    | .sum, _, _ | .min, _, _ | .max, _, _ | .and, _, _ | .or, _, _ | .dot, _, _ =>
      exact fireSlot_ok h hq ((hvecs _).trans (if_neg hty'))

/-! ### Permutations and special functions -/

/-- Compressed lanes: those kept, then zeros. -/
theorem compress_map (n : ℕ) (f : ℕ → ℕ) (ks : List ℕ) :
    compress n (ks.map f) = (ks.map f ++ List.replicate (n - ks.length) 0).map some := by
  rw [compress, List.length_map]

/-- Settles O34: each function of VPERM, then VSPEC. -/
theorem vpermAndVspecSlots : Obligations.VpermAndVspecSlots := by
  refine ⟨fun s c pm ty fn sh t1 h hm => ?_, fun s c pm ty fn t1 h hm => ?_⟩
  · rw [exec_vperm]
    cases fn with
    | perm | bcast | sup | sdn | iota | exp => exact fireSlot_ok (cond := always) h rfl (ok_bind hm)
    | comp =>
      simp only [← compress_map]
      exact fireSlot_ok (cond := always) h rfl (ok_bind hm)
    | ext =>
      by_cases hsent : (c.maskBit sh.toNat && !nullLane ty (c.tok 0).nulls sh.toNat) = true
      · have hkept : ¬ (!c.maskBit sh.toNat || nullLane ty (c.tok 0).nulls sh.toNat) = true := by simpa using hsent
        simp only [hsent, if_true]
        exact fireSlot_ok (cond := always) h rfl ((ok_bind hm).trans (if_neg hkept))
      · have hskip : (!c.maskBit sh.toNat || nullLane ty (c.tok 0).nulls sh.toNat) = true := by
          simpa [Decidable.imp_iff_not_or] using hsent
        simp only [hsent, Bool.false_eq_true, if_false]
        exact fireSlot_ok (cond := always) h rfl ((ok_bind hm).trans (if_pos hskip))
  · rw [exec_vspec]
    simp only [← part_one]
    exact fireSlot_ok (cond := always) h rfl (maskOk_map hm)

end Sys2Proof.Machine.Numbers
end

section
/-! PROOF. Vector loads and stores (R163, R165, R218, R219, R318, R319, R362). -/
namespace Sys2Proof.Machine.Numbers
open Sys2Proof.Machine.Meetings

theorem exec_vld (pm : Pm) (lsid : BitVec 5) (ty : ETy) (mode : VMode) (t1 : Tgt) (s : State) :
    exec (.vld pm lsid ty mode t1) s = execVld pm lsid ty mode t1 s := by rfl
theorem exec_vst (pm : Pm) (lsid : BitVec 5) (ty : ETy) (mode : VMode) (s : State) :
    exec (.vst pm lsid ty mode) s = execVst pm lsid ty mode s := by rfl

/-- A check for a detected error that finds none goes on. -/
theorem clean_match {o : Option ℕ} {bad : ℕ → Except Flt FOut} {next : Except Flt FOut} :
    o = none → (match o with | some b => bad b | none => next) = next := by
  rintro rfl
  rfl

/-- Where a test that raises a fault lets an answer through, it fails. -/
theorem guard_ok {α : Type} {p : Prop} [Decidable p] {e : Flt} {next : Unit → Except Flt α} {a : α}
    (h : (if p then (throw e >>= next) else next ()) = .ok a) : ¬ p ∧ next () = .ok a := by
  by_cases hp : p
  · rw [if_pos hp] at h; cases h
  · exact ⟨hp, by rwa [if_neg hp] at h⟩

/-! ### What the slots do -/

section
variable {s : State} {c : Ctx} {pm : Pm} {lsid : BitVec 5} {ty : ETy} {mode : VMode} {t1 : Tgt} {f : ℕ} {e : Flt}

/-- The participating lanes of a vector load or store, in ascending order. -/
def partLanes (c : Ctx) (ty : ETy) : List ℕ := (upFrom 0 ty.lanes).filter (c.vPart ty)

theorem mem_partLanes {k : ℕ} : k ∈ partLanes c ty ↔ k < ty.lanes ∧ c.vPart ty k = true := by
  simp [partLanes, mem_upFrom]

/-- A VLD that passes its checks and whose lanes answer sends them. -/
theorem vld_loads {ls : List (Option ℕ)} {bs : List (ℕ × Byte)} (h : Selected s (.vld pm lsid ty mode t1) c)
    (hc : (Ctx.cleared c s).vCheck false ty mode (c.word 0) (c.toks.getD 1 (.scalar 0)) (partLanes c ty) = .ok f)
    (hl : (Ctx.cleared c s).vldAll lsid.toNat f mode ty (c.word 0) (c.toks.getD 1 (.scalar 0)) (upFrom 0 ty.lanes) =
      .ok (ls, bs)) :
    exec (.vld pm lsid ty mode t1) s = .next (s.loads c (ofLanes ty ls) bs) := by
  rw [exec_vld]
  exact fireSlot_ok (cond := always) h rfl ((ok_bind hc).trans (ok_bind hl))

/-- One of whose lanes raises a fault keeps it. -/
theorem vld_lane_fault (h : Selected s (.vld pm lsid ty mode t1) c)
    (hc : (Ctx.cleared c s).vCheck false ty mode (c.word 0) (c.toks.getD 1 (.scalar 0)) (partLanes c ty) = .ok f)
    (hl : (Ctx.cleared c s).vldAll lsid.toNat f mode ty (c.word 0) (c.toks.getD 1 (.scalar 0)) (upFrom 0 ty.lanes) =
      .error e) :
    exec (.vld pm lsid ty mode t1) s = .next (s.slotFault c e) := by
  rw [exec_vld]
  exact fireSlot_error (cond := always) h rfl ((ok_bind hc).trans (error_bind hl))

/-- The lowest lane that raises a fault gives the fault of the VLD. -/
theorem vld_lowest_fault {k : ℕ} (v : ℕ → ℕ × List (ℕ × Byte)) (h : Selected s (.vld pm lsid ty mode t1) c)
    (hc : (Ctx.cleared c s).vCheck false ty mode (c.word 0) (c.toks.getD 1 (.scalar 0)) (partLanes c ty) = .ok f)
    (hk : k ∈ partLanes c ty) (hlow : ∀ j ∈ partLanes c ty, j < k →
      (Ctx.cleared c s).vldLane lsid.toNat f mode ty (c.word 0) (c.toks.getD 1 (.scalar 0)) j = .ok (v j))
    (he : (Ctx.cleared c s).vldLane lsid.toNat f mode ty (c.word 0) (c.toks.getD 1 (.scalar 0)) k = .error e) :
    exec (.vld pm lsid ty mode t1) s = .next (s.slotFault c e) := by
  obtain ⟨hlt, hp⟩ := mem_partLanes.1 hk
  exact vld_lane_fault h hc (Ctx.vldAll_error (Nat.zero_le k) (by omega)
    (fun j _ hj hpj => hlow j (mem_partLanes.2 ⟨hj.trans hlt, hpj⟩) hj) hp he)

/-- One that fails a check keeps the fault of the check. -/
theorem vld_check_fault (h : Selected s (.vld pm lsid ty mode t1) c)
    (hc : (Ctx.cleared c s).vCheck false ty mode (c.word 0) (c.toks.getD 1 (.scalar 0)) (partLanes c ty) = .error e) :
    exec (.vld pm lsid ty mode t1) s = .next (s.slotFault c e) := by
  rw [exec_vld]
  exact fireSlot_error (cond := always) h rfl (error_bind hc)

/-- The bytes of which a VST keeps a nibble: those of an INT4 bank of which it writes one lane alone. -/
def keptBytes (c : Ctx) (ty : ETy) (mode : VMode) (f : ℕ) : List ℕ :=
  if f = 10 then ((partLanes c ty).filter fun k => !(partLanes c ty).contains (k ^^^ 1)).map fun k =>
    (vRange f mode ty (c.word 0) (c.toks.getD 2 (.scalar 0)) k).1 else []

/-- A VST that passes its checks records what its lanes write. -/
theorem vst_stores (h : Selected s (.vst pm lsid ty mode) c)
    (hc : (Ctx.cleared c s).vCheck true ty mode (c.word 0) (c.toks.getD 2 (.scalar 0)) (partLanes c ty) = .ok f)
    (hk : (Ctx.cleared c s).badByte false lsid.toNat (keptBytes c ty mode f) = none) :
    exec (.vst pm lsid ty mode) s = .next (s.stores c .null false
      ((partLanes c ty).foldl ((Ctx.cleared c s).vstLane lsid.toNat f mode ty (c.word 0) (c.toks.getD 2 (.scalar 0))
        (c.tok 1)) [])
      ((keptBytes c ty mode f).map fun o => (o, (Ctx.cleared c s).byte false lsid.toNat o))) := by
  rw [exec_vst]
  exact fireSlot_ok (cond := always) h rfl ((ok_bind hc).trans (clean_match hk))

/-- One that fails a check keeps the fault of the check. -/
theorem vst_check_fault (h : Selected s (.vst pm lsid ty mode) c)
    (hc : (Ctx.cleared c s).vCheck true ty mode (c.word 0) (c.toks.getD 2 (.scalar 0)) (partLanes c ty) = .error e) :
    exec (.vst pm lsid ty mode) s = .next (s.slotFault c e) := by
  rw [exec_vst]
  exact fireSlot_error (cond := always) h rfl (error_bind hc)

end

/-! ### Where a lane goes -/

section
variable {c : Ctx} {store : Bool} {lsid f k : ℕ} {mode : VMode} {ty : ETy} {l : Word} {idx : Token}

/-- In a raw or plainly formatted bank a lane reaches one element at the address of its mode. -/
theorem vRange_plain (hf : f ≤ 8) : vRange f mode ty l idx k =
    (vAddr mode ty (if f = 0 then ty.width / 8 else fmtSize f) l idx k, if f = 0 then ty.width / 8 else fmtSize f) :=
  if_neg (by omega)

/-- The byte that a lane of an INT4 bank or of the codes of a Q4N bank reaches. -/
def nibByte (mode : VMode) (l : Word) (k : ℕ) : ℕ :=
  if mode = .unit then (l + BitVec.ofNat 64 (k / 2)).toNat else l.toNat

/-- Whether it reaches the upper nibble: 1 where it does. -/
def nibHalf (mode : VMode) (k : ℕ) : ℕ := if mode = .unit then k % 2 else 0

theorem vRange_nibble (hf : f = 9 ∨ f = 10) (hm : mode = .unit ∨ mode = .bcast) :
    vRange f mode ty l idx k = (nibByte mode l k, 1) := by
  unfold vRange
  rw [if_pos hf]
  rcases hm with rfl | rfl <;> rfl

/-- Nibbles pass the checks in unit and broadcast mode only. -/
theorem vCheck_nibble {ks : List ℕ} (h : c.vCheck store ty mode l idx ks = .ok f) (hf : f = 9 ∨ f = 10) (hks : ks ≠ []) :
    mode = .unit ∨ mode = .bcast := by
  obtain ⟨k, ks, rfl⟩ := List.exists_cons_of_ne_nil hks
  unfold Ctx.vCheck at h
  cases hmask : c.maskOk with
  | error e => rw [error_bind hmask] at h; cases h
  | ok _ =>
    rw [ok_bind hmask] at h
    dsimp only at h
    split at h
    · cases h
    obtain ⟨hwrong, h⟩ := guard_ok h
    split at h
    · cases h
    obtain ⟨-, h⟩ := guard_ok h
    have hlane := Except.ok.inj h
    have hcode : (f == 9 || f == 10) = true := by simpa using hf
    rw [hlane] at hwrong
    cases mode <;> simp [hcode] at hwrong ⊢

/-! ### The lanes of a VLD -/

/-- A lane that reads a byte with a detected error raises a data error there (R362). -/
theorem vldLane_bad {a n b : ℕ} (h9 : f ≠ 9) (hr : vRange f mode ty l idx k = (a, n))
    (hb : c.badByte false lsid (upFrom a n) = some b) : c.vldLane lsid f mode ty l idx k = .error (fltA .dataError b) := by
  unfold Ctx.vldLane
  simp only [hr, h9, if_false, hb]

/-- A lane of a raw or plainly formatted bank has its bytes, converted. -/
theorem vldLane_plain {a n : ℕ} (hf : f ≤ 8) (hr : vRange f mode ty l idx k = (a, n))
    (hb : c.badByte false lsid (upFrom a n) = none) : c.vldLane lsid f mode ty l idx k =
      .ok (if f = 0 then readNum (c.bytes false lsid a n) else etyWrite ty (fmtRead f (readNum (c.bytes false lsid a n))),
        c.bytes false lsid a n) := by
  unfold Ctx.vldLane
  simp only [hr, show f ≠ 9 by omega, show f ≠ 10 by omega, if_false, hb]
  split <;> rfl

/-- A lane of an INT4 bank has its nibble, converted. -/
theorem vldLane_int4 (hm : mode = .unit ∨ mode = .bcast) (hb : c.badAt false lsid (nibByte mode l k) = false) :
    c.vldLane lsid 10 mode ty l idx k =
      .ok (etyWrite ty (fmtRead 10 ((c.byte false lsid (nibByte mode l k)).toNat / 16 ^ nibHalf mode k % 16)),
        [(nibByte mode l k, c.byte false lsid (nibByte mode l k))]) := by
  have hclean : c.badByte false lsid [nibByte mode l k] = none := by simp [Ctx.badByte, hb]
  unfold Ctx.vldLane
  rw [vRange_nibble (.inr rfl) hm]
  rcases hm with rfl | rfl
  · rcases Nat.mod_two_eq_zero_or_one k with hk | hk <;> simp [nibHalf, hk, upFrom, hclean, readNum, leNat]
  · simp [nibHalf, upFrom, hclean, readNum, leNat]

/-- The number of the code that a lane of a Q4N bank reads (R100). -/
def codeOf (mode : VMode) (l : Word) (k : ℕ) : ℕ := 2 * (nibByte mode l k % 24576) + nibHalf mode k

/-- The bytes that it reads: its code's, its block scale's and its superscale's. -/
def codeBytes (mode : VMode) (l : Word) (k : ℕ) : List ℕ :=
  [nibByte mode l k, nibByte mode l k / 24576 * 24576 + 20480 + codeOf mode l k / 16] ++
    upFrom (nibByte mode l k / 24576 * 24576 + 23040 + 4 * (codeOf mode l k / 256)) 4

/-- The model's offsets of these bytes in their bank. -/
theorem map_bank_offsets : [q4nCodeByte (codeOf mode l k), q4nBOff (codeOf mode l k), q4nSOff (codeOf mode l k),
    q4nSOff (codeOf mode l k) + 1, q4nSOff (codeOf mode l k) + 2, q4nSOff (codeOf mode l k) + 3].map
      (nibByte mode l k / 24576 * 24576 + ·) = codeBytes mode l k := by
  have hhalf : nibHalf mode k < 2 := by unfold nibHalf; split <;> omega
  have hcode : codeOf mode l k / 2 = nibByte mode l k % 24576 := by unfold codeOf; omega
  simp only [q4nCodeByte, q4nBOff, q4nSOff, hcode, codeBytes, upFrom, List.map_cons, List.map_nil, List.cons_append,
    List.nil_append, List.cons.injEq, and_true]
  omega

/-- A lane of a VLD from a Q4N bank that reads a byte with a detected error raises a data error at the first (R362). -/
theorem vldLane_q4n_bad {o : ℕ} (hm : mode = .unit ∨ mode = .bcast)
    (hb : (codeBytes mode l k).find? (c.badAt false lsid) = some o) :
    c.vldLane lsid 9 mode ty l idx k = .error (fltA .dataError o) := by
  have hbad : c.badByte false lsid (codeBytes mode l k) = some o := hb
  have hcode : codeOf mode l k = 2 * (nibByte mode l k - nibByte mode l k / 24576 * 24576) + nibHalf mode k := by
    unfold codeOf; omega
  unfold Ctx.vldLane
  rw [vRange_nibble (.inl rfl) hm]
  rcases hm with rfl | rfl
  · have hhalf : (if (k % 2 == 1) = true then 1 else 0) = nibHalf .unit k := by
      rcases Nat.mod_two_eq_zero_or_one k with hk | hk <;> simp [nibHalf, hk]
    simp only [if_true, Config.bankSize, hhalf, ← hcode, map_bank_offsets, hbad]
  · have hhalf : (if false = true then 1 else 0) = nibHalf .bcast k := rfl
    simp only [if_true, Config.bankSize, hhalf, ← hcode, map_bank_offsets, hbad]

/-- Where the block scale of a lane's code lies (R100). -/
def scaleByte (mode : VMode) (l : Word) (k : ℕ) : ℕ := nibByte mode l k / 24576 * 24576 + 20480 + codeOf mode l k / 16

/-- Where its superscale begins. -/
def superByte (mode : VMode) (l : Word) (k : ℕ) : ℕ :=
  nibByte mode l k / 24576 * 24576 + 23040 + 4 * (codeOf mode l k / 256)

/-- The number that bytes denote as a load sees them. -/
def numAt (c : Ctx) (lsid : ℕ) (os : List ℕ) : ℕ := leNat (os.map (c.byte false lsid))

/-- The block scale of a lane's code. -/
def scaleOf (c : Ctx) (lsid : ℕ) (mode : VMode) (l : Word) (k : ℕ) : ℕ := numAt c lsid [scaleByte mode l k]

/-- Its superscale. -/
def superOf (c : Ctx) (lsid : ℕ) (mode : VMode) (l : Word) (k : ℕ) : ℕ := numAt c lsid (upFrom (superByte mode l k) 4)

/-- Its decoded value (R163). -/
def decoded (c : Ctx) (lsid : ℕ) (mode : VMode) (l : Word) (k : ℕ) : ℕ :=
  q4nDecode (numAt c lsid [nibByte mode l k] / (if codeOf mode l k % 2 = 0 then 1 else 16) % 16)
    (scaleOf c lsid mode l k) (superOf c lsid mode l k)

/-- A lane whose bytes are good and, in a strict region, whose scales are not reserved. -/
def codeGood (c : Ctx) (lsid : ℕ) (mode : VMode) (l : Word) (k : ℕ) : Prop :=
  (∀ o ∈ codeBytes mode l k, c.badAt false lsid o = false) ∧
    ((c.s.fn c.x.id.fn).strict c.x.region = true →
      q4nBadB (scaleOf c lsid mode l k) = false ∧ q4nBadS (superOf c lsid mode l k) = false)

/-- What a lane whose bytes are good answers (R163, R165). -/
theorem vldLane_code (hm : mode = .unit ∨ mode = .bcast) (hb : ∀ o ∈ codeBytes mode l k, c.badAt false lsid o = false) :
    c.vldLane lsid 9 mode ty l idx k =
      if (c.s.fn c.x.id.fn).strict c.x.region = true ∧
          (q4nBadB (scaleOf c lsid mode l k) = true ∨ q4nBadS (superOf c lsid mode l k) = true) then
        (if q4nBadB (scaleOf c lsid mode l k) then
          .error (fltAB .strictCode (scaleByte mode l k) (scaleOf c lsid mode l k))
        else .error (fltAB .strictCode (superByte mode l k) (superOf c lsid mode l k)))
      else .ok (decoded c lsid mode l k, (codeBytes mode l k).map fun o => (o, c.byte false lsid o)) :=
  Ctx.vldLane_q4n hm rfl rfl rfl rfl rfl hb

theorem vldLane_code_good (hm : mode = .unit ∨ mode = .bcast) (hg : codeGood c lsid mode l k) :
    c.vldLane lsid 9 mode ty l idx k =
      .ok (decoded c lsid mode l k, (codeBytes mode l k).map fun o => (o, c.byte false lsid o)) := by
  obtain ⟨hb, hs⟩ := hg
  rw [vldLane_code hm hb, if_neg]
  rintro ⟨hstrict, hbad⟩
  obtain ⟨h1, h2⟩ := hs hstrict
  simp [h1, h2] at hbad

/-- A reserved block scale in a strict region (R165). -/
theorem vldLane_bad_scale (hm : mode = .unit ∨ mode = .bcast) (hb : ∀ o ∈ codeBytes mode l k, c.badAt false lsid o = false)
    (hs : (c.s.fn c.x.id.fn).strict c.x.region = true) (h : q4nBadB (scaleOf c lsid mode l k) = true) :
    c.vldLane lsid 9 mode ty l idx k = .error (fltAB .strictCode (scaleByte mode l k) (scaleOf c lsid mode l k)) := by
  rw [vldLane_code hm hb, if_pos ⟨hs, .inl h⟩, if_pos h]

/-- A reserved superscale under a good block scale. -/
theorem vldLane_bad_super (hm : mode = .unit ∨ mode = .bcast) (hb : ∀ o ∈ codeBytes mode l k, c.badAt false lsid o = false)
    (hs : (c.s.fn c.x.id.fn).strict c.x.region = true) (h : q4nBadB (scaleOf c lsid mode l k) = false)
    (h' : q4nBadS (superOf c lsid mode l k) = true) :
    c.vldLane lsid 9 mode ty l idx k = .error (fltAB .strictCode (superByte mode l k) (superOf c lsid mode l k)) := by
  rw [vldLane_code hm hb, if_pos ⟨hs, .inr h'⟩, if_neg (by simp [h])]

/-! ### The lanes of a VST -/

variable {data : Token}

/-- The lanes of a VST into raw or plain elements, in order. -/
theorem foldl_vstLane_plain (hf : f ≠ 10) : ∀ (ks : List ℕ) (acc : List (ℕ × Byte)),
    ks.foldl (c.vstLane lsid f mode ty l idx data) acc = acc ++ ks.flatMap fun k =>
      place (vRange f mode ty l idx k).1 (leBytes (vRange f mode ty l idx k).2
        (if f = 0 then lane ty data.vec k else fmtWrite f (etyRead ty (lane ty data.vec k))))
  | [], acc => by simp
  | k :: ks, acc => by
    rw [List.foldl_cons, foldl_vstLane_plain hf ks, List.flatMap_cons, ← List.append_assoc]
    congr 1
    unfold Ctx.vstLane
    rw [if_neg hf]

theorem leBytes_length : ∀ n v, (leBytes n v).length = n
  | 0, _ => rfl
  | n + 1, v => by rw [leBytes, List.length_cons, leBytes_length n]

end

/-! ### Nibbles written in order -/

/-- The byte whose nibble of a lane's parity is replaced. -/
def putNibble (k : ℕ) (old : Byte) (nib : ℕ) : Byte :=
  BitVec.ofNat 8 (if k % 2 == 1 then old.toNat % 16 + 16 * nib else old.toNat / 16 * 16 + nib)

/-- Its own nibble is the new one, the other one that of the old byte. -/
theorem putNibble_nibbles (k : ℕ) (old : Byte) {nib : ℕ} (h : nib < 16) :
    (putNibble k old nib).toNat / 16 ^ (k % 2) % 16 = nib ∧
      (putNibble k old nib).toNat / 16 ^ ((k + 1) % 2) % 16 = old.toNat / 16 ^ ((k + 1) % 2) % 16 := by
  have hold := old.isLt
  rcases Nat.mod_two_eq_zero_or_one k with hk | hk
  · have hk' : (k + 1) % 2 = 1 := by omega
    simp only [putNibble, hk, hk', BitVec.toNat_ofNat]
    norm_num
    omega
  · have hk' : (k + 1) % 2 = 0 := by omega
    simp only [putNibble, hk, hk', BitVec.toNat_ofNat]
    norm_num
    omega

/-- The last byte that a list of writes gives an offset. -/
def lastWrite (acc : List (ℕ × Byte)) (a : ℕ) : Option (ℕ × Byte) := (acc.filter fun p => p.1 = a).getLast?

@[simp] theorem lastWrite_append_same (acc : List (ℕ × Byte)) (a : ℕ) (b : Byte) :
    lastWrite (acc ++ [(a, b)]) a = some (a, b) := by
  simp [lastWrite]

theorem lastWrite_append_other {acc : List (ℕ × Byte)} {a a' : ℕ} (b : Byte) (h : a' ≠ a) :
    lastWrite (acc ++ [(a', b)]) a = lastWrite acc a := by
  simp [lastWrite, h]

theorem lastWrite_none {acc : List (ℕ × Byte)} {a : ℕ} (h : a ∉ acc.map (·.1)) : lastWrite acc a = none := by
  rw [lastWrite, List.getLast?_eq_none_iff, List.filter_eq_nil_iff]
  intro p hp
  have : p.1 ≠ a := fun e => h (e ▸ List.mem_map_of_mem hp)
  simpa using this

/-- One lane's nibble, over what the lanes before it have written, else over what the byte holds. -/
def nibStep (adr nib : ℕ → ℕ) (base : ℕ → Byte) (acc : List (ℕ × Byte)) (k : ℕ) : List (ℕ × Byte) :=
  acc ++ [(adr k, putNibble k (((lastWrite acc (adr k)).map (·.2)).getD (base (adr k))) (nib k))]

/-- A lane of a VST into an INT4 bank is such a step. -/
theorem vstLane_int4 (c : Ctx) (lsid : ℕ) (ty : ETy) (l : Word) (idx data : Token) :
    c.vstLane lsid 10 .unit ty l idx data =
      nibStep (nibByte .unit l) (fun k => fmtWrite 10 (etyRead ty (lane ty data.vec k))) (c.byte false lsid) := by
  funext acc k
  rfl

section
variable {adr nib : ℕ → ℕ} {base : ℕ → Byte}

/-- The offsets written, in order. -/
theorem nibStep_offsets : ∀ (ks : List ℕ) (acc : List (ℕ × Byte)),
    (ks.foldl (nibStep adr nib base) acc).map (·.1) = acc.map (·.1) ++ ks.map adr
  | [], acc => by simp
  | k :: ks, acc => by
    rw [List.foldl_cons, nibStep_offsets ks]
    simp [nibStep]

/-- The lane that shares a byte with lane `k`. -/
theorem partner_cases {j k : ℕ} (h : j / 2 = k / 2) : j = k ∨ j = k ^^^ 1 := by
  have hdiv : (k ^^^ 1) / 2 = k / 2 := by simp [Nat.xor_div_two]
  have hmod : (k ^^^ 1) % 2 = (k + 1) % 2 := Nat.xor_mod_two_eq
  omega

/-- After lanes in ascending order, two of which share a byte exactly where they differ in their last bit: the last write
to a lane's byte has the lane's nibble, and the other nibble as it was where its lane was not written. -/
theorem nibStep_last {ks : List ℕ} (hs : ks.Pairwise (· < ·)) (hadr : ∀ j ∈ ks, ∀ k ∈ ks, adr j = adr k ↔ j / 2 = k / 2)
    (hnib : ∀ k, nib k < 16) : ∀ k ∈ ks, ∃ b : Byte,
      lastWrite (ks.foldl (nibStep adr nib base) []) (adr k) = some (adr k, b) ∧
      b.toNat / 16 ^ (k % 2) % 16 = nib k ∧
      (k ^^^ 1 ∉ ks → b.toNat / 16 ^ ((k + 1) % 2) % 16 = (base (adr k)).toNat / 16 ^ ((k + 1) % 2) % 16) := by
  induction ks using List.reverseRecOn with
  | nil => simp
  | append_singleton ks m ih =>
    obtain ⟨hks, -, hlt⟩ := List.pairwise_append.1 hs
    have ih := ih hks fun j hj k hk => hadr j (List.mem_append_left _ hj) k (List.mem_append_left _ hk)
    have hm : m ∈ ks ++ [m] := by simp
    have hmod : (m ^^^ 1) % 2 = (m + 1) % 2 := Nat.xor_mod_two_eq
    intro k hk
    rw [List.foldl_append, List.foldl_cons, List.foldl_nil, nibStep]
    by_cases hshare : k / 2 = m / 2
    · rw [(hadr k hk m hm).2 hshare]
      refine ⟨_, lastWrite_append_same _ _ _, ?_⟩
      obtain ⟨hown, hother⟩ := putNibble_nibbles m
        (((lastWrite (ks.foldl (nibStep adr nib base) []) (adr m)).map (·.2)).getD (base (adr m))) (hnib m)
      rcases partner_cases hshare with rfl | rfl
      · refine ⟨hown, fun halone => ?_⟩
        have hfirst : adr k ∉ (ks.foldl (nibStep adr nib base) []).map (·.1) := by
          rw [nibStep_offsets]
          intro hmem
          obtain ⟨j, hj, he⟩ : ∃ j ∈ ks, adr j = adr k := by simpa using hmem
          rcases partner_cases ((hadr j (List.mem_append_left _ hj) k hm).1 he) with rfl | rfl
          · exact absurd (hlt j hj j (by simp)) (lt_irrefl j)
          · exact halone (List.mem_append_left _ hj)
        rw [hother, lastWrite_none hfirst]
        rfl
      · have hpartner : m ^^^ 1 ∈ ks := by
          refine (List.mem_append.1 hk).resolve_right fun h => ?_
          simp at h
        obtain ⟨b, hb, hbn, -⟩ := ih _ hpartner
        have hsame : adr (m ^^^ 1) = adr m := (hadr _ hk m hm).2 hshare
        refine ⟨?_, fun halone => by simp at halone⟩
        rw [hmod] at hbn ⊢
        rw [hother, ← hsame, hb]
        exact hbn
    · have hkm : k ∈ ks := by
        refine (List.mem_append.1 hk).resolve_right fun h => hshare ?_
        rw [List.mem_singleton.1 h]
      obtain ⟨b, hb, hown, hother⟩ := ih k hkm
      have hne : adr m ≠ adr k := fun e => hshare ((hadr k hk m hm).1 e.symm)
      exact ⟨b, (lastWrite_append_other _ hne).trans hb, hown,
        fun halone => hother fun h => halone (List.mem_append_left _ h)⟩

end

/-! ### The lanes of a VST into an INT4 bank -/

/-- An INT4 element fills at most a nibble. -/
theorem fmtWrite_int4_lt (x : Num) : fmtWrite 10 x < 16 := by
  have h : ∀ i : ℤ, intBits 4 i < 16 := by intro i; unfold intBits; omega
  exact h _

theorem lanes_le (ty : ETy) : ty.lanes ≤ 64 := by cases ty <;> decide

/-- Lanes of a unit access share a byte where they differ in their last bit. -/
theorem nibByte_unit_inj {l : Word} {j k : ℕ} (hj : j < 64) (hk : k < 64) :
    nibByte .unit l j = nibByte .unit l k ↔ j / 2 = k / 2 := by
  have hl := l.isLt
  simp only [nibByte, if_true, BitVec.toNat_add, BitVec.toNat_ofNat]
  omega

theorem partLanes_sorted (c : Ctx) (ty : ETy) : (partLanes c ty).Pairwise (· < ·) := by
  rw [partLanes, upFrom_eq_range']
  exact (List.pairwise_lt_range' 1).filter _

/-- The bytes of which a unit access keeps a nibble. -/
theorem keptBytes_int4 (c : Ctx) (ty : ETy) : keptBytes c ty .unit 10 =
    ((partLanes c ty).filter fun k => k ^^^ 1 ∉ partLanes c ty).map (nibByte .unit (c.word 0)) := by
  rw [keptBytes, if_pos rfl]
  simp only [List.contains_eq_mem, ← decide_not]
  rfl

/-- Settles O32: the checks, then the lanes one after the other. -/
theorem vectorMemorySlots : Obligations.VectorMemorySlots := by
  refine ⟨?_, ?_, ?_, ?_, ?_, ?_, ?_, ?_⟩
  · intro s c pm lsid ty mode t1 f h l idx ks hc hf n adr bytes hclean
    obtain rfl := selected_state h
    exact vld_loads h hc (Ctx.vldAll_ok fun k hk hp =>
      vldLane_plain hf (vRange_plain hf) (Ctx.badByte_none (hclean k (List.mem_filter.2 ⟨hk, hp⟩))))
  · intro s c pm lsid ty mode t1 f h l idx ks hc hf n adr k hk b h1 h2 hb hfirst hlow
    obtain rfl := selected_state h
    have hbad : c.badByte false lsid.toNat (upFrom (adr k) n) = some b := Ctx.badByte_some h1 h2 hb hfirst
    have hgood (j : ℕ) (hj : j ∈ ks) (hjk : j < k) : c.badByte false lsid.toNat (upFrom (adr j) n) = none :=
      Ctx.badByte_none (hlow j hj hjk)
    by_cases h10 : f = 10
    · subst h10
      have hm := vCheck_nibble hc (.inr rfl) (List.ne_nil_of_mem hk)
      exact vld_lowest_fault _ h hc hk
        (fun j hj hjk => vldLane_int4 hm (hlow j hj hjk _ (le_refl _) (Nat.lt_succ_self _)))
        (vldLane_bad (by decide) (vRange_nibble (.inr rfl) hm) hbad)
    · have h8 : f ≤ 8 := by omega
      have hr (j : ℕ) : vRange f mode ty l idx j = (adr j, n) := by
        simp only [vRange_plain h8, adr, n, h10, ne_eq, not_false_eq_true, if_true, if_false]
      exact vld_lowest_fault _ h hc hk (fun j hj hjk => vldLane_plain h8 (hr j) (hgood j hj hjk))
        (vldLane_bad (by omega) (hr k) hbad)
  · intro s c pm lsid ty mode f h l idx ks hc hf n val
    have hf10 : f ≠ 10 := by omega
    have hk : keptBytes c ty mode f = [] := if_neg hf10
    have hst := vst_stores h hc (by rw [hk]; rfl)
    rw [hk, foldl_vstLane_plain hf10] at hst
    simp only [vRange_plain hf, place, leBytes_length] at hst
    exact hst
  · intro s c pm lsid ty mode t1 h hm l ks hc adr nib hclean
    obtain rfl := selected_state h
    have hreads : (ks.map fun k => (adr k, c.byte false lsid.toNat (adr k))) =
        ks.flatMap fun k => [(adr k, c.byte false lsid.toNat (adr k))] := List.map_eq_flatMap
    rw [hreads]
    exact vld_loads h hc (Ctx.vldAll_ok fun k hk hp => vldLane_int4 hm (hclean k (List.mem_filter.2 ⟨hk, hp⟩)))
  · intro s c pm lsid ty mode t1 h hm l ks hc adr bank code at_ num nib b sup strict good
    obtain rfl := selected_state h
    refine ⟨fun hgood => ?_, fun k hk hlow o ho => ?_, fun k hk hlow hclean hs => ⟨fun hb => ?_, fun hb hsup => ?_⟩⟩
    · exact vld_loads h hc (Ctx.vldAll_ok fun k hk hp => vldLane_code_good hm (hgood k (List.mem_filter.2 ⟨hk, hp⟩)))
    · exact vld_lowest_fault _ h hc hk (fun j hj hjk => vldLane_code_good hm (hlow j hj hjk)) (vldLane_q4n_bad hm ho)
    · exact vld_lowest_fault _ h hc hk (fun j hj hjk => vldLane_code_good hm (hlow j hj hjk))
        (vldLane_bad_scale hm hclean hs hb)
    · exact vld_lowest_fault _ h hc hk (fun j hj hjk => vldLane_code_good hm (hlow j hj hjk))
        (vldLane_bad_super hm hclean hs hb hsup)
  · intro s c pm lsid ty h l idx ks hc adr hclean
    obtain rfl := selected_state h
    have hk : c.badByte false lsid.toNat (keptBytes c ty .unit 10) = none := by
      rw [keptBytes_int4, Ctx.badByte, List.find?_eq_none, List.forall_mem_map]
      intro k hk
      have hgood : c.badAt false lsid.toNat (nibByte .unit (c.word 0) k) = false := hclean k (List.mem_of_mem_filter hk)
      simp [hgood]
    have hst := vst_stores h hc hk
    rw [keptBytes_int4, List.map_map, vstLane_int4] at hst
    have hadr (j : ℕ) (hj : j ∈ ks) (k : ℕ) (hk : k ∈ ks) : nibByte .unit l j = nibByte .unit l k ↔ j / 2 = k / 2 :=
      nibByte_unit_inj ((mem_partLanes.1 hj).1.trans_le (lanes_le ty)) ((mem_partLanes.1 hk).1.trans_le (lanes_le ty))
    exact ⟨_, hst, nibStep_offsets ks [], nibStep_last (partLanes_sorted c ty) hadr fun _ => fmtWrite_int4_lt _⟩
  · intro s c pm lsid ty mode t1 e h hc
    obtain rfl := selected_state h
    exact vld_check_fault h hc
  · intro s c pm lsid ty mode e h hc
    obtain rfl := selected_state h
    exact vst_check_fault h hc

end Sys2Proof.Machine.Numbers
end

section
/-! PROOF. Elementwise arithmetic of vector lanes (R197, R199, R200, R313). -/
namespace Sys2Proof.Machine.Numbers
open Sys2Proof.Machine.Meetings

/-! ### The meanings of the slots -/

section
variable (pm : Pm) (ty : ETy) (t1 t2 : Tgt) (s : State)

theorem exec_vadd : exec (.vadd pm ty t1 t2) s = execVadd pm ty t1 t2 s := by rfl
theorem exec_vsub : exec (.vsub pm ty t1 t2) s = execVsub pm ty t1 t2 s := by rfl
theorem exec_vmul : exec (.vmul pm ty t1 t2) s = execVmul pm ty t1 t2 s := by rfl
theorem exec_vfma : exec (.vfma pm ty t1 t2) s = execVfma pm ty t1 t2 s := by rfl
theorem exec_vmin : exec (.vmin pm ty t1 t2) s = execVmin pm ty t1 t2 s := by rfl
theorem exec_vmax : exec (.vmax pm ty t1 t2) s = execVmax pm ty t1 t2 s := by rfl

end

/-! ### The lanes -/

section
variable {c : Ctx} {ty : ETy} {n k : ℕ} {round : Bool} {vs ops : List Token} {f : List Num → Num}
  {g : (ℕ → Num) → Num}

/-- The value of operand `j` in a lane: not a number past the last operand. -/
theorem laneNums_getD (j : ℕ) : (ops.map fun t => laneNum ty (lane ty t.vec k)).getD j .nan =
    if j < ops.length then laneNum ty (lane ty (ops.getD j .null).vec k) else .nan := by
  by_cases hj : j < ops.length <;> simp [hj]

/-- The one rounding, clamping or wrapping of a lane result, after the fourth operand. -/
theorem finish_eq_laneResult (e : Num) : c.finish ty k (c.fourth ty.isInt) e = c.laneResult ty k e := by
  rfl

/-- The lanes of an elementwise result, where `f` of the list of a lane's values is `g` of the values by number: VMIN
and VMAX do not round. -/
theorem elementwise_lanewise (hf : ∀ l, f l = g fun j => l.getD j .nan) (hv : c.vecs ty = .ok vs) :
    c.elementwise ty n round f = .ok (c.send (c.lanewise ty (vs.take n) fun k v =>
      if round then c.laneResult ty k (g v) else laneBits ty (g v))) := by
  refine (ok_bind hv).trans ?_
  simp only [hf, laneNums_getD, finish_eq_laneResult]
  rfl

/-- An elementwise instruction sends those lanes. -/
theorem elementwise_sends {s : State} {i : Instr} {F : Ctx → List Num → Num} (h : Selected s i c)
    (hq : fragQuiet c = true) (hv : c.vecs ty = .ok vs) (hF : ∀ l, F (Ctx.cleared c s) l = g fun j => l.getD j .nan) :
    fireSlot s i fragQuiet (fun c => c.elementwise ty n round (F c)) =
      let t := c.lanewise ty (vs.take n) fun k v => if round then c.laneResult ty k (g v) else laneBits ty (g v)
      .next (s.sends c t t) := by
  obtain rfl := selected_state h
  exact fireSlot_ok h hq (elementwise_lanewise (c := Ctx.cleared c c.s) hF hv)

end

/-- Settles O29: each instruction's function of the list of lane values is the statement's function of their numbers. -/
theorem vectorArithmeticSlots : Obligations.VectorArithmeticSlots := by
  refine ⟨fun s c pm ty t1 t2 vs h hq hv => ?_, fun s c pm ty t1 t2 vs h hq hv => ?_,
    fun s c pm ty t1 t2 vs h hq hv => ?_, fun s c pm ty t1 t2 vs h hq hv => ?_,
    fun s c pm ty t1 t2 vs h hq hv => ?_, fun s c pm ty t1 t2 vs h hq hv => ?_⟩
  · rw [exec_vadd]
    exact elementwise_sends (g := fun v => .add c.rnd (v 0) (v 1)) h hq hv fun _ => rfl
  · rw [exec_vsub]
    exact elementwise_sends (g := fun v => .add c.rnd (v 0) (v 1).neg) h hq hv fun _ => rfl
  · rw [exec_vmul]
    exact elementwise_sends (g := fun v => (v 0).mul (v 1)) h hq hv fun _ => rfl
  · rw [exec_vfma]
    exact elementwise_sends (g := fun v => .add c.rnd ((v 0).mul (v 1)) (v 2)) h hq hv fun _ => rfl
  · rw [exec_vmin]
    exact elementwise_sends (g := fun v => (v 0).min (v 1)) h hq hv fun _ => rfl
  · rw [exec_vmax]
    exact elementwise_sends (g := fun v => (v 0).max (v 1)) h hq hv fun _ => rfl

end Sys2Proof.Machine.Numbers
end

section
/-! PROOF. Accumulator fragments and the faults of vector operands (R184, R199, R201, R202, R362). -/
namespace Sys2Proof.Machine.Numbers
open Sys2Proof.Machine.Meetings

/-! ### The meanings of the slots -/

section
variable (pm : Pm) (ty : ETy) (cond : VCond) (fn : VLog) (kind : ShKind) (var : Bool) (amount : BitVec 6) (t1 : Tgt)
  (s : State)

theorem exec_vcmp : exec (.vcmp pm ty cond t1) s = execVcmp pm ty cond t1 s := by rfl
theorem exec_vlogic : exec (.vlogic pm ty fn t1) s = execVlogic pm ty fn t1 s := by rfl
theorem exec_vshift : exec (.vshift pm ty kind var amount t1) s = execVshift pm ty kind var amount t1 s := by rfl

end

/-! ### The lanes of a fragment -/

section
variable {c : Ctx} {g : Gang} {p : Pfx} {ty : ETy}

/-- A quadrant holds no part of a tile where its mode fuses it along K and it is one of the upper two (R179). -/
theorem kqOf_eq_one {mode : Fuse} {q : ℕ} : kqOf mode q = 1 ↔ (mode = .kfuse ∨ mode = .full) ∧ 2 ≤ q ∧ q < 4 := by
  cases mode <;> simp [kqOf] <;> omega

/-- The member's own part of the tile that a fragment names. -/
def fragTile (c : Ctx) (g : Gang) (p : Pfx) : Tile :=
  (g.tiles.getD (memberOf c.x / 4) []).getD p.tile.toNat ⟨.none, false, []⟩

/-- Whether a fragment is all zeros: no part of the tile, a released tile or an untyped one. -/
def FragZero (c : Ctx) (g : Gang) (p : Pfx) : Prop :=
  ((g.mode = .kfuse ∨ g.mode = .full) ∧ 2 ≤ memberOf c.x / 4 ∧ memberOf c.x / 4 < 4) ∨
    (fragTile c g p).live = false ∨ (fragTile c g p).ty = .none

/-- Whether an element type fits the tile. -/
def FragFits (c : Ctx) (g : Gang) (p : Pfx) (ty : ETy) : Prop :=
  (ty = .f32 ∧ (FragZero c g p ∨ (fragTile c g p).ty = .fp32)) ∨
    ((ty = .i32 ∨ ty = .n32) ∧ (FragZero c g p ∨ (fragTile c g p).ty = .int32))

/-- Element `k` of the row and columns that a fragment names. -/
def fragElem (c : Ctx) (g : Gang) (p : Pfx) (k : ℕ) : ℕ :=
  ((assocGet (64 * (p.frag.toNat / 4) + 16 * (p.frag.toNat % 4) + k) (fragTile c g p).elems).getD 0).toNat

/-- The test of the model for a fragment of zeros. -/
theorem fragZero_iff : FragZero c g p ↔
    (kqOf g.mode (memberOf c.x / 4) == 1 || !(fragTile c g p).live || (fragTile c g p).ty == .none) = true := by
  simp [FragZero, ← kqOf_eq_one, or_assoc]

open Classical in
/-- What the model reads for a fragment: nothing where the type does not fit, else zeros or the packed elements. -/
theorem fragment_eq (hg : c.s.gangOf c.x = some g) : c.fragment p ty =
    if FragFits c g p ty then some (if FragZero c g p then 0 else
      BitVec.ofNat 512 (packLanes 32 ((upFrom 0 16).map (fragElem c g p)))) else none := by
  by_cases hz : FragZero c g p
  · have hb := fragZero_iff.1 hz
    unfold fragTile at hb
    simp only [Ctx.fragment, hg, hb]
    cases ty <;> simp [FragFits, hz]
  · have hb := Bool.eq_false_iff.2 (hz ∘ fragZero_iff.2)
    unfold fragTile at hb
    simp only [Ctx.fragment, hg, hb]
    cases ty <;> simp [FragFits, hz, fragTile] <;> rfl

/-- Every lane of zeros is 0. -/
theorem lane_zero (k : ℕ) : lane ty 0 k = 0 := by
  have hv : (0 : Vec).toNat = 0 := BitVec.toNat_zero
  simp only [lane, hv, Nat.zero_div, Nat.zero_mod]

/-- A word holds a number that fits it. -/
theorem toNat_ofNat_of_lt {w n : ℕ} (h : n < 2 ^ w) : (BitVec.ofNat w n).toNat = n := by
  rw [BitVec.toNat_ofNat, Nat.mod_eq_of_lt h]

/-- Lane `k` of a packed list of words. -/
theorem lane_packLanes {f : ℕ → ℕ} (hf : ∀ k, f k < 2 ^ 32) {k : ℕ} (hk : k < 16) :
    lane .n32 (BitVec.ofNat 512 (packLanes 32 ((upFrom 0 16).map f))) k = f k := by
  have hd : packLanes 32 ((upFrom 0 16).map f) = Nat.ofDigits (2 ^ 32) ((upFrom 0 16).map f) := by
    have hmod (k : ℕ) : f k % 2 ^ 32 = f k := Nat.mod_eq_of_lt (hf k)
    simp only [packLanes, Nat.ofDigits_eq_foldr, List.foldr_map, hmod, Nat.cast_id]
  have hlt := Nat.ofDigits_lt_base_pow_length (Nat.one_lt_two_pow (n := 32) (by decide))
    (List.forall_mem_map.2 fun k (_ : k ∈ upFrom 0 16) => hf k)
  rw [List.length_map, upFrom_length, ← hd, ← pow_mul, show 32 * 16 = 512 from rfl] at hlt
  rw [lane, toNat_ofNat_of_lt hlt, hd, pow_mul]
  exact ofDigits_digit (Nat.two_pow_pos 32) hf hk

theorem fragElem_lt (k : ℕ) : fragElem c g p k < 2 ^ 32 := BitVec.isLt _

/-- An element type that does not fit reads no fragment. -/
theorem fragment_none (hg : c.s.gangOf c.x = some g) (hf : ¬ FragFits c g p ty) : c.fragment p ty = none := by
  rw [fragment_eq hg, if_neg hf]

/-- One that fits reads the elements, or zeros. -/
theorem fragment_zero (hg : c.s.gangOf c.x = some g) (hf : FragFits c g p ty) (hz : FragZero c g p) :
    c.fragment p ty = some 0 := by
  rw [fragment_eq hg, if_pos hf, if_pos hz]

theorem fragment_packed (hg : c.s.gangOf c.x = some g) (hf : FragFits c g p ty) (hz : ¬ FragZero c g p) :
    c.fragment p ty = some (BitVec.ofNat 512 (packLanes 32 ((upFrom 0 16).map (fragElem c g p)))) := by
  rw [fragment_eq hg, if_pos hf, if_neg hz]

end

/-! ### The operands -/

section
variable {c : Ctx} {g : Gang} {p : Pfx} {ty : ETy} (hp : c.pfx = some p) (ha : p.acc = true)
  (hg : c.s.gangOf c.x = some g) (hm : c.maskOk = .ok ())
include hp ha hm

/-- A bad element of the fragment comes first (R362). -/
theorem vecs_badFragment {row col : ℕ} (hb : c.badFragment p = some (row, col)) :
    c.vecs ty = .error (fltA .dataError (4 * (64 * row + col))) := by
  simp only [Ctx.vecs, hm, hp, ha, hb, if_true]
  rfl

include hg

/-- A failed command that would have written the tile comes next (R184). -/
theorem vecs_failedOn {m : MCmd} (hb : c.badFragment p = none)
    (hc : g.failedOn (fun n => n == p.tile.toNat) = some m) : c.vecs ty = .error (m.report (memberOf c.x)) := by
  simp only [Ctx.vecs, hm, hp, ha, hb, hg, Option.bind_some, hc, if_true]
  rfl

/-- A tile that the type does not fit raises shape. -/
theorem vecs_misfit (hb : c.badFragment p = none) (hc : g.failedOn (fun n => n == p.tile.toNat) = none)
    (hf : c.fragment p ty = none) : c.vecs ty = .error (flt .shape) := by
  simp only [Ctx.vecs, hm, hp, ha, hb, hg, Option.bind_some, hc, hf, if_true]
  rfl

/-- The fragment stands before the tokens. -/
theorem vecs_fragment {v : Vec} (hb : c.badFragment p = none) (hc : g.failedOn (fun n => n == p.tile.toNat) = none)
    (hf : c.fragment p ty = some v) : c.vecs ty = .ok (.vector v 0 :: c.toks) := by
  simp only [Ctx.vecs, hm, hp, ha, hb, hg, Option.bind_some, hc, hf, if_true]
  rfl

end

/-! ### A mask register with a detected error -/

section
variable {s : State} {c : Ctx} {p : Pfx} {e : Flt}

/-- It is a data error at the register's offset (R362). -/
theorem maskOk_bad (hp : c.pfx = some p) (hm : p.mask ≠ 0)
    (hb : c.x.bad.contains (.register c.x.id .m p.mask.toNat) = true) :
    c.maskOk = .error ⟨.dataError, BitVec.ofNat 64 (8 * p.mask.toNat), 0⟩ := by
  simp only [Ctx.maskOk, hp, beq_iff_eq, hm, if_false]
  exact regOk_bad hb

variable (hm : c.maskOk = .error e)
include hm

/-- An instruction that only tests its mask register raises the fault of the test. -/
theorem maskOk_map_error (f : Unit → FOut) : c.maskOk.map f = .error e := by
  rw [hm]; rfl

/-- So does one with vector operands, whatever they are. -/
theorem vecs_mask_error (ty : ETy) : c.vecs ty = .error e := by
  rw [Ctx.vecs, hm]; rfl

/-- The checks of VLD and VST begin with it. -/
theorem vCheck_mask_error (store : Bool) (ty : ETy) (mode : VMode) (l : Word) (idx : Token) (ks : List ℕ) :
    c.vCheck store ty mode l idx ks = .error e := error_bind hm

end

/-- The fault of the operands is that of an instruction that takes them first. -/
theorem vecs_fault {s : State} {c : Ctx} {i : Instr} {ty : ETy} {e : Flt} {rest : Ctx → List Token → Except Flt FOut}
    (h : Selected s i c) (hq : fragQuiet c = true) (hv : c.vecs ty = .error e) :
    fireSlot s i fragQuiet (fun c => c.vecs ty >>= rest c) = .next (s.slotFault c e) := by
  obtain rfl := selected_state h
  exact fireSlot_error h hq (error_bind hv)

/-- Settles O35: the fragment, then the mask register, then the fault of the operands in each instruction. -/
theorem fragmentOperand : Obligations.FragmentOperand := by
  refine ⟨fun c p ty g hp ha hg hm => ⟨fun row col hb => ?_, fun m hb hc => ?_, fun hb hc => ?_⟩,
    fun s c p hp hm hb => ?_, fun s c e hq => ?_⟩
  · exact vecs_badFragment hp ha hm hb
  · exact vecs_failedOn hp ha hg hm hb hc
  · intro q t upper zero fits
    refine ⟨fun hf => vecs_misfit hp ha hg hm hb hc (fragment_none hg hf), fun hf => ?_⟩
    by_cases hz : FragZero c g p
    · refine ⟨0, vecs_fragment hp ha hg hm hb hc (fragment_zero hg hf hz), fun k _ => ?_⟩
      exact (lane_zero k).trans (if_pos hz).symm
    · refine ⟨_, vecs_fragment hp ha hg hm hb hc (fragment_packed hg hf hz), fun k hk => ?_⟩
      exact (lane_packLanes fragElem_lt hk).trans (if_neg hz).symm
  · have hbad := maskOk_bad hp hm hb
    refine ⟨fun pm ty fn t1 h => ?_, fun pm ty kind var amount t1 h => ?_, fun pm ty fn sh t1 h => ?_,
      fun pm ty fn t1 h => ?_, fun ty => vecs_mask_error hbad ty, fun pm lsid ty mode t1 h => ?_,
      fun pm lsid ty mode h => ?_⟩
    · rw [exec_vlogic]
      exact fireSlot_error (cond := always) h rfl (maskOk_map_error hbad _)
    · rw [exec_vshift]
      exact fireSlot_error (cond := always) h rfl (maskOk_map_error hbad _)
    · rw [exec_vperm]
      exact fireSlot_error (cond := always) h rfl (error_bind hbad)
    · rw [exec_vspec]
      exact fireSlot_error (cond := always) h rfl (maskOk_map_error hbad _)
    · exact vld_check_fault h (vCheck_mask_error (c := Ctx.cleared c s) hbad ..)
    · exact vst_check_fault h (vCheck_mask_error (c := Ctx.cleared c s) hbad ..)
  · exact ⟨fun _ _ _ _ hv h => (exec_vadd ..).trans (vecs_fault h hq hv),
      fun _ _ _ _ hv h => (exec_vsub ..).trans (vecs_fault h hq hv),
      fun _ _ _ _ hv h => (exec_vmul ..).trans (vecs_fault h hq hv),
      fun _ _ _ _ hv h => (exec_vfma ..).trans (vecs_fault h hq hv),
      fun _ _ _ _ hv h => (exec_vmin ..).trans (vecs_fault h hq hv),
      fun _ _ _ _ hv h => (exec_vmax ..).trans (vecs_fault h hq hv),
      fun _ _ _ _ hv h => (exec_vcmp ..).trans (vecs_fault h hq hv),
      fun _ _ _ _ hv h => (exec_vred ..).trans (vecs_fault h hq hv),
      fun _ _ _ _ _ hv h => (exec_vcvt ..).trans (vecs_fault h hq hv)⟩

end Sys2Proof.Machine.Numbers
end
